-- ==== Sys2Proof/Word.lean ====
section
/-! DEFINITION. The word types of the model: bytes, 16-, 32- and 64-bit words as the manual's field maps use them. -/
namespace Sys2Proof

/-- One byte of a packet, an image or a memory. -/
abbrev Byte := BitVec 8
/-- A 16-bit field. -/
abbrev Half := BitVec 16
/-- A 32-bit register word or field; an FP32 value is held as its 32 bits. -/
abbrev Word := BitVec 32
/-- A 64-bit register or field. -/
abbrev DWord := BitVec 64

end Sys2Proof
end

