-- ==== Sys2Proof/Syntax.lean ====
section
/-! DEFINITION. The commands of the block: one constructor of `Instr` for each row of spec/opcode_table.json, with its
operands, and the packets, frames and messages that the operands hold. -/
namespace Sys2Proof

/-- A channel of the device, or a core within a channel. -/
abbrev Ch := Fin 4

/-- A key of chapter 14, as the term it is derived from (R438). Two keys are the same key when their terms are equal:
cryptography is symbolic (log 3). `ss1`, `ss2` and `ssM` number shared secrets. `Key.bytes` gives the 256 bits of R438. -/
inductive Key where
  /-- 32 zero bytes, the `KT_cur` before the first table install. -/
  | zeros
  /-- K_0 of a session. -/
  | session (deviceId : DWord) (ss1 tenant serial : Nat)
  /-- K_g of a session. -/
  | sessionNext (deviceId : DWord) (ss1 ss2 : Nat) (cur : Key) (tenant gen serial : Nat)
  /-- KT_g of table `x` of channel `m`. -/
  | table (deviceId : DWord) (ss1 ss2 : Nat) (cur : Key) (m x gen serial : Nat)
  /-- KM of a maintenance session. -/
  | maint (deviceId : DWord) (ssM m serial : Nat)
  deriving DecidableEq, Repr

/-- An ML-KEM-1024 ciphertext: the encapsulation key it was made to, and the secret it carries (log 3). -/
structure Kem where
  toEk : Nat
  secret : Nat
  deriving DecidableEq, Repr

/-- The AES-256-GCM seal of a packet (R433): the key and the 12-byte nonce it was made with, and whether header, payload and tag are
intact (log 3). -/
structure Seal where
  key : Key
  nonce : List Byte
  intact : Bool
  deriving DecidableEq, Repr

/-- A packet on the UCIe stream (R73, R74): the header fields as they stand, the reserved bytes 48 to 63 after the tag, the plain
payload, its padding up to the next 64-byte boundary, and the seal. `wait` is the time in ns from its first flit's arrival at the
adapter (R391) to the end of its authentication. -/
structure Packet where
  opcode : Byte
  flags : Byte
  version : Byte
  rsvd3 : Byte
  route : Word
  length : Word
  seq : Word
  captime : DWord
  frametag : Word
  rsvd28 : Word
  rsvd48 : List Byte
  payload : List Byte
  pad : List Byte
  sealed : Seal
  wait : Nat
  deriving DecidableEq, Repr

/-- A tail page as the host encrypted it (R268): key and nonce fields, whether it is intact, and its 65,536 plain bytes. -/
structure SealedPage where
  key : Key
  table : Nat
  folio : Nat
  gen : Nat
  page : Nat
  serial : Nat
  intact : Bool
  plain : List Byte
  deriving DecidableEq, Repr

/-- A frame of EtherType 88B5h on a peer port (R410), after the MAC. -/
structure PeerFrame where
  fcsOk : Bool
  etherOk : Bool
  dstAddr : BitVec 48
  srcAddr : BitVec 48
  ptype : Byte
  pflags : Byte
  srcPos : Byte
  dstPos : Byte
  epoch : Word
  ring : Byte
  window : Byte
  len : Half
  block : Word
  offset : Word
  fseq : Half
  nstatus : Byte
  ttl : Byte
  kSrc : DWord
  data : List Byte
  deriving DecidableEq, Repr

/-- A PTP frame (R396, R397). Times are ns of the sender's scale; `correction` is in units of 2^−16 ns; `twoStep` is the twoStepFlag, and
`rest` every byte, in the frame's order, that no other field here reads: the rest of the header and the rest of the body. -/
structure PtpFrame where
  wellFormed : Bool
  domain : Nat
  majorSdoId : Nat
  messageType : Nat
  source : BitVec 80
  seqId : Nat
  correction : Int
  origin : Nat
  requester : BitVec 80
  twoStep : Bool
  rest : List Byte
  deriving DecidableEq, Repr

/-- A peer port. -/
inductive Port where
  | east | west
  deriving DecidableEq, Repr

/-- A storage kind of the ECC codes (R245). -/
inductive Storage where
  | inkwell | blotter | reservoir | hbm
  deriving DecidableEq, Repr

/-- A bit error met by a stroke: storage, core (R245), granule index, whether it is correctable, and whether a Reservoir's error
lies in the tag of the granule's line and not in its data (R244). -/
structure EccObs where
  storage : Storage
  core : Ch
  granule : Nat
  correctable : Bool
  tag : Bool
  deriving DecidableEq, Repr

/-- A transaction of a faulty unit that a firewall blocks (R382): the unit, as bits 0 to 8 of MRG_FENCE (9 = Scribe,
10 = Margin), the target address it carries in place of the one the stroke asks for, and how many transactions of the stroke
the unit has made before it. -/
structure FwObs where
  unit : Nat
  addr : Nat
  after : Nat
  deriving DecidableEq, Repr

/-- What physical faults a stroke meets while it runs. -/
structure StrokeObs where
  ecc : List EccObs
  fw : List FwObs
  deriving DecidableEq, Repr

/-- The envelope of a signed management command (R450): its counter, whether the Falcon-1024 signature verifies under the
carried key, and that authority public key. -/
structure Signed where
  counter : Nat
  sigOk : Bool
  authority : List Byte
  deriving DecidableEq, Repr

/-- Which path a register write takes (R492). -/
inductive Path where
  | host (ch : Ch)
  | mgmt
  deriving DecidableEq, Repr

/-- One constructor per row of spec/opcode_table.json. `t` is the time in ns since the command before it (log 2). In a KEYROTATE
install, `wrong` numbers the secret that decapsulation yields where the ciphertext was made to another key (R439). -/
inductive Instr where
  | porstRelease (t : Nat) (testMode : Bool)
  | porst (t : Nat)
  | uncoreUp (t : Nat) (ch : Ch)
  | headerRead (t : Nat) (ch : Ch)
  | signetReady (t : Nat)
  | imageVerify (t : Nat) (sigOk : Bool)
  | hbmTrained (t : Nat) (ch : Ch) (ok : Bool)
  | loadClear (t : Nat) (ch : Ch)
  | sectionMatch (t : Nat) (ch : Ch)
  | loadCheck (t : Nat) (ch : Ch)
  | preloadCopy (t : Nat) (ch : Ch)
  | tickBoundary (t : Nat) (ch : Ch)
  | syncEdge (t : Nat) (ch : Ch) (lowNs highNs : Nat)
  | syncMissing (t : Nat) (ch : Ch)
  | tickLost (t : Nat) (ch : Ch)
  | heartbeatMissing (t : Nat) (ch : Ch)
  | pointRaise (t : Nat) (ch : Ch)
  | pointChangeDone (t : Nat) (ch : Ch)
  | spanPowerUp (t : Nat) (ch : Ch)
  | spanClearDone (t : Nat) (ch core : Ch) (span : Fin 12)
  | spanPowerDown (t : Nat) (ch core : Ch) (span : Fin 12)
  | pdTimeout (t : Nat) (ch core : Ch) (span : Fin 12)
  | exemplarStart (t : Nat) (ch core : Ch)
  | exemplarLatest (t : Nat) (ch : Ch)
  | exemplarDone (t : Nat) (ch core : Ch) (faults : List Word) (crcFault : Word)
  | strokeIssue (t : Nat) (ch : Ch) (idx : Nat) (obs : StrokeObs)
  | strokeComplete (t : Nat) (ch : Ch) (idx : Nat)
  | sweep (t : Nat) (p : Packet)
  | image (t : Nat) (p : Packet)
  | telem (t : Nat) (p : Packet)
  | calib (t : Nat) (p : Packet)
  | memwrite (t : Nat) (p : Packet)
  | tailpage (t : Nat) (p : Packet) (page : SealedPage)
  | regread (t : Nat) (p : Packet)
  | regreadDeferred (t : Nat) (ch : Ch)
  | regwrite (t : Nat) (p : Packet)
  | registerWrite (t : Nat) (path : Path) (addr : Word) (value : Word)
  | latentClear (t : Nat) (ch : Ch)
  | fenceReq (t : Nat) (ch : Ch) (mask : BitVec 9)
  | pwrDevCap (t : Nat) (deciwatts : Nat)
  | publish (t : Nat) (p : Packet)
  | keyrotateSessionInstall (t : Nat) (p : Packet) (ct : Kem) (wrong : Nat)
  | keyrotateSessionRetire (t : Nat) (p : Packet)
  | keyrotateTableInstall (t : Nat) (p : Packet) (ct : Kem) (wrong : Nat)
  | keyrotateTableRetire (t : Nat) (p : Packet)
  | nvmwrite (t : Nat) (p : Packet) (badPages : List Nat) (eraseFails : Bool)
  | membership (t : Nat) (p : Packet)
  | heartbeat (t : Nat) (p : Packet)
  | malformed (t : Nat) (p : Packet)
  | ringContextFetch (t : Nat) (ch : Ch) (ring : Nat)
  | hairpin (t : Nat) (src : Ch)
  | hostWriteApply (t : Nat) (ch : Ch) (id : Nat)
  | outboundSend (t : Nat)
  | errorHandle (t : Nat) (ch : Ch)
  | tailTimeout (t : Nat) (ch : Ch) (reqId : Nat)
  | getCert (t : Nat) (part : Nat)
  | getReport (t : Nat) (tenant : Nat) (nonce : List Byte)
  | getCounter (t : Nat)
  | readReg (t : Nat) (sg : Signed) (addr : Word) (count : Nat)
  | writeReg (t : Nat) (sg : Signed) (addr : Word) (words : List Word)
  | setPowerCap (t : Nat) (sg : Signed) (deciwatts : Nat)
  | resetChannel (t : Nat) (sg : Signed) (ch : Nat)
  | readErrors (t : Nat) (sg : Signed)
  | enterMaint (t : Nat) (sg : Signed) (ch : Nat) (tenant : Nat) (ekM : Nat)
  | leaveMaint (t : Nat) (sg : Signed) (ch : Nat)
  | renewSession (t : Nat) (sg : Signed) (tenant : Nat)
  | provisionOwner (t : Nat) (sg : Signed) (slot : Nat) (digest : List Byte)
  | revokeOwner (t : Nat) (sg : Signed) (slot : Nat)
  | linkDown (t : Nat)
  | linkRestore (t : Nat)
  | linkDegraded (t : Nat)
  | vaux (t : Nat) (mv : Nat)
  | marginClkLost (t : Nat)
  | vinCore (t : Nat) (mv : Nat)
  | voltage (t : Nat) (ch : Ch) (regulator : Fin 5) (mv : Nat)
  | temperature (t : Nat) (ch : Ch) (sensor : Fin 9) (tenths : Int)
  | deviceTemp (t : Nat) (ch : Ch) (sensor : Fin 9) (tenths : Int)
  | clock (t : Nat) (ch : Ch) (measured : Fin 11) (deviation : Int)
  | rail (t : Nat) (rail : Fin 7) (mv : Nat)
  | pinFault (t : Nat) (ch : Ch) (pin : Fin 4)
  | marginFault (t : Nat) (ch : Ch)
  | scribeFault (t : Nat) (ch : Ch)
  | parity (t : Nat) (ch : Ch) (storage : Fin 3) (entry : Nat)
  | pinWatchdog (t : Nat) (ch : Ch)
  | scrub (t : Nat) (ch : Ch) (granule : Nat) (correctable : Bool)
  | powerMeasure (t : Nat) (p0 p1 p2 p3 device : Nat)
  | counterLatch (t : Nat)
  | treq (t : Nat) (ch : Ch)
  | trsp (t : Nat) (ch : Ch) (seq : Nat) (t2 : DWord) (retried : Bool)
  | tfol (t : Nat) (ch : Ch) (seq : Nat) (t3 : DWord) (retried : Bool)
  | tmaster (t : Nat) (ch : Ch) (valid : Bool) (master : DWord)
  | slewEnd (t : Nat) (ch : Ch)
  | timeHoldover (t : Nat) (ch : Ch)
  | ptpSyncSend (t : Nat) (ch : Ch)
  | ptpSyncReceive (t : Nat) (ch : Ch) (port : Port) (f : PtpFrame)
  | delayReq (t : Nat) (ch : Ch) (port : Port) (f : PtpFrame)
  | delayResp (t : Nat) (ch : Ch) (port : Port) (f : PtpFrame)
  | ptpOther (t : Nat) (ch : Ch) (port : Port) (f : PtpFrame)
  | peerLink (t : Nat) (ch : Ch) (port : Port) (up : Bool)
  | data (t : Nat) (ch : Ch) (port : Port) (f : PeerFrame)
  | nack (t : Nat) (ch : Ch) (port : Port) (f : PeerFrame)
  | frameLand (t : Nat) (ch : Ch) (port : Port)
  | epochGrace (t : Nat) (ch : Ch)
  | portEgress (t : Nat) (ch : Ch) (port : Port)
  | peerSend (t : Nat) (ch : Ch)
  | peerOpen (t : Nat) (ch : Ch)
  | peerClose (t : Nat) (ch : Ch)
  | hostWriteLanded (t : Nat) (ch : Ch) (id : Nat)
  | fusesRead (t : Nat)
  | voltageRestore (t : Nat) (ch : Ch) (regulator : Fin 6)
  | temperatureRestore (t : Nat) (ch : Ch) (sensor : Fin 9)
  | doubleRefresh (t : Nat) (above : Bool)
  deriving DecidableEq, Repr

end Sys2Proof
end

