-- ==== Sys2Proof/Config.lean ====
section
/-! DEFINITION. What an implementation fixes or the manual leaves open: free values with no body (nothing can evaluate
them), and uninterpreted readings of the records whose byte layout the manual does not give (log 10). -/
namespace Sys2Proof

/-- Part of a ruling on one core: its Inkwell allocation and its HBM spill area (R137). -/
structure RulingPart where
  core : Nat
  inkBase : Nat
  inkLen : Nat
  spillBase : Nat
  spillLen : Nat
  deriving DecidableEq, Repr, Inhabited

/-- A ruling record (R134, R137): type 0 submanifold or 1 strided, its set S, the kernel of type 0, and its parts. -/
structure RulingRec where
  rtype : Nat
  set : Nat
  kx : Nat
  ky : Nat
  kz : Nat
  parts : List RulingPart
  deriving DecidableEq, Repr, Inhabited

/-- A camera record (R143, R145): image size, the D heights in FP32 metres, and the HBM base of the two table copies. -/
structure CameraRec where
  width : Nat
  height : Nat
  heights : List Word
  copy0 : Nat
  copy1 : Nat
  deriving DecidableEq, Repr, Inhabited

/-- The arguments of a nib kernel of R110 whose layout the manual does not give: what is reduced or sorted, from where,
to where. `space` 0 is HBM, 1 Inkwell of core `core`. For a map that COLUMN_POOL fills: `layout` 16 or 32 channels to a block
(R182), the bytes of a row, and the first row and the rows of the stripe on each core that CORES names (R203, R204). -/
structure NibArgs where
  core : Nat
  space : Nat
  items : Nat
  segs : Nat
  count : Nat
  nsegs : Nat
  op : Nat
  digit : Nat
  dst : Nat
  dstSpace : Nat
  layout : Nat
  rowStride : Nat
  stripes : List (Nat × Nat)
  deriving DecidableEq, Repr, Inhabited

namespace Config

/-- A free natural number for each count of the free-value counter (log 7). -/
opaque freeNat : Nat → Nat
/-- A free 32-bit word for each count of the free-value counter (log 7). -/
opaque freeWord : Nat → BitVec 32
/-- The bytes of a PTP message of a type that the channel itself sends which the manual does not give: the header and the body but for the
fields of `PtpFrame` (R396; log 19). -/
opaque ptpRest : Nat → List (BitVec 8)
/-- Byte `i` of what the Signet makes or was made with, by kind and number: 0 the certificate chain, 1 ROM_VERSION, 2 ek_D,
3 C1, 4 a signature (log 3). -/
opaque signetByte : Nat → Nat → Nat → BitVec 8
/-- Length of the certificate chain in bytes (log 3). -/
opaque certLen : Nat
/-- The Signet ROM's bytes, which the device measurement covers (R447; log 3). -/
opaque signetRom : List (BitVec 8)
/-- Byte `i` of the ML-KEM shared secret numbered `s` (log 3). -/
opaque secretByte : Nat → Nat → BitVec 8
/-- The byte that a read of a poisoned granule or of a span that is off returns: by the free-value counter, the memory
(0 to 3 the Inkwells, 4 HBM) and the address (R242, R245). -/
opaque poisonByte : Nat → Nat → Nat → BitVec 8
/-- Where in a DUCTUS section's bytes PREDOFF (0), RANGEOFF (1) and PARMOFF (2) count from (log 10). -/
opaque ductusBase : List Byte → Nat → Nat
/-- The ruling records that bytes of the FRONT section hold (log 10). -/
opaque rulingRecords : List Byte → List RulingRec
/-- The camera records that bytes of the FRONT section hold (log 10). -/
opaque cameraRecords : List Byte → List CameraRec
/-- The exemplar's parameter blocks, in order, that so many blocks' bytes hold: whether a block is an ARRAY's (otherwise a VECTOR's), and
its bytes (R470; log 15). -/
opaque exemplarBlocks : Nat → List Byte → List (Bool × List Byte)
/-- The arguments that a nib kernel's bytes after its header hold (log 10). -/
opaque nibArgs : List Byte → NibArgs
/-- The five address bytes derived from the fused identity for a port of a channel (R410). -/
opaque portAddress : DWord → Nat → Nat → BitVec 40

/-- Voltage of an uncore regulator in mV (R372; log 15). -/
opaque uncoreMv : Nat
/-- Whether a signed quotient num/den that is no integer reads rounded up in a register or a record (log 18). -/
opaque roundUp : Int → Nat → Bool
/-- MS_COUNT's reading when the latched FP32 word is no count from 0 to 2^24 − 1 (log 18). -/
opaque badCount : BitVec 32 → BitVec 24
/-- Which of its cores' Reservoirs a nib stroke's access to a line goes through, by a free number of the stroke and the line
(R226; log 14). -/
opaque lineOwner : Nat → Nat → Nat
/-- AGE of a newest point that was captured after T(k): no value is stated (R129; log 13). -/
opaque earlyAge : Int → Nat
/-- A view-table coordinate that 16 bits do not hold (R143; log 13). -/
opaque viewCoord : BitVec 32 → Nat
/-- q of an output element that is a NaN (R365; log 13). -/
opaque quantNaN : BitVec 32 → BitVec 32
/-- The lane order of the vector unit's pairwise tree (R178; log 10). -/
opaque laneOrder : Nat → Nat
/-- Zero point and channel count of a dequantise entry, from its 32 bytes (R177; log 10). -/
opaque dequantArgs : List Byte → Word × Nat

end Config

/-- The bytes that AES-256-GCM makes of a page under `key` and the 96-bit `nonce` (R268): 0 to 15 the tag, from 16 on the page (log 3). -/
opaque Config.pageByte (key : Key) (nonce plain : List Byte) (i : Nat) : Byte
/-- The bytes that AES-256-GCM makes of a packet's payload under `key`, the 96-bit `nonce` and the associated data `aad` (R433): 0 to
15 the tag, from 16 on the payload (log 3). -/
opaque Config.sealByte (key nonce aad plain : List Byte) (i : Nat) : Byte
/-- Detail word `which` of an ERROR record whose code gives it no meaning (R103; log 12). -/
opaque Config.blankDetail (code : Byte) (which : Nat) : Word

end Sys2Proof
end

