-- ==== Sys2Proof/Machine/State.lean ====
section
/-! DEFINITION. The state of the block: everything the manual gives the device, as plain data, and its reset.
`State` is the hardware (`Hw`) and the queue of waiting commands. Field docstrings cite the rule that names the field. -/
namespace Sys2Proof.Machine

/-! ### Memories -/

/-- A memory: cells by strictly rising address, none equal to what an unlisted address reads as. -/
abbrev Cells := List Host.Cell

/-- State of an Inkwell span (R240 to R243): on, waiting for its last writes since an instant of real time, kept on for the rest of
the frame after PD_TIMEOUT, off, or powered up and clearing. -/
inductive Span where
  | on | draining (since : Nat) | kept | off | clearing
  deriving DecidableEq, Repr

/-- A Blotter line (R217): granule number, and (offset, byte) for each valid byte, offsets rising. -/
structure BlotterLine where
  granule : Nat
  bytes : List Host.Cell
  deriving DecidableEq, Repr

/-- A Reservoir line (R223): line number (address / 128), way, tensor tag, next-use hint, age, and valid and dirty bits of its
sectors; `bad0` and `bad1` are sectors whose data in the Reservoir are poisoned (R245). -/
structure RsvLine where
  line : Nat
  way : Nat
  tag : Nat
  hint : Option Nat
  age : Nat
  v0 : Bool
  v1 : Bool
  d0 : Bool
  d1 : Bool
  bad0 : Bool
  bad1 : Bool
  deriving DecidableEq, Repr

/-- What a granule held before a write of a stroke in flight (R63): Inkwell of core 0 to 3, or HBM (4); and the unit that
wrote (bits of MRG_FENCE). -/
structure Undo where
  mem : Nat
  unit : Nat
  granule : Nat
  old : List Byte
  bad : Bool
  deriving DecidableEq, Repr
/-- The entry of the execution count E, which a clearing has advanced from `e` with writes of unit `u` (R121): memory 5, no bytes. -/
def Undo.exec (e u : Nat) : Undo := { mem := 5, unit := u, granule := e, old := [], bad := false }

/-- One core's memories: Inkwell cells, poisoned granules, span states; Blotter lines, oldest first; Reservoir lines and request counter (R225). -/
structure CoreMem where
  ink : Cells
  poison : List Nat
  spans : List Span
  blotter : List BlotterLine
  rsv : List RsvLine
  rsvReq : Nat
  deriving DecidableEq, Repr

/-! ### Names of states, counters and sticky bits -/

/-- R102, R460. -/
inductive ChState where
  | off | boot | load | refused | ready | run | margin | stopped | maint | fenced
  deriving DecidableEq, Repr

/-- R103. -/
inductive Severity where
  | note | degraded | doubt | channelStop | deviceStop
  deriving DecidableEq, Repr

/-- The counters of a channel window (R502), by register. -/
inductive Ctr where
  | ductMiss | frontMisses | pointDrops | inputDrops | outOfGrid | noReturn
  | arrSat | arrNonfinite | arrSkipped | convPairDrops
  | inkLate | pdTimeouts | memCuts | memHolds | rsvHits | rsvMisses | rsvWritebacks
  | ceInk | ceRsv | ceHbm | ueInk | ueBlt | ueRsv | ueHbm
  | mapUnique | mapTailMisses | mapTailFetches | mapTailRefused | mapTrainRows | mapTrainSkipped | mapMigrations
  | mapDeltaLost | mapReencrypted
  | selClamps | selTies | selSuppressed
  | envMain | envMargin | telemDiscards
  | proofEvents | fwBlocks | fenceHits | errDropped
  | peerTx | peerRx | peerFwd | peerRefused | peerNackRecv | peerDrops | peerRxBad
  | pwrOver | outDrops | ctxMisses
  | perfStrokes | perfArrayCyc | perfNibCyc | perfHbmRd | perfHbmWr | perfHostIn | perfHostOut | perfPeerTx
  deriving DecidableEq, Repr

/-- The W1C bits of a channel window, by register and field (R9). -/
inductive Sticky where
  | missed | arrSat | arrNonfinite | convStream | convSweep
  | lateWrite | pdTimeout | offRead | regionCut | holdFull
  | ceInk | ceBlt | ceRsv | ceHbm | ueInk | ueBlt | ueRsv | ueHbm
  | tailMiss | tailRefused | tailTimeout | tailFull | trainLimit | stageDiscard | deltaLost
  | selClamp | selTie | selRange
  | msBad | model | tjOver | thermalReset
  | sumNote | sumDegraded | sumDoubt | sumChannelStop | sumDeviceStop
  | stepRefused | masterChanged | holdoverSeen
  | peerLate | peerNacked | nvmFail
  deriving DecidableEq, Repr

/-! ### Error records and outbound packets -/

/-- An error record (R103). A detail word for which the manual gives no meaning is `none` (log 12). -/
structure ErrRec where
  severity : Severity
  code : Byte
  channel : Option Ch
  initiator : Nat
  detail0 : Option Word
  detail1 : Option Word
  k : Nat
  time : DWord
  dropped : Nat
  deriving DecidableEq, Repr

/-- Where a queued record stands (R375): not yet handled, handled but in no packet, or in a queued packet. -/
inductive Carry where
  | waiting | unsent | carried
  deriving DecidableEq, Repr

structure ErrEntry where
  record : ErrRec
  carry : Carry
  id : Nat
  deriving DecidableEq, Repr

/-- The envelope record (R340). -/
structure EnvRec where
  k : Nat
  inputTag : Word
  fromMargin : Bool
  channel : Ch
  stop : Bool
  kin : Bool
  therm : Bool
  healthOld : Bool
  tjOver : Bool
  motors : Nat
  doubts : Word
  vFwd : Half
  vRev : Half
  aLim : Half
  dFwd : Half
  dRev : Half
  coverFirst : Nat
  coverLast : Nat
  torque : List Half
  derate : List Half
  healthMin : Half
  healthSwitch : Byte
  lifeMin : Byte
  tjMax : Half
  tjSwitch : Byte
  capMin : Half
  esrMax : Half
  deriving DecidableEq, Repr

/-- A RESULT (R104): RSTATE and the sections present, with detections and health entries as their bytes. -/
structure ResultRec where
  k : Nat
  rstate : Nat
  detections : Option (List (List Byte))
  free : Option (List Half)
  health : Option (List (List Byte))
  deriving DecidableEq, Repr

/-- An exported row (R282). -/
structure DeltaEntry where
  row : Nat
  slot : Nat
  slices : List Byte
  deriving DecidableEq, Repr

/-- The payload of an outbound packet (R92). -/
inductive OutBody where
  | envelope (e : EnvRec)
  | result (r : ResultRec)
  | tailfetch (reqId table folio page : Nat)
  | regdata (tag addr : Word) (count rstatus : Nat) (words : List Word)
  | error (recs : List ErrRec) (ids : List Nat)
  | status (skind : Nat) (state : ChState) (reason : Byte) (tag : Word) (k : Nat)
  | delta0 (table folio serial k first total : Nat) (entries : List DeltaEntry)
  | delta1 (table folio gen serial k page : Nat) (key : Key) (plain : List Byte)
  deriving DecidableEq, Repr

/-- A packet in a channel's outbound queue: its ring, FRAMETAG, the time it reports (R76: none = time of sending), EOM. -/
structure OutPkt where
  body : OutBody
  ring : Nat
  frametag : Word
  reports : Option DWord
  eom : Bool
  deriving DecidableEq, Repr

/-- The data of a management response (R451). -/
inductive MgmtData where
  | none
  | bytes (b : List Byte)
  | words (w : List Word)
  | counter (n : Nat)
  | records (r : List ErrRec)
  | maint (cM : Kem) (session : Nat)
  deriving DecidableEq, Repr

/-- The model's record of one thing that left the device: of a packet its parts, the key that sealed it, its payload's bytes before
sealing, and `wire`, the bytes on the stream (R73, R74, R433). -/
inductive Emission where
  | packet (ch : Ch) (seq : Word) (gen session : Nat) (captime : DWord) (pkt : OutPkt) (payload : List Byte) (key : Key) (wire : List Byte)
  | mgmt (command status : Nat) (data : MgmtData)
  | sideband (ch : Ch) (code seq : Nat)
  | peer (ch : Ch) (port : Port) (f : PeerFrame)
  | ptp (ch : Ch) (port : Port) (f : PtpFrame)
  deriving DecidableEq, Repr

/-! ### The image (chapters 02 to 15): every field is IM -/

/-- A region record (R222). -/
structure Region where
  base : Nat
  len : Nat
  tag : Nat
  cache : Bool
  hostw : Bool
  input : Bool
  peerw : Bool
  tenant : Nat
  rsvdOk : Bool
  deriving DecidableEq, Repr

/-- An Inkwell allocation record (R213). -/
structure Alloc where
  base : Nat
  len : Nat
  core : Nat
  keep : Bool
  preload : Bool
  exemplar : Bool
  section_ : Nat
  soffset : Nat
  rsvdOk : Bool
  deriving DecidableEq, Repr

/-- A declared range (R39). -/
structure Range where
  space : Nat
  access : Nat
  core : Nat
  len : Nat
  base : Nat
  deriving DecidableEq, Repr

/-- A stroke descriptor (R36) with its predecessor list, ranges, parameter block and power-down word (R240). -/
structure Stroke where
  index : Nat
  kind : Nat
  pdpoint : Bool
  cores : Nat
  nrange : Nat
  npred : Nat
  preds : List Nat
  ranges : List Range
  budget : List (Nat × Nat)
  parm : List Byte
  pdword : Nat
  deriving DecidableEq, Repr

/-- A bracket record (R52). -/
structure Bracket where
  pointsMax : Nat
  cellsMax : Nat
  point : Nat
  tailCyc : Nat
  tailFix : Nat
  deriving DecidableEq, Repr

/-- The DUCTUS section (R52). -/
structure Ductus where
  nstrokes : Nat
  nbrackets : Nat
  decide : Nat
  exCyc : Nat
  exLatest : Nat
  brackets : List Bracket
  strokes : List Stroke
  lenOk : Bool
  deriving DecidableEq, Repr

/-- A coordinate-set record (R132). -/
structure SetRec where
  parent : Nat
  sx : Nat
  sy : Nat
  sz : Nat
  kx : Nat
  ky : Nat
  kz : Nat
  cap : Nat
  keylist : Nat
  deriving DecidableEq, Repr

/-- The FRONT section (R113, R132, R137, R143). -/
structure Front where
  edgeX : Nat
  edgeY : Nat
  edgeZ : Nat
  originX : Int
  originY : Int
  originZ : Int
  extX : Nat
  extY : Nat
  extZ : Nat
  nf : Nat
  missRatio : Nat
  celltab : Nat
  context : Nat
  pointmap : Nat
  features : Nat
  feat : List Byte
  bevW : Nat
  bevH : Nat
  bevBX : Nat
  bevBY : Nat
  bevX0 : Int
  bevY0 : Int
  sets : List SetRec
  rulings : List RulingRec
  cameras : List CameraRec
  deriving DecidableEq, Repr

/-- A level record (R248). -/
structure Level where
  edge : Word
  log2 : Nat
  deriving DecidableEq, Repr

/-- A site-map table record (R248). -/
structure MapTable where
  nlevels : Nat
  train : Nat
  tenant : Nat
  skew : Nat
  region : Nat
  work : Nat
  lrows : Nat
  updMax : Nat
  migMax : Nat
  refreshN : Nat
  lr : Word
  beta1 : Word
  beta2 : Word
  eps : Word
  levels : List Level
  deriving DecidableEq, Repr

/-- The SITEMAP section (R247). -/
structure SiteMap where
  tailcache : Nat
  tailSlots : Nat
  tailRing : Nat
  deltaRing : Nat
  tailTimeout : Nat
  ntables : Nat
  tables : List MapTable
  rsvdOk : Bool
  deriving DecidableEq, Repr

structure Motor where
  rWheel : Word
  gear : Word
  share : Word
  tqMax : Word
  deriving DecidableEq, Repr

structure SwitchRec where
  inverter : Nat
  cls : Nat
  motor : Nat
  enabled : Bool
  deriving DecidableEq, Repr

/-- A horizon row of a thermal class (R331). -/
structure ThermRow where
  a : List Word
  b : Word
  e : Word
  deriving DecidableEq, Repr

/-- A thermal class record (R331). -/
structure ThermClass where
  stages : Nat
  hsteps : Nat
  horizon : Word
  tjLimit : Word
  tjTrip : Word
  rjc : Word
  eRef : Word
  iRef : Word
  vRef : Word
  ntcMargin : Word
  phi : List Word
  gamma : List Word
  eta : List Word
  rows : List ThermRow
  deriving DecidableEq, Repr

/-- The SCRIBE section (R311 to R313, R331). `motion` holds the 14 values of R312 in order. -/
structure ScribeCfg where
  envRing : Nat
  resultRing : Nat
  kin : Bool
  therm : Bool
  health : Bool
  motors : Nat
  msHold : Nat
  telemHold : Nat
  coverFirst : Nat
  coverLast : Nat
  inverters : Nat
  motion : List Word
  classR : List Nat
  classV : List Nat
  motor : List Motor
  switches : List SwitchRec
  classes : List ThermClass
  rsvdOk : Bool
  deriving DecidableEq, Repr

/-- The SAFETY section (R353). `vals` holds the 25 FP32 values in order; `poses` 16 lists of seven. -/
structure SafetyCfg where
  rangeMode : Bool
  powerMode : Bool
  scanners : Nat
  proofK : Nat
  proofH : Nat
  proofE : Nat
  proofW : Nat
  seed : Word
  testPoints : Nat
  testRows : Nat
  testSamples : Nat
  vals : List Word
  tqM : List Nat
  poses : List (List Word)
  rsvdOk : Bool
  deriving DecidableEq, Repr

/-- The TIME section (R406). -/
structure TimeCfg where
  ring : Bool
  peer : Bool
  master : Bool
  upWest : Bool
  domain : Nat
  lossN : Nat
  intervalUs : Nat
  tcMs : Nat
  stepMax : Nat
  delayMax : Nat
  rsvdOk : Bool
  deriving DecidableEq, Repr

/-- A window record (R415). -/
structure Window where
  region : Nat
  openAtRun : Bool
  maxLag : Nat
  writers : Byte
  expect : Byte
  deriving DecidableEq, Repr

/-- The PEER section (R415). -/
structure PeerCfg where
  ports : BitVec 4
  windows : Nat
  graceUs : Nat
  wins : List Window
  rsvdOk : Bool
  deriving DecidableEq, Repr

/-- The EXEMPLAR section (R470): its header, parameter blocks, input and FP32 references, with the CRC formed at load (R365), and
whether the header's fields lie in their ranges. -/
structure ExemplarCfg where
  nblocks : Nat
  outFmt : Nat
  elements : Nat
  outOffset : Nat
  blocks : List Byte
  input : List Byte
  refs : List Word
  crc : Word
  hdrOk : Bool
  deriving DecidableEq, Repr

/-- A section entry (R469). -/
structure SectEntry where
  type : Nat
  offset : Nat
  len : Nat
  dest : Nat
  digest : List Byte
  rsvdOk : Bool
  deriving DecidableEq, Repr

/-- The image as loaded. A part is at its zero value until its section's digest matches (R474, R498). -/
structure Image where
  tenant : Option Nat
  tickSrc : Nat
  tickN : Nat
  tickTol : Nat
  periodNs : Nat
  phaseNs : Nat
  hbTimeoutUs : Nat
  chCap : Nat
  version : Word
  regions : List Region
  regionsOk : Bool
  allocs : List Alloc
  allocsOk : Bool
  ringsOk : Bool
  ductus : Option Ductus
  front : Option Front
  sitemap : Option SiteMap
  scribe : Option ScribeCfg
  safety : Option SafetyCfg
  time : Option TimeCfg
  peer : Option PeerCfg
  exemplar : Option ExemplarCfg
  dataDest : List (Nat × Nat × Nat)
  chanRsvdOk : Bool
  deriving DecidableEq, Repr

/-! ### Rings and packets in the dispatcher -/

/-- The last completed and the running message of a ring that Margin reads (R359), and the blanking state (R368, R370). -/
structure MsgState where
  openTag : Option Word
  openCrc : Word
  openCap : Nat
  openSweep : Nat
  lastCrc : Option Word
  lastSweep : Option Nat
  lastCap : Option Nat
  deriving DecidableEq, Repr

/-- Blanking check of a ring's open message in the consuming strokes (R368 to R370). -/
structure BlankState where
  active : Bool
  firstTag : Word
  lfsr : Word
  count : Nat
  rows : Nat
  failed : Bool
  deriving DecidableEq, Repr

/-- A ring descriptor (R77) with the device's fields, the stamps of R500, the values latched at the last boundary (R503),
the messages completed in the open frame (R88), the last EOM tag (R340), and the message state. -/
structure Ring where
  num : Nat
  enabled : Bool
  out : Bool
  safety : Bool
  bidir : Bool
  tenant : Nat
  cls : Nat
  opmask : Word
  region : Nat
  expect : Nat
  source : Nat
  hairpinTo : Nat
  hairpin : Bool
  maxAge : Nat
  nextSeq : Word
  genUsed : Nat
  accepted : Nat
  discarded : Nat
  gaps : Nat
  outSeq : Word
  stampA : DWord
  stampB : DWord
  latAccepted : Nat
  latDiscarded : Nat
  latGaps : Nat
  msgsOpen : Nat
  tagOpen : Option Word
  tagClosed : Option Word
  nonceRaised : Bool
  msg : MsgState
  blank : BlankState
  deriving DecidableEq, Repr

/-- A run of records of one packet in an INPUT region half, in the order accepted (R115, R329). -/
structure Segment where
  ring : Nat
  kind : Nat
  offset : Nat
  count : Nat
  source : Nat
  sweepId : Nat
  captime : Int
  frametag : Word
  eom : Bool
  rows : Nat
  blankRows : Nat
  width : Nat
  format : Nat
  length : Nat
  deriving DecidableEq, Repr

/-- What ingest wrote into one half of an INPUT region (R90, R223). -/
structure InHalf where
  region : Nat
  half : Nat
  bytes : Nat
  segs : List Segment
  deriving DecidableEq, Repr

/-- A host-side write (R237): from a ring (MEMWRITE or hairpin), or a remote write of a peer port, which has the number 65,536
more than the port's and, beside its data, the landing record at `also` (R417); the frame it belongs to (R238), the granules of it
that a hairpin transfer read poisoned (R245), whether it is applying, and whether a conflicting stroke has held it (CH_MEM_HOLDS). -/
structure HostWrite where
  id : Nat
  ring : Nat
  frame : Nat
  addr : Nat
  bytes : List Byte
  also : Option Nat
  bad : List Nat
  applying : Bool
  held : Bool
  deriving DecidableEq, Repr

/-- A packet at the dispatcher with the real time at which its first flit crossed the adapter (R391) and its symbolic parts: a tail
page, an install's ciphertext with what decapsulation yields of a wrong one, and what an update of the xSPI memory meets. Packets wait here for a ring context or
behind a held write of their ring (R79, R237); `missed`, once one has been counted as waiting for a descriptor fetch (R501). -/
structure Waiting where
  pkt : Packet
  crossed : Nat
  missed : Bool
  page : Option SealedPage
  kem : Option (Kem × Nat)
  badPages : List Nat
  eraseFails : Bool
  deriving DecidableEq, Repr

/-- A hairpin packet handed to the dispatcher (R232): source ring, target ring, address and data, and which of its granules,
counted from `addr`, were poisoned where they were read (R245). `stroke` is its XFER stroke while that is in flight, `unit` the engine that hands it over
(R63, R383). -/
structure HairPkt where
  stroke : Option Nat
  unit : Nat
  srcRing : Nat
  target : Nat
  addr : Nat
  bytes : List Byte
  bad : List Nat
  deriving DecidableEq, Repr

/-! ### Time -/

/-- From the real time `since` on, local time ran from `sub` and `rem` at the rate `rNum` over `den` (R399, R400). -/
structure TbMark where
  since : Nat
  sub : Nat
  rem : Nat
  rNum : Int
  den : Nat
  deriving DecidableEq, Repr

/-- The timebase (R388): `sub` is local time in units of 2^−16 ns; `rem` the remainder of the rate correction below that unit.
`past` holds its starts, steps and rate changes, the newest first: what a stamp of an earlier crossing is taken from (R391). -/
structure Timebase where
  running : Bool
  sub : Nat
  rem : Nat
  past : List TbMark
  deriving DecidableEq, Repr

/-- R405, TIME_STATUS.STATE. -/
inductive TimeState where
  | unlocked | locked | holdover | refusing
  deriving DecidableEq, Repr

/-- The servo and the exchange (R394 to R404). `iNum` and `rNum` are i and r in ppb over the denominator
131,072,000·TC_MS²; offset and delay are in units of 2^−17 ns, `syncOrigin` in 2^−16 ns; `slewUntil` and `last…` are real time.
`tmaster` and `masterValid` are the last TMASTER since the channel left OFF; `firstMaster`: no exchange of the first master is kept
yet (R395, R401). -/
structure TimeSrv where
  state : TimeState
  everLocked : Bool
  iNum : Int
  rNum : Int
  slewUntil : Option Nat
  slewRaised : Bool
  master : Option (BitVec 80)
  tmaster : Option DWord
  masterValid : Bool
  newMaster : Bool
  firstMaster : Bool
  seq : Nat
  t1 : Option Nat
  t2 : Option Int
  t4 : Option Nat
  lastKept : Option Nat
  lastSend : Option Nat
  lastSync : Option Nat
  offset17 : Int
  delay17 : Int
  refusals : Nat
  refusedSince : Nat
  syncOrigin : Option Int
  syncLocal : Option Nat
  reqSent : Option Nat
  ptpSeq : Nat
  reqSeq : Nat
  seen : List (BitVec 80 × Nat × Nat × Nat)
  deriving DecidableEq, Repr

/-! ### The tick and the Ductus -/

structure Tick where
  ticking : Bool
  k : Nat
  tkNow : Nat
  tkLoc : Nat
  nextDue : Nat
  edges : Nat
  early : Nat
  deriving DecidableEq, Repr

inductive ExState where
  | idle | running | done
  deriving DecidableEq, Repr

/-- An in-flight stroke with its scoreboard entries (R43), issued `since` ns after T(k). `undo` is what its writes replaced, newest first, and `keep` says how
many of them have landed should it stop before it completes (R63; log 8). -/
structure Flight where
  idx : Nat
  cores : Nat
  ranges : List Range
  since : Nat
  undo : List Undo
  keep : Nat
  deriving DecidableEq, Repr

/-- Progress of the frame in progress (R34, R41, R49, R56, R58, R341). -/
structure Duct where
  done : List Nat
  flight : List Flight
  exem : List ExState
  exHold : Bool
  decided : Bool
  bracket : Nat
  point : Nat
  blankDone : List Nat
  changing : Option (Nat × Nat)
  raised : Bool
  commitDone : Bool
  main : Option EnvRec
  result : Option ResultRec
  verdict : Option Bool
  exFailLast : List Bool
  exFailNow : List Bool
  deriving DecidableEq, Repr

/-! ### Front end -/

/-- A point passed on by VOXELISE (R115): arrival index, key, sweep slot, capture time, and its record's fields. -/
structure VoxPt where
  arrival : Nat
  key : Nat
  slot : Nat
  sweepId : Nat
  captime : Int
  ux : Word
  uy : Word
  uz : Word
  intensity : Nat
  beam : Nat
  deriving DecidableEq, Repr

/-- A placed point's cell and record, kept between the kernels of a frame. -/
structure Placed where
  pt : VoxPt
  cell : Nat
  deriving DecidableEq, Repr

/-- Calibration of one camera (R92 CALIB, R144). -/
structure CamCal where
  intr : List Word
  extr : List Word
  gen : Nat
  active : Nat
  genActive : Nat
  genOther : Nat
  deriving DecidableEq, Repr

structure FrontSt where
  exec : Nat
  insDone : Bool
  wPoints : Nat
  wCells : Nat
  wSweeps : Nat
  wMisses : Nat
  vox : List VoxPt
  placed : List Placed
  keys : List (List Nat)
  points : Nat
  cells : Nat
  sweeps : Nat
  status : BitVec 8
  working : BitVec 8
  cams : List CamCal
  deriving DecidableEq, Repr

/-- Staged and latched calibration (R66, R117, R315): scanner poses, and the machine state's 15 values. -/
structure Calib where
  poses : List (Nat × List Word)
  posesNext : List (Nat × List Word)
  camNext : List (Nat × Nat × List Word)
  ms : Option (List Word)
  msNext : Option (List Word)
  msValid : Option (List Word)
  msSame : Nat
  deriving DecidableEq, Repr

/-! ### Site map -/

/-- A published folio (R99, R252). -/
structure Folio where
  slot : Nat
  code : Nat
  rows : Nat
  base : Nat
  indir : Nat
  serial : Nat
  deriving DecidableEq, Repr

/-- A migration as it is selected (R280); staged, it is 16 bytes of WORK (R275). -/
structure MigEntry where
  src : Nat
  dst : Nat
  row : Nat
  deriving DecidableEq, Repr

/-- What a staging area records (R275): the frame and folio slot that staged it, whether a refresh staged it (R279), and how many training
and migration entries it holds; the entries are bytes of WORK (log 10). -/
structure Stage where
  frame : Option Nat
  folio : Nat
  refresh : Bool
  train : Nat
  mig : Nat
  deriving DecidableEq, Repr

/-- A running export (R281 to R283): the frame whose COMMIT applied it, folio and serial, the entries' total, and the index of the
first entry not yet in a packet; the entries are those of the staging area. -/
structure Export where
  k : Nat
  folio : Nat
  serial : Nat
  total : Nat
  first : Nat
  deriving DecidableEq, Repr

/-- A staged table-key change (R269). -/
inductive KeyChange where
  | install (gen : Nat) (key : Key)
  | retire
  deriving DecidableEq, Repr

/-- Per-table state of the site map (R252 to R283). -/
structure TableSt where
  current : Option Folio
  pending : List Folio
  lastPublish : Option Nat
  serial : Nat
  keyCur : Option (Nat × Key)
  keyPrev : Option (Nat × Key)
  keyPrevGen : Nat
  keyStaged : List KeyChange
  skewSeen : Nat
  lastRefresh : Option Nat
  stage0 : Stage
  stage1 : Stage
  rangeRaised : Bool
  exports : List Export
  deriving DecidableEq, Repr

/-- An occupied slot of the tail cache (R265): table, folio, page, and whether it is mapped yet. What look-ups read is the table's page
directory, bytes of WORK. -/
structure TailSlot where
  slot : Nat
  table : Nat
  folio : Nat
  page : Nat
  mapped : Bool
  deriving DecidableEq, Repr

/-- A TAILFETCH (R266), raised in frame `frame`. -/
structure TailReq where
  id : Nat
  frame : Nat
  table : Nat
  folio : Nat
  page : Nat
  since : Nat
  deriving DecidableEq, Repr

structure MapSt where
  tables : List TableSt
  slots : List TailSlot
  reqs : List TailReq
  nextReq : Nat
  trainLimitRaised : Bool
  unsentFetch : List TailReq
  lostSaid : List (Nat × Nat)
  deriving DecidableEq, Repr

/-! ### Scribe and Margin -/

/-- Thermal state of a switch (R333): node values and the frame whose COMMIT last advanced them. -/
structure Therm where
  switch : Nat
  nodes : List Word
  kc : Nat
  deriving DecidableEq, Repr

/-- Telemetry carried per switch (R329): loss, NTC value, and the frame of the last kept sample. -/
structure SwTel where
  switch : Nat
  loss : Word
  ntc : Word
  last : Nat
  deriving DecidableEq, Repr

/-- Carried state of the models (R329, R333, R338): telemetry, node states, and RTH_CHANGE by switch. -/
structure Carried where
  tel : List SwTel
  therm : List Therm
  rth : List (Nat × Word)
  deriving DecidableEq, Repr

/-- What the models of the frame left for RECORD. -/
structure ModelOut where
  dFwd : Option (Half × Half)
  vFwd : Half
  vRev : Half
  aLim : Half
  stopKin : Bool
  kinTorque : List Word
  free : Option (List Word)
  stopTherm : Bool
  tjOver : Bool
  derates : List Word
  switchDer : List (Nat × Word)
  tjNow : List (Nat × Word)
  tjOverSw : List Nat
  noSample : List Nat
  resetSaid : Bool
  staleSaid : Bool
  swHealth : List (Nat × Word × Word × Word × Nat)
  invHealth : List (Nat × Word × Word × Nat)
  deriving DecidableEq, Repr

/-- The health values of an envelope record (R339, R340). -/
structure HealthVals where
  healthMin : Half
  healthSwitch : Byte
  lifeMin : Byte
  tjMax : Half
  tjSwitch : Byte
  capMin : Half
  esrMax : Half
  deriving DecidableEq, Repr

structure ScribeSt where
  cur : Carried
  work : Carried
  out : ModelOut
  mainHealth : Option HealthVals
  modelRaised : Bool
  tjRaised : Bool
  deriving DecidableEq, Repr

/-- Range minima of a frame (R355): (sector, ρ) pairs in rising sector order, F and B (absent = +∞). -/
structure RangeSet where
  sectors : List (Nat × Word)
  f : Option Word
  b : Option Word
  deriving DecidableEq, Repr

/-- Power sums of a switch in a frame (R357). -/
structure SwPower where
  switch : Nat
  sumSq : Word
  n : Nat
  ntc : Word
  lastE : Int
  deriving DecidableEq, Repr

/-- Margin's carried derate and NTC value of a switch (R357). -/
structure SwMargin where
  switch : Nat
  d : Word
  ntc : Word
  deriving DecidableEq, Repr

structure MarginSt where
  openSet : RangeSet
  closedSet : RangeSet
  openPower : List SwPower
  power : List SwMargin
  lastTime : List (Nat × Int)
  frozenOpen : Bool
  frozenClosed : Bool
  a : Nat
  events : List Nat
  sectorsDis : Nat
  latent : Bool
  latentClear : Bool
  deriving DecidableEq, Repr

/-! ### Peer ring -/

/-- An accepted frame in a receive buffer, and the number of its entry among the host-side writes (R417). -/
structure RxFrame where
  id : Nat
  window : Nat
  f : PeerFrame
  deriving DecidableEq, Repr

/-- The running entry of an in-flight PEER stroke (R424): stroke and next entry. -/
structure PeerRun where
  stroke : Nat
  entry : Nat
  deriving DecidableEq, Repr

/-- A PTP frame that waits for egress (R396, R397): the ingress stamp of an event message to be corrected, and whether the
channel itself sends it. -/
structure PtpOut where
  f : PtpFrame
  ingress : Option Nat
  own : Bool
  deriving DecidableEq, Repr

/-- A peer port (R409 to R417): link, receive and transit buffers, frames the channel originates, PTP, and whose turn it is. -/
structure PeerPort where
  up : Bool
  rx : List RxFrame
  transit : List PeerFrame
  origin : List PeerFrame
  ptp : List PtpOut
  turn : Bool
  deriving DecidableEq, Repr

structure PeerSt where
  epoch : Word
  seen : Word
  members : Byte
  position : Option Nat
  grace : Option Nat
  winOpen : List Nat
  lag : List (Nat × Nat × Nat)
  landed : List (Nat × Nat)
  lastSeq : List (Nat × Nat × Nat)
  nacked : List (Nat × Nat)
  block : Nat
  run : Option PeerRun
  east : PeerPort
  west : PeerPort
  refused : Option (Nat × Nat)
  dropTick : List (Nat × Nat)
  deriving DecidableEq, Repr

/-! ### Start-up, update, power -/

/-- Start-up of a channel (R458, R466 to R474); `reqAt` is the real time of its verification request, `checkAt` that of its power check
(R19). -/
structure Boot where
  header : Option (List Byte)
  reqAt : Nat
  checkAt : Option Nat
  nsect : Nat
  imageLen : Nat
  sects : List SectEntry
  hdrSeen : Bool
  verified : Bool
  hbm : Option Bool
  cleared : Bool
  nextSect : Nat
  checked : Bool
  ownerSlot : Option Nat
  measurement : List Byte
  deriving DecidableEq, Repr

/-- The xSPI memory and the update state (R466, R477 to R479); `size` is none when no valid SFDP answers. `badHeld` are the pages of the
held sector that will read back other than their data when LEAVE_MAINT programs them (log 18). -/
structure Nvm where
  cells : Cells
  size : Option Nat
  held : Option (List Byte)
  badHeld : List Nat
  erased : Bool
  failed : Bool
  deriving DecidableEq, Repr

structure Maint where
  active : Bool
  tenant : Nat
  key : Key
  session : Nat
  deriving DecidableEq, Repr

/-- Monitor conditions in force (R351, R371 to R373): regulators 0 to 3 core, 4 uncore, 5 VIN_CORE; sensors 0 to 3 core, 4 uncore,
5 to 8 HBM3; clocks 0 to 9; the largest clock deviation of the last window, and when that window ended. -/
structure Monitors where
  volt : List Nat
  temp : List Nat
  clock : List Nat
  deviation : Int
  deviationAt : Nat
  deriving DecidableEq, Repr

/-- Once-per-tick and once-per-frame guards of error records. -/
structure Guards where
  overflow : Bool
  overflowIn : Bool
  ceTick : List Nat
  fenceFirst : Option Nat
  fenceHitsTick : Nat
  hbRaised : Bool
  pwrOverAt : Option Nat
  deriving DecidableEq, Repr

/-- Pins CHn_OK, CHn_MARGIN, CHn_STOP as driven (R345). -/
structure Pins where
  ok : Bool
  margin : Bool
  stop : Bool
  deriving DecidableEq, Repr

/-- The record last published (ENV_ registers). -/
structure EnvRegs where
  source : Bool
  stop : Bool
  healthOld : Bool
  lastK : Nat
  hostSeen : Word
  deriving DecidableEq, Repr

/-- One channel. `pinFrom` are the levels that the pins left when they last changed, at the real time `pinAt` (R511); `moved` are the real
time and the place in the list of R463 of the last change of state that it ranks. `fresh` are the W1C bits that an event has set at the
present real time, LATENT among them as `none` (R10), and `shut` the peer windows that have closed at it (R422). -/
structure Channel where
  st : ChState
  reason : Byte
  failSect : Nat
  slot : Option Nat
  resv : Option Nat
  startMark : Nat
  startUs : Nat
  pins : Pins
  pinFrom : Pins
  pinAt : Nat
  moved : Option (Nat × Nat)
  boot : Boot
  img : Image
  nvm : Nvm
  tb : Timebase
  ts : TimeSrv
  tick : Tick
  doubtP : Word
  doubtIn : Word
  causesP : BitVec 10
  causesIn : BitVec 10
  hbLast : Option Nat
  hbSinceReady : Bool
  duct : Duct
  front : FrontSt
  cal : Calib
  map : MapSt
  scribe : ScribeSt
  mrg : MarginSt
  env : EnvRegs
  peer : PeerSt
  maint : Option Maint
  mon : Monitors
  grd : Guards
  fenced : List Nat
  stopPending : Option Byte
  hbm : Cells
  hbmPoison : List Nat
  core : List CoreMem
  rings : List Ring
  ringsLoaded : Bool
  maintRing : Option Ring
  ctx : List Nat
  ctxWait : List Waiting
  input : List InHalf
  writes : List HostWrite
  nextWrite : Nat
  hairQ : List HairPkt
  outq : List OutPkt
  errq : List ErrEntry
  errNext : Nat
  errSinceKept : Nat
  regHeld : List Packet
  ctr : List Nat
  ctrLat : List Nat
  sticky : List Bool
  fresh : List (Option Sticky)
  shut : List Nat
  power : Nat
  deriving DecidableEq, Repr

/-! ### The device -/

/-- An owner-key slot (R445). -/
structure OwnerSlot where
  digest : List Byte
  provisioned : Bool
  revoked : Bool
  deriving DecidableEq, Repr

structure Fuses where
  deviceId : DWord
  grade1630 : Bool
  arrayFuse : DWord
  slots : List OwnerSlot
  authority : Option (List Byte)
  deriving DecidableEq, Repr

/-- A tenant's session (R432, R437, R440); `oldSs` numbers the secrets ss1 of the sessions that renewals have ended (R443). -/
structure Session where
  isOpen : Bool
  ekT : Option (List Byte)
  serial : Nat
  ekD : Nat
  ss1 : Nat
  oldSs : List Nat
  genCur : Nat
  keyCur : Key
  genPrev : Nat
  keyPrev : Key
  prevLive : Bool
  deriving DecidableEq, Repr

structure Signet where
  ready : Bool
  fusesRead : Bool
  queue : List Ch
  sessions : List Session
  sessionCtr : Nat
  mgCounter : Nat
  log : List ErrRec
  logDevice : List ErrRec
  lastRefused : Option Nat
  fresh : Nat
  deriving DecidableEq, Repr

/-- The host link (R18, R69): down, degraded, LINK_DOWN in force, the rings of each channel still owing a
complete message, and the 18-bit ring last served in each class, outbound and inbound (R80). -/
structure Link where
  down : Bool
  degraded : Bool
  owing : List (Ch × Nat)
  served : List Nat
  servedIn : List Nat
  deriving DecidableEq, Repr

/-- Device window and shared plane; `vio18Ok` and `vio33Ok`: the two supplies of VIO are within their limits (R507, R508). -/
structure Device where
  porstN : Bool
  testMode : Bool
  porstAt : Nat
  fuses : Fuses
  signet : Signet
  link : Link
  faultLow : Bool
  faultCode : Byte
  deviceStop : Bool
  rails : Byte
  vio18Ok : Bool
  vio33Ok : Bool
  refclkOk : Bool
  marginClkOk : Bool
  ucieLock : Bool
  capDw : Nat
  power : Nat
  doubleRefresh : Bool
  overAt : Option Nat
  deriving DecidableEq, Repr

/-- A management command of the present real time whose transition one higher in the list of R463 would drop: the channel, the command's
code and place in the list, where its response stands in `emitted`, and the channel as it was before it. -/
structure Due where
  ch : Ch
  command : Nat
  rank : Nat
  reply : Nat
  was : Channel
  deriving DecidableEq, Repr

/-- The hardware: device, channels 0 to 3, the clock of real time in ns, the free-value counter, what left the device, and the commands of
the present real time that R463 may still drop, the oldest first. -/
structure Hw where
  dev : Device
  ch0 : Channel
  ch1 : Channel
  ch2 : Channel
  ch3 : Channel
  now : Nat
  freeCtr : Nat
  emitted : List Emission
  due : List Due
  deriving DecidableEq, Repr

/-- The state: the hardware and the commands that wait, first in first out. -/
structure State where
  hw : Hw
  pending : List Instr
  deriving DecidableEq, Repr

/-- Faults of the block: none. Every error of the manual is a record, a pin level, a state or a STATUS, and the device goes
on; no command stops the model. -/
inductive Fault where
  deriving DecidableEq, Repr

/-- Refusals of the block. `notModelled` is raised by no meaning; it stands for a command without a meaning (safe). -/
inductive Refusal where
  | notModelled (mnemonic : String)
  deriving DecidableEq, Repr

/-! ### Reset: PORST_N held low (R457, R498). Values no rule gives are named in logs 2 to 7. -/

def Ctr.num : Nat := 61
def Sticky.num : Nat := 43

def CoreMem.reset : CoreMem :=
  { ink := [], poison := [], spans := List.replicate 12 .on, blotter := [], rsv := [], rsvReq := 0 }

def Image.reset : Image :=
  { tenant := none, tickSrc := 0, tickN := 0, tickTol := 0, periodNs := 0, phaseNs := 0, hbTimeoutUs := 0, chCap := 0,
    version := 0, regions := [], regionsOk := true, allocs := [], allocsOk := true, ringsOk := true, ductus := none,
    front := none, sitemap := none, scribe := none, safety := none, time := none, peer := none, exemplar := none,
    dataDest := [], chanRsvdOk := true }

def Timebase.reset : Timebase := { running := false, sub := 0, rem := 0, past := [] }

def TimeSrv.reset : TimeSrv :=
  { state := .unlocked, everLocked := false, iNum := 0, rNum := 0, slewUntil := none, slewRaised := false, master := none,
    tmaster := none, masterValid := false, newMaster := false, firstMaster := false, seq := 0, t1 := none, t2 := none, t4 := none,
    lastKept := none, lastSend := none, lastSync := none, offset17 := 0, delay17 := 0, refusals := 0, refusedSince := 0,
    syncOrigin := none,
    syncLocal := none, reqSent := none, ptpSeq := 0, reqSeq := 0, seen := [] }

def Tick.reset : Tick :=
  { ticking := false, k := 0, tkNow := 0, tkLoc := 0, nextDue := 0, edges := 0, early := 0 }

def Duct.reset : Duct :=
  { done := [], flight := [], exem := List.replicate 4 .idle, exHold := false, decided := false, bracket := 0, point := 0, blankDone := [],
    changing := none, raised := false, commitDone := false, main := none, result := none,
    verdict := none, exFailLast := List.replicate 4 false, exFailNow := List.replicate 4 false }

def FrontSt.reset : FrontSt :=
  { exec := 0, insDone := false, wPoints := 0, wCells := 0, wSweeps := 0, wMisses := 0, vox := [], placed := [], keys := [], points := 0, cells := 0, sweeps := 0, status := 0, working := 0, cams := [] }

def Calib.reset : Calib :=
  { poses := [], posesNext := [], camNext := [], ms := none, msNext := none, msValid := none, msSame := 0 }

def Stage.empty : Stage := { frame := none, folio := 0, refresh := false, train := 0, mig := 0 }

def TableSt.reset : TableSt :=
  { current := none, pending := [], lastPublish := none, serial := 0, keyCur := none, keyPrev := none, keyPrevGen := 0,
    keyStaged := [], skewSeen := 0, lastRefresh := none, stage0 := .empty, stage1 := .empty, rangeRaised := false, exports := [] }

def MapSt.reset : MapSt :=
  { tables := [], slots := [], reqs := [], nextReq := 0, trainLimitRaised := false, unsentFetch := [], lostSaid := [] }

def Carried.reset : Carried := { tel := [], therm := [], rth := [] }

def ModelOut.reset : ModelOut :=
  { dFwd := none, vFwd := 0, vRev := 0, aLim := 0, stopKin := false, kinTorque := [], free := none, stopTherm := false,
    tjOver := false, derates := [], switchDer := [], tjNow := [], tjOverSw := [], noSample := [], resetSaid := false, staleSaid := false, swHealth := [],
    invHealth := [] }

def ScribeSt.reset : ScribeSt :=
  { cur := .reset, work := .reset, out := .reset, mainHealth := none, modelRaised := false,
    tjRaised := false }

def RangeSet.reset : RangeSet := { sectors := [], f := none, b := none }

def MarginSt.reset : MarginSt :=
  { openSet := .reset, closedSet := .reset, openPower := [], power := [], lastTime := [], frozenOpen := false,
    frozenClosed := false, a := 0, events := [], sectorsDis := 0, latent := false, latentClear := false }

def PeerPort.reset : PeerPort := { up := false, rx := [], transit := [], origin := [], ptp := [], turn := false }

def PeerSt.reset : PeerSt :=
  { epoch := 0, seen := 0, members := 0, position := none, grace := none, winOpen := [], lag := [],
    landed := [], lastSeq := [], nacked := [], block := 0, run := none, east := .reset, west := .reset, refused := none,
    dropTick := [] }

def Boot.reset : Boot :=
  { header := none, reqAt := 0, checkAt := none, nsect := 0, imageLen := 0, sects := [], hdrSeen := false, verified := false, hbm := none,
    cleared := false, nextSect := 0, checked := false, ownerSlot := none, measurement := List.replicate 64 0 }

/-- An erased memory of 64 MiB, the smallest that R466 names (log 6). -/
def Nvm.reset : Nvm := { cells := [], size := some 67108864, held := none, badHeld := [], erased := false, failed := false }

def Monitors.reset : Monitors := { volt := [], temp := [], clock := [], deviation := 0, deviationAt := 0 }

def Guards.reset : Guards :=
  { overflow := false, overflowIn := false, ceTick := [], fenceFirst := none, fenceHitsTick := 0, hbRaised := false,
    pwrOverAt := none }

def EnvRegs.reset : EnvRegs := { source := true, stop := true, healthOld := true, lastK := 0, hostSeen := 0 }

/-- A channel in OFF. -/
def Channel.reset : Channel :=
  { st := .off, reason := 0, failSect := 0x7F, slot := none, resv := none, startMark := 0, startUs := 0,
    pins := { ok := false, margin := false, stop := true }, pinFrom := { ok := false, margin := false, stop := true }, pinAt := 0,
    moved := none, boot := .reset, img := .reset, nvm := .reset, tb := .reset,
    ts := .reset, tick := .reset, doubtP := 0, doubtIn := 0, causesP := 0, causesIn := 0, hbLast := none,
    hbSinceReady := false, duct := .reset, front := .reset, cal := .reset, map := .reset, scribe := .reset,
    mrg := .reset, env := .reset, peer := .reset, maint := none, mon := .reset, grd := .reset, fenced := [],
    stopPending := none, hbm := [], hbmPoison := [], core := List.replicate 4 .reset, rings := [], ringsLoaded := false,
    maintRing := none, ctx := [], ctxWait := [], input := [], writes := [], nextWrite := 0, hairQ := [], outq := [],
    errq := [], errNext := 0, errSinceKept := 0, regHeld := [], ctr := List.replicate Ctr.num 0,
    ctrLat := List.replicate Ctr.num 0, sticky := List.replicate Sticky.num false, fresh := [], shut := [], power := 0 }

def Fuses.reset : Fuses :=
  { deviceId := 0, grade1630 := false, arrayFuse := 0,
    slots := List.replicate 4 { digest := List.replicate 32 0, provisioned := false, revoked := false }, authority := none }

def Session.reset : Session :=
  { isOpen := false, ekT := none, serial := 0, ekD := 0, ss1 := 0, oldSs := [], genCur := 0, keyCur := .zeros, genPrev := 0,
    keyPrev := .zeros, prevLive := false }

def Signet.reset : Signet :=
  { ready := false, fusesRead := false, queue := [], sessions := List.replicate 8 .reset, sessionCtr := 0, mgCounter := 0,
    log := [], logDevice := [], lastRefused := none, fresh := 0 }

def Device.reset : Device :=
  { porstN := false, testMode := false, porstAt := 0, fuses := .reset, signet := .reset,
    link := { down := false, degraded := false, owing := [], served := [0, 0, 0, 0], servedIn := [0, 0, 0, 0] }, faultLow := true,
    faultCode := 0, deviceStop := false, rails := 0, vio18Ok := true, vio33Ok := true, refclkOk := false, marginClkOk := false, ucieLock := false,
    capDw := 2650, power := 0, doubleRefresh := false, overAt := none }

def Hw.reset : Hw :=
  { dev := .reset, ch0 := .reset, ch1 := .reset, ch2 := .reset, ch3 := .reset, now := 0, freeCtr := 0, emitted := [], due := [] }

/-- The block while PORST_N is low, no command waiting. -/
def State.reset : State := { hw := .reset, pending := [] }

end Sys2Proof.Machine
end

