-- ==== Sys2Proof/Machine/Ops.lean ====
section
/-! DEFINITION. The named operations every meaning is made of: bytes and memories, channels and time, error records and
their queue (R374 to R377), the outbound queue (R105), pins and changes of channel state (R345, R460), and the commands that one
drops (R463). -/
namespace Sys2Proof.Machine

/-! ### Bytes and numbers -/

/-- The number that little-endian bytes hold. -/
def leNat (bs : List Byte) : Nat := bs.foldr (fun b a => b.toNat + 256 * a) 0
/-- `n` little-endian bytes of `v`. -/
def leBytes : Nat → Nat → List Byte
  | 0, _ => []
  | n + 1, v => BitVec.ofNat 8 v :: leBytes n (v / 256)
def bytesAt (bs : List Byte) (off n : Nat) : List Byte := (bs.drop off).take n
/-- The little-endian field of `n` bytes at `off`. -/
def field (bs : List Byte) (off n : Nat) : Nat := leNat (bytesAt bs off n)
def byteAt (bs : List Byte) (i : Nat) : Nat := (bs.getD i 0#8).toNat
def allZero (bs : List Byte) : Bool := bs.all (· == 0#8)
/-- Whether bytes [off, off + n) are reserved zeros. -/
def zeroAt (bs : List Byte) (off n : Nat) : Bool := allZero (bytesAt bs off n)
def bitOf (v i : Nat) : Bool := (v >>> i) % 2 == 1
/-- Bits [hi:lo] of v. -/
def bitsOf (v hi lo : Nat) : Nat := (v >>> lo) % 2 ^ (hi + 1 - lo)
/-- The signed value of the low `w` bits. -/
def signed (w v : Nat) : Int := if v % 2 ^ w < 2 ^ (w - 1) then ((v % 2 ^ w : Nat) : Int) else ((v % 2 ^ w : Nat) : Int) - ((2 ^ w : Nat) : Int)
def b2n (b : Bool) : Nat := if b then 1 else 0
def wordAt (bs : List Byte) (off : Nat) : Word := BitVec.ofNat 32 (field bs off 4)
/-- `n` consecutive words. -/
def wordsAt (bs : List Byte) (off n : Nat) : List Word := (List.range n).map fun i => wordAt bs (off + 4 * i)
def wordsBytes (ws : List Word) : List Byte := ws.flatMap fun w => leBytes 4 w.toNat
/-- Lists cut into records of `n` bytes, `k` of them. -/
def chunks (n : Nat) : Nat → List Byte → List (List Byte)
  | 0, _ => []
  | k + 1, bs => bs.take n :: chunks n k (bs.drop n)
def setAt {α : Type} (l : List α) (i : Nat) (v : α) : List α := l.set i v
def modAt {α : Type} (l : List α) (i : Nat) (f : α → α) : List α :=
  match l[i]? with
  | some a => l.set i (f a)
  | none => l
/-- Lookup and update of association lists kept by a key. -/
def assoc {α : Type} (l : List (Nat × α)) (k : Nat) : Option α := (l.find? (·.1 == k)).map (·.2)
def assocSet {α : Type} (l : List (Nat × α)) (k : Nat) (v : α) : List (Nat × α) :=
  (l.takeWhile (·.1 < k)) ++ (k, v) :: (l.dropWhile (·.1 < k)).dropWhile (·.1 == k)
def insertNat (l : List Nat) (k : Nat) : List Nat := l.takeWhile (· < k) ++ k :: (l.dropWhile (· < k)).dropWhile (· == k)
def ceilDiv (a b : Nat) : Nat := (a + b - 1) / b
/-- Stable insertion of a list by a key order (`le a b` = a may stand before b). -/
def insertBy {α : Type} (le : α → α → Bool) (x : α) : List α → List α
  | [] => [x]
  | y :: ys => if le x y then x :: y :: ys else y :: insertBy le x ys
def mergeBy {α : Type} (le : α → α → Bool) : Nat → List α → List α → List α
  | 0, xs, ys => xs ++ ys
  | _ + 1, [], ys => ys
  | _ + 1, xs, [] => xs
  | n + 1, x :: xs, y :: ys => if le x y then x :: mergeBy le n xs (y :: ys) else y :: mergeBy le n (x :: xs) ys
/-- Stable merge sort; `fuel` bounds the depth. -/
def sortGo {α : Type} (le : α → α → Bool) : Nat → List α → List α
  | 0, xs => xs
  | _ + 1, [] => []
  | _ + 1, [x] => [x]
  | n + 1, xs =>
    let h := xs.length / 2
    mergeBy le xs.length (sortGo le n (xs.take h)) (sortGo le n (xs.drop h))
def sortBy {α : Type} (le : α → α → Bool) (xs : List α) : List α := sortGo le (xs.length.log2 + 2) xs

/-! ### Memories in canonical form -/

namespace Cells

/-- The canonical form: addresses rise strictly, and no cell holds what an unlisted address reads as. -/
def wf (d : Byte) : Cells → Bool
  | [] => true
  | [c] => c.2 != d
  | c :: c' :: cs => c.2 != d && decide (c.1 < c'.1) && wf d (c' :: cs)

def byte (d : Byte) (m : Cells) (a : Nat) : Byte :=
  match m.find? (·.1 == a) with
  | some c => c.2
  | none => d

def readGo (d : Byte) : Nat → Nat → Cells → List Byte
  | 0, _, _ => []
  | n + 1, a, [] => d :: readGo d n (a + 1) []
  | n + 1, a, c :: cs => if c.1 == a then c.2 :: readGo d n (a + 1) cs else d :: readGo d n (a + 1) (c :: cs)

/-- `n` bytes from `a`. -/
def read (d : Byte) (m : Cells) (a n : Nat) : List Byte := readGo d n a (m.dropWhile (·.1 < a))

/-- The cells that bytes at `a` make. -/
def ofBytes (d : Byte) : Nat → List Byte → Cells
  | _, [] => []
  | a, b :: bs => if b == d then ofBytes d (a + 1) bs else (a, b) :: ofBytes d (a + 1) bs

/-- Store bytes at `a`. -/
def write (d : Byte) (m : Cells) (a : Nat) (bs : List Byte) : Cells :=
  m.takeWhile (·.1 < a) ++ ofBytes d a bs ++ m.dropWhile (·.1 < a + bs.length)

/-- Write zeros, or the default, over [a, a + n). -/
def clear (m : Cells) (a n : Nat) : Cells := m.takeWhile (·.1 < a) ++ m.dropWhile (·.1 < a + n)

end Cells

/-- Inkwell and HBM read 00h where nothing is listed (log 6). -/
def ramDefault : Byte := 0x00#8
/-- An erased NOR byte reads FFh (log 6). -/
def norDefault : Byte := 0xFF#8

def hbmSize : Nat := 0x180000000
def ringArea : Nat := hbmSize - 4194304
def inkSize : Nat := 12582912

/-! ### Channels -/

def Hw.ch (hw : Hw) (m : Ch) : Channel :=
  match m with
  | 0 => hw.ch0
  | 1 => hw.ch1
  | 2 => hw.ch2
  | 3 => hw.ch3

def Hw.setCh (m : Ch) (c : Channel) (hw : Hw) : Hw :=
  match m with
  | 0 => { hw with ch0 := c }
  | 1 => { hw with ch1 := c }
  | 2 => { hw with ch2 := c }
  | 3 => { hw with ch3 := c }

def Hw.modCh (m : Ch) (f : Channel → Channel) (hw : Hw) : Hw := hw.setCh m (f (hw.ch m))
def chans : List Ch := [0, 1, 2, 3]
/-- Apply to every channel in turn. -/
def Hw.eachCh (f : Ch → Hw → Hw) (hw : Hw) : Hw := chans.foldl (fun h m => f m h) hw
def Hw.modDev (f : Device → Device) (hw : Hw) : Hw := { hw with dev := f hw.dev }
def Hw.modSig (f : Signet → Signet) (hw : Hw) : Hw := hw.modDev fun d => { d with signet := f d.signet }
def Hw.emit (e : Emission) (hw : Hw) : Hw := { hw with emitted := hw.emitted ++ [e] }

/-- The next free number (log 7). -/
def Hw.free (hw : Hw) : Nat × Hw := (Config.freeNat hw.freeCtr, { hw with freeCtr := hw.freeCtr + 1 })

def coreMem (c : Channel) (j : Nat) : CoreMem := c.core.getD j CoreMem.reset
def Channel.modCore (j : Nat) (f : CoreMem → CoreMem) (c : Channel) : Channel := { c with core := modAt c.core j f }

/-! ### Counters and sticky bits -/

/-- The 64-bit counters; the others are 32 bits wide (R501, R502). -/
def Ctr.wide : Ctr → Bool
  | .rsvHits | .rsvMisses | .rsvWritebacks | .mapUnique | .perfStrokes | .perfArrayCyc | .perfNibCyc | .perfHbmRd
  | .perfHbmWr | .perfHostIn | .perfHostOut | .perfPeerTx => true
  | _ => false
def Ctr.max (x : Ctr) : Nat := if x.wide then 2 ^ 64 - 1 else 2 ^ 32 - 1
def Channel.count (x : Ctr) (c : Channel) : Nat := c.ctr.getD x.ctorIdx 0
/-- Count `n` events, saturating. -/
def Channel.bump (x : Ctr) (n : Nat) (c : Channel) : Channel :=
  { c with ctr := modAt c.ctr x.ctorIdx fun v => min (v + n) x.max }
def Channel.stuck (x : Sticky) (c : Channel) : Bool := c.sticky.getD x.ctorIdx false
/-- An event sets the bit. -/
def Channel.stick (x : Sticky) (c : Channel) : Channel := { c with sticky := setAt c.sticky x.ctorIdx true, fresh := some x :: c.fresh }
/-- The bit is cleared. -/
def Channel.unstick (x : Sticky) (c : Channel) : Channel := { c with sticky := setAt c.sticky x.ctorIdx false }

/-! ### Time (R388 to R390) -/

/-- Whole ns of local time. -/
def Channel.local (c : Channel) : Nat := c.tb.sub / 65536
/-- Denominator of the servo values (R399): ppb times this are integers. With a TC_MS of 0, which the load check refuses (R406), the servo's
limits are 0 and so is the rate: local time runs on in LOAD and REFUSED (R389). -/
def Channel.rateDen (c : Channel) : Nat :=
  match c.img.time with
  | some t => max 1 (131072000 * t.tcMs * t.tcMs)
  | none => 1
/-- R388: dt ns of reference advance local time by dt·(1 + r), in units of 2^−16 ns, the remainder kept. -/
def TbMark.after (dt : Nat) (k : TbMark) : Nat × Nat :=
  let den := 1000000000 * k.den
  let total : Nat := k.rem + dt * 65536 * (((den : Int) + k.rNum).toNat)
  (k.sub + total / den, total % den)
/-- The timebase as it stands, with the rate in force from `now` on. -/
def Channel.tbMark (now : Nat) (c : Channel) : TbMark := { since := now, sub := c.tb.sub, rem := c.tb.rem, rNum := c.ts.rNum, den := c.rateDen }
/-- Bits set by events of this very ns, which a write of 1 does not clear (R10). -/
def Channel.freshAfter (dt : Nat) (c : Channel) : List (Option Sticky) := if dt = 0 then c.fresh else []
/-- Windows that have closed at this very ns, for which a frame of the same cycle is still accepted (R422). -/
def Channel.shutAfter (dt : Nat) (c : Channel) : List Nat := if dt = 0 then c.shut else []
def Channel.advance (dt : Nat) (c : Channel) : Channel :=
  if c.tb.running then
    let x := (c.tbMark 0).after dt
    { c with tb := { c.tb with sub := x.1, rem := x.2 }, fresh := c.freshAfter dt, shut := c.shutAfter dt }
  else { c with fresh := c.freshAfter dt, shut := c.shutAfter dt }
/-- A start, a step or a rate change of the timebase is noted for the stamps of what crossed before it (R391, R400). -/
def Channel.markTime (now : Nat) (c : Channel) : Channel := { c with tb := { c.tb with past := c.tbMark now :: c.tb.past } }
/-- Whole ns of local time at the real time `x`: zero before the timebase started (R389, R391). -/
def Channel.localAt (x : Nat) (c : Channel) : Nat :=
  match c.tb.past.find? fun k => decide (k.since ≤ x) with
  | some k => (k.after (x - k.since)).1 / 65536
  | none => 0
/-- Real time passes before a command's event (log 2). -/
def Hw.advance (dt : Nat) (hw : Hw) : Hw :=
  { hw with now := hw.now + dt, ch0 := hw.ch0.advance dt, ch1 := hw.ch1.advance dt, ch2 := hw.ch2.advance dt,
            ch3 := hw.ch3.advance dt, due := if dt = 0 then hw.due else [] }
/-- Every meaning: `t` ns pass, then the event changes the hardware; the queue stays (logs 1 and 2). -/
def State.run (s : State) (t : Nat) (f : Hw → Hw) : Host.Outcome State Fault Refusal := .next { s with hw := f (s.hw.advance t) }
/-- R390: seconds modulo 2^34 and ns. -/
def compact (ns : Nat) : DWord := BitVec.ofNat 64 ((ns / 1000000000) % 2 ^ 34 * 2 ^ 30 + ns % 1000000000)
/-- R390: the full ns of a compact time, nearest the local time. -/
def extend (localNs : Nat) (c : DWord) : Int :=
  let s : Int := (localNs / 1000000000 : Nat)
  let cs : Int := (c.toNat / 2 ^ 30 : Nat)
  let sfull := s - ((s % 2 ^ 34 - cs + 2 ^ 33) % 2 ^ 34) + 2 ^ 33
  sfull * 1000000000 + ((c.toNat % 2 ^ 30 : Nat) : Int)

/-! ### Error records (R103, R374 to R377) -/

def Severity.toNat : Severity → Nat
  | .note => 0
  | .degraded => 1
  | .doubt => 2
  | .channelStop => 3
  | .deviceStop => 4
def Severity.summary : Severity → Sticky
  | .note => .sumNote
  | .degraded => .sumDegraded
  | .doubt => .sumDoubt
  | .channelStop => .sumChannelStop
  | .deviceStop => .sumDeviceStop

/-- R376: the position, among entries 1 to 31, of the newest entry of the lowest severity, with that severity. -/
def lowestNewest (q : List ErrEntry) : Option (Nat × Nat) :=
  ((List.range q.length).drop 1).foldl (fun best i =>
    match q[i]? with
    | none => best
    | some e =>
      let s := e.record.severity.toNat
      match best with
      | none => some (i, s)
      | some (_, s') => if s ≤ s' then some (i, s) else best) none

/-- R376: a record arrives at the channel's error queue. -/
def Channel.putErr (r : ErrRec) (c : Channel) : Channel :=
  let c := c.stick r.severity.summary
  let keep := fun (c : Channel) (q : List ErrEntry) =>
    { c with
      errq := q ++ [{ record := { r with dropped := c.errSinceKept }, carry := .waiting, id := c.errNext }]
      errNext := c.errNext + 1
      errSinceKept := 0 }
  let drop := fun (c : Channel) => { c.bump .errDropped 1 with errSinceKept := min (c.errSinceKept + 1) (2 ^ 32 - 1) }
  if c.errq.length < 32 then keep c c.errq
  else match lowestNewest c.errq with
    | none => drop c
    | some (i, s) => if r.severity.toNat ≤ s then drop c else keep (drop c) (c.errq.eraseIdx i)

/-- The 18-bit ring number: channel in [17:16], ring below (chapter 00). -/
def ring18 (m : Ch) (ring : Nat) : Nat := m.val * 65536 + ring
/-- Initiators of records (R380), by the block that detects the event (log 12). -/
def initScribe (m : Ch) : Nat := 14 * m.val + 8
def initMargin (m : Ch) : Nat := 14 * m.val + 9
def initPeer (m : Ch) : Nat := 14 * m.val + 10
def initIngest (m : Ch) : Nat := 14 * m.val + 11
def initHairpin (m : Ch) : Nat := 14 * m.val + 12
def initScrub (m : Ch) : Nat := 14 * m.val + 13
def initCore (m : Ch) (j : Nat) : Nat := 14 * m.val + j
def initXfer (m : Ch) (j : Nat) : Nat := 14 * m.val + 4 + j
def initSignet : Nat := 56
def initMgmt : Nat := 57
def initDisp : Nat := 58
def initPower : Nat := 59

/-- The codes that the device writes (R378; chapters 12 to 15 for C0h to DFh). -/
def listedCodes : List Nat :=
  (List.range 12).map (· + 0x40) ++ [0x4D, 0x4E, 0x50, 0x51] ++ (List.range 5).map (· + 0x60) ++ (List.range 10).map (· + 0x70)
    ++ [0x80, 0x81, 0x83, 0x84] ++ (List.range 21).map (· + 0x90) ++ [0xA8, 0xA9] ++ (List.range 6).map (· + 0xB0)
    ++ (List.range 4).map (· + 0xC0) ++ (List.range 5).map (· + 0xC8) ++ (List.range 5).map (· + 0xD0) ++ (List.range 4).map (· + 0xD8)
/-- One of the listed codes: the code of a record to which the manual gives none (log 11). -/
def noteCode (n : Nat) : Nat := listedCodes.getD (n % listedCodes.length) 0x48

def mkRec (c : Channel) (who : Option Ch) (sev : Severity) (code init : Nat) (d0 d1 : Option Nat) : ErrRec :=
  { severity := sev, code := BitVec.ofNat 8 code, channel := who, initiator := init, detail0 := d0.map (BitVec.ofNat 32),
    detail1 := d1.map (BitVec.ofNat 32), k := c.tick.k, time := compact c.local, dropped := 0 }

/-- R452: the last 256 records of severity DEGRADED or higher of the channel. -/
def logPut (r : ErrRec) (log : List ErrRec) : List ErrRec :=
  if r.severity.toNat < 1 then log else
  let l := log ++ [r]
  if (l.filter (·.channel == r.channel)).length > 256 then l.eraseIdx (l.findIdx (·.channel == r.channel)) else l

/-- A record of channel m: into its queue and the Signet's log. -/
def Hw.raise (m : Ch) (sev : Severity) (code init : Nat) (d0 d1 : Option Nat) (hw : Hw) : Hw :=
  let r := mkRec (hw.ch m) (some m) sev code init d0 d1
  (hw.modCh m (Channel.putErr r)).modSig fun s => { s with log := logPut r s.log }

/-- R377: a device record enters the queue of a channel that is not in OFF, BOOT or LOAD. -/
def Channel.putDev (r : Channel → ErrRec) (c : Channel) : Channel :=
  match c.st with
  | .off | .boot | .load => c
  | _ => c.putErr (r c)
/-- A device record: into the queues, and into the log, which keeps every one (R452). -/
def Hw.raiseDev (sev : Severity) (code init : Nat) (d0 d1 : Option Nat) (hw : Hw) : Hw :=
  (hw.eachCh fun m => Hw.modCh m (Channel.putDev fun c => mkRec c none sev code init d0 d1)).modSig fun s =>
    { s with logDevice := s.logDevice ++ [mkRec hw.ch0 none sev code init d0 d1] }

/-! ### Rings and sessions -/

def Hw.session (hw : Hw) (t : Nat) : Session := hw.dev.signet.sessions.getD t Session.reset
def Hw.modSession (t : Nat) (f : Session → Session) (hw : Hw) : Hw :=
  hw.modSig fun s => { s with sessions := modAt s.sessions t f }
/-- The ring's descriptor; in MAINT ring 0 is the built-in one (R453). -/
def Channel.ring (c : Channel) (n : Nat) : Option Ring :=
  if n == 0 && c.st == .maint then c.maintRing else c.rings.find? (·.num == n)
def Channel.modRing (n : Nat) (f : Ring → Ring) (c : Channel) : Channel :=
  if n == 0 && c.st == .maint then { c with maintRing := c.maintRing.map f }
  else { c with rings := c.rings.map fun r => if r.num == n then f r else r }
/-- R465: ring 0 is loaded and its tenant's session is open. -/
def Hw.canStatus (hw : Hw) (m : Ch) : Bool :=
  let c := hw.ch m
  if c.st == .maint then c.maint.isSome
  else c.ringsLoaded && (match c.img.tenant with
    | some t => (hw.session t).isOpen
    | none => false)

/-- The coarse readings of a channel as they stand now (R454, R503). -/
def Channel.latch (c : Channel) : Channel :=
  { c with ctrLat := c.ctr, rings := c.rings.map fun r => { r with latAccepted := r.accepted, latDiscarded := r.discarded, latGaps := r.gaps }
           maintRing := c.maintRing.map fun r => { r with latAccepted := r.accepted, latDiscarded := r.discarded, latGaps := r.gaps } }

/-! ### The outbound queue (R105) -/

def OutBody.isEnv : OutBody → Bool
  | .envelope _ => true
  | _ => false
def OutBody.isErr : OutBody → Bool
  | .error _ _ => true
  | _ => false
/-- RESULT, DELTA, STATUS and REGDATA displace one another. -/
def OutBody.displaceable : OutBody → Bool
  | .result _ | .delta0 .. | .delta1 .. | .status .. | .regdata .. => true
  | _ => false

def Channel.envQueued (c : Channel) : Nat := (c.outq.filter (·.body.isEnv)).length
/-- One of the 64 entries holds ENVELOPE packets only. -/
def Channel.roomEnv (c : Channel) : Bool := c.outq.length < 64
def Channel.roomOther (c : Channel) : Bool := c.outq.length - c.envQueued + max c.envQueued 1 < 64

def eraseFirst (p : OutPkt → Bool) (q : List OutPkt) : List OutPkt := q.eraseIdx (q.findIdx p)

/-- A displaced ERROR packet's records become unsent (R375). -/
def Channel.unsend (b : OutBody) (c : Channel) : Channel :=
  match b with
  | .error _ ids => { c with errq := c.errq.map fun e => if ids.contains e.id then { e with carry := .unsent } else e }
  | _ => c

/-- OUT_FULL (4Dh). -/
def Hw.outFull (m : Ch) (hw : Hw) : Hw :=
  (hw.modCh m (Channel.bump .outDrops 1)).raise m .degraded 0x4D initDisp none none

/-- R283: entries of an applied-rows DELTA leave the queue unsent; one DELTA_LOST for each export. -/
def Hw.deltaLost (m : Ch) (table k n : Nat) (hw : Hw) : Hw :=
  let said := (hw.ch m).map.lostSaid.contains (table, k)
  let hw := hw.modCh m fun c => { (c.bump .mapDeltaLost n).stick .deltaLost with map := { c.map with lostSaid := (table, k) :: c.map.lostSaid } }
  if said then hw else hw.raise m .note 0x74 (initScribe m) none none
/-- What the displacement of a packet loses. -/
def Hw.displaced (m : Ch) (b : OutBody) (hw : Hw) : Hw :=
  match b with
  | .delta0 table _ _ k _ _ es => hw.deltaLost m table k es.length
  | _ => hw

/-- A new packet for the channel's outbound queue. TAILFETCH and ERROR are offered only when `roomOther` holds. -/
def Hw.outPush (m : Ch) (p : OutPkt) (hw : Hw) : Hw :=
  let c := hw.ch m
  let push := fun (c : Channel) => { c with outq := c.outq ++ [p] }
  if p.body.isEnv then
    if c.roomEnv then hw.modCh m push
    else (hw.modCh m fun c => push { c with outq := eraseFirst (·.body.isEnv) c.outq }).outFull m
  else if c.roomOther then hw.modCh m push
  else match c.outq.find? (·.body.displaceable) with
  | some old => ((hw.modCh m fun c => push { c with outq := eraseFirst (·.body.displaceable) c.outq }).outFull m).displaced m old.body
  | none => match c.outq.find? (·.body.isErr) with
    | some e => hw.modCh m fun c => push ((({ c with outq := eraseFirst (·.body.isErr) c.outq }).unsend e.body).bump .outDrops 1)
    | none => (hw.outFull m).displaced m p.body

/-- R375: when an entry an ERROR packet may use is free and unsent records exist, form one packet of them. -/
def Channel.formErr (c : Channel) : Channel :=
  let un := c.errq.filter (·.carry == .unsent)
  if un.isEmpty || !c.roomOther then c else
  let l := (sortBy (fun (a b : ErrEntry) => decide (b.record.severity.toNat ≤ a.record.severity.toNat)) un).take 64
  let ids := l.map (·.id)
  { c with
    outq := c.outq ++ [{ body := .error (l.map (·.record)) ids, ring := 0, frametag := BitVec.ofNat 32 c.tick.k, reports := none, eom := true }]
    errq := c.errq.map fun e => if ids.contains e.id then { e with carry := .carried } else e }

/-! ### Pins and channel states (R102, R345, R460, R485) -/

def ChState.code : ChState → Nat
  | .off => 0
  | .boot => 1
  | .load => 2
  | .refused => 3
  | .ready => 4
  | .run => 5
  | .margin => 6
  | .stopped => 7
  | .maint => 8
  | .fenced => 9

def ChState.ticks : ChState → Bool
  | .run | .margin | .fenced => true
  | _ => false

def Pins.stopOnly : Pins := { ok := false, margin := false, stop := true }
/-- R511: the levels that the pins pass through from `a` to `b`, each different from the one before it: CHn_STOP rises first, then what
rises of the other two, then what falls of them; CHn_STOP falls last. -/
def Pins.path (a b : Pins) : List Pins :=
  let rise : Pins := { a with stop := a.stop || b.stop }
  let both : Pins := { rise with ok := a.ok || b.ok, margin := a.margin || b.margin }
  let fall : Pins := { b with stop := rise.stop }
  ([rise, both, fall, b].foldl (fun (x : Pins × List Pins) q => if q = x.1 then x else (q, x.2 ++ [q])) (a, [])).2
/-- The pins are driven to new levels. What is driven at one instant is one change (R17, R511). -/
def Channel.setPins (now : Nat) (q : Pins) (c : Channel) : Channel :=
  { c with pins := q, pinFrom := if c.pinAt = now then c.pinFrom else c.pins, pinAt := now }
/-- The levels of the last change of the pins, in order (R511). -/
def Channel.pinPath (c : Channel) : List Pins := c.pinFrom.path c.pins
/-- CHn_OK, CHn_MARGIN and CHn_STOP at the balls: high-impedance while VIO33 is outside its limits (R507, R510). -/
def Hw.pinLevels (hw : Hw) (m : Ch) : Option Pins := if hw.dev.vio33Ok then some (hw.ch m).pins else none

/-- The STATUS packet of a state change (R102), where R465 lets it be sent. DESIGN CHOICE (log 12): a packet that reports no frame
(STATUS, REGDATA, ERROR, TAILFETCH) carries the number of the frame in progress in FRAMETAG (R74). -/
def Hw.statusChange (m : Ch) (hw : Hw) : Hw :=
  let c := hw.ch m
  if hw.canStatus m then
    hw.outPush m { body := .status 1 c.st c.reason 0 c.tick.k, ring := 0, frametag := BitVec.ofNat 32 c.tick.k, reports := none, eom := true }
  else hw

/-- The place of a state's entry in the list of R463: CHANNEL_STOP, ENTER_MAINT, FENCED, MARGIN, RUN. -/
def ChState.rank : ChState → Option Nat
  | .stopped => some 4
  | .maint => some 5
  | .fenced => some 6
  | .margin => some 7
  | .run => some 8
  | _ => none
/-- A transition of place `r` is dropped: one that is higher in the list of R463 took effect in the same cycle (log 21). -/
def Channel.outranked (now r : Nat) (c : Channel) : Bool := c.moved.any fun x => x.1 == now && decide (x.2 < r)

/-- What a state sets as it is entered with a reason code (0 = none): pins by R345, reservation by R485, KM by R453, point by R487,
windows by R422 and the grace of R427. -/
def Channel.entered (now : Nat) (st : ChState) (reason : Nat) (c : Channel) : Channel :=
  let q := match st with
    | .run | .margin | .fenced => c.pins
    | _ => Pins.stopOnly
  { c with
    st := st
    moved := match st.rank with
      | some r => some (now, r)
      | none => c.moved
    reason := BitVec.ofNat 8 reason
    pins := q
    pinFrom := if c.pinAt = now then c.pinFrom else c.pins
    pinAt := now
    resv := match st with
      | .ready | .run | .margin => c.resv
      | _ => none
    maint := if st == .maint then c.maint else none
    maintRing := if st == .maint || !c.ringsLoaded then c.maintRing else none
    tick := if st.ticks then c.tick else { c.tick with ticking := false }
    duct := match st with
      | .run | .margin => c.duct
      | _ => { c.duct with point := 0, changing := none, raised := false }
    peer := match st with
      | .ready | .run | .margin => c.peer
      | _ => { c.peer with winOpen := [], lag := [], grace := none }
    shut := match st with
      | .ready | .run | .margin => c.shut
      | _ => c.peer.winOpen ++ c.shut }
/-- Ring 0's counts and stamps of MAINT go on in the image's descriptor (R499, R500). -/
def Channel.ring0Counts (c : Channel) : Channel :=
  match c.st, c.maintRing with
  | .maint, some x => { c with rings := c.rings.map fun r => if r.num == 0 then
      { r with accepted := x.accepted, discarded := x.discarded, gaps := x.gaps, stampA := x.stampA, stampB := x.stampB,
               latAccepted := x.latAccepted, latDiscarded := x.latDiscarded, latGaps := x.latGaps } else r }
  | _, _ => c
/-- The response of a management command that is dropped: STATUS 5 (R463). -/
def Emission.dropped : Emission → Emission
  | .mgmt command _ _ => .mgmt command 5 .none
  | e => e
/-- MGMT_REFUSED, at most once per 100 ms (R452). -/
def Hw.mgmtRefused (command status : Nat) (hw : Hw) : Hw :=
  let due := match hw.dev.signet.lastRefused with
    | some t => decide (t + 100000000 ≤ hw.now)
    | none => true
  if due then (hw.modSig fun s => { s with lastRefused := some hw.now }).raiseDev .note 0xD3 initMgmt (some command) (some status) else hw
/-- A command whose transition of channel `m` has place `r` in the list of R463 takes effect; its response is what leaves next, and `was`
is the channel before it. -/
def Hw.addDue (m : Ch) (command r : Nat) (was : Channel) (hw : Hw) : Hw :=
  { hw with due := hw.due ++ [{ ch := m, command := command, rank := r, reply := hw.emitted.length, was := was }] }
/-- Whether a transition of channel `m` of place `r` in the list of R463 drops it. -/
def Due.below (m : Ch) (r : Nat) (d : Due) : Bool := d.ch == m && decide (r < d.rank)
/-- The commands of this cycle that a transition of channel `m` of place `r` in the list of R463 drops answer STATUS 5 (log 21), and as
refused commands they raise MGMT_REFUSED (R452). -/
def Hw.dropDue (m : Ch) (r : Nat) (hw : Hw) : Hw :=
  let l := hw.due.filter (Due.below m r)
  l.foldl (fun h d => h.mgmtRefused d.command 5)
    { hw with emitted := if l.isEmpty then hw.emitted else (hw.emitted.zipIdx).map fun (e, i) => if l.any (·.reply == i) then e.dropped else e
              due := hw.due.filter fun d => !(d.below m r) }
/-- The channel is as it was before the first of them. -/
def Hw.revertDue (m : Ch) (r : Nat) (hw : Hw) : Hw :=
  match hw.due.find? (Due.below m r) with
  | some d => hw.setCh m d.was
  | none => hw
/-- They are dropped, and the channel is as it was before the first of them (R463; log 21). -/
def Hw.undoDue (m : Ch) (r : Nat) (hw : Hw) : Hw := (hw.revertDue m r).dropDue m r
/-- On every channel: a transition of the whole device. -/
def Hw.undoAll (r : Nat) (hw : Hw) : Hw := (hw.eachCh fun m h => h.revertDue m r).eachCh fun m h => h.dropDue m r
/-- The channel enters a state, with its STATUS packet (R102). -/
def Hw.enter (m : Ch) (st : ChState) (reason : Nat) (hw : Hw) : Hw := (hw.modCh m (Channel.entered hw.now st reason)).statusChange m

/-- Frames of a SEND that the MAC has not taken are not sent when the stroke stops (R425). -/
def PeerPort.dropData (p : PeerPort) : PeerPort := { p with origin := p.origin.filter fun f => f.ptype != 1#8 }
/-- A granule holds again what it held before a write; the clearing's count E as well (R121). -/
def Channel.undoOne (u : Undo) (c : Channel) : Channel :=
  if u.mem < 4 then
    c.modCore u.mem fun k => { k with
      ink := Cells.write ramDefault k.ink (64 * u.granule) u.old
      poison := if u.bad then insertNat k.poison u.granule else k.poison.filter (· != u.granule) }
  else if u.mem = 5 then { c with front := { c.front with exec := u.granule } }
  else { c with
    hbm := Cells.write ramDefault c.hbm (64 * u.granule) u.old
    hbmPoison := if u.bad then insertNat c.hbmPoison u.granule else c.hbmPoison.filter (· != u.granule) }
/-- A stroke stops where it stands: the first `keep` granules that it writes have landed, the others not (R63, R64). -/
def Channel.stopFlight (f : Flight) (c : Channel) : Channel :=
  (f.undo.take (f.undo.length - f.keep)).foldl (fun c u => c.undoOne u) c
/-- Strokes of the frame, other than ELECTIVE ones, that have not completed. -/
def Channel.strokesLeft (c : Channel) : List Nat :=
  match c.img.ductus with
  | some d => (d.strokes.filter fun s => s.kind != 12 && !(c.duct.done.contains s.index)).map (·.index)
  | none => []
/-- R63: what is not complete is abandoned: in-flight strokes stop, their scoreboard entries and Blotter lines go, and so do hairpin
packets that they have not delivered. Of a frame with an abandoned stroke, TAILFETCH requests that are not sent yet go too (R64).
DESIGN CHOICE (log 29): a running exemplar, a stroke of KIND 10, is abandoned with the frame's strokes; the next frame starts its own. -/
def Channel.abandon (c : Channel) : Channel :=
  let left := c.strokesLeft
  let c := c.duct.flight.foldl (fun c f => c.stopFlight f) c
  { c with
    map := if left.isEmpty then c.map else { c.map with unsentFetch := c.map.unsentFetch.filter (·.frame != c.tick.k) }
    hairQ := c.hairQ.filter (·.stroke.isNone)
    duct := { c.duct with flight := [], exem := c.duct.exem.map fun e => if e == .running then .idle else e, exHold := false }
    core := c.core.map fun k => { k with blotter := [] }
    peer := { c.peer with run := none, east := c.peer.east.dropData, west := c.peer.west.dropData } }

/-- What a tick counts for its one record of a kind is recorded as the tick ends, at its boundary or where it is cut (log 12):
FENCE_HIT, whose initiator is the first that hit (R378), then PEER_REFUSED and PEER_DROP (R418, R519). -/
def Hw.tickRecs (m : Ch) (hw : Hw) : Hw :=
  let c := hw.ch m
  let hw := match c.grd.fenceFirst with
    | some u => hw.raise m .note 0x9F u (some u) (some c.grd.fenceHitsTick)
    | none => hw
  let hw := match c.peer.refused with
    | some (st, n) => hw.raise m .note 0xCB (initPeer m) (some st) (some n)
    | none => hw
  let hw := c.peer.dropTick.foldl (fun h x => h.raise m .degraded 0xCC (initPeer m) (some x.1) (some x.2)) hw
  hw.modCh m fun c => { c with grd := { c.grd with fenceFirst := none, fenceHitsTick := 0 }, peer := { c.peer with refused := none, dropTick := [] } }

/-- R346, R374: DEVICE_STOP. A channel that is in STOPPED already changes no state, so it sends no STATUS (R102, R461); its REASON
takes the new code (log 25). Commands of the same cycle that it drops are undone first (R463). -/
def Hw.deviceStop (code init : Nat) (d0 d1 : Option Nat) (hw : Hw) : Hw :=
  let hw := (hw.undoAll 2).raiseDev .deviceStop code init d0 d1
  let hw := hw.modDev fun d => { d with faultLow := true, faultCode := if d.deviceStop then d.faultCode else BitVec.ofNat 8 code, deviceStop := true }
  hw.eachCh fun m h =>
    let was := (h.ch m).st
    let h := (h.tickRecs m).modCh m fun c => { (c.abandon.ring0Counts).entered h.now .stopped code with moved := some (h.now, 2) }
    if was == .stopped then h else h.statusChange m

end Sys2Proof.Machine
end

