-- ==== Sys2Proof/Machine/Image.lean ====
section
/-! DEFINITION. Reading the configuration image: header and section entries (R468, R469) and the content of every section
type (R470), field by field as the chapters lay them out. -/
namespace Sys2Proof.Machine

/-- R469. -/
def parseEntry (b : List Byte) : SectEntry :=
  { type := byteAt b 0, offset := field b 4 4, len := field b 8 4, dest := field b 16 8, digest := bytesAt b 32 64,
    rsvdOk := zeroAt b 1 3 && zeroAt b 12 4 && zeroAt b 24 8 }
def parseEntries (hdr : List Byte) (n : Nat) : List SectEntry := (chunks 96 n (hdr.drop 1888)).map parseEntry

/-- R222. -/
def parseRegion (b : List Byte) : Region :=
  let f := byteAt b 17
  { base := field b 0 8, len := field b 8 8, tag := byteAt b 16, cache := bitOf f 0, hostw := bitOf f 1, input := bitOf f 2,
    peerw := bitOf f 3, tenant := byteAt b 18, rsvdOk := decide (f < 16) && zeroAt b 19 13 }
def parseRegions (b : List Byte) : List Region := (chunks 32 (b.length / 32) b).map parseRegion

/-- R213. -/
def parseAlloc (b : List Byte) : Alloc :=
  let f := byteAt b 9
  { base := field b 0 4, len := field b 4 4, core := byteAt b 8, keep := bitOf f 0, preload := bitOf f 1, exemplar := bitOf f 2,
    section_ := field b 10 2, soffset := field b 12 4, rsvdOk := decide (f < 8) }
def parseAllocs (b : List Byte) : List Alloc := (chunks 16 (b.length / 16) b).map parseAlloc

/-- R77: a descriptor of the ring table. DESIGN CHOICE (log 20): no rule gives a reason for a reserved bit or byte of it that is not 0
(MODE [7:4], OWNER [3] and [7:6], bytes 14, 15 and 52 to 63), and the model does not look at them. DESIGN CHOICE (log 24): GEN_USED,
ACCEPTED, DISCARDED and GAPS start at 0 at every load, whatever the image's bytes hold: R77 gives the image's value for NEXT_SEQ and OUT_SEQ
alone. GEN_USED so starts again after a channel reset that keeps the session and its generation, of which R82 does not speak. -/
def parseRing (b : List Byte) : Ring :=
  let mode := byteAt b 2
  { num := field b 0 2, enabled := bitOf mode 0, out := bitOf mode 1, safety := bitOf mode 2, bidir := bitOf mode 3,
    tenant := byteAt b 3 % 8, cls := byteAt b 3 / 16 % 4, opmask := wordAt b 4, region := field b 8 4, expect := byteAt b 12,
    source := byteAt b 13, hairpinTo := field b 16 4 % 2 ^ 18, hairpin := bitOf (field b 16 4) 31, maxAge := field b 20 4,
    nextSeq := wordAt b 24, genUsed := 0, accepted := 0, discarded := 0, gaps := 0,
    outSeq := 0, stampA := 0, stampB := 0, latAccepted := 0, latDiscarded := 0, latGaps := 0, msgsOpen := 0,
    tagOpen := none, tagClosed := none, nonceRaised := false,
    msg := { openTag := none, openCrc := 0, openCap := 0, openSweep := 0, lastCrc := none, lastSweep := none, lastCap := none },
    blank := { active := false, firstTag := 0, lfsr := 0, count := 0, rows := 0, failed := false } }
/-- The descriptors that are not all zeros; a descriptor of zeros is a disabled ring (R77). -/
def parseRings (b : List Byte) : List Ring :=
  ((chunks 64 (b.length / 64) b).filter fun d => !(allZero d)).map parseRing
/-- RING equals the descriptor's position. -/
def ringsPlaced (b : List Byte) : Bool :=
  ((chunks 64 (b.length / 64) b).zipIdx).all fun (d, i) => allZero d || field d 0 2 == i

/-- R39. -/
def parseRange (b : List Byte) : Range :=
  { space := byteAt b 0, access := byteAt b 1, core := byteAt b 2, len := field b 4 4, base := field b 8 8 }
/-- R36, with the lists and the parameter block that the descriptor points at (log 10). DESIGN CHOICE (log 20): what of them lies past the
section's end reads as zeros, and no rule refuses it. Reserved bits of the Ductus header, the
descriptors and the range entries are not looked at (log 20). -/
def parseStroke (sec b : List Byte) : Stroke :=
  let preds := sec.drop (Config.ductusBase sec 0 + field b 8 4)
  let ranges := sec.drop (Config.ductusBase sec 1 + field b 12 4)
  let parms := sec.drop (Config.ductusBase sec 2 + field b 48 4)
  let plen := field b 52 4
  { index := field b 0 2, kind := byteAt b 2, pdpoint := bitOf (byteAt b 3) 0, cores := byteAt b 4 % 16, nrange := byteAt b 5,
    npred := byteAt b 6, preds := (List.range (byteAt b 6)).map fun i => field preds (2 * i) 2,
    ranges := (chunks 16 (byteAt b 5) ranges).map parseRange,
    budget := (List.range 4).map fun i => (field b (16 + 8 * i) 4, field b (20 + 8 * i) 4),
    parm := parms.take plen, pdword := field (sec.drop (Config.ductusBase sec 2)) ((field b 48 4 + plen + 7) / 8 * 8) 8 }
/-- R52. -/
def parseDuctus (b : List Byte) : Ductus :=
  let n := field b 0 2
  { nstrokes := n, nbrackets := byteAt b 2, decide := field b 4 2, exCyc := field b 8 4, exLatest := field b 12 4,
    brackets := (chunks 24 4 (b.drop 32)).map fun r =>
      { pointsMax := field r 0 4, cellsMax := field r 4 4, point := byteAt r 8, tailCyc := field r 12 4, tailFix := field r 16 4 },
    strokes := (chunks 64 (if 128 + 64 * n ≤ b.length then min n 4096 else 0) (b.drop 128)).map (parseStroke b),
    lenOk := Nat.ble (128 + 64 * n) b.length }

def sfield (b : List Byte) (off n : Nat) : Int := signed (8 * n) (field b off n)
/-- R132. -/
def parseSet (b : List Byte) : SetRec :=
  { parent := byteAt b 0, sx := byteAt b 1, sy := byteAt b 2, sz := byteAt b 3, kx := byteAt b 4, ky := byteAt b 5,
    kz := byteAt b 6, cap := field b 8 4, keylist := field b 12 4 }
/-- R113, R132. DESIGN CHOICE (log 20): no rule gives a reason for reserved bytes of the front configuration or of a set record that are
not 0, and the model does not look at them. -/
def parseFront (b : List Byte) : Front :=
  let bev := field b 96 8
  { edgeX := field b 0 2, edgeY := field b 2 2, edgeZ := field b 4 2, originX := sfield b 8 4, originY := sfield b 12 4,
    originZ := sfield b 16 4, extX := field b 20 2, extY := field b 22 2, extZ := field b 24 2, nf := byteAt b 26,
    missRatio := byteAt b 27, celltab := field b 32 8, context := field b 40 8, pointmap := field b 48 8,
    features := field b 56 8, feat := bytesAt b 64 32, bevW := bitsOf bev 9 0 + 1, bevH := bitsOf bev 19 10 + 1,
    bevBX := bitsOf bev 23 20 + 1, bevBY := bitsOf bev 27 24 + 1, bevX0 := sfield b 104 2, bevY0 := sfield b 106 2,
    sets := (chunks 16 8 (b.drop 128)).map parseSet, rulings := Config.rulingRecords (b.drop 256),
    cameras := Config.cameraRecords (b.drop 256) }

/-- R248. -/
def parseTable (b : List Byte) : MapTable :=
  { nlevels := byteAt b 0, train := byteAt b 1, tenant := byteAt b 2, skew := byteAt b 3, region := field b 4 2,
    work := field b 6 2, lrows := field b 8 4, updMax := field b 12 4, migMax := field b 16 4, refreshN := field b 20 2,
    lr := wordAt b 24, beta1 := wordAt b 28, beta2 := wordAt b 32, eps := wordAt b 36,
    levels := (chunks 8 (min (byteAt b 0) 16) (b.drop 64)).map fun l => { edge := wordAt l 0, log2 := byteAt l 4 } }
/-- Reserved bytes of a table record, and its unused level records (R248). -/
def tableRsvdOk (b : List Byte) : Bool :=
  let n := min (byteAt b 0) 16
  zeroAt b 22 2 && zeroAt b 40 24 && ((chunks 8 n (b.drop 64)).all fun l => zeroAt l 5 3) && allZero (b.drop (64 + 8 * n))
/-- R247. -/
def parseSitemap (b : List Byte) : SiteMap :=
  { tailcache := field b 2 2, tailSlots := field b 4 2, tailRing := field b 6 2, deltaRing := field b 8 2,
    tailTimeout := field b 12 4, ntables := byteAt b 0, tables := (chunks 192 (min (byteAt b 0) 8) (b.drop 64)).map parseTable,
    rsvdOk := zeroAt b 1 1 && zeroAt b 10 2 && zeroAt b 16 48 && (chunks 192 (min (byteAt b 0) 8) (b.drop 64)).all tableRsvdOk }

/-- R331. -/
def parseClass (b : List Byte) : ThermClass :=
  let n := byteAt b 1
  { stages := byteAt b 0, hsteps := n, horizon := wordAt b 4, tjLimit := wordAt b 8, tjTrip := wordAt b 12, rjc := wordAt b 16,
    eRef := wordAt b 20, iRef := wordAt b 24, vRef := wordAt b 28, ntcMargin := wordAt b 32, phi := wordsAt b 128 64,
    gamma := wordsAt b 384 8, eta := wordsAt b 416 8,
    rows := (chunks 64 n (b.drop 448)).map fun r => { a := wordsAt r 0 8, b := wordAt r 32, e := wordAt r 36 } }
/-- Class records follow one another, each 448 + 64·HSTEPS bytes. -/
def parseClasses : Nat → List Byte → List ThermClass
  | 0, _ => []
  | k + 1, b => parseClass b :: parseClasses k (b.drop (448 + 64 * byteAt b 1))
/-- R311 to R313: header 64, motion 128, motors 128, switch map 192, then the classes. -/
def parseScribe (b : List Byte) : ScribeCfg :=
  let f := byteAt b 4
  let mot := b.drop 64
  { envRing := field b 0 2, resultRing := field b 2 2, kin := bitOf f 0, therm := bitOf f 1, health := bitOf f 2,
    motors := byteAt b 5, msHold := byteAt b 6, telemHold := byteAt b 7, coverFirst := field b 8 2, coverLast := field b 10 2,
    inverters := byteAt b 13, motion := wordsAt mot 0 14, classR := (List.range 16).map fun i => field mot (64 + 2 * i) 2,
    classV := (List.range 16).map fun i => field mot (96 + 2 * i) 2,
    motor := (chunks 16 8 (b.drop 192)).map fun r =>
      { rWheel := wordAt r 0, gear := wordAt r 4, share := wordAt r 8, tqMax := wordAt r 12 },
    switches := (chunks 4 48 (b.drop 320)).map fun r =>
      { inverter := byteAt r 0, cls := byteAt r 1, motor := byteAt r 2, enabled := bitOf (byteAt r 3) 0 },
    classes := parseClasses (min (byteAt b 12) 8) (b.drop 512),
    rsvdOk := decide (f < 8) && zeroAt b 14 50 && zeroAt mot 56 8 && decide (byteAt b 12 ≤ 8) }

/-- R353. -/
def parseSafety (b : List Byte) : SafetyCfg :=
  let m := byteAt b 0
  { rangeMode := bitOf m 0, powerMode := bitOf m 1, scanners := byteAt b 1, proofK := byteAt b 2, proofH := byteAt b 3,
    proofE := byteAt b 4, proofW := field b 6 2, seed := wordAt b 8, testPoints := field b 12 2, testRows := byteAt b 14,
    testSamples := byteAt b 15, vals := wordsAt b 16 25, tqM := (List.range 8).map fun i => field b (128 + 2 * i) 2,
    poses := (chunks 32 16 (b.drop 160)).map fun r => wordsAt r 0 7,
    rsvdOk := decide (m < 4) && zeroAt b 5 1 && zeroAt b 116 12 && zeroAt b 144 16 }

/-- R406. -/
def parseTime (b : List Byte) : TimeCfg :=
  let m := byteAt b 0
  { ring := bitOf m 0, peer := bitOf m 1, master := bitOf m 2, upWest := bitOf m 3, domain := byteAt b 1, lossN := byteAt b 2,
    intervalUs := field b 4 4, tcMs := field b 8 4, stepMax := if field b 12 4 == 0 then 1000 else field b 12 4,
    delayMax := field b 16 4, rsvdOk := decide (m < 16) && zeroAt b 3 1 && zeroAt b 20 12 }

/-- R415. -/
def parsePeer (b : List Byte) : PeerCfg :=
  { ports := BitVec.ofNat 4 (byteAt b 0), windows := byteAt b 1, graceUs := field b 4 4,
    wins := (chunks 32 (min (byteAt b 1) 64) (b.drop 32)).map fun r =>
      { region := field r 0 2, openAtRun := bitOf (byteAt r 2) 0, maxLag := byteAt r 3, writers := r.getD 4 0, expect := r.getD 5 0 },
    rsvdOk := decide (byteAt b 0 < 16) && zeroAt b 2 2 && zeroAt b 8 24 &&
      (chunks 32 (min (byteAt b 1) 64) (b.drop 32)).all fun r => decide (byteAt r 2 < 2) && zeroAt r 6 26 }

/-- R470: header, blocks, input, then the references at the end; the CRC of R365 over the references quantised. No rule gives a reason
for a header out of its ranges; the load check refuses it as it does a reference (R366; log 20). -/
def parseExemplar (b : List Byte) : ExemplarCfg :=
  let n := field b 16 4
  let inLen := field b 4 4
  let refs := wordsAt b (b.length - 4 * n) n
  { hdrOk := decide (1 ≤ field b 0 4) && decide (field b 0 4 ≤ 16) && (byteAt b 12 == 6 || byteAt b 12 == 7) && zeroAt b 13 3
      && zeroAt b 20 44 && decide (64 + inLen + 4 * n ≤ b.length)
    nblocks := field b 0 4, outFmt := byteAt b 12, elements := n, outOffset := field b 8 4,
    blocks := bytesAt b 64 (b.length - 4 * n - inLen - 64), input := bytesAt b (b.length - 4 * n - inLen) inLen, refs := refs, crc := 0 }

/-- R471. -/
def Image.withChannel (i : Image) (b : List Byte) : Image :=
  let t := field b 0 4
  { i with
    tickSrc := bitsOf t 1 0, tickN := bitsOf t 5 2 + 1, tickTol := bitsOf t 15 8, periodNs := field b 4 4, phaseNs := field b 8 4,
    hbTimeoutUs := field b 12 4, chCap := field b 16 2, version := wordAt b 20,
    chanRsvdOk := bitsOf t 7 6 == 0 && bitsOf t 31 16 == 0 && zeroAt b 18 2 && zeroAt b 24 40 }

/-- R474: the content of a matched section takes effect (TENANT and RINGS are handled by their steps). -/
def Image.withSection (i : Image) (e : SectEntry) (idx : Nat) (b : List Byte) : Image :=
  match e.type with
  | 1 => { i with tenant := some (byteAt b 0) }
  | 2 => i.withChannel b
  | 3 => { i with regions := parseRegions b, regionsOk := b.length % 32 == 0 && decide (b.length ≤ 32768) }
  | 4 => { i with ringsOk := ringsPlaced b }
  | 5 => { i with allocs := parseAllocs b, allocsOk := b.length % 16 == 0 && decide (b.length ≤ 8192) }
  | 6 => { i with ductus := some (parseDuctus b) }
  | 7 => { i with front := some (parseFront b) }
  | 8 => { i with sitemap := some (parseSitemap b) }
  | 9 => { i with scribe := some (parseScribe b) }
  | 10 => { i with safety := some (parseSafety b) }
  | 11 => { i with time := some (parseTime b) }
  | 12 => { i with peer := some (parsePeer b) }
  | 13 => { i with exemplar := some (parseExemplar b) }
  | 14 => { i with dataDest := i.dataDest ++ [(idx, e.dest, e.len)] }
  | _ => i

end Sys2Proof.Machine
end

