-- ==== Sys2Proof/Machine/Float.lean ====
section
/-! DEFINITION. Floating-point arithmetic as the chapters use it: FP32 with round-to-nearest-even (R116, R162, R307),
the FP16, BF16, E4M3 and E5M2 formats of R158, directed rounding for R274, and fixed-point values of the
trigonometric and exponential functions. Every value is its bit pattern; arithmetic is exact and rounded once. -/
namespace Sys2Proof.Machine

/-- A binary format: exponent bits, fraction bits, and whether the top exponent holds infinities and NaNs (R158: E4M3 does not). -/
structure FFmt where
  ebits : Nat
  mbits : Nat
  ieee  : Bool
  deriving DecidableEq, Repr

def FFmt.f32 : FFmt := ⟨8, 23, true⟩
def FFmt.f16 : FFmt := ⟨5, 10, true⟩
def FFmt.bf16 : FFmt := ⟨8, 7, true⟩
def FFmt.e4m3 : FFmt := ⟨4, 3, false⟩
def FFmt.e5m2 : FFmt := ⟨5, 2, true⟩

def FFmt.bias (f : FFmt) : Nat := 2 ^ (f.ebits - 1) - 1
def FFmt.width (f : FFmt) : Nat := 1 + f.ebits + f.mbits
/-- The first magnitude that is no finite number: infinity, or E4M3's NaN (S.1111.111b). -/
def FFmt.topMag (f : FFmt) : Nat :=
  if f.ieee then (2 ^ f.ebits - 1) * 2 ^ f.mbits else 2 ^ (f.ebits + f.mbits) - 1
/-- The exponent of the least quantum: a magnitude below 2^mbits counts units of it. -/
def FFmt.qmin (f : FFmt) : Int := 1 - (f.bias : Int) - (f.mbits : Int)

/-- A decoded value: NaN, an infinity, or (−1)^neg · m · 2^e. -/
inductive FVal where
  | nan
  | inf (neg : Bool)
  | fin (neg : Bool) (m : Nat) (e : Int)
  deriving DecidableEq, Repr

def FFmt.decode (f : FFmt) (bits : Nat) : FVal :=
  let neg := (bits / 2 ^ (f.ebits + f.mbits)) % 2 == 1
  let mag := bits % 2 ^ (f.ebits + f.mbits)
  if mag ≥ f.topMag then
    if f.ieee && mag == f.topMag then .inf neg else .nan
  else
    let ex := mag / 2 ^ f.mbits
    let fr := mag % 2 ^ f.mbits
    if ex == 0 then .fin neg fr f.qmin
    else .fin neg (2 ^ f.mbits + fr) (f.qmin + (ex : Int) - 1)

/-- Rounding directions: to nearest even, toward −∞, toward +∞. -/
inductive RMode where
  | rne | down | up
  deriving DecidableEq, Repr

/-- The bits of format `f` nearest (by `mode`) to the non-negative magnitude n/d with sign `neg`; a magnitude beyond the
range gives the infinity pattern (or E4M3's NaN pattern), which callers that saturate replace. -/
def FFmt.roundRat (f : FFmt) (mode : RMode) (neg : Bool) (n d : Nat) : Nat :=
  let sgn := if neg then 2 ^ (f.ebits + f.mbits) else 0
  if n == 0 || d == 0 then sgn else
  let e0 : Int := (Nat.log2 n : Int) - (Nat.log2 d : Int)
  -- e = floor(log2 (n/d))
  let below : Bool := if e0 ≥ 0 then n < d * 2 ^ e0.toNat else n * 2 ^ (-e0).toNat < d
  let e : Int := if below then e0 - 1 else e0
  let q : Int := max (e - (f.mbits : Int)) f.qmin
  let num := if q ≥ 0 then n else n * 2 ^ (-q).toNat
  let den := if q ≥ 0 then d * 2 ^ q.toNat else d
  let quo := num / den
  let rem := num % den
  let up : Bool := match mode with
    | .rne => 2 * rem > den || (2 * rem == den && quo % 2 == 1)
    | .down => neg && rem > 0
    | .up => !neg && rem > 0
  let mq := if up then quo + 1 else quo
  let mag := (q - f.qmin).toNat * 2 ^ f.mbits + mq
  -- past the largest finite value, a rounding away from the value's sign stops there (IEEE 754)
  let inward : Bool := match mode with
    | .rne => false
    | .down => !neg
    | .up => neg
  sgn + min mag (if f.ieee && inward then f.topMag - 1 else f.topMag)

/-- Round m·2^e. -/
def FFmt.roundDy (f : FFmt) (mode : RMode) (neg : Bool) (m : Nat) (e : Int) : Nat :=
  if e ≥ 0 then f.roundRat mode neg (m * 2 ^ e.toNat) 1 else f.roundRat mode neg m (2 ^ (-e).toNat)

def FFmt.encode (f : FFmt) (mode : RMode) : FVal → Nat
  | .nan => if f.ieee then f.topMag + 2 ^ (f.mbits - 1) else f.topMag
  | .inf neg => (if neg then 2 ^ (f.ebits + f.mbits) else 0) + f.topMag
  | .fin neg m e => f.roundDy mode neg m e

/-! ### Exact arithmetic on decoded values -/

/-- The signed integer of m·2^e in units of 2^u, for u ≤ e. -/
def FVal.alignInt (neg : Bool) (m : Nat) (e u : Int) : Int :=
  let v : Int := (m * 2 ^ (e - u).toNat : Nat)
  if neg then -v else v

/-- Exact sum; a zero sum of unlike signs is +0, of like signs keeps the sign. -/
def FVal.add : FVal → FVal → FVal
  | .nan, _ => .nan
  | _, .nan => .nan
  | .inf a, .inf b => if a == b then .inf a else .nan
  | .inf a, _ => .inf a
  | _, .inf b => .inf b
  | .fin na ma ea, .fin nb mb eb =>
    let u := min ea eb
    let s := FVal.alignInt na ma ea u + FVal.alignInt nb mb eb u
    if s == 0 then .fin (na && nb) 0 u else .fin (s < 0) s.natAbs u

def FVal.neg : FVal → FVal
  | .nan => .nan
  | .inf a => .inf (!a)
  | .fin a m e => .fin (!a) m e

def FVal.abs : FVal → FVal
  | .nan => .nan
  | .inf _ => .inf false
  | .fin _ m e => .fin false m e

def FVal.mul : FVal → FVal → FVal
  | .nan, _ => .nan
  | _, .nan => .nan
  | .inf a, .inf b => .inf (a != b)
  | .inf a, .fin b m _ => if m == 0 then .nan else .inf (a != b)
  | .fin a m _, .inf b => if m == 0 then .nan else .inf (a != b)
  | .fin a m e, .fin b n g => .fin (a != b) (m * n) (e + g)

def FVal.isNaN : FVal → Bool
  | .nan => true
  | _ => false

/-- a < b on the extended reals (false with a NaN). -/
def FVal.lt : FVal → FVal → Bool
  | .nan, _ => false
  | _, .nan => false
  | .inf a, .inf b => a && !b
  | .inf a, _ => a
  | _, .inf b => !b
  | .fin na ma ea, .fin nb mb eb =>
    let u := min ea eb
    decide (FVal.alignInt na ma ea u < FVal.alignInt nb mb eb u)

/-- a ≤ b on the extended reals (false with a NaN). -/
def FVal.le (a b : FVal) : Bool := !a.isNaN && !b.isNaN && !(FVal.lt b a)

/-- floor of m·2^e as an integer; 0 for NaN and infinities (callers treat those first). -/
def FVal.floorInt : FVal → Int
  | .fin neg m e =>
    if e ≥ 0 then FVal.alignInt neg m e 0
    else
      let d : Int := (2 ^ (-e).toNat : Nat)
      (if neg then -(m : Int) else (m : Int)) / d
  | _ => 0

/-- Integer square root by bits, from bit `k` down. -/
def isqrtGo (n : Nat) : Nat → Nat → Nat
  | 0, r => r
  | k + 1, r =>
    let c := r + 2 ^ k
    isqrtGo n k (if c * c ≤ n then c else r)

def isqrt (n : Nat) : Nat := isqrtGo n (Nat.log2 n / 2 + 1) 0

/-! ### FP32 operations, each rounded to nearest even -/

namespace F32

def dec (a : Word) : FVal := FFmt.f32.decode a.toNat
def enc (v : FVal) : Word := BitVec.ofNat 32 (FFmt.f32.encode .rne v)
def zero : Word := 0x00000000#32
def one : Word := 0x3F800000#32
def two : Word := 0x40000000#32
def pinf : Word := 0x7F800000#32
def ninf : Word := 0xFF800000#32
/-- The NaN every NaN result is written as (R162). -/
def qnan : Word := 0x7FC00000#32

def add (a b : Word) : Word := enc (FVal.add (dec a) (dec b))
def neg (a : Word) : Word := a ^^^ 0x80000000#32
def abs (a : Word) : Word := a &&& 0x7FFFFFFF#32
def sub (a b : Word) : Word := enc (FVal.add (dec a) (FVal.neg (dec b)))
def mul (a b : Word) : Word := enc (FVal.mul (dec a) (dec b))
/-- a·b + c with one rounding. -/
def fma (a b c : Word) : Word := enc (FVal.add (FVal.mul (dec a) (dec b)) (dec c))
def isNaN (a : Word) : Bool := (dec a).isNaN
def isInf (a : Word) : Bool := abs a == pinf
def isFinite (a : Word) : Bool := !(isNaN a) && !(isInf a)
def lt (a b : Word) : Bool := FVal.lt (dec a) (dec b)
def le (a b : Word) : Bool := FVal.le (dec a) (dec b)
def gt (a b : Word) : Bool := lt b a
def ge (a b : Word) : Bool := le b a
def eqv (a b : Word) : Bool := le a b && le b a
def floorInt (a : Word) : Int := (dec a).floorInt

def divV : FVal → FVal → Nat
  | .nan, _ => FFmt.f32.encode .rne .nan
  | _, .nan => FFmt.f32.encode .rne .nan
  | .inf _, .inf _ => FFmt.f32.encode .rne .nan
  | .inf a, .fin b _ _ => FFmt.f32.encode .rne (.inf (a != b))
  | .fin a _ _, .inf b => FFmt.f32.encode .rne (.fin (a != b) 0 0)
  | .fin a m e, .fin b n g =>
    if n == 0 then FFmt.f32.encode .rne (if m == 0 then .nan else .inf (a != b))
    else
      let x := e - g
      if x ≥ 0 then FFmt.f32.roundRat .rne (a != b) (m * 2 ^ x.toNat) n
      else FFmt.f32.roundRat .rne (a != b) m (n * 2 ^ (-x).toNat)

def div (a b : Word) : Word := BitVec.ofNat 32 (divV (dec a) (dec b))

/-- Correctly rounded square root: a root with 80 spare bits and a sticky bit. -/
def sqrtV : FVal → Nat
  | .nan => FFmt.f32.encode .rne .nan
  | .inf neg => FFmt.f32.encode .rne (if neg then .nan else .inf false)
  | .fin neg m e =>
    if m == 0 then FFmt.f32.encode .rne (.fin neg 0 0)
    else if neg then FFmt.f32.encode .rne .nan
    else
      let m1 := if e % 2 == 0 then m else 2 * m
      let e1 := if e % 2 == 0 then e else e - 1
      let big := m1 * 2 ^ 80
      let r := isqrt big
      let sticky := if r * r == big then 0 else 1
      FFmt.f32.roundDy .rne false (2 * r + sticky) (e1 / 2 - 41)

def sqrt (a : Word) : Word := BitVec.ofNat 32 (sqrtV (dec a))

/-- min and max of R177: a NaN operand gives NaN; R356's clamp uses them on numbers. -/
def min (a b : Word) : Word := if isNaN a || isNaN b then qnan else if lt b a then b else a
def max (a b : Word) : Word := if isNaN a || isNaN b then qnan else if lt a b then b else a
def clamp (x lo hi : Word) : Word := max lo (min x hi)

/-- INT32 (or any integer) to FP32, rounded to nearest even. -/
def ofInt (i : Int) : Word := enc (.fin (i < 0) i.natAbs 0)
def ofNat (n : Nat) : Word := enc (.fin false n 0)
/-- The FP32 value nearest n/d. -/
def ofRat (neg : Bool) (n d : Nat) : Word := BitVec.ofNat 32 (FFmt.f32.roundRat .rne neg n d)

/-- floor(a · n) for a finite a, exactly. -/
def floorMul (a : Word) (n : Nat) : Int := (FVal.mul (dec a) (.fin false n 0)).floorInt

/-- Flush a subnormal to +0, −0 to +0, and write every NaN as 7FC0_0000h (R162). -/
def flush (a : Word) : Word :=
  if isNaN a then qnan else if (abs a).toNat < 0x00800000 then zero else a

end F32

/-! ### Conversions between formats -/

/-- The FP32 bits of an element of format `f` (exact for FP16, BF16, FP8). -/
def FFmt.toF32 (f : FFmt) (bits : Nat) : Word := F32.enc (f.decode bits)

/-- An exact value in `f`, rounded by `mode`, saturated to the largest finite value of the sign when `sat` (R131, R179). -/
def FFmt.ofExact (f : FFmt) (mode : RMode) (sat : Bool) (v : FVal) : Nat :=
  let sgn : Bool → Nat := fun n => if n then 2 ^ (f.ebits + f.mbits) else 0
  match v with
  | .nan => f.encode mode .nan
  | .inf neg => if sat then sgn neg + (f.topMag - 1) else f.encode mode (.inf neg)
  | .fin neg m e =>
    let r := f.roundDy mode neg m e
    if sat && r % 2 ^ (f.ebits + f.mbits) == f.topMag then sgn neg + (f.topMag - 1) else r
def FFmt.ofF32 (f : FFmt) (mode : RMode) (sat : Bool) (a : Word) : Nat := f.ofExact mode sat (F32.dec a)

/-! ### Fixed-point elementary functions (scale 2^100), for R319, R320, R355 and the table of R177 -/

namespace Fix
/-- The scale: values are integers over 2^100. -/
def S : Nat := 2 ^ 100
/-- π·2^100, rounded down. -/
def pi : Nat := 3982441812995697363688351113952
/-- ln 2 · 2^100, rounded down. -/
def ln2 : Nat := 878668439483319573618263538048

def mul (a b : Int) : Int := a * b / (S : Int)

/-- Sum of a Taylor series: term k+1 is term k · x2 / den k. -/
def series (den : Nat → Int) (x2 : Int) : Nat → Nat → Int → Int → Int
  | 0, _, _, acc => acc
  | fuel + 1, k, term, acc =>
    let t := mul term x2 / den k
    series den x2 fuel (k + 1) t (acc + t)

/-- sin and cos of an angle in [0, π/2] (fixed-point radians). -/
def sin (x : Int) : Int := series (fun k => -(((2 * k + 2) * (2 * k + 3) : Nat) : Int)) (mul x x) 20 0 x x
def cos (x : Int) : Int := series (fun k => -(((2 * k + 1) * (2 * k + 2) : Nat) : Int)) (mul x x) 20 0 S S

/-- exp of a fixed-point x with |x| ≤ 1. -/
def expSmall (x : Int) : Int := series (fun k => ((k + 1 : Nat) : Int)) x 40 0 S S

/-- Powers of u = y²: Σ (−1)^k u^k /(2k+1), the body of atan's series. -/
def atanGo (y2 : Int) : Nat → Nat → Int → Int → Int
  | 0, _, _, acc => acc
  | fuel + 1, k, p, acc =>
    let p1 := -(mul p y2)
    atanGo y2 fuel (k + 1) p1 (acc + p1 / ((2 * k + 3 : Nat) : Int))

/-- atan of a fixed-point value in [0, 1], by halving the argument twice: atan y = 2·atan (y/(1+√(1+y²))). -/
def atanUnit (y : Int) : Int :=
  let half : Int → Int := fun z =>
    let r : Int := (isqrt (S * S + (z * z).natAbs) : Nat)
    z * (S : Int) / ((S : Int) + r)
  let z := half (half (half y))
  8 * atanGo (mul z z) 28 0 z z

/-- The angle of (x, y), both integers in one unit and not both zero, in [0, 2π), fixed-point. Multiples of π/4 are exact. -/
def angle (x y : Int) : Nat :=
  let ax := x.natAbs
  let ay := y.natAbs
  let q : Nat := -- angle of (ax, ay) in [0, π/2]
    if ay == 0 then 0
    else if ax == 0 then pi / 2
    else if ax == ay then pi / 4
    else if ay < ax then (atanUnit ((ay * S / ax : Nat) : Int)).toNat
    else pi / 2 - (atanUnit ((ax * S / ay : Nat) : Int)).toNat
  if x ≥ 0 then (if y ≥ 0 then q else (2 * pi - q) % (2 * pi))
  else (if y ≥ 0 then pi - q else pi + q)

/-- Fixed-point to FP32, to nearest even. -/
def toF32 (v : Int) : Word := F32.ofRat (v < 0) v.natAbs S

/-- exp of m·2^e (signed), as a pair (mantissa over 2^100, binary exponent). -/
def expV (neg : Bool) (m : Nat) (e : Int) : Int × Int :=
  let x : Int := FVal.floorInt (.fin neg (m * S) e)
  let k := x / (ln2 : Int)
  (expSmall (x - k * (ln2 : Int)), k)

/-- ln of a positive m·2^e, fixed-point: m in [1,2) by its log2, then 2·atanh((t−1)/(t+1)). -/
def lnV (m : Nat) (e : Int) : Int :=
  let l := Nat.log2 m
  let t : Int := (m * S / 2 ^ l : Nat)
  let u := (t - (S : Int)) * (S : Int) / (t + (S : Int))
  let rec go : Nat → Nat → Int → Int → Int
    | 0, _, _, acc => acc
    | fuel + 1, k, p, acc =>
      let p1 := mul p (mul u u)
      go fuel (k + 1) p1 (acc + p1 / ((2 * k + 3 : Nat) : Int))
  2 * go 40 0 u u + ((l : Int) + e) * (ln2 : Int)

end Fix

end Sys2Proof.Machine
end

