-- ==== Sys2Proof/Machine/Hash.lean ====
section
/-! DEFINITION. SHAKE256 (R445, R447, R469), the CRC-32 of R359 and R365, and the Galois LFSR of R368. -/
namespace Sys2Proof.Machine

/-! ### SHAKE256 over byte lists (PRESUMED: the manual names the standard, log 3) -/
namespace Shake

/-- The sponge's 1,600 bits as 25 lanes, lane (x, y) at 5y + x. -/
abbrev Sponge := List (BitVec 64)
def lane (s : Sponge) (x y : Nat) : BitVec 64 := s.getD (5 * (y % 5) + x % 5) 0#64
/-- A sponge lane by lane. -/
def build (f : Nat → Nat → BitVec 64) : Sponge := (List.range 25).map fun i => f (i % 5) (i / 5)

/-- θ: every lane takes the parities of the column to its left and, turned by one, of the column to its right. -/
def theta (s : Sponge) : Sponge :=
  let parity := (List.range 5).map fun x => (List.range 5).foldl (fun p y => p ^^^ lane s x y) 0#64
  build fun x y => lane s x y ^^^ parity.getD ((x + 4) % 5) 0 ^^^ (parity.getD ((x + 1) % 5) 0).rotateLeft 1
/-- ρ and π walk the same 24 places from (1, 0): the lane at step t turns by the t-th triangular number and moves to the walk's next
place. Lane (0, 0) stays. -/
def walk (s : Sponge) : Nat → Nat → Nat → Sponge → Sponge
  | 0, _, _, out => out
  | n + 1, x, y, out =>
    let t := 24 - n
    let y' := (2 * x + 3 * y) % 5
    walk s n y y' (out.set (5 * y' + y) ((lane s x y).rotateLeft (t * (t + 1) / 2 % 64)))
def rhoPi (s : Sponge) : Sponge := walk s 24 1 0 s
/-- χ, row by row. -/
def chi (s : Sponge) : Sponge := build fun x y => lane s x y ^^^ (lane s (x + 2) y &&& ~~~ lane s (x + 1) y)
/-- The register of the round constants after `t` shifts: x⁸ + x⁶ + x⁵ + x⁴ + 1. -/
def shifts : Nat → Byte
  | 0 => 1#8
  | t + 1 => let r := shifts t; if r.getLsbD 7 then (r <<< 1) ^^^ 0x71#8 else r <<< 1
/-- ι: in round `r` bit 2^j − 1 of lane (0, 0) is turned over where the register's bit j + 7r is 1. -/
def iota (r : Nat) (s : Sponge) : Sponge :=
  s.modifyHead fun l => (List.range 7).foldl (fun l j => if (shifts (j + 7 * r)).getLsbD 0 then l ^^^ (1#64 <<< (2 ^ j - 1)) else l) l
/-- The 24 rounds. -/
def permute (s : Sponge) : Sponge := (List.range 24).foldl (fun s r => iota r (chi (rhoPi (theta s)))) s

/-- The bytes SHAKE256 appends to a message of `n` bytes: 1111 and 1 to the end of a block of 136 bytes. -/
def pad (n : Nat) : List Byte :=
  let zeros := 135 - n % 136
  if zeros == 0 then [0x9F#8] else 0x1F#8 :: (List.replicate (zeros - 1) 0x00#8 ++ [0x80#8])
/-- 8 bytes as a lane, the first the lowest. -/
def laneOf (bs : List Byte) : BitVec 64 := bs.reverse.foldl (fun l b => (l <<< 8) ||| b.setWidth 64) 0#64
/-- A block of 17 lanes is taken in. -/
def takeIn (block : List Byte) (s : Sponge) : Sponge :=
  permute (build fun x y =>
    let i := 5 * y + x
    if i < 17 then lane s x y ^^^ laneOf ((block.drop (8 * i)).take 8) else lane s x y)

/-- The first `n` bytes of SHAKE256 of `m`, n at most 136 (the manual uses 16, 32 and 64). -/
def shake256 (n : Nat) (m : List Byte) : List Byte :=
  let p := m ++ pad m.length
  let s := (List.range (p.length / 136)).foldl (fun s i => takeIn ((p.drop (136 * i)).take 136) s) (List.replicate 25 0#64)
  (List.range n).map fun k => (lane s (k / 8 % 5) (k / 40) >>> (8 * (k % 8))).setWidth 8

end Shake

/-- One byte of the reflected IEEE 802.3 CRC-32. -/
def crc32Byte (c : Word) (b : Byte) : Word :=
  (List.range 8).foldl (fun c _ => if c.getLsbD 0 then (c >>> 1) ^^^ 0xEDB88320#32 else c >>> 1) (c ^^^ b.setWidth 32)

/-- The running register over more bytes; start at FFFF_FFFFh and complement at the end. -/
def crc32Run (c : Word) (bs : List Byte) : Word := bs.foldl crc32Byte c
def crc32Init : Word := 0xFFFFFFFF#32
def crc32 (bs : List Byte) : Word := ~~~ (crc32Run crc32Init bs)

/-- R368: 32 shifts of the LFSR. -/
def lfsrNext (s : Word) : Word :=
  (List.range 32).foldl (fun s _ => if s.getLsbD 0 then (s >>> 1) ^^^ 0x80200003#32 else s >>> 1) s

/-- R368: the start state of a message. -/
def lfsrStart (frametag seed : Word) : Word :=
  let s := frametag ^^^ seed
  if s == 0#32 then 1#32 else s

end Sys2Proof.Machine
end

