-- ==== Sys2Proof/Machine/Flags.lean ====
section
/-! DEFINITION. Doubts (R350, R351) and the OVERFLOW mark (R90, R126) of the frame in progress and of the open frame. -/
namespace Sys2Proof.Machine

/-- The bits of the doubt word (R350). -/
inductive Doubt where
  | exemplar | blanking | overflow | deadlineMiss | proof | recovering | latentFault | eccUe | clock | voltage
  | temperature | staleInput | heartbeat | authFail | epoch | syncMissing | timeStep | machineState | model | frozenInput
  deriving DecidableEq, Repr

def Doubt.mask (d : Doubt) : Word := 1#32 <<< d.ctorIdx

/-- A doubt of the frame being processed. -/
def Channel.doubt (d : Doubt) (c : Channel) : Channel := { c with doubtP := c.doubtP ||| d.mask }
/-- A doubt of the open input frame ("of the input"). -/
def Channel.doubtInput (d : Doubt) (c : Channel) : Channel := { c with doubtIn := c.doubtIn ||| d.mask }
def Channel.doubts (d : Doubt) (c : Channel) : Bool := c.doubtP &&& d.mask != 0#32

/-- Causes of OVERFLOW, bits of DETAIL0 (R126). -/
inductive Cause where
  | pointCap | cellCap | sweepCap | probe | missBudget | input | setCap | overflow | stream | clamp
  deriving DecidableEq, Repr

/-- Bit 7, OVERFLOW, is always 1. -/
def Cause.mask (x : Cause) : BitVec 10 := (1#10 <<< x.ctorIdx) ||| 0x080#10

/-- DETAIL0 of OVERFLOW: the causes known, bit 7 always 1 (R126). -/
def causeWord (x : BitVec 10) : Nat := (x ||| 0x080#10).toNat

/-- The frame number of the open input frame (log 12). -/
def Channel.openFrame (c : Channel) : Nat := if c.tick.ticking then c.tick.k + 1 else c.tick.k

/-- A record that bears on the open input frame. -/
def Hw.raiseIn (m : Ch) (sev : Severity) (code init : Nat) (d0 d1 : Option Nat) (hw : Hw) : Hw :=
  let r := { mkRec (hw.ch m) (some m) sev code init d0 d1 with k := (hw.ch m).openFrame }
  (hw.modCh m (Channel.putErr r)).modSig fun s => { s with log := logPut r s.log }

/-- R90 discards a packet: the open frame is marked OVERFLOW, and at the first cause its record says INPUT (R126). FRONT_STATUS's
INPUT bit is for SWEEP packets only, so other packets mark cause `.overflow`. -/
def Hw.overflowInput (m : Ch) (x : Cause) (hw : Hw) : Hw :=
  let c := hw.ch m
  let hw := hw.modCh m fun c => { c.doubtInput .overflow with causesIn := c.causesIn ||| x.mask, grd := { c.grd with overflowIn := true } }
  if c.grd.overflowIn then hw else hw.raiseIn m .doubt 0x92 (initIngest m) (some (causeWord (hw.ch m).causesIn ||| 0x20)) none

end Sys2Proof.Machine
end

