-- ==== Sys2Proof/Machine/Memory.lean ====
section
/-! DEFINITION. The memories as strokes and host-side writes reach them (chapter "Inkwell, Blotter, Reservoir and HBM"):
poison (R245), spans that are off (R242), the Blotter (R217, R218), the Reservoir (R224 to R227) and region cuts (R235). -/
namespace Sys2Proof.Machine

/-! ### Units, fencing and blocked transactions (R380 to R383) -/

/-- Cores that a CORES field names. -/
def coresOf (mask : Nat) : List Nat := [0, 1, 2, 3].filter (bitOf mask)
/-- Initiator of a unit: 0 to 3 compute units, 4 to 7 transfer engines, 8 peer engine, 9 Scribe, 10 Margin (R380, R383). -/
def unitInit (m : Ch) (u : Nat) : Nat := if u == 8 then initPeer m else if u == 9 then initScribe m else if u == 10 then initMargin m else 14 * m.val + u
/-- The fence bits a stroke names (R383). -/
def fenceNames (kind cores : Nat) : List Nat :=
  match kind with
  | 0 | 8 => (coresOf cores).map (4 + ·)
  | 9 => [8]
  | 7 | 11 => []
  | _ => coresOf cores

/-- A firewall blocks a transaction to `addr` of initiator `init`: CH_FW_BLOCKS, the doubt and FIREWALL_BLOCK (R350, R382). -/
def Hw.blocked (m : Ch) (init addr : Nat) (hw : Hw) : Hw :=
  (hw.modCh m fun c => (c.bump .fwBlocks 1).doubt .latentFault).raise m .doubt 0x9E init (some init) (some (addr / 64))
/-- A transaction of a fenced unit counts in MRG_FENCE_HITS too (R383). -/
def Channel.fenceHit (m : Ch) (u : Nat) (c : Channel) : Channel :=
  { c.bump .fenceHits 1 with
    grd := { c.grd with fenceHitsTick := c.grd.fenceHitsTick + 1, fenceFirst := some (c.grd.fenceFirst.getD (unitInit m u)) } }
def Hw.fenceHit (m : Ch) (u addr : Nat) (hw : Hw) : Hw := (hw.blocked m (unitInit m u) addr).modCh m (Channel.fenceHit m u)

/-- The writes of unit `u` that a stroke in flight had still to make are not made, nor are its hairpin packets handed over (R383). -/
def Channel.cutFlights (u : Nat) (c : Channel) : Channel :=
  let left := fun (f : Flight) => (f.undo.take (f.undo.length - f.keep)).filter (·.unit == u)
  { (c.duct.flight.foldl (fun c f => (left f).foldl (fun c x => c.undoOne x) c) c) with
    hairQ := c.hairQ.filter fun h => h.stroke.isNone || h.unit != u
    duct := { c.duct with flight := c.duct.flight.map fun f => { f with undo := (f.undo.take (f.undo.length - f.keep)).filter (·.unit != u) ++ f.undo.drop (f.undo.length - f.keep) } } }
/-- Their addresses. -/
def Channel.cutAddrs (u : Nat) (c : Channel) : List Nat :=
  (c.duct.flight.flatMap fun f => ((f.undo.take (f.undo.length - f.keep)).filter fun x => x.unit == u && x.mem != 5).map fun x => 64 * x.granule)
    ++ (c.hairQ.filter fun h => h.stroke.isSome && h.unit == u).map (·.addr)

/-- A unit is declared failed and fenced; what it still does for strokes in flight is blocked. -/
def Hw.fence (m : Ch) (u : Nat) (hw : Hw) : Hw :=
  if (hw.ch m).fenced.contains u then hw else
  let cut := (hw.ch m).cutAddrs u
  let hw := hw.modCh m fun c => { (c.cutFlights u).doubt .latentFault with fenced := insertNat c.fenced u }
  let hw := cut.foldl (fun h a => h.fenceHit m u a) hw
  if (hw.ch m).st == .run then hw.enter m .margin 0 else hw
/-- MARGIN_FAULT: the pins go to 0, 0 and 1 at once (R352). -/
def Hw.marginFault (m : Ch) (hw : Hw) : Hw :=
  (hw.modCh m (Channel.setPins hw.now Pins.stopOnly)).raise m .channelStop 0xA0 (initMargin m) none none
def Hw.scribeFault (m : Ch) (hw : Hw) : Hw := hw.raise m .channelStop 0xA1 (initScribe m) none none

/-- A transaction of a unit is blocked: counted as a hit where the unit is fenced already; else a core's units or the peer
engine are fenced, and the Scribe and Margin raise their faults (R382, R383). -/
def Hw.fwBlock (m : Ch) (u addr : Nat) (hw : Hw) : Hw :=
  if (hw.ch m).fenced.contains u then hw.fenceHit m u addr else
  let hw := hw.blocked m (unitInit m u) addr
  if u < 9 then hw.fence m u
  else if u == 9 then hw.scribeFault m
  else hw.marginFault m

/-! ### The work of a stroke -/

/-- What a stroke works on while it runs: its channel, the records it raises (newest first), the free-value counter, the
poisoned granules it has already reported, whether its REGION_CUT record is raised, and the enabled arrays per core. `unit` is
the unit that acts (R380), but for the compute units of a core that reach their own Inkwell and Reservoir; `made` counts the
transactions of each unit while `stray` ones are still to come; `blocks` are blocked transactions, newest first. `undo` is
what the writes replaced, and `miss` the fills and write-backs of Reservoir lines (R226). -/
structure Sx where
  m : Ch
  idx : Nat
  arrays : Nat
  c : Channel
  recs : List (Severity × Nat × Nat × Option Nat × Option Nat)
  ctr : Nat
  ue : List (Nat × Nat × Nat)
  cut : Bool
  unit : Nat
  made : List (Nat × Nat)
  stray : List FwObs
  blocks : List (Nat × Nat)
  undo : List Undo
  miss : Nat

/-- The work of a stroke. -/
abbrev K := StateM Sx

def K.chan : K Channel := do return (← get).c
def K.mod (f : Channel → Channel) : K Unit := modify fun s => { s with c := f s.c }
def K.err (sev : Severity) (code init : Nat) (d0 d1 : Option Nat) : K Unit :=
  modify fun s => { s with recs := (sev, code, init, d0, d1) :: s.recs }
def K.bump (x : Ctr) (n : Nat) : K Unit := if n == 0 then pure () else K.mod (Channel.bump x n)
/-- A free number (log 7). -/
def K.free : K Nat := do
  let s ← get
  modify fun s => { s with ctr := s.ctr + 1 }
  return Config.freeNat s.ctr
/-- The unit that acts from here on. -/
def K.act (u : Nat) : K Unit := modify fun s => { s with unit := u }

/-- Before a stroke's work: `u` acts first. -/
def Sx.start (m : Ch) (idx arrays ctr u : Nat) (stray : List FwObs) (c : Channel) : Sx :=
  { m := m, idx := idx, arrays := arrays, c := c, recs := [], ctr := ctr, ue := [], cut := false, unit := u, made := [],
    stray := stray, blocks := [], undo := [], miss := 0 }
/-- Enabled arrays of a core (R3). -/
def Hw.arrays (hw : Hw) : Nat := if hw.dev.fuses.grade1630 then 3 else 4
/-- A faulty unit's transactions that no access of the stroke carried are blocked on their own. -/
def Sx.blocked (s : Sx) : List (Nat × Nat) := s.blocks.reverse ++ s.stray.map fun o => (o.unit, o.addr)
/-- Run a stroke's work on channel m; `f` keeps what it leaves behind; then raise its records in order and account for its
blocked transactions. -/
def Hw.runKWith (m : Ch) (idx u : Nat) (stray : List FwObs) (k : K Unit) (f : Sx → Channel → Channel) (hw : Hw) : Hw :=
  let s := (k.run (Sx.start m idx hw.arrays hw.freeCtr u stray (hw.ch m))).2
  let hw := { hw.setCh m s.c with freeCtr := s.ctr }
  let hw := s.recs.foldr (fun r h => h.raise m r.1 r.2.1 r.2.2.1 r.2.2.2.1 r.2.2.2.2) hw
  let hw := s.blocked.foldl (fun h b => h.fwBlock m b.1 b.2) hw
  hw.modCh m (f s)
/-- Work of unit `u` outside a stroke's issue. -/
def Hw.runK (m : Ch) (idx u : Nat) (k : K Unit) (hw : Hw) : Hw := hw.runKWith m idx u [] k fun _ c => c

/-- HBM addresses that no region, or a region of the channel's tenant, holds (R381). -/
def Channel.tenantOk (c : Channel) (a : Nat) : Bool :=
  let rs := c.img.regions.filter fun r => decide (r.base ≤ a) && decide (a < r.base + (if r.input then 2 * r.len else r.len))
  rs.isEmpty || rs.any fun r => r.tenant == c.img.tenant.getD 0
/-- The firewall judges a transaction of unit `u` to `addr` (R381 to R383): whether it is performed. -/
def K.permit (u addr : Nat) (hbm : Bool) : K Bool := do
  let s ← get
  let n := (assoc s.made u).getD 0
  let block := fun (a : Nat) (rest : List FwObs) => modify fun (s : Sx) => { s with blocks := (u, a) :: s.blocks, stray := rest }
  match s.stray.find? fun o => o.unit == u && o.after == n with
  | some o => block o.addr (s.stray.erase o); return false
  | none =>
    if !s.stray.isEmpty then modify fun s => { s with made := assocSet s.made u (n + 1) }
    if s.c.fenced.contains u || (u < 9 && s.blocks.any (·.1 == u)) || (hbm && !(s.c.tenantOk addr)) then
      block addr s.stray; return false
    return true
/-- The unit that reaches core `j`'s own Inkwell or Reservoir (R381). -/
def K.unitAt (j : Nat) : K Nat := do
  let u := (← get).unit
  return if u < 4 then j else u

/-- The elements picked one by one in a free order (R169, R225; logs 9 and 14). -/
def shuffleGo {α : Type} : Nat → Nat → List α → List α
  | 0, _, l => l
  | n + 1, k, l =>
    let i := Config.freeNat k % l.length
    match l[i]? with
    | some x => x :: shuffleGo n (k + 1) (l.eraseIdx i)
    | none => l
def K.shuffle {α : Type} (l : List α) : K (List α) := do
  let s ← get
  modify fun s => { s with ctr := s.ctr + l.length }
  return shuffleGo l.length s.ctr l

/-! ### ECC and poison -/

/-- Granules that [a, a + n) touches. -/
def granules (a n : Nat) : List Nat := if n == 0 then [] else (List.range ((a + n - 1) / 64 - a / 64 + 1)).map (· + a / 64)
def storageCode : Storage → Nat
  | .inkwell => 0
  | .blotter => 1
  | .reservoir => 2
  | .hbm => 3
def storageUeCtr : Storage → Ctr
  | .inkwell => .ueInk
  | .blotter => .ueBlt
  | .reservoir => .ueRsv
  | .hbm => .ueHbm
def storageUeSticky : Storage → Sticky
  | .inkwell => .ueInk
  | .blotter => .ueBlt
  | .reservoir => .ueRsv
  | .hbm => .ueHbm
def storageCeSticky : Storage → Sticky
  | .inkwell => .ceInk
  | .blotter => .ceBlt
  | .reservoir => .ceRsv
  | .hbm => .ceHbm
/-- DETAIL0 of ECC_UE (R245). -/
def eccPlace (st : Storage) (core g : Nat) : Nat := (if st == .hbm then 0 else core * 2 ^ 29) + g % 2 ^ 27
/-- A stroke reads an uncorrectable granule (R245): doubt, record, counter; once for each granule and stroke. -/
def K.eccUe (st : Storage) (core g : Nat) : K Unit := do
  let s ← get
  if s.ue.contains ((storageCode st), core, g) then return
  modify fun s => { s with ue := ((storageCode st), core, g) :: s.ue }
  K.mod fun c => ((c.doubt .eccUe).bump (storageUeCtr st) 1).stick (storageUeSticky st)
  K.err .doubt 0x64 (initScribe s.m) (some (eccPlace st core g)) (some (storageCode st))
/-- Poisoned data for `n` bytes at `a` of memory `mem` (0 to 3 Inkwell, 4 HBM; R242, R245). -/
def K.poisoned (mem a n : Nat) : K (List Byte) := do
  let s ← get
  modify fun s => { s with ctr := s.ctr + 1 }
  return (List.range n).map fun i => Config.poisonByte s.ctr mem (a + i)
/-- The bytes, those of poisoned granules replaced by open values. -/
def K.spoil (mem a : Nat) (bs : List Byte) (gs : List (Nat × Bool)) : K (List Byte) := do
  if !(gs.any (·.2)) then return bs
  let xs ← K.poisoned mem a bs.length
  return ((bs.zip xs).zipIdx a).map fun (b, i) => if gs.any (fun g => g.1 == i / 64 && g.2) then b.2 else b.1
/-- A read that a firewall blocks returns poisoned data (R382). -/
def K.blockedRead (st : Storage) (mem core a n : Nat) : K (List Byte × List (Nat × Bool)) := do
  (granules a n).forM fun g => K.eccUe st core g
  return (← K.poisoned mem a n, (granules a n).map fun g => (g, true))

/-- A correctable error is counted, and in HBM the granule that is written back (R246, R501; log 14). -/
def Channel.countCe (st : Storage) (c : Channel) : Channel :=
  let c := match st with
    | .inkwell => c.bump .ceInk 1
    | .reservoir => c.bump .ceRsv 1
    | .hbm => (c.bump .ceHbm 1).bump .perfHbmWr 64
    | .blotter => c
  if st == .blotter then c else c.stick (storageCeSticky st)
/-- R246: a correctable error is corrected and counted; the record at most once per tick for each storage kind. -/
def Hw.eccCe (m : Ch) (st : Storage) (init core g : Nat) (hw : Hw) : Hw :=
  let c := hw.ch m
  let hw := hw.modCh m (Channel.countCe st)
  if st == .blotter || c.grd.ceTick.contains (storageCode st) then hw
  else (hw.modCh m fun c => { c with grd := { c.grd with ceTick := (storageCode st) :: c.grd.ceTick } }).raise m .note 0x63 init
    (some (eccPlace st core g)) (some (storageCode st))

/-- The same, met in a stroke's work. -/
def K.eccCe (st : Storage) (core g : Nat) : K Unit := do
  let s ← get
  K.mod (Channel.countCe st)
  if !(s.c.grd.ceTick.contains (storageCode st)) then
    K.mod fun c => { c with grd := { c.grd with ceTick := (storageCode st) :: c.grd.ceTick } }
    K.err .note 0x63 (initCore s.m core) (some (eccPlace st core g)) (some (storageCode st))

/-! ### What a write replaces (R63) -/

/-- The granules' contents are kept before unit `u` writes them. -/
def K.keepOld (mem u : Nat) (gs : List Nat) : K Unit := modify fun s =>
  let k := coreMem s.c mem
  let old := fun (g : Nat) => if mem < 4 then { mem := mem, unit := u, granule := g, old := Cells.read ramDefault k.ink (64 * g) 64, bad := k.poison.contains g }
    else ({ mem := mem, unit := u, granule := g, old := Cells.read ramDefault s.c.hbm (64 * g) 64, bad := s.c.hbmPoison.contains g } : Undo)
  { s with undo := (gs.map old).reverse ++ s.undo }

/-! ### Inkwell -/

def CoreMem.spanIs (k : CoreMem) (a : Nat) (p : Span → Bool) : Bool :=
  match k.spans[a / 1048576]? with
  | some s => p s
  | none => false
/-- A span in use: on, or draining before its switch-off. Off and clearing spans are off (R243). -/
def Span.usable : Span → Bool
  | .on | .draining _ | .kept => true
  | _ => false
def CoreMem.offAt (k : CoreMem) (a : Nat) : Bool := !(k.spanIs a Span.usable)
def CoreMem.bad (k : CoreMem) (g : Nat) : Bool := k.poison.contains g || k.offAt (64 * g)

/-- A stroke's read of Inkwell `j`, with a flag for each granule: poisoned or off (R242, R245). -/
def K.readInkP (j a n : Nat) : K (List Byte × List (Nat × Bool)) := do
  if n == 0 then return ([], [])
  if !(← K.permit (← K.unitAt j) a false) then return (← K.blockedRead .inkwell j j a n)
  let k := coreMem (← K.chan) j
  let gs := (granules a n).map fun g => (g, k.bad g)
  for (g, b) in gs do
    if b then
      if k.offAt (64 * g) then K.mod (Channel.stick .offRead)
      K.eccUe .inkwell j g
  return (← K.spoil j a (Cells.read ramDefault k.ink a n) gs, gs)
/-- Blotter bytes merged over the bank's (R217). -/
def blotterOver (ls : List BlotterLine) (a : Nat) (bs : List Byte) : List Byte :=
  if ls.isEmpty then bs else
  (bs.zipIdx a).map fun (b, i) =>
    match ls.find? (·.granule == i / 64) with
    | some l => (l.bytes.find? (·.1 == i % 64)).elim b (·.2)
    | none => b
def K.readInk (j a n : Nat) : K (List Byte) := do
  let (bs, _) ← K.readInkP j a n
  return blotterOver (coreMem (← K.chan) j).blotter a bs

/-- Granules wholly inside [a, a + n). -/
def wholeGranules (a n : Nat) : List Nat := (granules a n).filter fun g => decide (a ≤ 64 * g) && decide (64 * g + 64 ≤ a + n)

/-- R242: a write that reaches a span that is off is refused; `a` is the first byte refused. -/
def K.late (j a : Nat) : K Unit := do
  K.mod fun c => (c.stick .lateWrite).bump .inkLate 1
  K.err .degraded 0x62 (unitInit (← get).m (← K.unitAt j)) (some a) (some j)
/-- Bytes land in a span that is on; a full granule clears poison, and poisoned data set it (`bad`; R245). -/
def K.storeInk (j a : Nat) (bs : List Byte) (bad : Bool) : K Unit :=
  let gone := if bad then [] else wholeGranules a bs.length
  let come := if bad then granules a bs.length else []
  K.mod fun c => c.modCore j fun k =>
    { k with ink := Cells.write ramDefault k.ink a bs, poison := come.foldl insertNat (k.poison.filter fun g => !(gone.contains g)) }
/-- A write to the banks, one access for each granule: refused where the span is off (R242); `bad` writes poisoned data. -/
def K.writeInkP (j a : Nat) (bs : List Byte) (bad : Bool) : K Unit := do
  if bs.isEmpty then return
  if !(← K.permit (← K.unitAt j) a false) then return
  let k := coreMem (← K.chan) j
  let gs := granules a bs.length
  K.keepOld j (← K.unitAt j) gs
  if gs.any fun g => k.offAt (64 * g) then
    for g in gs do
      let lo := max a (64 * g)
      let part := bytesAt bs (lo - a) (64 * g + 64 - lo)
      if k.offAt (64 * g) then K.late j lo else K.storeInk j lo part bad
  else K.storeInk j a bs bad
def K.writeInk (j a : Nat) (bs : List Byte) : K Unit := K.writeInkP j a bs false
/-- Write the granule poisoned (R235): a write like any other, which a firewall blocks (R382) and an off span refuses (R242). -/
def K.poisonInk (j g : Nat) : K Unit := do
  if !(← K.permit (← K.unitAt j) (64 * g) false) then return
  if (coreMem (← K.chan) j).offAt (64 * g) then K.late j (64 * g)
  else
    K.keepOld j (← K.unitAt j) [g]
    K.mod fun c => c.modCore j fun k => { k with poison := insertNat k.poison g }

/-! ### Blotter (R217, R218) -/

def blotLine (l : BlotterLine) (cells : List Host.Cell) : BlotterLine :=
  { l with bytes := cells.foldl (fun m c => assocSet m c.1 c.2) l.bytes }
/-- A line goes to its bank as one masked write: refused as one where the span is off (R218, R242). -/
def K.flushLine (j : Nat) (l : BlotterLine) : K Unit := do
  let a := 64 * l.granule + ((l.bytes.head?).map (·.1)).getD 0
  if !(← K.permit (← K.unitAt j) a false) then return
  if (coreMem (← K.chan) j).offAt a then K.late j a
  else
    K.keepOld j (← K.unitAt j) [l.granule]
    K.mod fun c => c.modCore j fun k =>
      { k with ink := l.bytes.foldl (fun m ob => Cells.write ramDefault m (64 * l.granule + ob.1) [ob.2]) k.ink }
/-- A nib store of bytes within one granule. -/
def K.blotStore (j g : Nat) (cells : List Host.Cell) : K Unit := do
  let ls := (coreMem (← K.chan) j).blotter
  let ls ← match ls.find? (·.granule == g) with
    | some _ => pure (ls.map fun l => if l.granule == g then blotLine l cells else l)
    | none => do
      if ls.length < 32 then pure (ls ++ [blotLine { granule := g, bytes := [] } cells])
      else match ls with
        | old :: rest => K.flushLine j old; pure (rest ++ [blotLine { granule := g, bytes := [] } cells])
        | [] => pure [blotLine { granule := g, bytes := [] } cells]
  let full := ls.find? fun l => l.granule == g && l.bytes.length == 64
  match full with
  | some l =>
    K.mod fun c => c.modCore j fun k => { k with blotter := ls.filter (·.granule != g) }
    K.writeInk j (64 * g) (l.bytes.map (·.2))
  | none => K.mod fun c => c.modCore j fun k => { k with blotter := ls }
/-- A nib's store to Inkwell of any length. -/
def K.nibStoreInk (j a : Nat) (bs : List Byte) : K Unit :=
  (granules a bs.length).forM fun g =>
    K.blotStore j g (((bs.zipIdx a).filter fun (_, i) => i / 64 == g).map fun (b, i) => (i % 64, b))
/-- Every line is written before the stroke completes (R218). -/
def K.flushBlotter (j : Nat) : K Unit := do
  let ls := (coreMem (← K.chan) j).blotter
  K.mod fun c => c.modCore j fun k => { k with blotter := [] }
  ls.forM (K.flushLine j)

/-! ### Reservoir (R223 to R227): tags only, since data equal HBM's once a stroke completes (log 14) -/

/-- R227: the written lines leave the Reservoirs but that of core `keep`. -/
def Channel.invalidate (a n : Nat) (keep : Option Nat) (c : Channel) : Channel :=
  { c with core := (c.core.zipIdx).map fun (k, j) =>
      if keep == some j then k
      else { k with rsv := k.rsv.filter fun l => l.line < a / 128 || (a + n + 127) / 128 ≤ l.line } }

/-- A line whose hint is absent or already passed counts as furthest (R225). -/
def rsvNext (req : Nat) (l : RsvLine) : Option Nat :=
  match l.hint with
  | some h => if h ≤ req then none else some h
  | none => none
def rsvWorse (req : Nat) (a b : RsvLine) : Bool :=
  match rsvNext req a, rsvNext req b with
  | none, some _ => true
  | some _, none => false
  | some x, some y => decide (y < x) || (x == y && (decide (b.age < a.age) || (a.age == b.age && decide (a.way < b.way))))
  | none, none => decide (b.age < a.age) || (a.age == b.age && decide (a.way < b.way))
/-- R225: the victim among the lines of a full set. -/
def rsvVictim (req : Nat) : List RsvLine → Option RsvLine
  | [] => none
  | l :: ls => match rsvVictim req ls with
    | none => some l
    | some v => if rsvWorse req v l then some v else some l

def RsvLine.bad (l : RsvLine) (g : Nat) : Bool := if g % 2 == 0 then l.bad0 else l.bad1
/-- Dirty sectors that are poisoned in the Reservoir take their poison to HBM as they are written back (R245). -/
def RsvLine.carries (l : RsvLine) : List Nat := (if l.d0 && l.bad0 then [2 * l.line] else []) ++ (if l.d1 && l.bad1 then [2 * l.line + 1] else [])
def K.poisonHbm (u : Nat) (gs : List Nat) : K Unit := do
  K.keepOld 4 u gs
  K.mod fun c => { c with hbmPoison := gs.foldl insertNat c.hbmPoison }

/-- One request to core `j`'s Reservoir for sectors of a line (R224 to R226). A gather request (`gather`) counts in the core's
counter, and has a hint where `ahead`, the distance to the stream's next request for the line, is known (R225). Fills and
write-backs of lines count in `miss`. -/
def K.rsvRequest (j line : Nat) (s0 s1 wr : Bool) (tag : Nat) (gather : Bool) (ahead : Option Nat) : K Unit := do
  let c ← K.chan
  let k := coreMem c j
  let req := k.rsvReq + b2n gather
  let set := line % 2048
  let hintAt := ahead.map (req + ·)
  let aged := k.rsv.map fun l => if l.line % 2048 == set then { l with age := min (l.age + 1) 15 } else l
  let touch := fun (l : RsvLine) =>
    { l with v0 := l.v0 || s0, v1 := l.v1 || s1, d0 := l.d0 || (wr && s0), d1 := l.d1 || (wr && s1), hint := hintAt, age := 0 }
  match aged.find? (·.line == line) with
  | some l =>
    let fills := b2n (s0 && !l.v0) + b2n (s1 && !l.v1)
    K.mod fun c => c.modCore j fun k => { k with rsvReq := req, rsv := aged.map fun x => if x.line == line then touch x else x }
    if fills == 0 then K.bump .rsvHits 1
    else
      K.bump .rsvMisses fills
      K.bump .perfHbmRd (64 * fills)
      modify fun s => { s with miss := s.miss + 1 }
  | none =>
    let inSet := aged.filter fun l => l.line % 2048 == set
    let fills := b2n s0 + b2n s1
    let (way, rest, wb, carry) :=
      match (List.range 16).find? fun w => !(inSet.any (·.way == w)) with
      | some w => (w, aged, 0, [])
      | none => match rsvVictim req inSet with
        | some v => (v.way, aged.filter (·.line != v.line), b2n v.d0 + b2n v.d1, v.carries)
        | none => (0, aged, 0, [])
    let new := touch { line := line, way := way, tag := tag, hint := none, age := 0, v0 := false, v1 := false, d0 := false, d1 := false,
                       bad0 := false, bad1 := false }
    K.mod fun c => c.modCore j fun k => { k with rsvReq := req, rsv := rest ++ [new] }
    K.poisonHbm j carry
    K.bump .rsvMisses fills
    K.bump .perfHbmRd (64 * fills)
    K.bump .rsvWritebacks wb
    K.bump .perfHbmWr (64 * wb)
    modify fun s => { s with miss := s.miss + 1 + (if wb > 0 then 1 else 0) }

/-- Dirty sectors are written back before the stroke completes; each line written back counts as one miss (R226). -/
def K.rsvFlush (j : Nat) : K Unit := do
  let k := coreMem (← K.chan) j
  let dirty := k.rsv.filter fun l => l.d0 || l.d1
  let n := dirty.foldl (fun a l => a + b2n l.d0 + b2n l.d1) 0
  K.mod fun c => c.modCore j fun k => { k with rsv := k.rsv.map fun l => { l with d0 := false, d1 := false } }
  K.bump .rsvWritebacks n
  K.bump .perfHbmWr (64 * n)
  for l in dirty do
    K.poisonHbm j l.carries
    K.mod (Channel.invalidate (128 * l.line) 128 (some j))
  modify fun s => { s with miss := s.miss + dirty.length }

/-! ### HBM -/

/-- A stroke's read of HBM past the Reservoir: its bytes count, unless it is blocked (R382, R501), and poison reports ECC_UE (R245). -/
def K.readHbmP (a n : Nat) : K (List Byte × List (Nat × Bool)) := do
  if n == 0 then return ([], [])
  if !(← K.permit (← get).unit a true) then return (← K.blockedRead .hbm 4 0 a n)
  K.bump .perfHbmRd n
  let c ← K.chan
  let gs := (granules a n).map fun g => (g, c.hbmPoison.contains g)
  for (g, b) in gs do
    if b then K.eccUe .hbm 0 g
  return (← K.spoil 4 a (Cells.read ramDefault c.hbm a n) gs, gs)
def K.readHbm (a n : Nat) : K (List Byte) := do return (← K.readHbmP a n).1
/-- The bytes land, whole granules lose their poison, the lines leave the Reservoirs but core `keep`'s (R227, R239). -/
def Channel.storeHbm (a : Nat) (bs : List Byte) (keep : Option Nat) (c : Channel) : Channel :=
  if bs.isEmpty then c else
  let whole := wholeGranules a bs.length
  { c.invalidate a bs.length keep with
    hbm := Cells.write ramDefault c.hbm a bs, hbmPoison := c.hbmPoison.filter fun g => !(whole.contains g) }
/-- A write past the Reservoir; `bad` writes poisoned data. -/
def K.writeHbmP (a : Nat) (bs : List Byte) (bad : Bool) : K Unit := do
  if bs.isEmpty then return
  let u := (← get).unit
  if !(← K.permit u a true) then return
  K.keepOld 4 u (granules a bs.length)
  K.mod (Channel.storeHbm a bs none)
  if bad then K.mod fun c => { c with hbmPoison := (granules a bs.length).foldl insertNat c.hbmPoison }
  K.bump .perfHbmWr bs.length
def K.writeHbm (a : Nat) (bs : List Byte) : K Unit := K.writeHbmP a bs false

def Channel.region (c : Channel) (r : Nat) : Option Region := c.img.regions[r]?
/-- The region's end, both halves of an INPUT region counted. -/
def Region.stop (r : Region) : Nat := r.base + (if r.input then 2 * r.len else r.len)
def Region.holds (r : Region) (a n : Nat) : Bool := decide (r.base ≤ a) && decide (a + n ≤ r.stop)
/-- The tensor tag of a line: that of the first region that holds its start (R222; log 14). -/
def Channel.tagAt (c : Channel) (a : Nat) : Nat := ((c.img.regions.find? fun r => r.holds a 1).map (·.tag)).getD 0
/-- Whether a gather from `a` goes through the Reservoir: a region with CACHE holds it (R224). -/
def Channel.cached (c : Channel) (a : Nat) : Bool := c.img.regions.any fun r => r.cache && r.holds a 1

/-- For each request of a stream, how far ahead the stream's next request for the same line lies, up to 4,096 (R225). -/
def hintsOf : List Nat → List (Option Nat)
  | [] => []
  | l :: ls => ((ls.take 4096).findIdx? (· == l)).map (· + 1) :: hintsOf ls
/-- Requests of a stream of core `j`, as (line, sector 0, sector 1, write); the order in which the nibs make them is free
(log 14). Of gather requests `ahead` gives the lines of those that follow them in the stream (R225). -/
def K.rsvAll (j : Nat) (gather : Bool) (reqs : List (Nat × Bool × Bool × Bool)) (ahead : List Nat) : K Unit := do
  let rs ← K.shuffle (reqs.zip (if gather then hintsOf (reqs.map (·.1) ++ ahead) else reqs.map fun _ => none))
  let c ← K.chan
  for ((line, s0, s1, wr), h) in rs do
    K.rsvRequest j line s0 s1 wr (c.tagAt (128 * line)) gather h
/-- Requests of whole sectors that [a, a + n) covers. -/
def sectorReqs (a n : Nat) (wr : Bool) : List (Nat × Bool × Bool × Bool) :=
  (granules a n).map fun g => (g / 2, g % 2 == 0, g % 2 == 1, wr)
/-- What core `j`'s Reservoir answers to a request, its poison reported (R245). -/
def K.peekHbm (j a n : Nat) : K (List Byte) := do
  let c ← K.chan
  let inRsv := fun (g : Nat) => (coreMem c j).rsv.any fun l => l.line == g / 2 && l.bad g
  let gs := (granules a n).map fun g => (g, c.hbmPoison.contains g || inRsv g)
  for (g, b) in gs do
    if b then if c.hbmPoison.contains g then K.eccUe .hbm 0 g else K.eccUe .reservoir j g
  K.spoil 4 a (Cells.read ramDefault c.hbm a n) gs
/-- A store of core `j` changes the bytes; a full sector is no longer poisoned (R239, R245). -/
def K.pokeHbm (j a : Nat) (bs : List Byte) : K Unit := do
  K.keepOld 4 (← K.unitAt j) (granules a bs.length)
  let whole := wholeGranules a bs.length
  K.mod (Channel.storeHbm a bs (some j))
  K.mod fun c => c.modCore j fun k => { k with rsv := k.rsv.map fun l =>
    { l with bad0 := l.bad0 && !(whole.contains (2 * l.line)), bad1 := l.bad1 && !(whole.contains (2 * l.line + 1)) } }
/-- A nib read of HBM through core `j`'s Reservoir; of a gather, `ahead` is the lines that its stream asks for later (R225). -/
def K.nibReadAhead (j a n : Nat) (gather : Bool) (ahead : List Nat) : K (List Byte) := do
  if n == 0 then return []
  if !(← K.permit (← K.unitAt j) a true) then return (← K.blockedRead .reservoir 4 j a n).1
  K.rsvAll j gather (sectorReqs a n false) ahead
  K.peekHbm j a n
def K.nibReadHbm (j a n : Nat) : K (List Byte) := K.nibReadAhead j a n false []
/-- A gather's read: through the Reservoir from regions with CACHE, past it elsewhere (R224). Its requests count either way (R225). -/
def K.gatherHbm (j a n : Nat) (ahead : List Nat) : K (List Byte) := do
  if (← K.chan).cached a then K.nibReadAhead j a n true ahead else
    K.mod fun c => c.modCore j fun k => { k with rsvReq := k.rsvReq + (granules a n).length }
    K.act j
    K.readHbm a n
/-- A nib store to HBM through core `j`'s Reservoir (R226). -/
def K.nibWriteHbm (j a : Nat) (bs : List Byte) : K Unit := do
  if bs.isEmpty then return
  if !(← K.permit (← K.unitAt j) a true) then return
  K.pokeHbm j a bs
  K.rsvAll j false (sectorReqs a bs.length true) []

/-- The Reservoir that each line of a nib stroke on these cores goes through: every line has one core (R226; log 14). -/
def K.owners (cores : List Nat) : K (Nat → Nat) := do
  let seed ← K.free
  return fun line => cores.getD (Config.lineOwner seed line % cores.length) 0
/-- [a, a + n) cut at lines, as (address, length). -/
def lineCuts (a n : Nat) : List (Nat × Nat) :=
  if n == 0 then [] else
  (List.range ((a + n - 1) / 128 - a / 128 + 1)).map fun i =>
    let lo := max a (128 * (a / 128 + i))
    (lo, min (a + n) (128 * (a / 128 + i) + 128) - lo)
/-- Accesses of a nib stroke to HBM, each line through the Reservoir that `own` names (R224). -/
def K.readLines (own : Nat → Nat) (a n : Nat) : K (List Byte) :=
  (lineCuts a n).foldlM (fun acc x => do return acc ++ (← K.nibReadHbm (own (x.1 / 128)) x.1 x.2)) []
def K.writeLines (own : Nat → Nat) (a : Nat) (bs : List Byte) : K Unit :=
  (lineCuts a bs.length).forM fun x => K.nibWriteHbm (own (x.1 / 128)) x.1 (bytesAt bs (x.1 - a) x.2)

/-! ### Regions (R222, R235) -/

/-- R235: count the cut; one record for the stroke. -/
def K.regionCut (region : Nat) : K Unit := do
  K.mod fun c => (c.bump .memCuts 1).stick .regionCut
  let s ← get
  if !s.cut then
    modify fun s => { s with cut := true }
    K.err .degraded 0x60 (unitInit s.m s.unit) (some s.idx) (some region)
/-- Bytes of [a, a+n) inside the region, in whole granules (R235). -/
def Channel.inside (c : Channel) (region a n : Nat) : Nat :=
  match c.region region with
  | some r => if r.holds a n then n else if r.base ≤ a && a < r.stop then r.stop / 64 * 64 - a else 0
  | none => 0
/-- A request of `n` bytes to a region; answers how many lie inside it, the cut counted. -/
def K.cutTo (region a n : Nat) : K Nat := do
  let k := (← K.chan).inside region a n
  if k < n then K.regionCut region
  return k
/-- A nib's request to a region, which a computed address may leave (R235): whether it lies inside. -/
def K.within (region a n : Nat) : K Bool := do
  let k ← K.cutTo region a n
  return n ≤ k
/-- The first region that holds `a`, to which a computed address near it is held. -/
def Channel.regionAt (c : Channel) (a : Nat) : Option Nat := c.img.regions.findIdx? fun r => r.holds a 1
/-- How many bytes of [a, a+n), computed from the base address `b`, lie in the region of that base, the cut counted; a base in no region
holds nothing, and its DETAIL1 is a free value (R235; log 10). -/
def K.heldWithin (b a n : Nat) : K Nat := do
  match (← K.chan).regionAt b with
  | some r => K.cutTo r a n
  | none =>
    if n == 0 then return 0
    K.regionCut (← K.free)
    return 0
/-- Whether all of it does. -/
def K.heldTo (b a n : Nat) : K Bool := do return Nat.ble n (← K.heldWithin b a n)
/-- A read of [a, a+n) of which `k` bytes are read, by `get`; what the cut leaves out answers poisoned data (R235). -/
def K.cutRead (a n k : Nat) (get : Nat → K (List Byte)) : K (List Byte) := do
  let bs ← get k
  if k < n then return bs ++ (← K.poisoned 4 (a + k) (n - k)) else return bs
/-- A read held to the region of the base address `b`. -/
def K.heldRead (b a n : Nat) (get : Nat → K (List Byte)) : K (List Byte) := do K.cutRead a n (← K.heldWithin b a n) get
/-- A nib's store to a place computed from the base address `b`, cut at the end of the region of that base (R235). -/
def K.putHeld (b j a : Nat) (bs : List Byte) : K Unit := do
  K.nibWriteHbm j a (bs.take (← K.heldWithin b a bs.length))
/-- The same of a nib stroke, each line through the Reservoir that `own` names. -/
def K.putLines (own : Nat → Nat) (b a : Nat) (bs : List Byte) : K Unit := do
  K.writeLines own a (bs.take (← K.heldWithin b a bs.length))
/-- How many of `n` bytes of a ruling part's spill area lie in the region of its base. No load check puts the area in a region: one in no
region is not cut (log 10). -/
def K.spillWithin (b a n : Nat) : K Nat := do
  match (← K.chan).regionAt b with
  | some r => K.cutTo r a n
  | none => return n

/-- Bytes of HBM read past the strokes; those of poisoned granules are open, by the free number `n` (R245). -/
def Channel.openBytes (n a len : Nat) (c : Channel) : List Byte :=
  ((Cells.read ramDefault c.hbm a len).zipIdx a).map fun (b, i) => if c.hbmPoison.contains (i / 64) then Config.poisonByte n 4 i else b

end Sys2Proof.Machine
end

