-- ==== Sys2Proof/Machine/FrontEnd.lean ====
section
/-! DEFINITION. The FRONT kernels of the nibs (chapter "Point front end: cells, nibs and rulings"), and the blanking checks
they share with INTAKE and THERMAL (R368 to R370). -/
namespace Sys2Proof.Machine

/-- The frame in progress is marked OVERFLOW for a cause; one record per frame (R126). -/
def K.overflow (x : Cause) : K Unit := do
  let s ← get
  K.mod fun c => { c.doubt .overflow with causesP := c.causesP ||| x.mask, grd := { c.grd with overflow := true } }
  K.mod fun c => { c with front := { c.front with
    working := c.front.working ||| x.mask.setWidth 8
    status := if c.front.insDone then c.front.status ||| x.mask.setWidth 8 else c.front.status } }
  if !s.c.grd.overflow then
    K.err .doubt 0x92 (initScribe s.m) (some (causeWord (s.c.causesP ||| x.mask))) none

/-! ### Blanking test patterns (R368 to R370) -/

def blankKey (region kind : Nat) : Nat := 4 * region + kind

def Channel.modBlank (ring : Nat) (f : BlankState → BlankState) (c : Channel) : Channel :=
  { c with rings := c.rings.map fun r => if r.num == ring then { r with blank := f r.blank } else r }

/-- A failed check: doubt BLANKING of the frame in progress; one record for the message (R370). -/
def K.blankFail (ring kind value : Nat) : K Unit := do
  let s ← get
  match s.c.rings.find? (·.num == ring) with
  | none => pure ()
  | some r =>
    K.mod fun c => (c.doubt .blanking).modBlank ring fun b => { b with failed := true }
    if !r.blank.failed then
      K.err .doubt 0x91 (initScribe s.m) (some (s.m.val * 65536 + ring)) (some (kind * 2 ^ 30 + value % 2 ^ 30))

/-- A packet of the ring's open message begins: the pattern starts with the message, and FRAMETAG must not change. -/
def K.blankPacket (ring : Nat) (tag : Word) : K Unit := do
  let c ← K.chan
  let seed := (c.img.safety.map (·.seed)).getD 0
  match c.rings.find? (·.num == ring) with
  | none => pure ()
  | some r =>
    if !r.blank.active then
      K.mod fun c => c.modBlank ring fun _ =>
        { active := true, firstTag := tag, lfsr := lfsrStart tag seed, count := 0, rows := 0, failed := false }
    else if r.blank.firstTag != tag then K.blankFail ring 1 r.blank.count

/-- A test element of two words, given as its eight bytes, masked to the bits the element carries. -/
def K.blankPair (ring : Nat) (got : List Byte) (expect : Word → Word → List Byte) : K Unit := do
  let c ← K.chan
  match c.rings.find? (·.num == ring) with
  | none => pure ()
  | some r =>
    let w0 := lfsrNext r.blank.lfsr
    let w1 := lfsrNext w0
    K.mod fun c => c.modBlank ring fun b => { b with lfsr := w1, count := b.count + 1 }
    if got != expect w0 w1 then K.blankFail ring 0 r.blank.count

/-- Pixel n of the message's blanking rows: `per` pixels to a word, of `w` bits (R369). -/
def K.blankPixel (ring per w mask : Nat) (got : Nat) : K Unit := do
  let c ← K.chan
  match c.rings.find? (·.num == ring) with
  | none => pure ()
  | some r =>
    let n := r.blank.count
    let word := if n % per == 0 then lfsrNext r.blank.lfsr else r.blank.lfsr
    K.mod fun c => c.modBlank ring fun b => { b with lfsr := word, count := n + 1 }
    if got != (word.toNat >>> (w * (n % per))) % 2 ^ mask then K.blankFail ring 0 n

/-- The message is complete: enough test elements (R370). -/
def K.blankEnd (ring need : Nat) (rows : Bool) : K Unit := do
  let c ← K.chan
  match c.rings.find? (·.num == ring) with
  | none => pure ()
  | some r =>
    let n := if rows then r.blank.rows else r.blank.count
    if n < need then K.blankFail ring 2 n
    K.mod fun c => c.modBlank ring fun b => { b with active := false }

/-- Rings whose patterns are checked: those with SAFETY set. -/
def Channel.safetyRing (c : Channel) (ring : Nat) : Bool := c.rings.any fun r => r.num == ring && r.safety

/-- R369: a test point's bytes 0 to 7. -/
def blankPoint (w0 w1 : Word) : List Byte := leBytes 4 w0.toNat ++ leBytes 3 w1.toNat ++ [0x01#8]

/-! ### Input regions -/

/-- The closed half of the frame in progress (R223). -/
def Channel.closedHalf (c : Channel) : Nat := c.tick.k % 2
/-- Regions with segments of a kind in the closed half, in ascending number of the lowest ring that carries the kind (R115, R329). -/
def Channel.inputOrder (c : Channel) (kind : Nat) : List Nat :=
  let bit := kind
  let rs := c.rings.filter fun r => r.enabled && !r.out && r.opmask.getLsbD bit
  (sortBy (fun (a b : Ring) => decide (a.num ≤ b.num)) rs).foldl (fun acc r => if acc.contains r.region then acc else acc ++ [r.region]) []
def Channel.halfOf (c : Channel) (region half : Nat) : InHalf :=
  (c.input.find? fun h => h.region == region && h.half == half).getD { region := region, half := half, bytes := 0, segs := [] }

/-- The records of `kind` that the closed halves hold, read by `read`, with their segments, in arrival order. -/
def K.inputSegs (read : Nat → Nat → K (List Byte)) (kind : Nat) : K (List (Nat × Segment × List Byte)) := do
  let c ← K.chan
  let mut out := []
  for rg in c.inputOrder kind do
    match c.region rg with
    | none => pure ()
    | some r =>
      for sg in (c.halfOf rg c.closedHalf).segs do
        if sg.kind == kind then
          let bs ← read (r.base + c.closedHalf * r.len + sg.offset) sg.length
          out := out ++ [(rg, sg, bs)]
  return out

/-! ### Poses (R116, R117) -/

/-- A pose made ready: the nine matrix elements and 1000·t per axis. -/
structure PoseM where
  m : List Word
  t : List Word

/-- The rotation matrix of a quaternion, in the order R116 writes. -/
def quatMatrix (w x y z : Word) : List Word :=
  let n2 := F32.add (F32.add (F32.add (F32.mul w w) (F32.mul x x)) (F32.mul y y)) (F32.mul z z)
  let r := F32.div F32.one (F32.sqrt n2)
  let qw := F32.mul w r
  let qx := F32.mul x r
  let qy := F32.mul y r
  let qz := F32.mul z r
  let dbl := fun a => F32.mul F32.two a
  let mm := F32.mul
  let pl := F32.add
  let mi := F32.sub
  [mi F32.one (dbl (pl (mm qy qy) (mm qz qz))), dbl (mi (mm qx qy) (mm qw qz)), dbl (pl (mm qx qz) (mm qw qy)),
   dbl (pl (mm qx qy) (mm qw qz)), mi F32.one (dbl (pl (mm qx qx) (mm qz qz))), dbl (mi (mm qy qz) (mm qw qx)),
   dbl (mi (mm qx qz) (mm qw qy)), dbl (pl (mm qy qz) (mm qw qx)), mi F32.one (dbl (pl (mm qx qx) (mm qy qy)))]

def f1000 : Word := F32.ofNat 1000
def poseOf (p : List Word) : PoseM :=
  let g := fun i => p.getD i 0
  { m := quatMatrix (g 0) (g 1) (g 2) (g 3), t := [F32.mul f1000 (g 4), F32.mul f1000 (g 5), F32.mul f1000 (g 6)] }
def identityPose : List Word := [F32.one, 0, 0, 0, 0, 0, 0]
/-- u_a of R116 for a point in mm. -/
def PoseM.place (p : PoseM) (x y z : Word) (a : Nat) : Word :=
  let g := fun i => p.m.getD (3 * a + i) 0
  F32.add (F32.add (F32.add (F32.mul (g 0) x) (F32.mul (g 1) y)) (F32.mul (g 2) z)) (p.t.getD a 0)
/-- R117: the pose latched for a scanner. -/
def Channel.scannerPose (c : Channel) (s : Nat) : List Word :=
  match assoc c.cal.poses s with
  | some v => v
  | none => match c.img.safety with
    | some sf => if s < sf.scanners then sf.poses.getD s identityPose else identityPose
    | none => identityPose
/-- A coordinate of a point record, 2·X mm (R93). -/
def pointMm (rec_ : List Byte) (off : Nat) : Word := F32.ofInt (2 * signed 16 (field rec_ off 2))

def keyOf (x y z : Int) : Nat := ((z + 32768) * 4294967296 + (y + 32768) * 65536 + (x + 32768)).toNat
def keyX (k : Nat) : Int := ((k % 65536 : Nat) : Int) - 32768
def keyY (k : Nat) : Int := ((k / 65536 % 65536 : Nat) : Int) - 32768
def keyZ (k : Nat) : Int := ((k / 4294967296 : Nat) : Int) - 32768

/-! ### VOXELISE (R115, R116, R122) -/

/-- A point map entry, at its computed address, which stays inside the region that holds the map (R130, R235). -/
def K.mapEntry (own : Nat → Nat) (f : Front) (arrival v : Nat) : K Unit := do
  let a := f.pointmap + 4 * arrival
  let ok ← match (← K.chan).regionAt f.pointmap with
    | some g => K.within g a 4
    | none => pure (decide (a + 4 ≤ hbmSize))
  if ok then K.writeLines own a (leBytes 4 v)
/-- The entry of a record that is not placed (R130). -/
def K.dropMark (own : Nat → Nat) (f : Front) (arrival cause : Nat) : K Unit := K.mapEntry own f arrival (2 ^ 31 + cause * 2 ^ 28)

structure Vox where
  pts : List VoxPt
  n : Nat
  slots : List (Nat × Nat)
  arrival : Nat

/-- One record; `check`: its test points are compared with the pattern of their message (R370). A point whose placed
coordinates are not finite counts as outside the grid (log 13). -/
def K.voxRecord (own : Nat → Nat) (f : Front) (sg : Segment) (check : Bool) (pose : PoseM) (v : Vox) (r : List Byte) : K Vox := do
  let v' := { v with arrival := v.arrival + 1 }
  let fl := byteAt r 7
  if bitOf fl 0 then
    if check then K.blankPair sg.ring (bytesAt r 0 8) blankPoint
    K.dropMark own f v.arrival 0
    return v'
  if bitOf fl 1 then
    K.bump .noReturn 1
    K.dropMark own f v.arrival 1
    return v'
  let (px, py, pz) := (pointMm r 0, pointMm r 2, pointMm r 4)
  let u := fun a => pose.place px py pz a
  let (ux, uy, uz) := (u 0, u 1, u 2)
  let cell := fun (u : Word) (o : Int) (e : Nat) => F32.floorInt (F32.div (F32.sub u (F32.ofInt o)) (F32.ofNat e))
  let cx := cell ux f.originX f.edgeX
  let cy := cell uy f.originY f.edgeY
  let cz := cell uz f.originZ f.edgeZ
  let out := fun (x : Int) (e : Nat) => decide (x < -(e : Int)) || decide ((e : Int) ≤ x)
  if !(F32.isFinite ux && F32.isFinite uy && F32.isFinite uz) || out cx f.extX || out cy f.extY || out cz f.extZ then
    K.bump .outOfGrid 1
    K.dropMark own f v.arrival 2
    return v'
  let sid := field r 10 2
  let known := v.slots.findIdx? (· == (sg.source, sid))
  if known.isNone && v.slots.length ≥ 16 then
    K.bump .pointDrops 1
    K.overflow .sweepCap
    K.dropMark own f v.arrival 5
    return v'
  let slots := if known.isNone then v.slots ++ [(sg.source, sid)] else v.slots
  let slot := known.getD v.slots.length
  if v.n ≥ 2097152 then
    K.bump .pointDrops 1
    K.overflow .pointCap
    K.dropMark own f v.arrival 3
    return { v' with slots := slots }
  let pt : VoxPt :=
    { arrival := v.arrival, key := keyOf cx cy cz, slot := slot, sweepId := sid, captime := sg.captime + (field r 12 4 : Nat),
      ux := ux, uy := uy, uz := uz, intensity := byteAt r 6, beam := field r 8 2 }
  return { pts := pt :: v.pts, n := v.n + 1, slots := slots, arrival := v.arrival + 1 }

def K.voxelise (cores : List Nat) : K Unit := do
  let c ← K.chan
  match c.img.front with
  | none => pure ()
  | some f =>
    let own ← K.owners cores
    let segs ← K.inputSegs (K.readLines own) 1
    let mut v : Vox := { pts := [], n := 0, slots := [], arrival := 0 }
    for (rg, sg, bs) in segs do
      let c ← K.chan
      let check := c.safetyRing sg.ring && !(c.duct.blankDone.contains (blankKey rg 1))
      if check then K.blankPacket sg.ring sg.frametag
      let pose := poseOf (c.scannerPose sg.source)
      for r in chunks 16 sg.count bs do
        v ← K.voxRecord own f sg check pose v r
      if check && sg.eom then K.blankEnd sg.ring ((c.img.safety.map (·.testPoints)).getD 0) false
    K.mod fun c => { c with
      front := { c.front with vox := v.pts.reverse, wSweeps := v.slots.length }
      duct := { c.duct with blankDone := c.duct.blankDone ++ (segs.map fun s => blankKey s.1 1).eraseDups } }

/-! ### CELL_INSERT (R118 to R127) -/

/-- R119. -/
def cellHash (k : Nat) : Nat := (k * 0x9E3779B97F4A7C15) % 2 ^ 64 / 2 ^ 43

/-- Clear 128 slots of every quarter, each through its own core's Reservoir, and advance E (R121). A blocked clearing is not complete
and leaves E; one that a stop takes back takes E back with it. -/
def K.cellClear (f : Front) : K Unit := do
  let e := (← K.chan).front.exec
  let hits := (← get).blocks.length
  for q in [0, 1, 2, 3] do
    K.nibWriteHbm q (f.celltab + 16 * (q * 524288 + 128 * (e % 4096))) (List.replicate 2048 0#8)
    K.rsvFlush q
  if (← get).blocks.length == hits then
    modify fun s => { s with undo := [0, 1, 2, 3].map (Undo.exec e) ++ s.undo }
    K.mod fun c => { c with front := { c.front with exec := (e + 1) % 2 ^ 32 } }

/-- A look-up in quarter `q` from the home slot upwards (R120): the slot found or free, with the number of the cell whose key it
holds; and the lines that the probes asked for, after `ls`. A blocked probe asks for none (R382). -/
def K.cellProbe (q base e key home : Nat) : Nat → Nat → List Nat → K (Option (Nat × Option Nat) × List Nat)
  | 0, _, ls => pure (none, ls)
  | n + 1, i, ls => do
    let a := base + 16 * ((home + i) % 524288)
    let (b, ls) ← if ← K.permit (← K.unitAt q) a true then do pure (← K.peekHbm q a 16, ls ++ [a / 128])
      else do pure ((← K.blockedRead .reservoir 4 q a 16).1, ls)
    let cw := field b 12 4
    if !(bitOf cw 31) || field b 8 4 != e then return (some (i, none), ls)
    else if field b 0 6 == key then return (some (i, some (cw % 2 ^ 20)), ls)
    else K.cellProbe q base e key home n (i + 1) ls

/-- The insertion so far; `clear` is the misses of the stroke's clearing, which lie within the start term of R111 and are not the
insertion's (R125; log 13). -/
structure Ins where
  clear : Nat
  placed : List Placed
  cells : Nat
  passed : Nat
  cut : Bool
  prov : List Nat

/-- A request to a Reservoir: its core, the line, the sectors, and whether it stores. -/
abbrev RsvReq := Nat × Nat × Bool × Bool × Bool
/-- One point: its probes name both sectors of a line, a new slot's store names one (R226); blocked ones are not made (R382). -/
def K.insertPoint (own : Nat → Nat) (f : Front) (e : Nat) (s : Ins) (p : VoxPt) : K (Ins × List RsvReq) := do
  let h := cellHash p.key
  let q := h / 524288
  let home := h % 524288
  let base := f.celltab + 16 * 524288 * q
  let slotAt := fun (i : Nat) => base + 16 * ((home + i) % 524288)
  let (found, lines) ← K.cellProbe q base e p.key home 64 0 []
  let probes : List RsvReq := lines.eraseDups.map fun l => (q, l, true, true, false)
  let drop := fun (x : Cause) (cause : Nat) => do
    K.bump .pointDrops 1
    K.overflow x
    K.dropMark own f p.arrival cause
    return (s, probes)
  match found with
  | some (_, some cell) =>
    K.mapEntry own f p.arrival cell
    return ({ s with placed := { pt := p, cell := cell } :: s.placed }, probes)
  | some (i, none) =>
    if s.cells ≥ 1048576 then drop .cellCap 4
    else
      let cell := s.prov.getD s.cells s.cells
      let a := slotAt i
      let goes ← K.permit (← K.unitAt q) a true
      if goes then
        K.pokeHbm q a (leBytes 6 p.key ++ [0#8, 0#8] ++ leBytes 4 e ++ leBytes 4 (2 ^ 31 + cell))
      K.mapEntry own f p.arrival cell
      return ({ s with placed := { pt := p, cell := cell } :: s.placed, cells := s.cells + 1 },
        if goes then probes ++ [(q, a / 128, a / 64 % 2 == 0, a / 64 % 2 == 1, true)] else probes)
  | none => if s.cells ≥ 1048576 then drop .cellCap 4 else drop .probe 6

/-- Waves of 1,024 points; the misses of the stroke so far are compared with the budget before each (R125). -/
def K.insertWaves (own : Nat → Nat) (f : Front) (e : Nat) : Nat → Ins → List VoxPt → K Ins
  | 0, s, _ => pure s
  | n + 1, s, pts => do
    if pts.isEmpty then return s
    let misses := (← get).miss - s.clear
    let cutNow := s.cut || decide (f.missRatio * s.passed < 16 * misses)
    let mut st := { s with cut := cutNow }
    let wave := pts.take 1024
    if cutNow then
      for p in wave do
        K.bump .pointDrops 1
        K.overflow .missBudget
        K.dropMark own f p.arrival 7
    else
      let mut reqs : List RsvReq := []
      for p in wave do
        let (s', rs) ← K.insertPoint own f e st p
        st := s'
        reqs := reqs ++ rs
      for q in [0, 1, 2, 3] do
        K.rsvAll q false ((reqs.filter (·.1 == q)).map (·.2)) []
    K.insertWaves own f e n { st with passed := st.passed + wave.length } (pts.drop 1024)

def K.cellInsert (cores : List Nat) : K Unit := do
  let c ← K.chan
  match c.img.front with
  | none => pure ()
  | some f =>
    let own ← K.owners cores
    K.cellClear f
    let e := (← K.chan).front.exec
    let pts := c.front.vox
    -- provisional numbers: the manual fixes only that cells have them (R118)
    let prov ← K.shuffle (List.range (min pts.length 1048576))
    let clear := (← get).miss
    let s ← K.insertWaves own f e (pts.length / 1024 + 1) { clear := clear, placed := [], cells := 0, passed := 0, cut := false, prov := prov } pts
    K.mod fun c => { c with front := { c.front with
      placed := s.placed.reverse, wPoints := s.placed.length, wCells := s.cells, insDone := false } }

/-! ### CELL_ORDER, POINT_POOL (R128 to R131) -/

def uniqueSorted : List Nat → List Nat
  | [] => []
  | [x] => [x]
  | x :: y :: zs => if x == y then uniqueSorted (y :: zs) else x :: uniqueSorted (y :: zs)
def sortKeys (l : List Nat) : List Nat := uniqueSorted (sortBy (fun (a b : Nat) => decide (a ≤ b)) l)
def keylistBase (f : Front) (set : Nat) : Nat := f.features + 67108864 + (f.sets[set]?.map (·.keylist)).getD 0
def K.writeKeylist (own : Nat → Nat) (f : Front) (set : Nat) (ks : List Nat) : K Unit := do
  K.writeLines own (keylistBase f set) (ks.flatMap fun k => leBytes 8 k)
  K.mod fun c => { c with front := { c.front with keys := setAt (c.front.keys ++ List.replicate (8 - c.front.keys.length) []) set ks } }
/-- The number of cells that a set holds in the frame. -/
def Channel.setCells (c : Channel) (set : Nat) : Nat := (c.front.keys.getD set []).length
/-- Keys of cells [first, first + n) of a set, from its key list (R128). -/
def K.readKeys (own : Nat → Nat) (f : Front) (set first n : Nat) : K (List Nat) := do
  let bs ← K.readLines own (keylistBase f set + 8 * first) (8 * n)
  return (chunks 8 n bs).map fun b => field b 0 6

def K.cellOrder (cores : List Nat) : K Unit := do
  let c ← K.chan
  match c.img.front with
  | none => pure ()
  | some f =>
    let own ← K.owners cores
    let ks := sortKeys (c.front.placed.map (·.pt.key))
    K.writeKeylist own f 0 ks
    let pl := c.front.placed.map fun p => { p with cell := ks.findIdx (· == p.pt.key) }
    for p in pl do K.mapEntry own f p.pt.arrival p.cell
    K.mod fun c => { c with front := { c.front with placed := pl } }

/-- The age in ns saturates; an age below zero has no stated value (log 13). -/
def ageWord (age : Int) : Nat := if age < 0 then Config.earlyAge age % 2 ^ 32 else min age.toNat (2 ^ 32 - 1)

/-- The centre, in mm, of `w` cells of `edge` mm from cell `c` on: ORIGIN + (c + w/2)·EDGE, each operation rounded (R131, R143,
R260; log 13). -/
def centreMm (origin c : Int) (w edge : Nat) : Word :=
  F32.add (F32.ofInt origin) (F32.mul (F32.add (F32.ofInt c) (F32.ofRat false w 2)) (F32.ofNat edge))

/-- Feature source of R131 for a point of cell key `k`. -/
def pointFeature (f : Front) (tk : Int) (k : Nat) (p : VoxPt) (src : Nat) : Word :=
  let off := fun (u : Word) (o : Int) (cell : Int) (e : Nat) => F32.div (F32.sub u (centreMm o cell 1 e)) f1000
  match src with
  | 0 => off p.ux f.originX (keyX k) f.edgeX
  | 1 => off p.uy f.originY (keyY k) f.edgeY
  | 2 => off p.uz f.originZ (keyZ k) f.edgeZ
  | 3 => F32.div (F32.ofNat p.intensity) (F32.ofNat 255)
  | 4 => F32.ofRat (decide (tk - p.captime < 0)) (tk - p.captime).natAbs 1000000
  | 5 => F32.ofNat p.beam
  | 6 => F32.div p.uz f1000
  | _ => F32.one

/-- The newest point: latest capture time, ties to the higher arrival index (R129). -/
def newestOf : List VoxPt → Option VoxPt
  | [] => none
  | p :: ps => match newestOf ps with
    | none => some p
    | some q => if q.captime < p.captime || (q.captime == p.captime && q.arrival < p.arrival) then some p else some q

def f16Bytes (w : Word) : List Byte := leBytes 2 (FFmt.ofF32 FFmt.f16 .rne true w)

/-- The values of one segment, of which the first `room` lie in the chunk it starts in, cut at the chunks' edges (R139). -/
def chunkParts {α : Type} : Nat → Nat → List α → List (List α)
  | 0, _, _ => []
  | n + 1, room, l => if l.isEmpty then [] else l.take room :: chunkParts n 1024 (l.drop room)
/-- Fold without a start value. -/
def foldFrom (g : Word → Word → Word) : List Word → Word
  | [] => 0
  | v :: vs => vs.foldl g v
/-- A segment that starts at sorted position `start`: a partial for each chunk, merged in ascending order (R139, R140). -/
def segFold (g : Word → Word → Word) (start : Nat) (vals : List Word) : Word :=
  foldFrom g ((chunkParts (vals.length + 1) (1024 - start % 1024) vals).map (foldFrom g))

def K.pointPool (cores : List Nat) : K Unit := do
  let c ← K.chan
  match c.img.front with
  | none => pure ()
  | some f =>
    let own ← K.owners cores
    let ks ← K.readKeys own f 0 0 (c.setCells 0)
    let tk : Int := (c.tick.tkLoc : Nat)
    let mut start := 0
    for (k, i) in ks.zipIdx do
      let pts := (c.front.placed.filter (·.cell == i)).map (·.pt)
      match newestOf pts with
      | none => pure ()
      | some nw =>
        let mask := pts.foldl (fun a p => a ||| (1 <<< p.slot)) 0
        let first := (pts.head?.map (·.arrival)).getD 0
        K.writeLines own (f.context + 32 * i)
          (leBytes 6 k ++ leBytes 2 mask ++ leBytes 2 nw.sweepId ++ [BitVec.ofNat 8 nw.slot, 0#8] ++ leBytes 4 pts.length
            ++ leBytes 4 first ++ leBytes 4 (ageWord (tk - nw.captime)) ++ List.replicate 8 0#8)
        let at_ := start
        let feat := fun j =>
          let fj := byteAt f.feat j
          let vals := pts.map fun p => pointFeature f tk k p (fj % 8)
          match fj / 8 % 4 with
          | 0 => F32.div (segFold F32.add at_ vals) (F32.ofNat pts.length)
          | 1 => segFold F32.max at_ vals
          | 2 => pointFeature f tk k nw (fj % 8)
          | _ => F32.ofNat pts.length
        K.writeLines own (f.features + 64 * i)
          ((List.range 32).flatMap fun j => if j < f.nf then f16Bytes (feat j) else [0#8, 0#8])
      start := start + pts.length

/-! ### COARSEN and rulings (R133 to R137) -/

/-- Coarse coordinates that a fine coordinate contributes to: c with a = s·c + δ − P, 0 ≤ δ < k. -/
def coarseOf (a : Int) (s k : Nat) : List Int :=
  let p : Int := ((k - s) / 2 : Nat)
  (List.range k).filterMap fun (d : Nat) =>
    let n : Int := a + p - (d : Int)
    if s != 0 && n % (s : Int) == 0 then some (n / (s : Int)) else none
def inKeyRange (x : Int) : Bool := decide (-32768 ≤ x) && decide (x ≤ 32767)

def K.coarsen (set : Nat) (cores : List Nat) : K Unit := do
  let c ← K.chan
  match c.img.front with
  | none => pure ()
  | some f => match f.sets[set]? with
    | none => pure ()
    | some r =>
      let own ← K.owners cores
      let parent ← K.readKeys own f r.parent 0 (c.setCells r.parent)
      let cand := parent.flatMap fun k =>
        (coarseOf (keyZ k) r.sz r.kz).flatMap fun z => (coarseOf (keyY k) r.sy r.ky).flatMap fun y =>
          (coarseOf (keyX k) r.sx r.kx).map fun x => (x, y, z)
      let ok := cand.filter fun (x, y, z) => inKeyRange x && inKeyRange y && inKeyRange z
      let out := (cand.filter fun (x, y, z) => !(inKeyRange x && inKeyRange y && inKeyRange z)).eraseDups
      K.bump .outOfGrid out.length
      let ks := sortKeys (ok.map fun (x, y, z) => keyOf x y z)
      if r.cap < ks.length then K.overflow .setCap
      K.writeKeylist own f set (ks.take r.cap)

/-- The input coordinate of an output coordinate and an offset, per axis (R134). -/
def rulingIn (rtype : Nat) (s k : Nat) (o : Int) (d : Nat) : Int :=
  if rtype == 0 then o + (d : Int) - ((k / 2 : Nat) : Int) else (s : Int) * o + (d : Int) - (((k - s) / 2 : Nat) : Int)

structure RulShape where
  rtype : Nat
  inSet : Nat
  outSet : Nat
  kx : Nat
  ky : Nat
  kz : Nat
  sx : Nat
  sy : Nat
  sz : Nat

/-- R134. A strided ruling of set 0 or of an unused set has no parent set: its input set is empty (log 20).
DESIGN CHOICE (log 20): a record that names a set above 7 is read as set 0 to set 0 with a kernel of one cell. -/
def rulShape (f : Front) (r : RulingRec) : RulShape :=
  match f.sets[r.set]? with
  | some s =>
    if r.rtype == 0 then { rtype := 0, inSet := r.set, outSet := r.set, kx := r.kx, ky := r.ky, kz := r.kz, sx := 1, sy := 1, sz := 1 }
    else { rtype := 1, inSet := s.parent, outSet := r.set, kx := s.kx, ky := s.ky, kz := s.kz, sx := s.sx, sy := s.sy, sz := s.sz }
  | none => { rtype := r.rtype, inSet := 0, outSet := 0, kx := 1, ky := 1, kz := 1, sx := 1, sy := 1, sz := 1 }
def RulShape.size (s : RulShape) : Nat := s.kx * s.ky * s.kz
/-- The centre offset of a submanifold ruling, whose pairs are implied. -/
def RulShape.centre (s : RulShape) : Option Nat :=
  if s.rtype == 0 then some ((s.kz / 2 * s.ky + s.ky / 2) * s.kx + s.kx / 2) else none

/-- The pairs of an offset for output cells [lo, hi). -/
def offsetPairs (s : RulShape) (inK outK : List Nat) (off lo hi : Nat) : List (Nat × Nat) :=
  let dx := off % s.kx
  let dy := off / s.kx % s.ky
  let dz := off / (s.kx * s.ky)
  ((outK.zipIdx).filter fun (_, o) => decide (lo ≤ o) && decide (o < hi)).filterMap fun (k, o) =>
    let x := rulingIn s.rtype s.sx s.kx (keyX k) dx
    let y := rulingIn s.rtype s.sy s.ky (keyY k) dy
    let z := rulingIn s.rtype s.sz s.kz (keyZ k) dz
    if inKeyRange x && inKeyRange y && inKeyRange z then
      (inK.findIdx? (· == keyOf x y z)).map fun i => (i, o)
    else none

/-- Part j of n: its first output cell and the cell after its last (R136). -/
def partRange (n j cells : Nat) : Nat × Nat := (j * cells / n, (j + 1) * cells / n)

/-- The bytes of a part: directory, then pairs (R136). The COUNT of the implied centre is the part's cell count (log 10). -/
def partBytes (s : RulShape) (inK outK : List Nat) (n j : Nat) : List Byte :=
  let (lo, hi) := partRange n j outK.length
  let offs := List.range s.size
  let lists := offs.map fun o => if s.centre == some o then [] else offsetPairs s inK outK o lo hi
  let dir := (lists.zipIdx.foldl (fun (acc : List Byte × Nat) (l : List (Nat × Nat) × Nat) =>
    if s.centre == some l.2 then (acc.1 ++ leBytes 4 0xFFFFFFFF ++ leBytes 4 (hi - lo), acc.2)
    else (acc.1 ++ leBytes 4 acc.2 ++ leBytes 4 l.1.length, acc.2 + l.1.length)) ([], 0)).1
  dir ++ lists.flatMap fun l => l.flatMap fun (i, o) => leBytes 4 i ++ leBytes 4 o

/-- RULE_BUILD (R136). Where the record has fewer parts than the stroke has cores, the parts that it lacks are not stored (log 20).
DESIGN CHOICE (log 20): a part longer than its Inkwell allocation and its spill area together is cut there, and the rest is dropped. -/
def K.ruleBuild (ruling : Nat) (cs : List Nat) : K Unit := do
  let c ← K.chan
  match c.img.front with
  | none => pure ()
  | some f => match f.rulings[ruling]? with
    | none => pure ()
    | some r =>
      let s := rulShape f r
      let own ← K.owners cs
      let inK ← K.readKeys own f s.inSet 0 (c.setCells s.inSet)
      let outK ← K.readKeys own f s.outSet 0 (c.setCells s.outSet)
      for (j, idx) in cs.zipIdx do
        match r.parts[idx]? with
        | none => pure ()
        | some p =>
          let bs := partBytes s inK outK cs.length idx
          K.nibStoreInk j p.inkBase (bs.take p.inkLen)
          let rest := bs.drop p.inkLen
          let part := rest.take p.spillLen
          K.nibWriteHbm j p.spillBase (part.take (← K.spillWithin p.spillBase p.spillBase part.length))

/-! ### Segmented reduction (R139 to R142) -/

/-- Element kinds of the kernels whose arguments the manual does not lay out (log 10). -/
def elemBytes (fmt : Nat) : Nat := if fmt == 4 || fmt == 5 then 2 else 4
def elemVal (fmt : Nat) (b : List Byte) : Word :=
  if fmt == 5 then FFmt.toF32 FFmt.f16 (leNat b) else if fmt == 4 then FFmt.toF32 FFmt.bf16 (leNat b) else BitVec.ofNat 32 (leNat b)

/-- Reduce one chunk in item order: (segment, partial, count), segments in order. -/
def chunkReduce (op : Nat) (items : List (Nat × List Word)) : List (Nat × List Word × Nat) :=
  (items.foldl (fun (acc : List (Nat × List Word × Nat)) (it : Nat × List Word) =>
    match acc with
    | (s, v, n) :: rest =>
      if s == it.1 then (s, List.zipWith (if op == 2 then F32.max else F32.add) v it.2, n + 1) :: rest
      else (it.1, it.2, 1) :: acc
    | [] => [(it.1, it.2, 1)]) []).reverse

def chunkLists {α : Type} : Nat → List α → List (List α)
  | 0, _ => []
  | n + 1, l => if l.isEmpty then [] else l.take 1024 :: chunkLists n (l.drop 1024)

/-- Chunks of 1,024 items by position, partials merged in ascending chunk order; op 0 sum, 1 mean, 2 maximum. -/
def segReduce (op nsegs width : Nat) (items : List (Nat × List Word)) : List (List Word) :=
  let parts := (chunkLists (items.length / 1024 + 1) items).flatMap (chunkReduce op)
  (List.range nsegs).map fun s =>
    match parts.filter (·.1 == s) with
    | [] => List.replicate width 0
    | (_, v, n) :: ps =>
      let (v, n) := ps.foldl (fun (acc : List Word × Nat) (p : Nat × List Word × Nat) =>
        (List.zipWith (if op == 2 then F32.max else F32.add) acc.1 p.2.1, acc.2 + p.2.2)) (v, n)
      if op == 1 then v.map fun x => F32.div x (F32.ofNat n) else v

/-- Reads and writes of a kernel argument's space: 0 HBM, otherwise Inkwell of the core, which is one of the stroke's (log 10). -/
def inkCore (a : NibArgs) (cores : List Nat) : Nat := if cores.contains (a.core % 4) then a.core % 4 else cores.headD 0
/-- An HBM address that the arguments give is held to its region; one in no region has none (R235; log 10). -/
def K.nibRead (own : Nat → Nat) (a : NibArgs) (cores : List Nat) (addr n : Nat) : K (List Byte) := do
  if a.space == 0 then K.heldRead addr addr n (K.readLines own addr)
  else K.readInk (inkCore a cores) addr n
def K.nibWrite (own : Nat → Nat) (a : NibArgs) (cores : List Nat) (addr : Nat) (bs : List Byte) : K Unit := do
  if a.dstSpace == 0 then K.putLines own addr addr bs else K.nibStoreInk (inkCore a cores) addr bs

/-- SEG_REDUCE (R140). DESIGN CHOICE (log 10): the results are FP32 words, whatever the format of the items; the rule says of the
accumulation alone that it is FP32. -/
def K.segReduceKernel (channels : Nat) (a : NibArgs) (cores : List Nat) : K Unit := do
  let own ← K.owners cores
  let eb := elemBytes a.layout
  let bs ← K.nibRead own a cores a.items (a.count * channels * eb)
  let sg ← K.nibRead own a cores a.segs (4 * a.count)
  let items := (List.range a.count).map fun i =>
    (field sg (4 * i) 4, (List.range channels).map fun ch => elemVal a.layout (bytesAt bs ((i * channels + ch) * eb) eb))
  let res := segReduce a.op a.nsegs channels items
  K.nibWrite own a cores a.dst (wordsBytes (res.flatMap id))

/-- A row of the map: each column's NF features as FP16, zeros up to the end of its last block (R182). -/
def mapRow (nf block : Nat) (cols : List (List Word)) : List Byte :=
  let w := block * ceilDiv nf block
  cols.flatMap fun v => (List.range w).flatMap fun ch => if ch < nf then f16Bytes (v.getD ch 0) else [0#8, 0#8]
/-- COLUMN_POOL (R142): cells to columns, pooled; the map goes row by row, in the layout of R182, to the stripes of the stroke's
cores (R203, R204) or to HBM, where its rows are held to the region of its first (R235; log 10). -/
def K.columnPool (a : NibArgs) (cores : List Nat) : K Unit := do
  let c ← K.chan
  match c.img.front with
  | none => pure ()
  | some f =>
    let own ← K.owners cores
    let ks ← K.readKeys own f 0 0 (c.setCells 0)
    let col := fun (k : Nat) =>
      let x := (keyX k - f.bevX0) / (f.bevBX : Int)
      let y := (keyY k - f.bevY0) / (f.bevBY : Int)
      if decide (0 ≤ x) && decide (x < (f.bevW : Int)) && decide (0 ≤ y) && decide (y < (f.bevH : Int)) then
        some (y.toNat * f.bevW + x.toNat) else none
    K.bump .outOfGrid (ks.filter fun k => (col k).isNone).length
    let mut items := []
    for (k, i) in ks.zipIdx do
      match col k with
      | none => pure ()
      | some s =>
        let b ← K.readLines own (f.features + 64 * i) 64
        items := items ++ [(s, (List.range 32).map fun ch => elemVal 5 (bytesAt b (2 * ch) 2))]
    let sorted := sortBy (fun (x y : Nat × List Word) => decide (x.1 ≤ y.1)) items
    let res := segReduce a.op (f.bevW * f.bevH) 32 sorted
    let block := if a.layout == 16 then 16 else 32
    let row := fun (r : Nat) => mapRow f.nf block ((res.drop (r * f.bevW)).take f.bevW)
    if a.dstSpace == 0 then
      for r in List.range f.bevH do
        let at_ := a.dst + r * a.rowStride
        K.putLines own a.dst at_ (row r)
    else
      for (j, i) in cores.zipIdx do
        let (r0, n) := a.stripes.getD i (0, 0)
        for r in List.range n do
          if r0 + r < f.bevH then K.nibStoreInk j (a.dst + r * a.rowStride) (row (r0 + r))

/-- RADIX_PASS (R110): a stable distribution by one 8-bit digit of 8-byte items. -/
def radixPass (digit : Nat) (items : List (List Byte)) : List (List Byte) :=
  (List.range 256).flatMap fun d => items.filter fun b => byteAt b digit == d
def K.radixKernel (a : NibArgs) (cores : List Nat) : K Unit := do
  let own ← K.owners cores
  let n := if a.layout == 4 then 4 else 8
  let bs ← K.nibRead own a cores a.items (n * a.count)
  K.nibWrite own a cores a.dst ((radixPass (a.digit % n) (chunks n a.count bs)).flatMap id)

/-! ### View tables (R143, R144) -/

/-- The column centre in metres in the machine frame, at a height. -/
def bevCentre (f : Front) (col row : Nat) (axis : Nat) : Word :=
  F32.div (if axis == 0 then centreMm f.originX (f.bevX0 + (col : Int) * (f.bevBX : Int)) f.bevBX f.edgeX
    else centreMm f.originY (f.bevY0 + (row : Int) * (f.bevBY : Int)) f.bevBY f.edgeY) f1000

/-- Round to the nearest integer, ties to even. -/
def roundInt (w : Word) : Int :=
  match F32.dec w with
  | .fin neg m e =>
    let v : Int := if neg then -(m : Int) else (m : Int)
    if e ≥ 0 then v * ((2 ^ e.toNat : Nat) : Int)
    else
      let d : Int := ((2 ^ (-e).toNat : Nat) : Int)
      let q := v / d
      let r := v - q * d
      if 2 * r > d || (2 * r == d && q % 2 == 1) then q + 1 else q
  | _ => 0

def f8 : Word := F32.ofNat 8
/-- One entry of a camera's table: intrinsics fx fy cx cy k1..k4, extrinsic pose of seven. DEDUCED (log 13): the inverse pose is the
transpose applied to p − t, the powers are r2·r2, r4·r2 and r4·r4, and U and V round ties to even, none of which R143 states. -/
def viewEntry (cam : CameraRec) (intr extr : List Word) (px py pz : Word) : Nat :=
  let m := quatMatrix (extr.getD 0 0) (extr.getD 1 0) (extr.getD 2 0) (extr.getD 3 0)
  let g := fun i => m.getD i 0
  let t := fun i => extr.getD (4 + i) 0
  let d0 := F32.sub px (t 0)
  let d1 := F32.sub py (t 1)
  let d2 := F32.sub pz (t 2)
  -- the inverse pose: the transpose of the matrix
  let ax := fun i => F32.add (F32.add (F32.mul (g i) d0) (F32.mul (g (3 + i)) d1)) (F32.mul (g (6 + i)) d2)
  let x := F32.div (ax 0) (ax 2)
  let y := F32.div (ax 1) (ax 2)
  let k := fun i => intr.getD (4 + i) 0
  let r2 := F32.add (F32.mul x x) (F32.mul y y)
  let r4 := F32.mul r2 r2
  let r6 := F32.mul r4 r2
  let r8 := F32.mul r4 r4
  let gg := F32.add (F32.add (F32.add (F32.add F32.one (F32.mul (k 0) r2)) (F32.mul (k 1) r4)) (F32.mul (k 2) r6)) (F32.mul (k 3) r8)
  let uu := F32.add (F32.mul (F32.mul (intr.getD 0 0) x) gg) (intr.getD 2 0)
  let vv := F32.add (F32.mul (F32.mul (intr.getD 1 0) y) gg) (intr.getD 3 0)
  let tenth := F32.ofRat false 1 10
  let valid := F32.lt tenth (ax 2) && F32.le 0 uu && F32.lt uu (F32.ofInt ((cam.width : Int) - 1)) && F32.le 0 vv
    && F32.lt vv (F32.ofInt ((cam.height : Int) - 1))
  let enc := fun (w : Word) =>
    let n := roundInt (F32.mul f8 w)
    if F32.isFinite w && decide (0 ≤ n) && decide (n < 65536) then n.toNat else Config.viewCoord w % 65536
  enc uu + 65536 * enc vv + (if valid then 2 ^ 32 else 0)

/-- VIEW_BUILD writes the inactive copy of each camera whose active copy is stale; activation is at completion. -/
def K.viewBuild (cores : List Nat) : K Unit := do
  let c ← K.chan
  match c.img.front with
  | none => pure ()
  | some f =>
    let own ← K.owners cores
    for (cam, i) in f.cameras.zipIdx do
      match c.front.cams[i]? with
      | none => pure ()
      | some cc =>
        if cc.genActive != cc.gen then
          let base := if cc.active == 0 then cam.copy1 else cam.copy0
          let entries := (cam.heights).flatMap fun h => (List.range f.bevH).flatMap fun row => (List.range f.bevW).map fun col =>
            viewEntry cam cc.intr cc.extr (bevCentre f col row 0) (bevCentre f col row 1) h
          K.writeLines own base (entries.flatMap fun e => leBytes 8 e)
/-- On completion the rebuilt copies become active (R144). -/
def Channel.viewActivate (c : Channel) : Channel :=
  { c with front := { c.front with cams := c.front.cams.map fun cc =>
      if cc.genActive != cc.gen then { cc with active := 1 - cc.active, genOther := cc.genActive, genActive := cc.gen } else cc } }
/-- CELL_INSERT completes: the front-end registers show its frame (R127). -/
def Channel.insertDone (c : Channel) : Channel :=
  { c with
    front := { c.front with insDone := true, points := c.front.wPoints, cells := c.front.wCells, sweeps := c.front.wSweeps,
                            status := c.front.working }
    ctr := setAt c.ctr Ctr.frontMisses.ctorIdx (min c.front.wMisses (2 ^ 32 - 1)) }

end Sys2Proof.Machine
end

