-- ==== Sys2Proof/Machine/Arrays.lean ====
section
/-! DEFINITION. The matrix arrays (chapter "Matrix arrays and arithmetic"): element formats, weight tiles, column sums, the
output stage with its free order of accumulating writes (R169, R175; log 9), and MATMUL strokes. A sum or an element is a
32-bit word: an INT32 for integer formats, an FP32 otherwise. -/
namespace Sys2Proof.Machine

/-! ### Element formats (R158) -/

def fmtOf : Nat → Option FFmt
  | 2 => some .e4m3
  | 3 => some .e5m2
  | 4 => some .bf16
  | 5 => some .f16
  | _ => none
/-- Integer formats: INT8, INT4, INT32. -/
def fmtInt (fmt : Nat) : Bool := fmt == 0 || fmt == 1 || fmt == 6
/-- Bits of an element. Codes 6 and 7 are INT32 and FP32 (R177). -/
def fmtBits : Nat → Nat
  | 0 => 8
  | 1 => 4
  | 2 => 8
  | 3 => 8
  | 4 => 16
  | 5 => 16
  | _ => 32
/-- Element i of bytes. -/
def elemAt (fmt : Nat) (bs : List Byte) (i : Nat) : Word :=
  match fmt with
  | 0 => BitVec.ofInt 32 (signed 8 (byteAt bs i))
  | 1 => BitVec.ofInt 32 (signed 4 (byteAt bs (i / 2) / (if i % 2 == 0 then 1 else 16)))
  | 2 => FFmt.e4m3.toF32 (byteAt bs i)
  | 3 => FFmt.e5m2.toF32 (byteAt bs i)
  | 4 => FFmt.bf16.toF32 (field bs (2 * i) 2)
  | 5 => FFmt.f16.toF32 (field bs (2 * i) 2)
  | _ => wordAt bs (4 * i)
def fmtBytes (fmt n : Nat) : Nat := (n * fmtBits fmt + 7) / 8
def elems (fmt n : Nat) (bs : List Byte) : List Word := (List.range n).map (elemAt fmt bs)
/-- A word of an integer format as FP32. -/
def toFp (isInt : Bool) (w : Word) : Word := if isInt then F32.ofInt w.toInt else w

/-! ### Column sums (R161, R162) -/

def sumAdd (fp : Bool) (a b : Word) : Word := if fp then F32.add a b else a + b
/-- A product beyond FP32's range, which two BF16 operands can reach, is rounded as FP32 is (R162; log 13). -/
def prod (fp : Bool) (a b : Word) : Word := if fp then F32.mul a b else a * b
/-- INT32 addition with saturation, and whether it saturated. -/
def satAdd (a b : Word) : Word × Bool :=
  let s := a.toInt + b.toInt
  if s > 2147483647 then (0x7FFFFFFF#32, true) else if s < -2147483648 then (0x80000000#32, true) else (BitVec.ofInt 32 s, false)

/-- A weight tile: its rows' weights, the 2:4 indices of its rows, and whether it holds a NaN or an infinity (R167). -/
structure Tile where
  rows : List (List Word)
  idx : List (List Nat)
  special : Bool

/-- Column c of the product of a tile and an activation vector of K elements; the feeder delivers nothing to the rows beyond them. -/
def colSum (fp sp24 : Bool) (t : Tile) (k : Nat) (act : List Word) (c : Nat) : Word :=
  (t.rows.zipIdx).foldl (fun acc (row, r) =>
    if sp24 then
      if 4 * (r / 2) < k then sumAdd fp acc (prod fp (row.getD c 0) (act.getD (4 * (r / 2) + (t.idx.getD r []).getD c 0) 0)) else acc
    else if r < k then sumAdd fp acc (prod fp (row.getD c 0) (act.getD r 0)) else acc) 0#32

/-- Read a tile of `rows` physical rows (R163). Logical rows from `k` on, and columns that `used` leaves out, are loaded with zero
weights (R156). -/
def K.readTile (j fmt rows : Nat) (sp24 : Bool) (a k : Nat) (used : Nat → Bool) : K Tile := do
  let rb := if fmt == 4 || fmt == 5 then 128 else 64
  let cols := if fmt == 1 then 128 else 64
  let bs ← K.readInk j a (rows * rb)
  let ib ← if sp24 then K.readInk j (a + rows * rb) (rows * 16) else pure []
  let idx := if sp24 then (chunks 16 rows ib).map fun b => (List.range 64).map fun c => bitsOf (byteAt b (c / 4)) (2 * (c % 4) + 1) (2 * (c % 4)) else []
  let logical := fun (r c : Nat) => if sp24 then 4 * (r / 2) + (idx.getD r []).getD c 0 else r
  let ws := ((chunks rb rows bs).zipIdx).map fun (b, r) => ((elems fmt cols b).zipIdx).map fun (w, c) =>
    if decide (logical r c < k) && used c then w else 0#32
  return { rows := ws, idx := idx, special := !(fmtInt fmt) && ws.any fun r => r.any fun w => !(F32.isFinite w) }

/-- R166: an integer vector of zeros, or a floating-point vector of +0 and −0. -/
def zeroVector (isInt : Bool) (v : List Word) : Bool := v.all fun w => if isInt then w == 0#32 else F32.abs w == 0#32

/-! ### The output stage (R169, R191) -/

/-- A write of up to 16 lanes to one granule, and the stream it leaves by: writes of one stream keep their order. -/
structure Wr where
  key : Nat
  pass : Nat
  addr : Nat
  vals : List Word

/-- The output stage of a stroke on a core: FP32 sums or INT32, maximum in place of the sum (R192), how a write combines
(accumulate; first touch overwrites), whether an overwriting value is stored as it stands (R207), the touched granules, the waiting writes, and the events counted. -/
structure Out where
  fp : Bool
  mx : Bool
  acc : Bool
  touch : Bool
  exact : Bool
  touched : List Nat
  pend : List Wr
  sat : Nat
  nonfin : Nat

def Out.start (fp mx acc touch : Bool) : Out :=
  { fp := fp, mx := mx, acc := acc, touch := touch, exact := false, touched := [], pend := [], sat := 0, nonfin := 0 }

/-- The stored sum of a lane: the value, and whether the add saturated. DESIGN CHOICE (log 9): an accumulating write adds a subnormal column
sum as it is, and only the stored result is flushed; R162 has a sum that would be subnormal written as +0, and of an accumulating write
the sum written is the stored one (R169). -/
def Out.lane (o : Out) (old : Option Word) (v : Word) : Word × Bool :=
  match old with
  | none => (if o.fp && !o.exact then F32.flush v else v, false)
  | some s =>
    if o.mx then (if o.fp then F32.flush (F32.max s v) else if s.toInt < v.toInt then v else s, false)
    else if o.fp then (F32.flush (F32.add s v), false)
    else satAdd s v

/-- A write reaches its bank. A poisoned granule stays poisoned under an accumulating write (log 9). -/
def K.commitWr (j : Nat) (o : Out) (w : Wr) : K Out := do
  let g := w.addr / 64
  let combine := o.acc && !(o.touch && !(o.touched.contains g))
  let bad := (coreMem (← K.chan) j).bad g
  let old ← if combine then K.readInk j w.addr (4 * w.vals.length) else pure []
  let res := (w.vals.zipIdx).map fun (v, i) => o.lane (if combine then some (wordAt old (4 * i)) else none) v
  K.writeInkP j w.addr (wordsBytes (res.map (·.1))) (combine && bad)
  return { o with
    touched := if o.touch && !(o.touched.contains g) then g :: o.touched else o.touched
    sat := o.sat + (res.filter (·.2)).length
    nonfin := o.nonfin + (if o.fp then (res.filter fun r => !(F32.isFinite r.1)).length else 0) }

/-- One waiting write of a free choice of stream, among writes of passes up to `p`, reaches its bank. -/
def K.drainOne (j p : Nat) (o : Out) : K Out := do
  let keys := ((o.pend.filter fun w => Nat.ble w.pass p).map (·.key)).eraseDups
  let n ← K.free
  let i := o.pend.findIdx (·.key == keys.getD (n % keys.length) 0)
  match o.pend[i]? with
  | some w => if Nat.ble w.pass p then K.commitWr j { o with pend := o.pend.eraseIdx i } w else pure o
  | none => pure o
def K.drainN (j p : Nat) : Nat → Out → K Out
  | 0, o => pure o
  | n + 1, o => do K.drainN j p n (← K.drainOne j p o)
/-- Every write of the passes up to `p` lands. -/
def K.drainUpTo (j p : Nat) (o : Out) : K Out := K.drainN j p (o.pend.filter fun w => Nat.ble w.pass p).length o
def K.drainAll (j : Nat) (o : Out) : K Out := K.drainN j (2 ^ 32) o.pend.length o
/-- Before a feeder reads, any number of the waiting writes may have landed (R152). -/
def K.drainSome (j : Nat) (o : Out) : K Out := do
  if o.pend.isEmpty then return o
  let n ← K.free
  K.drainN j (2 ^ 32) (n % (o.pend.length + 1)) o

/-- Sums for consecutive columns from address `a`, cut at granules. DESIGN CHOICE (log 9): of a granule that the used columns do not fill only
their bytes are written, and the rest stays with its poison: R169 says plain granules, R156 that sums of unused columns are not written. -/
def wrCuts (key pass : Nat) : Nat → Nat → List Word → List Wr
  | 0, _, _ => []
  | n + 1, a, vs =>
    if vs.isEmpty then [] else
    let k := (64 - a % 64) / 4
    { key := key, pass := pass, addr := a, vals := vs.take k } :: wrCuts key pass n (a + 4 * k) (vs.drop k)
def Out.send (o : Out) (key pass a : Nat) (vs : List Word) : Out := { o with pend := o.pend ++ wrCuts key pass (vs.length + 1) a vs }

/-- The stroke's counters and its SAT and NONFINITE records (R161, R162). -/
def K.arrayEvents (sat nonfin : Nat) : K Unit := do
  let s ← get
  if sat > 0 then
    K.mod fun c => (c.bump .arrSat sat).stick .arrSat
    K.err .note 0x50 (initScribe s.m) (some s.idx) none
  if nonfin > 0 then
    K.mod fun c => (c.bump .arrNonfinite nonfin).stick .arrNonfinite
    K.err .note 0x51 (initScribe s.m) none none
  K.bump .perfArrayCyc (← K.free)

/-! ### MATMUL (R170 to R172) -/

structure ArrayHdr where
  op : Nat
  dataflow : Nat
  wfmt : Nat
  afmt : Nat
  acc : Bool
  sp24 : Bool
  zskip : Bool
  npass : Nat
  flagsOk : Bool
def arrayHdr (b : List Byte) : ArrayHdr :=
  let f := byteAt b 4
  { op := byteAt b 0, dataflow := byteAt b 1, wfmt := byteAt b 2, afmt := byteAt b 3, acc := bitOf f 0, sp24 := bitOf f 1,
    zskip := bitOf f 2, npass := field b 6 2, flagsOk := decide (f < 8) && byteAt b 5 == 0 }

structure MPass where
  pack : Nat
  slot : Nat
  load : Bool
  k : Nat
  n : Nat
  v : Nat
  waitfor : Nat
  w : Nat
  a : Nat
  astride : Nat
  ostride : Nat
  o : Nat
  o2 : Nat
def mPass (b : List Byte) : MPass :=
  { pack := byteAt b 0, slot := byteAt b 1, load := bitOf (byteAt b 2) 0, k := field b 4 2, n := field b 6 2, v := field b 8 2,
    waitfor := field b 10 2, w := field b 12 4, a := field b 16 4, astride := field b 20 2, ostride := field b 22 2,
    o := field b 24 4, o2 := field b 28 4 }
def mPasses (b : List Byte) : List MPass := (chunks 32 (field b 6 2) (b.drop 64)).map mPass
/-- Physical rows of a slot (R155). -/
def slotRows (pack : Nat) : Nat := if pack == 0 || pack == 2 then 128 else 64
/-- Output columns of a slot, of each half in column-split (R155). With INT4 weights: 128 in full mode, and 64 for each half of
column-split or quad and for each row-split slot (R160). -/
def slotCols (pack wfmt : Nat) : Nat :=
  if wfmt == 1 then (if pack == 0 then 128 else 64) else if pack == 2 || pack == 3 then 32 else 64

/-- The array that takes vector j of V among n (R172). -/
def arrayOf (n v j : Nat) : Nat := ((List.range n).find? fun i => decide (j < (i + 1) * v / n)).getD 0

/-- Vectors of array `i` among n (R172): the first, and the one after the last. -/
def vectorsOf (n v i : Nat) : Nat × Nat := (i * v / n, (i + 1) * v / n)

structure MatSt where
  o : Out
  tiles : List ((Nat × Nat) × Tile)
  skipped : Nat

/-- The slots that share a row group with slot (pack, slot), as (pack, slot) lists over the groups U and L (R157). -/
def slotGroups (pack slot : Nat) : List Nat :=
  if pack == 0 || pack == 2 then [0, 1]
  else if pack == 1 then [slot]
  else [slot / 2]
def shareSlots (a b : Nat × Nat) : Bool := (slotGroups a.1 a.2).any fun g => (slotGroups b.1 b.2).contains g
/-- A load into slot `a` overwrites what slot `b` of another packing holds in the same rows; slots of one packing lie side by
side (R155, R156). -/
def overwrites (a b : Nat × Nat) : Bool := a.1 != b.1 && shareSlots a b

/-- A weight-stationary pass on its way: its tile is loaded, and how many vectors each array's feeder has sent. -/
structure PassRun where
  p : MPass
  i : Nat
  loaded : Bool
  next : List Nat
def PassRun.start (arrays : Nat) (p : MPass) (i : Nat) : PassRun :=
  { p := p, i := i, loaded := !p.load, next := List.replicate arrays 0 }
def PassRun.slot (r : PassRun) : Nat × Nat := (r.p.pack, r.p.slot)
def PassRun.doneOn (r : PassRun) (a : Nat) : Bool :=
  let w := vectorsOf r.next.length r.p.v a
  decide (w.2 - w.1 ≤ r.next.getD a 0)
def PassRun.done (r : PassRun) : Bool := r.loaded && (List.range r.next.length).all r.doneOn
/-- The load of `r` may begin: loads keep list order, and every earlier pass on its rows has sent its vectors (R150, R151). -/
def mayLoad (rs : List PassRun) (r : PassRun) : Bool :=
  !r.loaded && (rs.take r.i).all fun q => q.loaded && (!(shareSlots q.slot r.slot) || q.done)
/-- Array `a`'s next vector of `r` may enter: earlier passes of the slot are through on that array, the loads before it on its
rows are done, and so are the passes WAITFOR names (R152, R157, R171). -/
def mayStream (rs : List PassRun) (r : PassRun) (a : Nat) : Bool :=
  r.loaded && !(r.doneOn a)
    && ((rs.take r.i).all fun q => (q.slot != r.slot || q.doneOn a) && (!(shareSlots q.slot r.slot) || q.loaded))
    && (r.p.waitfor == 0xFFFF || (rs.take (r.p.waitfor + 1)).all PassRun.done)

/-- A pass loads its tile. -/
def K.passLoad (j : Nat) (h : ArrayHdr) (p : MPass) (s : MatSt) : K MatSt := do
  let o ← K.drainSome j s.o
  let half := slotCols 2 h.wfmt
  let t ← K.readTile j h.wfmt (slotRows p.pack) h.sp24 p.w p.k (fun c => if p.pack == 2 then decide (c % half < p.n) else decide (c < p.n))
  return { s with o := o, tiles := ((p.pack, p.slot), t) :: s.tiles.filter fun x => x.1 != (p.pack, p.slot) && !(overwrites (p.pack, p.slot) x.1) }
/-- Vector `v` of a pass enters array `a`. -/
def K.passVector (j a v : Nat) (h : ArrayHdr) (p : MPass) (i : Nat) (s : MatSt) : K MatSt := do
  let fp := !(fmtInt h.afmt)
  let o ← if p.waitfor != 0xFFFF then K.drainUpTo j p.waitfor s.o else pure s.o
  let o ← K.drainSome j o
  match s.tiles.find? fun x => x.1 == (p.pack, p.slot) with
  | none => return { s with o := o }
  | some (_, t) =>
    let bs ← K.readInk j (p.a + v * p.astride) (fmtBytes h.afmt p.k)
    let act := elems h.afmt p.k bs
    let key := 16 * a + 4 * p.pack + p.slot
    let skip := h.zskip && !t.special && zeroVector (!fp) act
    let sk := s.skipped + b2n skip
    if skip && h.acc then return { s with o := o, skipped := sk }
    let cols := fun (c0 : Nat) => (List.range p.n).map fun c => if skip then 0#32 else colSum fp h.sp24 t p.k act (c0 + c)
    let o := o.send key i (p.o + v * p.ostride) (cols 0)
    return { s with o := if p.pack == 2 then o.send key i (p.o2 + v * p.ostride) (cols (slotCols 2 h.wfmt)) else o, skipped := sk }

/-- The slots and the arrays' feeders advance on their own (R157): which load or vector comes next, of those that may, is free
(log 9). -/
def K.wsGo (j : Nat) (h : ArrayHdr) : Nat → List PassRun → MatSt → K MatSt
  | 0, _, s => pure s
  | n + 1, rs, s => do
    let acts : List (PassRun × Option Nat) := rs.flatMap fun r =>
      (if mayLoad rs r then [(r, none)] else []) ++ ((List.range r.next.length).filter (mayStream rs r)).map fun a => (r, some a)
    match acts[(← K.free) % acts.length]? with
    | none => return s
    | some (r, none) =>
      let s ← K.passLoad j h r.p s
      K.wsGo j h n (rs.set r.i { r with loaded := true }) s
    | some (r, some a) =>
      let s ← K.passVector j a ((vectorsOf r.next.length r.p.v a).1 + r.next.getD a 0) h r.p r.i s
      K.wsGo j h n (rs.set r.i { r with next := modAt r.next a (· + 1) }) s
def K.passesWs (j arrays : Nat) (h : ArrayHdr) (ps : List MPass) (s : MatSt) : K MatSt :=
  K.wsGo j h ((ps.map fun p => p.v + 1).foldl (· + ·) 0) ((ps.zipIdx).map fun (p, i) => PassRun.start arrays p i) s

/-- An output-stationary pass (R153, R154): C[m][n] = Σ_k A[m][k]·B[k][n], in ascending k. B's vectors follow one another at N elements
rounded up to 64 bytes (R171; log 20). -/
def K.passOs (j arrays : Nat) (h : ArrayHdr) (p : MPass) (i : Nat) (s : MatSt) : K MatSt := do
  let fp := !(fmtInt h.afmt)
  let mut o := s.o
  if p.waitfor != 0xFFFF then o ← K.drainUpTo j p.waitfor o
  let bstride := (fmtBytes h.wfmt p.n + 63) / 64 * 64
  let mut as := []
  let mut bs := []
  for k in List.range p.k do
    o ← K.drainSome j o
    let a ← K.readInk j (p.a + k * p.astride) (fmtBytes h.afmt p.v)
    let b ← K.readInk j (p.w + k * bstride) (fmtBytes h.wfmt p.n)
    as := as ++ [elems h.afmt p.v a]
    bs := bs ++ [elems h.wfmt p.n b]
  for m in List.range p.v do
    let row := (List.range p.n).map fun n =>
      (as.zip bs).foldl (fun acc (a, b) => sumAdd fp acc (prod fp (a.getD m 0) (b.getD n 0))) 0#32
    o := o.send (16 * arrayOf arrays p.v m) i (p.o + m * p.ostride) row
  return { s with o := o }

/-- A MATMUL stroke on every core it names. -/
def K.matmul (parm : List Byte) (cores : Nat) : K Unit := do
  let arrays := (← get).arrays
  let h := arrayHdr parm
  let ps := mPasses parm
  let mut sat := 0
  let mut nonfin := 0
  for j in coresOf cores do
    let mut s : MatSt := { o := Out.start (!(fmtInt h.afmt)) false h.acc false, tiles := [], skipped := 0 }
    if h.dataflow == 1 then
      for (p, i) in ps.zipIdx do s ← K.passOs j arrays h p i s
    else s ← K.passesWs j arrays h ps s
    let o ← K.drainAll j s.o
    sat := sat + o.sat
    nonfin := nonfin + o.nonfin
    K.bump .arrSkipped s.skipped
  K.arrayEvents sat nonfin

/-! ### Load checks of MATMUL (R149, R154, R159, R164, R170 to R173) -/

/-- R159: the operand pairs the arrays accept. -/
def pairOk (h : ArrayHdr) : Bool :=
  let fp8 := fun f => f == 2 || f == 3
  let os := h.dataflow == 1
  match h.wfmt, h.afmt with
  | 0, 0 => true
  | 1, 0 => !os && !h.sp24
  | 4, 4 => !h.sp24
  | 5, 5 => !h.sp24
  | w, a => fp8 w && fp8 a

def slotsOf (pack : Nat) : Nat := match pack with
  | 0 => 1
  | 1 => 2
  | 2 => 1
  | _ => 4

/-- A pass of the cost walk: slot, LOAD, WAITFOR and the two stream terms. -/
structure Walk where
  slot : Nat × Nat
  load : Bool
  waitfor : Nat
  stream : Nat
  lat : Nat

def allSlots : List (Nat × Nat) := [(0, 0), (1, 0), (1, 1), (2, 0), (3, 0), (3, 1), (3, 2), (3, 3)]
def slotIx (s : Nat × Nat) : Nat := allSlots.findIdx (· == s)
/-- The walk of R173. -/
def walkBound (ps : List Walk) : Nat :=
  let st := ps.foldl (fun (st : Nat × List Nat × List Nat) p =>
    let (port, free, done) := st
    let sh := allSlots.filter fun s => shareSlots p.slot s
    let fr := fun s => free.getD (slotIx s) 64
    let t0 := fr p.slot
    let t1 := if p.load then max t0 (max port ((sh.map fr).foldl max 0)) + 64 * (slotGroups p.slot.1 p.slot.2).length else t0
    let port := if p.load then t1 else port
    let free := if p.load then sh.foldl (fun f s => modAt f (slotIx s) (max · t1)) free else free
    let t2 := if p.waitfor == 0xFFFF then t1 else max t1 ((done.take (p.waitfor + 1)).foldl max 0)
    let t3 := t2 + p.stream
    (port, setAt free (slotIx p.slot) t3, done ++ [t3 + p.lat])) (64, List.replicate 8 64, [])
  st.2.2.foldl max st.1

def fmtRate (fmt : Nat) : Nat := if fmt == 4 || fmt == 5 then 4 else 1
def matmulBound (n : Nat) (h : ArrayHdr) (ps : List MPass) : Nat :=
  walkBound (ps.map fun p =>
    { slot := (p.pack, p.slot), load := p.load, waitfor := p.waitfor,
      stream := if h.dataflow == 0 then fmtRate h.afmt * ceilDiv p.v n else max (fmtRate h.afmt * p.k) 64
      lat := if h.dataflow == 0 then 264 else 328 })

/-- Whether spans (first, end) together cover [a, stop): from `a`, each step goes on to the furthest end of a span that holds it. -/
def spansCover (l : List (Nat × Nat)) (stop : Nat) : Nat → Nat → Bool
  | 0, a => decide (stop ≤ a)
  | n + 1, a =>
    if stop ≤ a then true else
    let far := (l.filter fun x => decide (x.1 ≤ a)).foldl (fun m x => max m x.2) a
    decide (a < far) && spansCover l stop n far
/-- Bytes [a, a+n) lie in declared ranges whose access satisfies `acc`; one range or several together (R39, R149). -/
def rangesCover (rs : List Range) (space core : Nat) (acc : Nat → Bool) (a n : Nat) : Bool :=
  n == 0 || spansCover ((rs.filter fun r => r.space == space && (space == 1 || r.core == core) && acc r.access).map fun r =>
    (r.base, r.base + 64 * r.len)) (a + n) rs.length a
/-- The ranges may be written, or read. -/
def rangeHas (rs : List Range) (space core : Nat) (wr : Bool) (a n : Nat) : Bool :=
  rangesCover rs space core (fun x => if wr then x != 0 else x != 1) a n
/-- One declared Inkwell range of core `core`, so one allocation (R213), that may be read holds the bytes (R189). -/
def oneRangeHas (rs : List Range) (core a n : Nat) : Bool :=
  n == 0 || rs.any fun r => r.space == 0 && r.core == core && r.access != 1 && Nat.ble r.base a && decide (a + n ≤ r.base + 64 * r.len)
/-- They are read-and-write ranges (ACCESS 2). -/
def rangeBoth (rs : List Range) (space core a n : Nat) : Bool := rangesCover rs space core (· == 2) a n
/-- `count` operands of `n` bytes at a stride, each in declared ranges. -/
def rangeRows (rs : List Range) (space core : Nat) (wr : Bool) (a n stride count : Nat) : Bool :=
  if stride ≤ n then rangeHas rs space core wr a (if count == 0 then 0 else (count - 1) * stride + n)
  else (List.range count).all fun i => rangeHas rs space core wr (a + i * stride) n

/-- Whether a pass obeys R171, given the passes before it. DESIGN CHOICE (log 20): R171 names no refusal for a MATMUL pass outside its
limits, as R185 does for SPARSE and DENSE; the model refuses it with BAD_STROKE. -/
def mPassOk (h : ArrayHdr) (rs : List Range) (cores : List Nat) (arrays i : Nat) (loaded : Bool) (b : List Byte) (p : MPass) : Bool :=
  let os := h.dataflow == 1
  let rows := slotRows p.pack * (if h.sp24 then 2 else 1)
  let inR := fun wr a n stride count => cores.all fun j => rangeRows rs 0 j wr a n stride count
  let tileB := slotRows p.pack * ((if h.wfmt == 4 || h.wfmt == 5 then 128 else 64) + (if h.sp24 then 16 else 0))
  decide (p.pack < 4) && decide (p.slot < slotsOf p.pack) && decide (byteAt b 2 < 2) && byteAt b 3 == 0
    && (p.waitfor == 0xFFFF || decide (p.waitfor < i)) && [p.astride, p.ostride, p.w, p.a, p.o, p.o2].all (· % 64 == 0)
    && (p.pack == 2 || p.o2 == 0)
    && (if os then p.pack == 0 && !h.zskip && decide (1 ≤ p.k) && decide (p.n ≤ 64) && decide (p.v ≤ 128 * arrays)
          && inR false p.w (fmtBytes h.wfmt p.n) ((fmtBytes h.wfmt p.n + 63) / 64 * 64) p.k && inR false p.a (fmtBytes h.afmt p.v) p.astride p.k
        else decide (p.k ≤ rows) && decide (p.n ≤ slotCols p.pack h.wfmt) && (p.load || loaded)
          && (!p.load || inR false p.w tileB 0 1) && inR false p.a (fmtBytes h.afmt p.k) p.astride p.v)
    && inR true p.o (4 * p.n) p.ostride p.v && (p.pack != 2 || inR true p.o2 (4 * p.n) p.ostride p.v)

/-- Whether slot `x` holds a tile of one of the passes `qs`, given newest first (R172). -/
def holdsTile (x : Nat × Nat) : List MPass → Bool
  | [] => false
  | q :: qs => if q.load && (q.pack, q.slot) == x then true else if q.load && overwrites (q.pack, q.slot) x then false else holdsTile x qs
/-- MATMUL's parameter block, but for the content of its tiles. -/
def matmulOk (parm : List Byte) (rs : List Range) (cores : List Nat) (arrays : Nat) : Bool :=
  let h := arrayHdr parm
  let ps := mPasses parm
  h.flagsOk && decide (h.dataflow < 2) && pairOk h && zeroAt parm 8 56 && decide (1 ≤ h.npass)
    && parm.length == 64 + 32 * h.npass && !(h.dataflow == 1 && (h.sp24 || h.wfmt == 1))
    && (ps.zipIdx).all fun (p, i) =>
      mPassOk h rs cores arrays i (holdsTile (p.pack, p.slot) (ps.take i).reverse) (parm.drop (64 + 32 * i)) p

end Sys2Proof.Machine
end

