-- ==== Sys2Proof/Machine/Vector.lean ====
section
/-! DEFINITION. The vector unit (R177 to R180). -/
namespace Sys2Proof.Machine

/-! ### Functions with an accuracy bound: any FP32 value within it is a result (log 13) -/

/-- A non-negative exact value as a fraction. -/
structure Frac where
  num : Nat
  den : Nat

/-- e^(−x) of a fixed-point x ≥ 0, as a fraction. -/
def expNeg (x : Int) : Frac :=
  let x := min x (200 * Fix.S)
  let k := (x + (Fix.ln2 : Int) - 1) / (Fix.ln2 : Int)
  { num := (Fix.expSmall (k * (Fix.ln2 : Int) - x)).toNat, den := Fix.S * 2 ^ k.toNat }
/-- e^x of a fixed-point x of any sign, |x| at most 200. -/
def expFrac (x : Int) : Frac :=
  if x ≤ 0 then expNeg (-x) else
  let e := expNeg x
  { num := e.den, den := e.num }
/-- 1/√(m·2^e) for m > 0, to more than 100 bits. -/
def rsqrtFrac (m : Nat) (e : Int) : Frac :=
  let m1 := if e % 2 == 0 then m else 2 * m
  let h := (if e % 2 == 0 then e else e - 1) / 2
  -- r = 2^k/√m1, k chosen by the size of m1
  let k := 104 + (Nat.log2 m1 + 1) / 2
  let r := isqrt (2 ^ (2 * k) / m1)
  if h ≥ 0 then { num := r, den := 2 ^ k * 2 ^ h.toNat } else { num := r * 2 ^ (-h).toNat, den := 2 ^ k }
/-- A finite FP32 value in fixed point, magnitude limited to 2^20. -/
def fixOf (w : Word) : Int :=
  match F32.dec w with
  | .fin neg m e =>
    if e > 0 && m != 0 then (if neg then -(2 ^ 20 * Fix.S : Int) else (2 ^ 20 * Fix.S : Int))
    else
      let v := min ((m * Fix.S) / 2 ^ (-e).toNat) (2 ^ 20 * Fix.S)
      if neg then -(v : Int) else (v : Int)
  | _ => 0
/-- 1/(1 + e^(−x)). -/
def sigmoidFrac (x : Int) : Frac :=
  let e := expNeg (x.natAbs : Nat)
  if x ≥ 0 then { num := e.den, den := e.den + e.num } else { num := e.num, den := e.den + e.num }
/-- √(2/π) in fixed point. -/
def sqrt2pi : Nat := isqrt (2 * Fix.S * Fix.S / Fix.pi * Fix.S)

/-- The exact result of the operations 08h to 0Fh on a finite operand, as a signed fraction; none where no result is stated. -/
def funcExact (opc : Nat) (w : Word) : Option (Bool × Frac) :=
  let x := fixOf w
  let neg := decide (x < 0)
  match F32.dec w with
  | .fin s m e =>
    -- an operand of large magnitude as it stands, where the function is the operand or 0 within every bound
    let self : Frac := if e ≥ 0 then { num := m * 2 ^ e.toNat, den := 1 } else { num := m, den := 2 ^ (-e).toNat }
    let big := decide (x.natAbs > 1000 * Fix.S)
    match opc with
    | 0x08 => some (false, sigmoidFrac x)
    | 0x09 =>
      let q := expNeg (2 * (x.natAbs : Nat))
      some (neg, { num := q.den - q.num, den := q.den + q.num })
    | 0x0A => if big then some (neg, if neg then { num := 0, den := 1 } else self) else
      let y := Fix.mul (sqrt2pi : Int) (x + Fix.mul (Fix.S * 44715 / 1000000 : Nat) (Fix.mul x (Fix.mul x x)))
      let sg := sigmoidFrac (2 * y)
      some (neg, { num := x.natAbs * sg.num, den := Fix.S * sg.den })
    | 0x0B => if big then some (neg, if neg then { num := 0, den := 1 } else self) else
      let sg := sigmoidFrac x
      some (neg, { num := x.natAbs * sg.num, den := Fix.S * sg.den })
    | 0x0C =>
      if decide (x > 100 * Fix.S) then some (false, { num := 2 ^ 200, den := 1 })
      -- below every place of FP32: 2 ulp of the result are 2 units of 2^−149, and e^−120 is less than 2^−173
      else if decide (x < -(120 * Fix.S : Int)) then some (false, { num := 1, den := 2 ^ 200 })
      else some (false, expFrac x)
    | 0x0D => if s || m == 0 then none else
      let l := Fix.lnV m e
      some (decide (l < 0), { num := l.natAbs, den := Fix.S })
    | 0x0E => if m == 0 then none else
      some (s, if e ≥ 0 then { num := 1, den := m * 2 ^ e.toNat } else { num := 2 ^ (-e).toNat, den := m })
    | _ => if s || m == 0 then none else some (false, rsqrtFrac m e)
  | _ => none

/-- |w − (±num/den)| ≤ tol, tol given as a fraction. -/
def withinFrac (w : Word) (neg : Bool) (f : Frac) (tol : Frac) : Bool :=
  match F32.dec w with
  | .fin s m e =>
    let (n, d) := if e ≥ 0 then (m * 2 ^ e.toNat, 1) else (m, 2 ^ (-e).toNat)
    let a : Int := (if s then -1 else 1) * ((n * f.den : Nat) : Int) - (if neg then -1 else 1) * ((f.num * d : Nat) : Int)
    decide (a.natAbs * tol.den ≤ tol.num * d * f.den)
  | _ => false
/-- `k` units in the last place of an FP32 value. -/
def ulps (k : Nat) (w : Word) : Frac :=
  let ex := max (w.toNat / 2 ^ 23 % 256) 1
  if ex ≥ 150 then { num := k * 2 ^ (ex - 150), den := 1 } else { num := k, den := 2 ^ (150 - ex) }

/-- A result of 08h to 0Fh: any value within the bound of R177, or any value where none is stated. DESIGN CHOICE
(log 13): the unit in the last place that the bound counts is that of the exact result rounded to FP32. -/
def K.func (opc : Nat) (w : Word) : K Word := do
  let s ← get
  modify fun s => { s with ctr := s.ctr + 1 }
  let cand := Config.freeWord s.ctr
  match funcExact opc w with
  | none => return cand
  | some (neg, f) =>
    let base := F32.ofRat neg f.num f.den
    let u := ulps (if opc < 0x0C then 4 else 2) base
    let ok := withinFrac cand neg f u || (decide (opc < 0x0C) && withinFrac cand neg f { num := 1, den := 1000000 })
    return if ok then cand else base

/-! ### Reductions (R178) -/

def pairTree : Nat → List Word → Word
  | 0, l => l.getD 0 0
  | n + 1, l => pairTree n ((List.range ((l.length + 1) / 2)).map fun i =>
      if 2 * i + 1 < l.length then F32.add (l.getD (2 * i) 0) (l.getD (2 * i + 1) 0) else l.getD (2 * i) 0)
/-- The lanes in the tree's order. -/
def laneShuffle : Nat → Nat → List Word → List Word
  | 0, _, l => l
  | n + 1, k, l =>
    let i := Config.laneOrder k % l.length
    match l[i]? with
    | some x => x :: laneShuffle n (k + 1) (l.eraseIdx i)
    | none => l
/-- The tree over the 64 lanes (R178). DESIGN CHOICE (log 13): where the elements are no multiple of 64, the lanes left over hold +0. -/
def laneSum (l : List Word) : Word := pairTree 6 (laneShuffle 64 0 (l ++ List.replicate (64 - l.length) 0#32))
def lanes64 : Nat → List Word → List (List Word)
  | 0, _ => []
  | n + 1, l => if l.isEmpty then [] else l.take 64 :: lanes64 n (l.drop 64)
/-- Groups of 64 lanes by the tree, then the lane sums in ascending order. -/
def vecSum (l : List Word) : Word :=
  match (lanes64 (l.length / 64 + 1) l).map laneSum with
  | [] => 0#32
  | s :: ss => ss.foldl F32.add s

/-! ### Outputs (R179) -/

/-- Nearest integer of an exact value, ties to even; 0 where there is none. -/
def FVal.round : FVal → Int
  | .fin neg m e => if e ≥ 0 then FVal.alignInt neg m e 0 else
    let d : Int := ((2 ^ (-e).toNat : Nat) : Int)
    let v : Int := if neg then -(m : Int) else (m : Int)
    let q := v / d
    let r := v - q * d
    if 2 * r > d || (2 * r == d && q % 2 == 1) then q + 1 else q
  | _ => 0
/-- An exact value as an element of a format, rounded once: its bits, and whether it saturated or was a NaN. `zero` is added after
the rounding of integer outputs. An FP32 output cannot saturate; `quant`: its NaN counts too (R179). DESIGN CHOICE (log 13): a result of
any opcode saturates and counts so where its OFMT is narrower; R179 says it of quantisation. -/
def quantElem (fmt : Nat) (v : FVal) (zero : Int) (quant : Bool) : Nat × Bool :=
  let int := fun (bits : Nat) =>
    match v with
    | .nan => (0, true)
    | .inf neg => ((if neg then (2 : Int) ^ (bits - 1) else 2 ^ (bits - 1) - 1).toNat, true)
    | _ =>
      let r := v.round + zero
      let cl := max (-(2 ^ (bits - 1) : Int)) (min (2 ^ (bits - 1) - 1) r)
      ((cl % (2 ^ bits : Int)).toNat, decide (cl != r))
  match fmt with
  | 0 => int 8
  | 1 => int 4
  | 6 => int 32
  | f => match fmtOf f with
    | some ff =>
      let bits := ff.ofExact .rne true v
      (bits, v.isNaN || bits != ff.ofExact .rne false v)
    | none => ((F32.enc v).toNat, quant && v.isNaN)

/-- Elements packed into bytes. -/
def packElems (fmt : Nat) (vs : List Nat) : List Byte :=
  if fmt == 1 then (List.range ((vs.length + 1) / 2)).map fun i => BitVec.ofNat 8 (vs.getD (2 * i) 0 + 16 * vs.getD (2 * i + 1) 0)
  else vs.flatMap fun v => leBytes (fmtBits fmt / 8) v

/-! ### VECTOR strokes (R177) -/

structure VEntry where
  opc : Nat
  ifmt : Nat
  ofmt : Nat
  e : Nat
  s0 : Nat
  s1 : Nat
  s2 : Nat
  dst : Nat
  p0 : Word
  p1 : Word
  raw : List Byte
def vEntry (b : List Byte) : VEntry :=
  { opc := byteAt b 0, ifmt := byteAt b 1, ofmt := byteAt b 2, e := field b 4 4, s0 := field b 8 4, s1 := field b 12 4,
    s2 := field b 16 4, dst := field b 20 4, p0 := wordAt b 24, p1 := wordAt b 28, raw := b.take 32 }
def vEntries (b : List Byte) : List VEntry := (chunks 32 (field b 0 2) (b.drop 16)).map vEntry

/-- Sources an operation reads. -/
def vSources (opc : Nat) : Nat :=
  match opc with
  | 0x03 => 3
  | 0x06 => 3
  | 0x12 => 1
  | o => if o ≤ 2 || o == 4 || o == 5 then 2 else 1
/-- Elements of a row (R177: p0). DESIGN CHOICE (log 13): a p0 that is no positive integer is rounded, to at least 1. -/
def VEntry.row (v : VEntry) : Nat := max 1 (roundInt v.p0).toNat
/-- Elements an operation writes. -/
def VEntry.outs (v : VEntry) : Nat := if v.opc == 0x10 then v.e / v.row else v.e
/-- Rows of `n` elements. DESIGN CHOICE (log 13): where E is no multiple of p0, the last, partial row of opcodes 10h and 11h is left out;
R177 does not say. -/
def rowsOf (n : Nat) : Nat → List Word → List (List Word)
  | 0, _ => []
  | k + 1, l => if l.length < n then [] else l.take n :: rowsOf n k (l.drop n)

/-- A free FP32 value within `tol` of the exact result, or that result rounded (log 13). -/
def K.near (k : Nat) (neg : Bool) (f : Frac) : K Word := do
  let s ← get
  modify fun s => { s with ctr := s.ctr + 1 }
  let cand := Config.freeWord s.ctr
  let base := F32.ofRat neg f.num f.den
  return if withinFrac cand neg f (ulps k base) then cand else base
/-- Layer normalisation of a row (11h): mean and variance by the fixed-order sums; then (x − mean)/√(var + ε), within 4 ulp of its
exact value (R177). DESIGN CHOICE (log 13): each difference, square, the mean and the variance are rounded to FP32, the variance divides by
p0, and the exact value is that of the rounded mean and variance; R177 gives neither these roundings nor the divisor. -/
def K.layerNorm (eps : Word) (row : List Word) : K (List Word) := do
  let n := F32.ofNat row.length
  let mean := F32.div (vecSum row) n
  let var := F32.div (vecSum (row.map fun x => let d := F32.sub x mean; F32.mul d d)) n
  row.mapM fun x => match FVal.add (F32.dec x) (FVal.neg (F32.dec mean)), FVal.add (F32.dec var) (F32.dec eps) with
    | .fin neg m e, .fin false mq eq =>
      if mq == 0 then do return Config.freeWord (← K.free) else
      let r := rsqrtFrac mq eq
      K.near 4 neg (if e ≥ 0 then { num := m * 2 ^ e.toNat * r.num, den := r.den } else { num := m * r.num, den := 2 ^ (-e).toNat * r.den })
    | _, _ => do return Config.freeWord (← K.free)

/-- An element as an exact value. -/
def exactOf (isInt : Bool) (w : Word) : FVal := if isInt then .fin (decide (w.toInt < 0)) w.toInt.natAbs 0 else F32.dec w
def FVal.rounded (v : FVal) : FVal := F32.dec (F32.enc v)
/-- Minimum and maximum; a NaN operand gives NaN (R177). DESIGN CHOICE (log 13): of +0 and −0 the first operand; the rule does not say which
zero results. -/
def FVal.minOf (a b : FVal) : FVal := if a.isNaN || b.isNaN then .nan else if FVal.lt b a then b else a
def FVal.maxOf (a b : FVal) : FVal := if a.isNaN || b.isNaN then .nan else if FVal.lt a b then b else a

/-- One entry (R177): the lanes hold FP32 results, rounded once from the exact operands; minimum, maximum, selection and
quantisation take the operands exactly. Answers what it counts in CH_ARRAY_SAT. DESIGN CHOICE (log 13): of opcode 13h's two FP32
parameters the first is the scale and the second the zero point, rounded to an integer (R179 names neither place nor rounding); to an FP
format it applies the scale alone; 12h takes n FP32 scales at source 1 and n biases at source 2, and channel i mod n for element i, which
R177 does not place (log 10). -/
def K.vecEntry (j : Nat) (v : VEntry) : K Nat := do
  let isInt := fmtInt v.ifmt
  let src := fun (a : Nat) => do
    let bs ← K.readInk j a (fmtBytes v.ifmt v.e)
    return (elems v.ifmt v.e bs).map (exactOf isInt)
  let x ← src v.s0
  let y ← if vSources v.opc ≥ 2 then src v.s1 else pure []
  let z ← if vSources v.opc ≥ 3 then src v.s2 else pure []
  let p0 := F32.dec v.p0
  let p1 := F32.dec v.p1
  let res : List FVal ← match v.opc with
    | 0x00 => pure (List.zipWith (fun a b => (FVal.add a b).rounded) x y)
    | 0x01 => pure (List.zipWith (fun a b => (FVal.add a b.neg).rounded) x y)
    | 0x02 => pure (List.zipWith (fun a b => (FVal.mul a b).rounded) x y)
    | 0x03 => pure ((x.zip (y.zip z)).map fun (a, b, c) => (FVal.add (FVal.mul a b) c).rounded)
    | 0x04 => pure (List.zipWith FVal.minOf x y)
    | 0x05 => pure (List.zipWith FVal.maxOf x y)
    | 0x06 => (x.zip (y.zip z)).mapM fun (a, b, c) => do
      -- which operand the comparison selects is not stated (log 10)
      let n ← K.free
      return if n % 3 == 0 then a else if n % 3 == 1 then b else c
    | 0x07 => pure (x.map fun a => FVal.minOf (FVal.maxOf (FVal.mul p0 a).rounded a) p1)
    | 0x10 => pure ((rowsOf v.row v.e (x.map F32.enc)).map fun r => F32.dec (vecSum r))
    | 0x11 => do
      let rs ← (rowsOf v.row v.e (x.map F32.enc)).mapM (K.layerNorm v.p1)
      pure ((rs.flatMap id).map F32.dec)
    | 0x12 => do
      let (zp, n) := Config.dequantArgs v.raw
      let sc ← K.readInk j v.s1 (4 * n)
      let bi ← K.readInk j v.s2 (4 * n)
      pure ((x.zipIdx).map fun (a, i) =>
        (FVal.add (FVal.mul (FVal.add a (F32.dec zp).neg) (F32.dec (wordAt sc (4 * (i % max n 1))))) (F32.dec (wordAt bi (4 * (i % max n 1))))).rounded)
    | 0x13 => pure (x.map fun a => FVal.mul a p0)
    | o => (x.map F32.enc).mapM fun w => do return F32.dec (← K.func o w)
  let quant := v.opc == 0x13
  let q := res.map fun w => quantElem v.ofmt w (if quant then roundInt v.p1 else 0) quant
  K.writeInk j v.dst (packElems v.ofmt (q.map (·.1)))
  return (q.filter (·.2)).length

def K.vector (parm : List Byte) (cores : Nat) : K Unit := do
  let mut sat := 0
  for j in coresOf cores do
    for v in vEntries parm do
      sat := sat + (← K.vecEntry j v)
  if sat > 0 then K.mod fun c => (c.bump .arrSat sat).stick .arrSat

/-! ### Load check of VECTOR (R177, R180) -/

def vecCost (opc : Nat) : Nat := if 0x08 ≤ opc && opc ≤ 0x0F then 4 else if opc == 0x11 then 3 else 1
def vectorBound (parm : List Byte) : Nat := 64 + ((vEntries parm).map fun v => ceilDiv v.e 64 * vecCost v.opc).foldl (· + ·) 0
/-- R177. DESIGN CHOICE (log 20): no rule names an outcome for OPC above 13h or for IFMT or OFMT above 7; the model refuses the image with
BAD_STROKE. -/
def vectorOk (parm : List Byte) : Bool :=
  let n := field parm 0 2
  decide (1 ≤ n) && decide (n ≤ 256) && zeroAt parm 2 14 && parm.length == 16 + 32 * n
    && (vEntries parm).all fun v => decide (v.opc ≤ 0x13) && decide (v.ifmt ≤ 7) && decide (v.ofmt ≤ 7)

end Sys2Proof.Machine
end

