-- ==== Sys2Proof/Machine/Conv.lean ====
section
/-! DEFINITION. SPARSE, DENSE and RESAMPLE strokes and the GATHER_ADDR kernel (chapter "Sparse and dense convolution,
pooling and lift"). -/
namespace Sys2Proof.Machine

/-! ### Pass descriptors (R185) and channel blocks (R183) -/

structure CPass where
  slot : Nat
  tap : Nat
  kb : Nat
  nb : Nat
  tile : Nat
def cPass (b : List Byte) : CPass :=
  { slot := byteAt b 0, tap := byteAt b 1, kb := byteAt b 2, nb := byteAt b 3, tile := field b 4 4 }
def cPasses (b : List Byte) : List CPass := (chunks 8 (field b 6 2) (b.drop 64)).map cPass
/-- Logical rows of a slot: full or half, doubled by 2:4 (R155, R165). -/
def slotK (packing : Nat) (sp24 : Bool) : Nat := (if packing == 0 then 128 else 64) * (if sp24 then 2 else 1)
/-- Output columns of a slot: slots 0 and 1 of R155's packings are full and row-split (R160). -/
def slotN (packing wfmt : Nat) : Nat := slotCols packing wfmt
/-- Channels that block KB holds below CIN. -/
def blockLen (k kb cin : Nat) : Nat := min k (cin - k * kb)

/-- Read the channels [K·KB, K·KB + n) of a row at `row`, zero above CIN. -/
def K.readBlock (j fmt k kb cin row : Nat) : K (List Word) := do
  let n := blockLen k kb cin
  let bs ← K.readInk j (row + k * kb * fmtBits fmt / 8) (fmtBytes fmt n)
  return elems fmt n bs ++ List.replicate (k - n) 0#32

/-! ### Chunks of 256 and stealing (R193) -/

/-- The chunks dealt to each of `n` arrays. -/
def dealt (n q : Nat) : List (List Nat) := (List.range n).map fun i => (List.range ((i + 1) * q / n - i * q / n)).map (i * q / n + ·)
/-- The chunk that array `a` starts next: the first of its own queue; else the last of the first queue, in ring order from its
own, that holds at least two not yet started. -/
def nextChunk (qs : List (List Nat)) (a : Nat) : Option (Nat × List (List Nat)) :=
  match qs.getD a [] with
  | c :: cs => some (c, setAt qs a cs)
  | [] =>
    (((List.range qs.length).map fun i => (a + 1 + i) % qs.length).find? fun b => decide (2 ≤ (qs.getD b []).length)).bind fun b =>
      ((qs.getD b []).getLast?).map fun c => (c, setAt qs b (qs.getD b []).dropLast)
/-- Which array is the next to be free for a chunk depends on skipping and bank arbitration: a free choice (log 9). -/
def K.startChunks : Nat → List (List Nat) → List (Nat × Nat) → K (List (Nat × Nat))
  | 0, _, l => pure l.reverse
  | n + 1, qs, l => do
    let acts := (List.range qs.length).filterMap fun a => (nextChunk qs a).map fun x => (a, x)
    match acts[(← K.free) % acts.length]? with
    | some (a, c, qs) => K.startChunks n qs ((a, c) :: l)
    | none => return l.reverse
/-- The chunks of a stream as (array, chunk), in the order in which they start; every array starts its first at once. -/
def K.deal (arrays q : Nat) : K (List (Nat × Nat)) :=
  let qs := dealt arrays q
  K.startChunks q (qs.map (·.drop 1)) (qs.zipIdx.filterMap fun (l, a) => l.head?.map fun c => (a, c)).reverse
/-- A stream of `total` items, dealt and stolen in chunks of 256, each chunk whole on one array; `items` gives those that form
work, with their positions. -/
def K.inChunks {α σ : Type} (total : Nat) (items : List (Nat × α)) (f : Nat → α → σ → K σ) (s : σ) : K σ := do
  let order ← K.deal (← get).arrays (ceilDiv total 256)
  order.foldlM (fun s x => (items.filter fun i => i.1 / 256 == x.2).foldlM (fun s i => f x.1 i.2 s) s) s

/-- What one slot has still to do, in its order: a pass's load (none), then the pass's items with their arrays. -/
abbrev SlotQueue (α : Type) := List (Nat × Option (Nat × α))
/-- A pass in its slot's queue: `total` items of its stream, dealt and stolen in chunks of 256. -/
def K.passQueue {α : Type} (i total : Nat) (items : List (Nat × α)) : K (SlotQueue α) := do
  let order ← K.deal (← get).arrays (ceilDiv total 256)
  return (i, none) :: order.flatMap fun x => (items.filter fun y => y.1 / 256 == x.2).map fun y => (i, some (x.1, y.2))
/-- The slots advance on their own, loads in the order of the passes: which of those that may go on does so is free (R150, R151,
R157; log 9). `nl` is the pass whose load comes next. -/
def K.slotGo {α σ : Type} (load : Nat → σ → K σ) (item : Nat → Nat → α → σ → K σ) : Nat → List (SlotQueue α) → Nat → σ → K σ
  | 0, _, _, s => pure s
  | n + 1, qs, nl, s => do
    let may := fun (q : SlotQueue α) => match q with
      | (i, none) :: _ => i == nl
      | (_, some _) :: _ => true
      | [] => false
    let acts := (List.range qs.length).filter fun b => may (qs.getD b [])
    match acts[(← K.free) % acts.length]? with
    | none => return s
    | some b =>
      match (qs.getD b []).head? with
      | none => return s
      | some (i, none) =>
        let s ← load i s
        K.slotGo load item n (qs.modify b (·.drop 1)) (nl + 1) s
      | some (i, some (a, x)) =>
        let s ← item i a x s
        K.slotGo load item n (qs.modify b (·.drop 1)) nl s
/-- The passes of a stroke, each with its slot and the queue that it forms. -/
def K.runSlots {α σ : Type} (load : Nat → σ → K σ) (item : Nat → Nat → α → σ → K σ) (ps : List (Nat × SlotQueue α)) (s : σ) : K σ :=
  let slots := (ps.map (·.1)).eraseDups
  let qs := slots.map fun b => (ps.filter fun p => p.1 == b).flatMap (·.2)
  K.slotGo load item ((qs.map (·.length)).foldl (· + ·) 0) qs 0 s

/-! ### SPARSE (R184 to R197) -/

structure SparseHdr where
  ruling : Nat
  smode : Nat
  packing : Nat
  xmode : Nat
  cin : Nat
  cout : Nat
  x : Nat
  xstride : Nat
  xcap : Nat
  y : Nat
  ystride : Nat
  outFirst : Nat
  outCount : Nat
  cnt : Nat
def sparseHdr (b : List Byte) : SparseHdr :=
  { ruling := byteAt b 8, smode := byteAt b 9, packing := byteAt b 10, xmode := byteAt b 11, cin := field b 12 2,
    cout := field b 14 2, x := field b 16 4, xstride := field b 20 4, xcap := field b 24 4, y := field b 28 4,
    ystride := field b 32 4, outFirst := field b 36 4, outCount := field b 40 4, cnt := field b 44 4 }

/-- n bytes at `off` of a ruling part: its Inkwell allocation, then its spill area (R137), held to its region (R235). -/
def K.partRead (j : Nat) (p : RulingPart) (off n : Nat) : K (List Byte) := do
  let n1 := min n (p.inkLen - off)
  let a ← if n1 == 0 then pure [] else K.readInk j (p.inkBase + off) n1
  let at_ := p.spillBase + (off + n1 - p.inkLen)
  let b ← if n1 == n then pure [] else K.cutRead at_ (n - n1) (← K.spillWithin p.spillBase at_ (n - n1)) (K.readHbm at_)
  return a ++ b

/-- A window of output cells: the first cell, whose sums are row 0 at Y, and the cell after the last. -/
structure SpWin where
  lo : Nat
  hi : Nat

/-- The window of a SPARSE stroke on part `idx` of `n` (R187, R188; SMODE 1: R195). -/
def sparseWin (c : Channel) (h : SparseHdr) (s : RulShape) (n idx : Nat) : SpWin :=
  let cells := fun k => (c.front.keys.getD k []).length
  let (lo, hi) := if h.smode == 1 then (0, cells s.inSet) else partRange n idx (cells s.outSet)
  { lo := min (lo + h.outFirst) hi, hi := min (lo + h.outFirst + h.outCount) hi }

/-- Binary search in [lo, hi) for the first pair of an offset's list at `base` whose output cell is `cell` or above (R188); at most
`fuel` halvings. It probes the middle of what is left (log 28). -/
def K.bisect (j : Nat) (p : RulingPart) (base cell : Nat) : Nat → Nat → Nat → K Nat
  | 0, lo, _ => pure lo
  | fuel + 1, lo, hi => do
    if hi ≤ lo then return lo
    let mid := (lo + hi) / 2
    let b ← K.partRead j p (base + 8 * mid) 8
    if cell ≤ field b 4 4 then K.bisect j p base cell fuel lo mid else K.bisect j p base cell fuel (mid + 1) hi
/-- `n` pairs (input cell, output cell) of an offset's list. -/
def K.pairRead (j : Nat) (p : RulingPart) (off n : Nat) : K (List (Nat × Nat)) := do
  let bs ← K.partRead j p off (8 * n)
  return (chunks 8 n bs).map fun b => (field b 0 4, field b 4 4)

/-- The slice of a pass (R186, R188): how many pairs are dealt, and the pairs of the offset whose output cell lies in the window,
in pair order, as (place in the dealt list, input row, output cell). The feeder finds the slice by binary search and reads it; SMODE 1
deals the offset's whole list (R195). -/
def K.sparseSlice (j : Nat) (p : RulingPart) (s : RulShape) (h : SparseHdr) (w : SpWin) (tap : Nat) : K (Nat × List (Nat × Nat × Nat)) := do
  if s.centre == some tap then return (w.hi - w.lo, (List.range (w.hi - w.lo)).map fun i => (i, w.lo + i, w.lo + i))
  let d ← K.partRead j p (8 * tap) 8
  let start := field d 0 4
  let n := field d 4 4
  let base := 8 * s.size + 8 * start
  if h.smode == 1 then
    let prs ← K.pairRead j p base n
    return (n, (prs.zipIdx.map fun (q, i) => (i, q.2, q.1)).filter fun x => decide (w.lo ≤ x.2.2) && decide (x.2.2 < w.hi))
  let lo ← K.bisect j p base w.lo (n.log2 + 1) 0 n
  let hi ← K.bisect j p base w.hi (n.log2 + 1) lo n
  let own ← K.pairRead j p (base + 8 * lo) (hi - lo)
  return (own.length, own.zipIdx.map fun (q, i) => (i, q.1, q.2))

/-- Zero the untouched granules of existing rows (R191); answers whether one was written. -/
def K.zeroSweep (j : Nat) (o : Out) (rows : List (Nat × Nat)) : K Unit := do
  for (a, n) in rows do
    for g in granules a n do
      if !(o.touched.contains g) then
        K.writeInk j (64 * g) (List.replicate 64 0#8)
        K.mod (Channel.stick .convSweep)

/-- The tile that each slot holds; before a load, none of it. -/
abbrev SlotTiles := List (Nat × Tile)
def SlotTiles.of (l : SlotTiles) (slot : Nat) : Tile := (assoc l slot).getD { rows := [], idx := [], special := false }
structure SpSt where
  o : Out
  tiles : SlotTiles
  skipped : Nat
  counts : List (Nat × Nat)

/-- A pass loads its tile; pooling has none. -/
def K.sparseLoad (j : Nat) (h : ArrayHdr) (sh : SparseHdr) (p : CPass) (st : SpSt) : K SpSt := do
  if sh.smode ≥ 2 then return st
  let k := slotK sh.packing h.sp24
  let nOut := slotN sh.packing h.wfmt
  let out ← K.drainSome j st.o
  let t ← K.readTile j h.wfmt (if sh.packing == 0 then 128 else 64) h.sp24 p.tile (blockLen k p.kb sh.cin) fun c => decide (c < min nOut (sh.cout - nOut * p.nb))
  return { st with o := out, tiles := assocSet st.tiles p.slot t }
/-- One pair of a SPARSE pass on array `a`: `q` is its place in stream order. Maximum pooling skips no vector, since a skipped 0
would change a maximum (R168, R176; log 20). -/
def K.sparsePair (j : Nat) (h : ArrayHdr) (sh : SparseHdr) (w : SpWin) (pass : Nat) (p : CPass) (a : Nat) (x : Nat × Nat × Nat) (st : SpSt) : K SpSt := do
  let (q, i, o) := x
  let t := st.tiles.of p.slot
  let fpIn := !(fmtInt h.afmt)
  let k := slotK sh.packing h.sp24
  let nOut := slotN sh.packing h.wfmt
  let out ← K.drainSome j st.o
  let act ← if sh.xmode == 1 then K.readBlock j h.afmt k 0 (blockLen k p.kb sh.cin) (sh.x + sh.xstride * q)
    else K.readBlock j h.afmt k p.kb sh.cin (sh.x + sh.xstride * i)
  let skip := h.zskip && sh.smode != 2 && !t.special && zeroVector (!fpIn) act
  let ch0 := nOut * p.nb
  let cols := min nOut (sh.cout - ch0)
  let (first, vals) :=
    if sh.smode ≥ 2 then
      -- the channels of the input block that lie in the output block
      let lo := max ch0 (k * p.kb)
      let hi := min (ch0 + cols) (k * p.kb + k)
      (lo, (List.range (hi - lo)).map fun c =>
        let v := act.getD (lo + c - k * p.kb) 0
        if sh.smode == 3 then toFp (!fpIn) v else v)
    else (ch0, if skip then [] else (List.range cols).map fun c => colSum fpIn h.sp24 t k act c)
  let row := sh.y + sh.ystride * (o - w.lo)
  return { st with
    o := if skip then out else out.send (4 * a + p.slot) pass (row + 4 * first) vals
    skipped := st.skipped + b2n skip
    counts := if sh.smode == 3 then assocSet st.counts (o - w.lo) ((assoc st.counts (o - w.lo)).getD 0 + 1) else st.counts }
/-- The streams of the passes in list order: each pass's slot and queue, the pairs so far in stream order, and how many of them a
stream buffer of XCAP rows leaves out (R189, R190). -/
def K.sparseStreams (j : Nat) (part : RulingPart) (s : RulShape) (sh : SparseHdr) (w : SpWin) (ps : List (CPass × Nat)) :
    K (List (Nat × SlotQueue (Nat × Nat × Nat)) × Nat × Nat) :=
  ps.foldlM (fun acc x => do
    let slice ← K.sparseSlice j part s sh w x.1.tap
    let items := slice.2.zipIdx.map fun ((n, i, o), r) => (n, (acc.2.1 + r, i, o))
    let kept := if sh.xmode == 1 then items.filter fun x => decide (x.2.1 < sh.xcap) else items
    let q ← K.passQueue x.2 slice.1 kept
    return (acc.1 ++ [(x.1.slot, q)], acc.2.1 + items.length, acc.2.2 + (items.length - kept.length))) ([], 0, 0)

/-- A SPARSE stroke on core j, part `idx` of n. -/
def K.sparseCore (parm : List Byte) (j n idx : Nat) : K (Nat × Nat) := do
  let c ← K.chan
  let h := arrayHdr parm
  let sh := sparseHdr parm
  match c.img.front with
  | none => return (0, 0)
  | some f => match f.rulings[sh.ruling]? with
    | none => return (0, 0)
    | some r => match r.parts[idx]? with
      | none => return (0, 0)
      | some part =>
        let s := rulShape f r
        let w := sparseWin c sh s n idx
        let fp := !(fmtInt h.afmt) || sh.smode == 3
        let ps := cPasses parm
        let (qs, _, dropped) ← K.sparseStreams j part s sh w ps.zipIdx
        let pass := fun (i : Nat) => ps.getD i (cPass [])
        let st ← K.runSlots (fun i => K.sparseLoad j h sh (pass i)) (fun i => K.sparsePair j h sh w i (pass i)) qs
          { o := Out.start fp (sh.smode == 2) true (!h.acc), tiles := [], skipped := 0, counts := [] : SpSt }
        let o ← K.drainAll j st.o
        if !h.acc then K.zeroSweep j o ((List.range (w.hi - w.lo)).map fun i => (sh.y + sh.ystride * i, sh.ystride))
        if sh.smode == 3 then
          for i in List.range (w.hi - w.lo) do
            K.writeInk j (sh.cnt + 4 * i) (wordsBytes [F32.ofNat ((assoc st.counts i).getD 0)])
        if dropped > 0 then
          K.overflow .stream
          K.mod fun c => (c.stick .convStream).bump .convPairDrops dropped
        K.bump .arrSkipped st.skipped
        return (o.sat, o.nonfin)

def K.sparse (parm : List Byte) (cores : Nat) : K Unit := do
  let cs := coresOf cores
  let mut sat := 0
  let mut nonfin := 0
  for (j, idx) in cs.zipIdx do
    let (a, b) ← K.sparseCore parm j cs.length idx
    sat := sat + a
    nonfin := nonfin + b
  K.arrayEvents sat nonfin

/-! ### DENSE (R198 to R200) and RESAMPLE (R205 to R209) -/

structure DenseHdr where
  kh : Nat
  kw : Nat
  sh : Nat
  sw : Nat
  dh : Nat
  dw : Nat
  c32 : Bool
  packing : Nat
  pt : Nat
  pb : Nat
  pl : Nat
  pr : Nat
  cin : Nat
  cout : Nat
  iw : Nat
  ih : Nat
  irow0 : Nat
  irows : Nat
  orow0 : Nat
  orows : Nat
  own0 : Nat
  ownN : Nat
  map : Nat
  x : Nat
  rstride : Nat
  y : Nat
  yrstride : Nat
  mode : Nat
  countPad : Bool
  cnt : Nat
def denseHdr (b : List Byte) : DenseHdr :=
  let s := byteAt b 10
  { kh := byteAt b 8, kw := byteAt b 9, sh := bitsOf s 1 0 + 1, sw := bitsOf s 3 2 + 1, dh := bitsOf s 5 4 + 1,
    dw := bitsOf s 7 6 + 1, c32 := bitOf (byteAt b 11) 0, packing := b2n (bitOf (byteAt b 11) 1), pt := byteAt b 12,
    pb := byteAt b 13, pl := byteAt b 14, pr := byteAt b 15, cin := field b 16 2, cout := field b 18 2, iw := field b 20 2,
    ih := field b 22 2, irow0 := field b 24 2, irows := field b 26 2, orow0 := field b 28 2, orows := field b 30 2,
    own0 := field b 32 2, ownN := field b 34 2, map := byteAt b 36, x := field b 40 4, rstride := field b 44 4,
    y := field b 48 4, yrstride := field b 52 4, mode := byteAt b 56, countPad := bitOf (byteAt b 57) 0, cnt := field b 60 4 }

/-- One output extent (R199): ⌊(i + p0 + p1 − d·(k − 1) − 1)/s⌋ + 1, nothing where the filter exceeds the padded map. -/
def outExtent (i p0 p1 d k s : Nat) : Nat :=
  if i + p0 + p1 < d * (k - 1) + 1 then 0 else (i + p0 + p1 - d * (k - 1) - 1) / s + 1
def DenseHdr.oh (d : DenseHdr) : Nat := outExtent d.ih d.pt d.pb d.dh d.kh d.sh
def DenseHdr.ow (d : DenseHdr) : Nat := outExtent d.iw d.pl d.pr d.dw d.kw d.sw
/-- Output width by operation: upsampling multiplies by the factor (R207). DESIGN CHOICE (log 28): a lift, for which R205 gives no OH and
OW, has R199's, and no bound is put on its KH, KW, pads and rows. -/
def DenseHdr.outW (d : DenseHdr) (op : Nat) : Nat := if op == 3 && (d.mode == 2 || d.mode == 3) then d.kh * d.iw else d.ow
def DenseHdr.outH (d : DenseHdr) (op : Nat) : Nat := if op == 3 && (d.mode == 2 || d.mode == 3) then d.kh * d.ih else d.oh

/-- Bytes of a pixel in the layout (R182). -/
def pixelBytes (c32 : Bool) (fmt cin : Nat) : Nat :=
  let b := if c32 then 32 else 16
  fmtBytes fmt (b * ceilDiv cin b)
/-- Inkwell offset of input pixel (y, x) in the stripe buffer. -/
def DenseHdr.pixel (d : DenseHdr) (fmt y x : Nat) : Nat := d.x + (y - d.irow0) * d.rstride + x * pixelBytes d.c32 fmt d.cin
/-- The input pixel of a tap, if inside the map. -/
def tapPixel (o s p k d lim : Nat) : Option Nat :=
  let v : Int := (o * s + k * d : Nat) - (p : Int)
  if decide (0 ≤ v) && decide (v < (lim : Int)) then some v.toNat else none
/-- The pixels of the computed rows in raster order. -/
def DenseHdr.pixels (d : DenseHdr) (op : Nat) : List (Nat × Nat) :=
  (List.range d.orows).flatMap fun r => (List.range (d.outW op)).map fun x => (d.orow0 + r, x)
/-- Bytes of the window's sum rows, from Y to the end of the last row. -/
def DenseHdr.window (d : DenseHdr) (op : Nat) : Nat :=
  if d.orows == 0 then 0 else (d.orows - 1) * d.yrstride + max d.yrstride (4 * d.cout * d.outW op)
/-- Inkwell offset of the sums of output pixel (y, x). -/
def DenseHdr.sumAt (d : DenseHdr) (y x : Nat) : Nat := d.y + (y - d.orow0) * d.yrstride + x * 4 * d.cout

structure DnSt where
  o : Out
  tiles : SlotTiles
  skipped : Nat
def K.denseLoad (j : Nat) (h : ArrayHdr) (d : DenseHdr) (p : CPass) (st : DnSt) : K DnSt := do
  let nOut := slotN d.packing h.wfmt
  let o ← K.drainSome j st.o
  let t ← K.readTile j h.wfmt (if d.packing == 0 then 128 else 64) h.sp24 p.tile (blockLen (slotK d.packing h.sp24) p.kb d.cin) fun c =>
    decide (c < min nOut (d.cout - nOut * p.nb))
  return { st with o := o, tiles := assocSet st.tiles p.slot t }
/-- One pixel of a DENSE pass on array `a`, its tap inside the map. -/
def K.densePixel (j : Nat) (h : ArrayHdr) (d : DenseHdr) (pass : Nat) (p : CPass) (a : Nat) (x : (Nat × Nat) × Nat × Nat) (st : DnSt) : K DnSt := do
  let ((y, x), iy, ix) := x
  let t := st.tiles.of p.slot
  let fp := !(fmtInt h.afmt)
  let k := slotK d.packing h.sp24
  let nOut := slotN d.packing h.wfmt
  let o ← K.drainSome j st.o
  let act ← K.readBlock j h.afmt k p.kb d.cin (d.pixel h.afmt iy ix)
  if h.zskip && !t.special && zeroVector (!fp) act then return { st with o := o, skipped := st.skipped + 1 }
  let ch0 := nOut * p.nb
  let col := (List.range (min nOut (d.cout - ch0))).map fun c => colSum fp h.sp24 t k act c
  return { st with o := o.send (4 * a + p.slot) pass (d.sumAt y x + 4 * ch0) col }
/-- A DENSE stroke on core j: for each pass the pixels are dealt in chunks of 256, padding taps forming no pair (R199, R200). -/
def K.denseCore (parm : List Byte) (j : Nat) : K (Nat × Nat) := do
  let h := arrayHdr parm
  let d := denseHdr parm
  let px := d.pixels 2
  let ps := cPasses parm
  let qs ← ps.zipIdx.foldlM (fun acc x => do
    let items := px.zipIdx.filterMap fun (q, n) =>
      match tapPixel q.1 d.sh d.pt (x.1.tap / d.kw) d.dh d.ih, tapPixel q.2 d.sw d.pl (x.1.tap % d.kw) d.dw d.iw with
      | some iy, some ix => some (n, (q, iy, ix))
      | _, _ => none
    return acc ++ [(x.1.slot, ← K.passQueue x.2 px.length items)]) []
  let pass := fun (i : Nat) => ps.getD i (cPass [])
  let st ← K.runSlots (fun i => K.denseLoad j h d (pass i)) (fun i => K.densePixel j h d i (pass i)) qs
    { o := Out.start (!(fmtInt h.afmt)) false true (!h.acc), tiles := [], skipped := 0 : DnSt }
  let o ← K.drainAll j st.o
  if !h.acc then K.zeroSweep j o (px.map fun (y, x) => (d.sumAt y x, 4 * d.cout))
  K.bump .arrSkipped st.skipped
  return (o.sat, o.nonfin)

/-- A weighted sum of four taps, ((w0·t0 + w1·t1) + w2·t2) + w3·t3 (R207). -/
def bilinear (w t : List Word) : Word :=
  let g := fun i => F32.mul (w.getD i 0) (t.getD i 0)
  F32.add (F32.add (F32.add (g 0) (g 1)) (g 2)) (g 3)
/-- Sampling position n/(2·den) and extent: the two clamped taps and the fraction's FP32 weights (1 − a, a). -/
def tapPair (n : Int) (den lim : Nat) : Nat × Nat × Nat :=
  let dd : Int := (den : Int)
  let fl := n / dd
  let cl := fun (v : Int) => (max 0 (min v ((lim : Int) - 1))).toNat
  (cl fl, cl (fl + 1), (n - fl * dd).toNat)
/-- Weights of the four taps in R207's order, from the fractions a and b over their denominators. -/
def bilinearWeights (a b den : Nat) : List Word :=
  let w := fun (p q : Nat) => F32.ofRat false (p * q) (den * den)
  [w (den - a) (den - b), w a (den - b), w (den - a) b, w a b]

/-- The value of one output pixel of modes 0 to 3: its channels, and the count of elements. -/
def K.resamplePixel (j fmt : Nat) (d : DenseHdr) (y x : Nat) : K (List Word × Nat) := do
  let isInt := fmtInt fmt
  let rd := fun (iy ix : Nat) => do
    let bs ← K.readInk j (d.pixel fmt iy ix) (fmtBytes fmt d.cin)
    return elems fmt d.cin bs
  if d.mode == 2 then
    let v ← rd (y / d.kh) (x / d.kh)
    return (v, 1)
  else if d.mode == 3 then
    let (y0, y1, b) := tapPair (2 * (y : Int) + 1 - (d.kh : Int)) (2 * d.kh) d.ih
    let (x0, x1, a) := tapPair (2 * (x : Int) + 1 - (d.kh : Int)) (2 * d.kh) d.iw
    let t0 ← rd y0 x0
    let t1 ← rd y0 x1
    let t2 ← rd y1 x0
    let t3 ← rd y1 x1
    let w := bilinearWeights a b (2 * d.kh)
    return ((List.range d.cin).map fun c => bilinear w ([t0, t1, t2, t3].map fun t => toFp isInt (t.getD c 0)), 1)
  else
    let cells := (List.range d.kh).flatMap fun kh => (List.range d.kw).filterMap fun kw =>
      match tapPixel y d.sh d.pt kh 1 d.ih, tapPixel x d.sw d.pl kw 1 d.iw with
      | some iy, some ix => some (iy, ix)
      | _, _ => none
    let vs ← cells.mapM fun q => rd q.1 q.2
    let n := if d.mode == 1 && d.countPad then d.kh * d.kw else cells.length
    let pick := fun (c : Nat) =>
      let l := vs.map fun v => v.getD c 0
      if d.mode == 1 then (l.map (toFp isInt)).foldl F32.add 0#32
      else match l with
        | [] => 0#32
        | a :: as => as.foldl (fun m v => if isInt then (if m.toInt < v.toInt then v else m) else F32.max m v) a
    return ((List.range d.cin).map pick, n)

/-- The lift's stream in order, until row FFFFh (R208, R209): per record the row, the column and the four-tap sums. -/
def K.liftStream (j fmt cin : Nat) : Nat → Nat → List (Nat × Nat × List Word) → K (List (Nat × Nat × List Word))
  | 0, _, acc => pure acc.reverse
  | n + 1, a, acc => do
    let hd ← K.readInk j a 64
    if field hd 2 2 == 0xFFFF || a + 64 > inkSize then return acc.reverse
    let tb := (fmtBytes fmt cin + 63) / 64 * 64
    let taps ← [0, 1, 2, 3].mapM fun i => do return elems fmt cin (← K.readInk j (a + 64 + tb * i) (fmtBytes fmt cin))
    let w := wordsAt hd 4 4
    let vals := (List.range cin).map fun c => bilinear w (taps.map fun t => toFp (fmtInt fmt) (t.getD c 0))
    K.liftStream j fmt cin n (a + 64 + 4 * tb) ((field hd 2 2, field hd 0 2, vals) :: acc)

/-- A RESAMPLE stroke on core j: outputs, or the lift's records, dealt in chunks of 256 (R210). -/
def K.resampleCore (parm : List Byte) (j : Nat) : K (Nat × Nat) := do
  let h := arrayHdr parm
  let d := denseHdr parm
  let fp := !(fmtInt h.afmt) || d.mode == 1 || d.mode == 3 || d.mode == 4
  let px := d.pixels 3
  let start := { Out.start fp false true (!h.acc) with exact := d.mode == 2 }
  let (o, cnt) ← if d.mode == 4 then do
      let recs ← K.liftStream j h.afmt d.cin (inkSize / 64) d.x []
      K.inChunks recs.length (recs.zipIdx.map fun (r, i) => (i, r)) (fun a (row, col, vals) (st : Out × List (Nat × Nat)) => do
        if !(decide (d.orow0 ≤ row) && decide (row < d.orow0 + d.orows) && decide (col < d.outW 3)) then return st
        let ix := (row - d.orow0) * d.outW 3 + col
        return ((← K.drainSome j st.1).send a 0 (d.sumAt row col) vals, assocSet st.2 ix ((assoc st.2 ix).getD 0 + 1))) (start, [])
    else
      K.inChunks px.length (px.zipIdx.map fun (q, i) => (i, (i, q))) (fun a (i, y, x) (st : Out × List (Nat × Nat)) => do
        let o ← K.drainSome j st.1
        let (v, n) ← K.resamplePixel j h.afmt d y x
        return (o.send a 0 (d.sumAt y x) v, (i, n) :: st.2)) (start, [])
  let o ← K.drainAll j o
  if !h.acc then K.zeroSweep j o (px.map fun (y, x) => (d.sumAt y x, 4 * d.cout))
  if d.mode == 1 || d.mode == 4 then
    for i in List.range px.length do
      let n := F32.ofNat ((assoc cnt i).getD 0)
      let a := d.cnt + 4 * i
      let old ← if d.mode == 4 && h.acc then K.readInk j a 4 else pure []
      K.writeInk j a (wordsBytes [if d.mode == 4 && h.acc then F32.add (wordAt old 0) n else n])
  return (o.sat, o.nonfin)

def K.denseLike (parm : List Byte) (cores : Nat) : K Unit := do
  let mut sat := 0
  let mut nonfin := 0
  for j in coresOf cores do
    let (a, b) ← if byteAt parm 0 == 2 then K.denseCore parm j else K.resampleCore parm j
    sat := sat + a
    nonfin := nonfin + b
  K.arrayEvents sat nonfin

/-- An ARRAY stroke (R170, R181). -/
def K.array (parm : List Byte) (cores : Nat) : K Unit :=
  match byteAt parm 0 with
  | 0 => K.matmul parm cores
  | 1 => K.sparse parm cores
  | _ => K.denseLike parm cores

/-! ### The graph of strokes -/

/-- Ancestors of each stroke as bit masks: direct predecessors, then closure by squaring. -/
def predMasks (d : Ductus) : List Nat := d.strokes.map fun s => s.preds.foldl (fun m p => m ||| 2 ^ p) 0
def closeMasks (n : Nat) (ms : List Nat) : List Nat := ms.map fun m => (List.range n).foldl (fun a p => if bitOf m p then a ||| ms.getD p 0 else a) m
def closureGo (n : Nat) : Nat → List Nat → List Nat
  | 0, ms => ms
  | f + 1, ms => closureGo n f (closeMasks n ms)
/-- Bit p of entry i: stroke p has a path to stroke i. -/
def ancestors (d : Ductus) : List Nat := closureGo d.strokes.length (d.strokes.length.log2 + 1) (predMasks d)
def hasPath (anc : List Nat) (a b : Nat) : Bool := bitOf (anc.getD b 0) a

/-! ### GATHER_ADDR (R211) -/

structure GatherArgs where
  form : Nat
  camera : Nat
  shift : Nat
  target : Nat
  c : Nat
  src : Nat
  sstride : Nat
  fw : Nat
  fh : Nat
  brow0 : Nat
  brows : Nat
  dst : Nat
  dcap : Nat
def gatherArgs (b : List Byte) : GatherArgs :=
  { form := byteAt b 16, camera := byteAt b 17, shift := byteAt b 18, target := field b 20 2, c := field b 22 2, src := field b 24 8,
    sstride := field b 32 4, fw := field b 36 2, fh := field b 38 2, brow0 := field b 40 2, brows := field b 42 2,
    dst := field b 44 4, dcap := field b 48 4 }

/-- A row of `n` bytes from an address computed from `base` lands as a stream row of `len` bytes, zeros behind it. What lies beyond the
region of `base` is cut, and the granules left unwritten are poisoned (R235; log 10). -/
def K.gatherTo (base j a n dst len : Nat) (ahead : List Nat) : K Unit := do
  let k ← K.heldWithin base a n
  let bs ← K.gatherHbm j a k ahead
  if k < n then
    K.nibStoreInk j dst bs
    (granules (dst + k) (len - k)).forM (K.poisonInk j)
  else K.nibStoreInk j dst (bs ++ List.replicate (len - n) 0#8)

/-- The rows of a stream in order; the hint of a request looks at the rows that follow (R225). -/
def K.gatherRows (base j : Nat) : List (Nat × Nat × Nat × Nat) → K Unit
  | [] => pure ()
  | (a, n, dst, len) :: rest => do
    K.gatherTo base j a n dst len ((rest.take 4096).flatMap fun x => (granules x.1 x.2.1).map (· / 2))
    K.gatherRows base j rest

/-- Form 0: the stream of a SPARSE stroke (R189, R190), whose header and cores the GATHER takes: core j's part is that of its
place among the target's cores (R187). -/
def K.gatherRuling (g : GatherArgs) (target : Stroke) (j : Nat) : K Unit := do
  let c ← K.chan
  let h := arrayHdr target.parm
  let sh := sparseHdr target.parm
  let cs := coresOf target.cores
  match c.img.front, cs.findIdx? (· == j) with
  | some f, some idx => match f.rulings[sh.ruling]? with
    | none => pure ()
    | some r => match r.parts[idx]? with
      | none => pure ()
      | some part =>
        let s := rulShape f r
        let w := sparseWin c sh s cs.length idx
        let k := slotK sh.packing h.sp24
        let rows ← (cPasses target.parm).foldlM (fun acc p => do
          let (_, prs) ← K.sparseSlice j part s sh w p.tap
          return acc ++ prs.map fun x => (g.src + g.sstride * x.2.1 + k * p.kb * fmtBits h.afmt / 8, fmtBytes h.afmt (blockLen k p.kb sh.cin))) []
        K.gatherRows g.src j ((rows.take sh.xcap).zipIdx.map fun ((a, n), q) => (a, n, g.dst + sh.xstride * q, fmtBytes h.afmt k))
  | _, _ => pure ()

/-- The index, among strokes with an index of their own, of those with no other of them between on a path (`flip` false: the
nearest after; true: the nearest before). -/
def nearest (anc : List Nat) (after : Bool) (l : List Stroke) : List Stroke :=
  l.filter fun s => !(l.any fun t => t.index != s.index && (if after then hasPath anc t.index s.index else hasPath anc s.index t.index))
def isLift (s : Stroke) : Bool := s.kind == 2 && byteAt s.parm 0 == 3 && byteAt s.parm 56 == 4
def isLiftGather (s : Stroke) : Bool := s.kind == 4 && byteAt s.parm 16 == 1
/-- The RESAMPLE lift that reads the stream of GATHER `i` in core `j`: its format and layout are those of the feature map (log 10). -/
def liftReader (d : Ductus) (anc : List Nat) (i j : Nat) (g : GatherArgs) : Option (Nat × Bool) :=
  ((nearest anc true (d.strokes.filter fun s =>
      isLift s && (coresOf s.cores).contains j && field s.parm 40 4 == g.dst && hasPath anc i s.index)).head?).map
    fun s => (byteAt s.parm 3, bitOf (byteAt s.parm 11) 0)

/-- Form 1: the lift stream (R208). DESIGN CHOICE (log 20): where the camera's active copy does not carry the latched generation (R144), as
without a VIEW_BUILD on a path before it, the stroke is accepted and its stream is the end header alone; R144 names neither a refusal nor an
outcome. -/
def K.gatherLift (g : GatherArgs) (j : Nat) : K Unit := do
  let c ← K.chan
  let i := (← get).idx
  match c.img.front, c.img.ductus with
  | some f, some d => match f.cameras[g.camera]?, c.front.cams[g.camera]?, liftReader d (ancestors d) i j g with
    | some cam, some cc, some (fmt, c32) =>
      let base := if cc.active == 0 then cam.copy0 else cam.copy1
      let tb := fmtBytes fmt g.c
      let tpad := (tb + 63) / 64 * 64
      let idx := if cc.genActive == cc.gen then
        (List.range cam.heights.length).flatMap fun ht => (List.range g.brows).flatMap fun r => (List.range f.bevW).map fun col =>
          (ht, g.brow0 + r, col) else []
      let mut a := g.dst
      for (ht, row, col) in idx do
        let e ← K.gatherHbm j (base + 8 * ((ht * f.bevH + row) * f.bevW + col)) 8 []
        if bitOf (byteAt e 4) 0 && a + 64 + 4 * tpad ≤ g.dst + g.dcap then
          let den := 8 * 2 ^ g.shift
          let num := fun (u : Nat) => (u : Int) + 4 - ((den / 2 : Nat) : Int)
          let (x0, x1, fa) := tapPair (num (field e 0 2)) den g.fw
          let (y0, y1, fb) := tapPair (num (field e 2 2)) den g.fh
          let w := bilinearWeights fa fb den
          let hd := leBytes 2 col ++ leBytes 2 row ++ wordsBytes w ++ [BitVec.ofNat 8 g.camera, BitVec.ofNat 8 ht] ++ List.replicate 42 0#8
          K.nibStoreInk j a hd
          for ((y, x), i) in [(y0, x0), (y0, x1), (y1, x0), (y1, x1)].zipIdx do
            K.gatherTo g.src j (g.src + y * g.sstride + x * pixelBytes c32 fmt g.c) tb (a + 64 + i * tpad) tpad []
          a := a + 64 + 4 * tpad
      if a + 64 ≤ g.dst + g.dcap then
        K.nibStoreInk j a ([0#8, 0#8, 0xFF#8, 0xFF#8] ++ List.replicate 60 0#8)
    | _, _, _ => pure ()
  | _, _ => pure ()

/-- A GATHER stroke with kernel GATHER_ADDR (R211). -/
def K.gatherAddr (parm : List Byte) (cores : List Nat) : K Unit := do
  let g := gatherArgs parm
  for j in cores do
    K.act j
    if g.form == 1 then K.gatherLift g j
    else match ((← K.chan).img.ductus.bind fun d => d.strokes[g.target]?) with
      | some t => K.gatherRuling g t j
      | none => pure ()

/-! ### Load checks (R181, R185, R187 to R210) -/

/-- A refusal of the load check: its reason code (R55). -/
abbrev Why := Option Nat
def whyIf (bad : Bool) (code : Nat) : Why := if bad then some code else none
/-- The reason that R55's table lists first: its codes rise in the table's order. -/
def leastWhy (l : List Why) : Why := l.foldl (fun a b => match a, b with
  | some x, some y => some (min x y)
  | some x, none => some x
  | none, y => y) none

def alignUp (n : Nat) : Nat := (n + 63) / 64 * 64

def cWalk (stream : Nat) (ps : List CPass) : Nat :=
  walkBound (ps.map fun p =>
    { slot := if p.slot == 0 then (0, 0) else (1, p.slot - 1), load := true, waitfor := 0xFFFF, stream := stream, lat := 264 })

/-- Whether some of `n` output blocks lacks a pass for an offset (R194). -/
def blockLacks (n : Nat) (ps : List CPass) (offs : List Nat) : Bool :=
  (List.range n).any fun nb => offs.any fun o => !(ps.any fun p => p.nb == nb && p.tap == o)

/-- The bound of R194 for the n enabled arrays of a core. -/
def sparseBound (n : Nat) (f : Front) (r : RulingRec) (parm : List Byte) : Nat :=
  let h := arrayHdr parm
  let sh := sparseHdr parm
  let s := rulShape f r
  let ps := cPasses parm
  let p := if sh.smode == 1 then (f.sets[s.outSet]?.map (·.cap)).getD 0 else sh.outCount
  let g := sh.outCount * sh.ystride / 64
  let sweep := if h.acc then 0
    else if h.zskip || blockLacks (ceilDiv sh.cout (slotN sh.packing h.wfmt)) ps (match s.centre with
      | some c => [c]
      | none => List.range s.size) then ceilDiv g 16 else ceilDiv g 1024
  cWalk (256 * fmtRate h.afmt * ceilDiv (ceilDiv p 256) n) ps + sweep
def denseBound (n : Nat) (parm : List Byte) : Nat :=
  let h := arrayHdr parm
  let d := denseHdr parm
  let ps := cPasses parm
  let g := d.window 2 / 64
  let sweep := if h.acc then 0
    else if h.zskip || blockLacks (ceilDiv d.cout (slotN d.packing h.wfmt)) ps (List.range (d.kh * d.kw)) then ceilDiv g 16 else ceilDiv g 1024
  cWalk (256 * fmtRate h.afmt * ceilDiv (ceilDiv (d.orows * d.ow) 256) n) ps + sweep
/-- The bound of R210; `recs` is the lift stream's worst record count. A lift may leave pixels unreached, so its sweep is that of a
block without a pass; the other modes reach every pixel (log 20). -/
def resampleBound (n recs : Nat) (parm : List Byte) : Nat :=
  let h := arrayHdr parm
  let d := denseHdr parm
  let g := d.window 3 / 64
  let sweep := if h.acc then 0 else if d.mode == 4 then ceilDiv g 16 else ceilDiv g 1024
  let p := if d.mode == 4 then recs else d.orows * d.outW 3
  let s := match d.mode with
    | 0 => d.kh * d.kw
    | 1 => d.kh * d.kw
    | 2 => 1
    | _ => 4
  64 + 264 + sweep + 256 * s * ceilDiv d.cin 64 * ceilDiv (ceilDiv p 256) n

def chanOk (c : Nat) : Bool := decide (16 ≤ c) && decide (c ≤ 512) && c % 16 == 0
def cPassOk (h : ArrayHdr) (packing cin cout taps : Nat) (pool : Bool) (rs : List Range) (cores : List Nat) (p : CPass) : Bool :=
  let rows := if packing == 0 then 128 else 64
  let tileB := rows * ((if h.wfmt == 4 || h.wfmt == 5 then 128 else 64) + (if h.sp24 then 16 else 0))
  (if packing == 0 then p.slot == 0 else p.slot == 1 || p.slot == 2) && decide (p.tap < taps)
    && decide (slotK packing h.sp24 * p.kb < cin) && decide (slotN packing h.wfmt * p.nb < cout)
    && (if pool then p.tile == 0 else p.tile % 64 == 0 && cores.all fun j => rangeHas rs 0 j false p.tile tileB)

/-- SPARSE (R184 to R197); `buildCores` are the CORES of the RULE_BUILD strokes of the ruling. -/
def sparseWhy (f : Front) (parm : List Byte) (rs : List Range) (cores : List Nat) (buildCores : List (List Nat)) : Why :=
  let h := arrayHdr parm
  let sh := sparseHdr parm
  match f.rulings[sh.ruling]? with
  | none => some 0x21
  | some r =>
    let s := rulShape f r
    let cap := fun k => (f.sets[k]?.map (·.cap)).getD 0
    let e8 := fmtBits h.afmt
    let inR := fun wr a n => cores.all fun j => rangeHas rs 0 j wr a n
    let rowB := 32 * ceilDiv sh.cin 32 * e8 / 8
    leastWhy [
      whyIf (!(h.flagsOk && h.dataflow == 0 && pairOk h && decide (1 ≤ h.npass) && decide (h.npass ≤ 8192)
        && parm.length == 64 + 8 * h.npass && decide (sh.ruling < 16) && decide (sh.smode < 4) && decide (sh.packing < 2)
        && decide (sh.xmode < 2) && chanOk sh.cin && chanOk sh.cout && (sh.smode < 2 || sh.cin == sh.cout)
        && (sh.xmode == 1 || sh.xcap == 0) && decide (1 ≤ sh.outCount) && decide (sh.outCount ≤ 65536)
        && (sh.smode == 3 || sh.cnt == 0) && zeroAt parm 48 16)) 0x21,
      whyIf (!((cPasses parm).all (cPassOk h sh.packing sh.cin sh.cout s.size (decide (sh.smode ≥ 2)) rs cores))) 0x21,
      whyIf (buildCores.isEmpty || buildCores.any (· != cores)) 0x21,
      whyIf (sh.ystride % 64 != 0 || sh.ystride < 4 * sh.cout || sh.outCount * sh.ystride / 64 > 65536) 0x21,
      whyIf (sh.x % 64 != 0 || sh.y % 64 != 0 || !(inR true sh.y (sh.outCount * sh.ystride))) 0x21,
      whyIf (sh.smode == 3 && !(inR true sh.cnt (4 * sh.outCount))) 0x21,
      whyIf (sh.smode == 1 && (s.rtype != 1 || s.kx != s.sx || s.ky != s.sy || s.kz != s.sz || cores.length != 1)) 0x21,
      whyIf (decide (sh.smode ≥ 2) && (s.kx > 3 || s.ky > 3 || s.kz > 3)) 0x2C,
      if sh.xmode == 0 then
        let rows := if sh.smode == 1 then cap s.outSet else cap s.inSet
        leastWhy [whyIf (sh.xstride % 64 != 0 || sh.xstride < rowB || !(inR false sh.x (min rows 1 * sh.xstride))) 0x21,
          whyIf (!(cores.all fun j => oneRangeHas rs j sh.x (rows * sh.xstride))) 0x28]
      else whyIf (sh.xstride != alignUp (fmtBytes h.afmt (slotK sh.packing h.sp24)) || !(inR false sh.x (sh.xcap * sh.xstride))) 0x21]

/-- The in-map rows that the computed rows read, the taps `ks` being those of a filter or window of dilation `dil` (R199). -/
def DenseHdr.rowsRead (d : DenseHdr) (dil : Nat) : List Nat :=
  (List.range d.orows).flatMap fun r => (List.range d.kh).filterMap fun k => tapPixel (d.orow0 + r) d.sh d.pt k dil d.ih
/-- What DENSE and the RESAMPLE modes that read a stripe buffer ask of it (R182, R199, R205). -/
def bufferBad (d : DenseHdr) (fmt : Nat) (rows : List Nat) (inR : Bool → Nat → Nat → Nat → Nat → Bool) : Bool :=
  rows.any (fun y => decide (y < d.irow0) || decide (d.irow0 + d.irows ≤ y))
    || d.rstride % 64 != 0 || decide (d.rstride < d.iw * pixelBytes d.c32 fmt d.cin) || d.x % 64 != 0 || !(inR false d.x (d.iw * pixelBytes d.c32 fmt d.cin) d.rstride d.irows)
/-- What both ask of the sums (R182, R191). -/
def sumsBad (d : DenseHdr) (op : Nat) (inR : Bool → Nat → Nat → Nat → Nat → Bool) : Bool :=
  d.y % 64 != 0 || d.yrstride % 64 != 0 || decide (d.yrstride < 4 * d.cout) || decide (d.window op / 64 > 65536)
    || !(inR true d.y (4 * d.cout * d.outW op) d.yrstride d.orows)
def ownBad (d : DenseHdr) : Bool := d.ownN == 0 || decide (d.own0 < d.orow0) || decide (d.own0 + d.ownN > d.orow0 + d.orows)

/-- DENSE (R198 to R200). -/
def denseWhy (parm : List Byte) (rs : List Range) (cores : List Nat) : Why :=
  let h := arrayHdr parm
  let d := denseHdr parm
  let inR := fun wr a n stride count => cores.all fun j => rangeRows rs 0 j wr a n stride count
  leastWhy [
    whyIf (d.kh > 9 || d.kw > 9) 0x2C,
    whyIf (!(h.flagsOk && h.dataflow == 0 && pairOk h && decide (1 ≤ h.npass) && decide (h.npass ≤ 8192)
      && parm.length == 64 + 8 * h.npass && decide (1 ≤ d.kh) && decide (1 ≤ d.kw) && decide (byteAt parm 11 < 4)
      && chanOk d.cin && chanOk d.cout && decide (1 ≤ d.iw) && decide (d.iw ≤ 8192) && decide (1 ≤ d.ih) && decide (d.ih ≤ 8192)
      && decide (d.map < 64) && zeroAt parm 37 3 && zeroAt parm 56 8)) 0x21,
    whyIf (!((cPasses parm).all (cPassOk h d.packing d.cin d.cout (d.kh * d.kw) false rs cores))) 0x21,
    whyIf (d.pt > d.dh * (d.kh - 1) || d.pb > d.dh * (d.kh - 1) || d.pl > d.dw * (d.kw - 1) || d.pr > d.dw * (d.kw - 1)) 0x21,
    whyIf (d.orow0 + d.orows > d.oh || ownBad d) 0x21,
    whyIf (bufferBad d h.afmt (d.rowsRead d.dh) inR) 0x21,
    whyIf (sumsBad d 2 inR) 0x21]

/-- Map rows that the computed rows of a RESAMPLE stroke read (R206, R207). -/
def DenseHdr.resampleRows (d : DenseHdr) : List Nat :=
  if d.mode ≤ 1 then d.rowsRead 1
  else (List.range d.orows).flatMap fun r =>
    if d.mode == 2 then [(d.orow0 + r) / d.kh]
    else let t := tapPair (2 * ((d.orow0 + r : Nat) : Int) + 1 - (d.kh : Int)) (2 * d.kh) d.ih; [t.1, t.2.1]
/-- RESAMPLE (R205 to R210); `dcap` is the capacity of the stream that a lift reads. It gathers no weights, but declares one of the
pairs of R159 like any ARRAY stroke. A lift whose stream no GATHER writes is refused (log 10). -/
def resampleWhy (parm : List Byte) (rs : List Range) (cores : List Nat) (dcap : Option Nat) : Why :=
  let h := arrayHdr parm
  let d := denseHdr parm
  let inR := fun wr a n stride count => cores.all fun j => rangeRows rs 0 j wr a n stride count
  let pool := d.mode ≤ 1
  leastWhy [
    whyIf (pool && (d.kh > 8 || d.kw > 8)) 0x2C,
    whyIf (!(h.flagsOk && h.dataflow == 0 && pairOk h && h.npass == 0 && parm.length == 64 && !h.sp24
      && decide (d.mode ≤ 4) && decide (byteAt parm 57 < 2) && zeroAt parm 58 2 && decide (byteAt parm 11 < 2) && chanOk d.cin
      && d.cin == d.cout && d.dh == 1 && d.dw == 1 && decide (1 ≤ d.iw) && decide (d.iw ≤ 8192) && decide (1 ≤ d.ih)
      && decide (d.ih ≤ 8192) && decide (d.map < 64) && zeroAt parm 37 3 && (d.mode == 1 || d.mode == 4 || d.cnt == 0))) 0x21,
    whyIf (pool && (d.kh == 0 || d.kw == 0 || d.pt > d.kh - 1 || d.pb > d.kh - 1 || d.pl > d.kw - 1 || d.pr > d.kw - 1)) 0x21,
    whyIf ((d.mode == 2 || d.mode == 3) && (d.kw != d.kh || !(d.kh == 2 || d.kh == 4))) 0x21,
    whyIf (d.mode != 4 && d.orow0 + d.orows > d.outH 3 || ownBad d) 0x21,
    whyIf (sumsBad d 3 inR) 0x21,
    if d.mode == 4 then whyIf (d.x % 64 != 0 || !(dcap.any fun n => inR false d.x n 0 1)) 0x21
    else whyIf (bufferBad d h.afmt d.resampleRows inR) 0x21,
    whyIf ((d.mode == 1 || d.mode == 4) && !(inR true d.cnt (4 * d.orows * d.outW 3) 0 1)) 0x21]

/-- R202: owned rows of every MAP cover rows 0 to OH − 1 exactly once. -/
def ownedWhy (d : Ductus) : Why :=
  let hs := (d.strokes.filter fun s => s.kind == 2 && (byteAt s.parm 0 == 2 || byteAt s.parm 0 == 3)).map fun s =>
    (byteAt s.parm 0, bitOf (byteAt s.parm 4) 0, denseHdr s.parm)
  whyIf (((hs.map fun h => h.2.2.map).eraseDups).any fun m =>
    let of := hs.filter fun h => h.2.2.map == m
    let base := of.filter fun h => !h.2.1
    let own := fun (row : Nat) => (base.filter fun h => Nat.ble h.2.2.own0 row && decide (row < h.2.2.own0 + h.2.2.ownN)).length
    let oh := (base.map fun h => h.2.2.outH h.1).foldl max 0
    (List.range oh).any (fun r => own r != 1) || base.any (fun h => h.2.2.own0 + h.2.2.ownN > oh)
      || (of.filter fun h => h.2.1).any fun h => !(base.any fun b =>
        decide (b.2.2.own0 ≤ h.2.2.own0) && decide (h.2.2.own0 + h.2.2.ownN ≤ b.2.2.own0 + b.2.2.ownN))) 0x21

/-- GATHER_ADDR of stroke `i` (R208, R211). DESIGN CHOICE (log 20): no rule names an outcome for a form-1 GATHER whose stream no lift
reads on one of its cores, nor for a form-0 GATHER whose RULING is not its target's; the model refuses both with BAD_STROKE. Nor does R109
name one for a SET or CHANNELS that is not 0, a RULING of a form-1 GATHER, or reserved bytes 3 and 8 to 15 of the header that are not 0: the
model accepts them and does not look at them. -/
def gatherWhy (d : Ductus) (anc : List Nat) (i : Nat) (f : Front) (parm : List Byte) : Why :=
  let g := gatherArgs parm
  leastWhy [whyIf (byteAt parm 19 != 0 || !(zeroAt parm 52 12)) 0x21,
    if g.form == 0 then
      match d.strokes[g.target]? with
      | none => some 0x21
      | some t =>
        let sh := sparseHdr t.parm
        whyIf (!(t.kind == 2 && byteAt t.parm 0 == 1 && sh.xmode == 1 && hasPath anc i g.target && sh.x == g.dst
          && sh.xcap * sh.xstride == g.dcap && byteAt parm 2 == sh.ruling)) 0x21
    else if g.form == 1 then
      leastWhy ((((d.strokes[i]?).map fun s => coresOf s.cores).getD []).map fun j =>
        match f.cameras[g.camera]?, liftReader d anc i j g with
        | some cam, some (fmt, _) =>
          let need := g.brows * f.bevW * cam.heights.length * (64 + 4 * alignUp (fmtBytes fmt g.c)) + 64
          leastWhy [whyIf (g.shift > 4) 0x21, whyIf (g.dcap < need) 0x28]
        | _, _ => some 0x21)
    else some 0x21]
/-- The stream that lift `s` reads, by the GATHERs that write it last before it on each of its cores: its worst record count BROWS·W·D
and its capacity (R210, R211). -/
def liftStreamOf (d : Ductus) (anc : List Nat) (f : Front) (s : Stroke) : Option (Nat × Nat) :=
  match (coresOf s.cores).flatMap fun j => nearest anc false (d.strokes.filter fun t =>
      isLiftGather t && (coresOf t.cores).contains j && field t.parm 44 4 == field s.parm 40 4 && hasPath anc t.index s.index) with
  | [] => none
  | l =>
    let gs := l.map fun t => gatherArgs t.parm
    some ((gs.map fun g => g.brows * f.bevW * ((f.cameras[g.camera]?).map (·.heights.length)).getD 0).foldl max 0, (gs.map (·.dcap)).foldl max 0)

end Sys2Proof.Machine
end

