-- ==== Sys2Proof/Machine/Transfer.lean ====
section
/-! DEFINITION. INTAKE and XFER strokes (R231 to R235), and the blanking rows that INTAKE checks (R369). -/
namespace Sys2Proof.Machine

/-- A transfer descriptor (R231). -/
structure XDesc where
  xtype : Nat
  score : Nat
  dcore : Nat
  region : Nat
  dregion : Nat
  src : Nat
  dst : Nat
  rowlen : Nat
  rows : Nat
  sstride : Nat
  dstride : Nat
  hpring : Nat
def xDesc (b : List Byte) : XDesc :=
  { xtype := byteAt b 0, score := byteAt b 1, dcore := byteAt b 2, region := field b 4 2, dregion := field b 6 2, src := field b 8 8,
    dst := field b 16 8, rowlen := field b 24 4, rows := field b 28 4, sstride := field b 32 4, dstride := field b 36 4,
    hpring := field b 40 4 }
def xDescs (b : List Byte) : List XDesc := (chunks 48 (field b 0 2) (b.drop 16)).map xDesc
def XDesc.bytes (x : XDesc) : Nat := x.rowlen * x.rows
/-- The engine that runs the descriptor. -/
def XDesc.engine (x : XDesc) (cores : List Nat) : Nat :=
  match x.xtype with
  | 1 => x.score
  | 3 => cores.headD 0
  | 4 => cores.headD 0
  | _ => x.dcore

/-- `a` of memory `mem` (0 to 3 Inkwell, 4 HBM) is read, up to one granule: bytes, and whether they are poisoned. -/
def K.pick (mem a n : Nat) : K (List Byte × Bool) := do
  let (bs, f) ← if mem < 4 then K.readInkP mem a n else K.readHbmP a n
  return (bs, f.any (·.2))
/-- A granule lands, with its poison (R245). -/
def K.put (mem a : Nat) (bs : List Byte) (bad : Bool) : K Unit := do
  if mem < 4 then K.writeInkP mem a bs bad else K.writeHbmP a bs bad
/-- One granule of a transfer, or its last bytes: read, then written (R231, R236). -/
def K.moveGranule (smem sa dmem da n : Nat) : K Unit := do
  let (bs, bad) ← K.pick smem sa n
  K.put dmem da bs bad

/-- The tasks of one row of `n` bytes, of which `k` lie inside the regions: granule by granule in ascending address. A cut is
counted first; what it leaves unwritten in Inkwell is poisoned (R231, R235). -/
def rowTasks (region smem sa dmem da n k : Nat) : List (K Unit) :=
  (if k < n then [K.regionCut region] else []) ++
  (List.range (ceilDiv n 64)).map fun i =>
    if 64 * i < k then K.moveGranule smem (sa + 64 * i) dmem (da + 64 * i) (min 64 (k - 64 * i))
    else if dmem < 4 then K.poisonInk dmem (da / 64 + i) else pure ()

/-- The granules of [a, a + n), read one by one: bytes, and the numbers of the poisoned ones. -/
def K.gatherRow (a n : Nat) : K (List Byte × List Nat) :=
  (List.range (ceilDiv n 64)).foldlM (fun (acc : List Byte × List Nat) i => do
    let (bs, bad) ← K.pick 4 (a + 64 * i) (min 64 (n - 64 * i))
    return (acc.1 ++ bs, if bad then acc.2 ++ [i] else acc.2)) ([], [])
/-- MEMWRITE packets to a hairpin ring: at most 262,080 bytes each (R232); `n` counts them. A blocked engine hands none over (R382); those
not delivered go with their stroke if it stops (R63). -/
def hairTasks (src target : Nat) : Nat → Nat → Nat → Nat → List (K Unit)
  | 0, _, _, _ => []
  | n + 1, a, d, left =>
    if left == 0 then [] else
    (do
      let (bs, bad) ← K.gatherRow a (min left 262080)
      let s ← get
      if ← K.permit s.unit d false then K.mod fun c => { c with hairQ := c.hairQ ++
        [{ stroke := some s.idx, unit := s.unit, srcRing := src, target := target, addr := d, bytes := bs, bad := bad }] })
    :: hairTasks src target n (a + 262080) (d + 262080) (left - 262080)

/-- Blanking rows of the stripes that an INTAKE of `bs`, the first bytes of the region's closed half, delivers whole: on the
values it writes, once a frame for each stripe (R369, R370; log 22). -/
def K.imageBlanks (region : Nat) (bs : List Byte) : K Unit := do
  let c ← K.chan
  for (sg, i) in (c.halfOf region c.closedHalf).segs.zipIdx do
    let key := blankKey (region + 1024 * (i + 1)) 2
    let done := (← K.chan).duct.blankDone.contains key
    if sg.kind == 2 && c.safetyRing sg.ring && !done && decide (sg.offset + sg.length ≤ bs.length) then
      K.blankPacket sg.ring sg.frametag
      let bpp := if sg.format == 0 then 1 else 2
      let px := bs.drop (sg.offset + sg.rows * sg.width * bpp)
      for n in List.range (sg.blankRows * sg.width) do
        match sg.format with
        | 0 => K.blankPixel sg.ring 4 8 8 (byteAt px n)
        | 1 => K.blankPixel sg.ring 2 16 16 (field px (2 * n) 2)
        | _ => K.blankPixel sg.ring 2 16 12 (field px (2 * n) 2)
      K.mod fun c => c.modBlank sg.ring fun b => { b with rows := b.rows + sg.blankRows }
      if sg.eom then K.blankEnd sg.ring ((c.img.safety.map (·.testRows)).getD 0) true
      K.mod fun c => { c with duct := { c.duct with blankDone := key :: c.duct.blankDone } }

/-- Ring number of HPRING on its own channel, none where it names another channel's ring (R15, R231). -/
def XDesc.ownRing (m : Ch) (x : XDesc) : Option Nat := if x.hpring / 65536 == m.val then some (x.hpring % 65536) else none

/-- A descriptor as tasks in their order (R231, R232). An XTYPE 4 that carries another channel's ring is blocked (R15). -/
def XDesc.tasks (m : Ch) (c : Channel) (x : XDesc) : List (K Unit) :=
  let rows := List.range x.rows
  let sa := fun (i : Nat) => x.src + i * x.sstride
  let da := fun (i : Nat) => x.dst + i * x.dstride
  match x.xtype with
  | 0 => rows.flatMap fun i => rowTasks x.region 4 (sa i) x.dcore (da i) x.rowlen (c.inside x.region (sa i) x.rowlen)
  | 1 => rows.flatMap fun i => rowTasks x.region x.score (sa i) 4 (da i) x.rowlen (c.inside x.region (da i) x.rowlen)
  | 2 => rows.flatMap fun i => rowTasks x.region x.score (sa i) x.dcore (da i) x.rowlen x.rowlen
  | 3 => rows.flatMap fun i =>
    let k := c.inside x.region (sa i) x.rowlen
    let k' := c.inside x.dregion (da i) x.rowlen
    rowTasks (if k ≤ k' then x.region else x.dregion) 4 (sa i) 4 (da i) x.rowlen (min k k')
  | 4 => match x.ownRing m with
    | some r =>
      let target := (c.ring r).elim 0 (·.hairpinTo)
      rows.flatMap fun i =>
        let k := c.inside x.region (sa i) x.rowlen
        (if k < x.rowlen then [K.regionCut x.region] else []) ++ hairTasks r target (k / 262080 + 1) (sa i) (da i) k
    | none => [do
        let u := (← get).unit
        modify fun s => { s with blocks := (u, x.dst) :: s.blocks }]
  | _ => match c.region x.region with
    | none => []
    | some r =>
      let n := min x.bytes (c.halfOf x.region c.closedHalf).bytes
      let base := r.base + c.closedHalf * r.len
      rowTasks x.region 4 base x.dcore x.dst n n ++ [do
        let k := coreMem (← K.chan) x.dcore
        K.imageBlanks x.region (Cells.read ramDefault k.ink x.dst n)]

/-- Lists of tasks run in parallel: each in its order, and which goes next is free (R231). -/
def K.parallel : Nat → List (List (K Unit)) → K Unit
  | 0, _ => pure ()
  | n + 1, ls =>
    match ls.filter (fun l => !l.isEmpty) with
    | [] => pure ()
    | [l] => l.forM id
    | ls => do
      let i := (← K.free) % ls.length
      match ls[i]? with
      | some (t :: _) =>
        t
        K.parallel n (ls.modify i (·.drop 1))
      | _ => pure ()
/-- An INTAKE or XFER stroke: each engine runs its descriptors in list order, the engines run in parallel (R231). -/
def K.transfer (parm : List Byte) (cores : Nat) : K Unit := do
  let s ← get
  let xs := xDescs parm
  let lists := [0, 1, 2, 3].map fun j =>
    ((xs.filter fun x => x.engine (coresOf cores) == j).flatMap fun x => x.tasks s.m s.c).map fun t => do K.act (4 + j); t
  K.parallel ((lists.map (·.length)).foldl (· + ·) 0) lists

/-! ### Load check (R231 to R233, R235) -/

/-- ns of a byte count at hundredths of GB/s, rounded up. -/
def nsAt (bytes centi : Nat) : Nat := ceilDiv (bytes * 100) centi

def XDesc.cost (x : XDesc) : Nat × Nat :=
  -- bytes to be charged at 40.96 GB/s, and at 32 GB/s
  match x.xtype with
  | 2 => (0, x.bytes)
  | 3 => (2 * x.bytes, 0)
  | _ => (x.bytes, 0)
/-- R233. -/
def transferFix (cores : List Nat) (xs : List XDesc) : Nat :=
  ([0, 1, 2, 3].map fun j =>
    let l := (xs.filter fun x => x.engine cores == j).map XDesc.cost
    let a := (l.map (·.1)).foldl (· + ·) 0
    let b := (l.map (·.2)).foldl (· + ·) 0
    -- 400 + a/40.96 + b/32, rounded up
    400 + ceilDiv (a * 100 * 3200 + b * 100 * 4096) (4096 * 3200)).foldl max 0

/-- R231, R232, R235: a descriptor's own checks; a region whose TENANT is not the channel's refuses it. HPRING names a ring of
the channel itself (R231). -/
def XDesc.ok (m : Ch) (c : Channel) (kind : Nat) (cores : List Nat) (b : List Byte) (x : XDesc) : Bool :=
  let sLen := (x.rows - 1) * x.sstride + x.rowlen
  let dLen := (x.rows - 1) * x.dstride + x.rowlen
  let inReg := fun (g a n : Nat) => match c.region g with
    | some r => r.holds a n && r.tenant == c.img.tenant.getD 0
    | none => false
  (if kind == 0 then x.xtype == 5 else decide (x.xtype ≤ 4))
    && decide (x.score < 4) && decide (x.dcore < 4) && byteAt b 3 == 0 && zeroAt b 44 4 && x.rowlen % 64 == 0
    && decide (1 ≤ x.rows) && x.sstride % 64 == 0 && x.dstride % 64 == 0 && (x.xtype == 3 || x.dregion == 0)
    && (x.xtype == 4 || x.hpring == 0) && decide (x.hpring < 2 ^ 18) && cores.contains (x.engine cores)
    && (x.xtype != 2 || cores.contains x.score)
    && match x.xtype with
      | 0 => inReg x.region x.src sLen
      | 1 => inReg x.region x.dst dLen
      | 2 => true
      | 3 => inReg x.region x.src sLen && inReg x.dregion x.dst dLen
      | 4 => inReg x.region x.src sLen && (match (x.ownRing m).bind c.ring with
        | some r => r.enabled && r.out && r.hairpin
        | none => false)
      | _ => match c.region x.region with
        | some r => r.input && r.tenant == c.img.tenant.getD 0
        | none => false

def transferOk (m : Ch) (c : Channel) (kind : Nat) (parm : List Byte) (cores : List Nat) : Bool :=
  let n := field parm 0 2
  decide (1 ≤ n) && decide (n ≤ 1024) && zeroAt parm 2 14 && parm.length == 16 + 48 * n
    && (chunks 48 n (parm.drop 16)).all fun b => (xDesc b).ok m c kind cores b

end Sys2Proof.Machine
end

