-- ==== Sys2Proof/Machine/Select.lean ====
section
/-! DEFINITION. SELECT strokes (chapter "Sorting and selection"). -/
namespace Sys2Proof.Machine

/-! ### Order keys (R285) -/

def orderFp32 (w : Nat) : Nat := if w / 2 ^ 31 % 2 == 0 then w + 2 ^ 31 else 2 ^ 32 - 1 - w
def orderFp16 (h : Nat) : Nat := (if h / 2 ^ 15 % 2 == 0 then h + 2 ^ 15 else 2 ^ 16 - 1 - h) * 65536
def orderKey (fmt w : Nat) : Nat := if fmt == 0 then w else if fmt == 1 then w ^^^ 0x80000000 else orderFp32 w

/-! ### SORT (R286 to R290) -/

structure SortOp where
  keyfmt : Nat
  keybits : Nat
  desc : Bool
  ink : Bool
  cntsrc : Bool
  nmax : Nat
  src : Nat
  tmp : Nat
  dst : Nat
  cnt : Nat
def sortOp (b : List Byte) : SortOp :=
  let f := byteAt b 3
  { keyfmt := byteAt b 1, keybits := byteAt b 2, desc := bitOf f 0, ink := bitOf f 1, cntsrc := bitOf f 2, nmax := field b 4 4,
    src := field b 8 8, tmp := field b 16 8, dst := field b 24 8, cnt := field b 32 8 }

/-- Reads and writes of SELECT: Inkwell of core j, or HBM past the Reservoir. -/
def K.selRead (ink : Bool) (j a n : Nat) : K (List Byte) := if ink then K.readInk j a n else K.readHbm a n
def K.selWrite (ink : Bool) (j a : Nat) (bs : List Byte) : K Unit := if ink then K.writeInk j a bs else K.writeHbm a bs

/-- The count word, clamped to NMAX (R289); answers the count and whether it was clamped. -/
def K.countWord (ink : Bool) (j cnt nmax : Nat) : K (Nat × Bool) := do
  let w := leNat (← K.selRead ink j cnt 4)
  if w ≤ nmax then return (w, false)
  K.overflow .clamp
  K.mod fun c => (c.stick .selClamp).bump .selClamps 1
  let s ← get
  K.err .doubt 0x78 (initScribe s.m) (some s.idx) (some w)
  return (nmax, true)

/-- The count of an entry that gives one by CNTSRC: its count word, else NMAX (R289). -/
def K.countOf (cntsrc ink : Bool) (j cnt nmax : Nat) : K (Nat × Bool) := if cntsrc then K.countWord ink j cnt nmax else pure (nmax, false)

/-- One stable pass by bits [8i+7:8i] of u, or of its complement (R287), on items with their input positions. -/
def sortPass (o : SortOp) (i : Nat) (items : List (List Byte × Nat)) : List (List Byte × Nat) :=
  let digit := fun (b : List Byte) =>
    let u := orderKey o.keyfmt (field b 0 4)
    let v := if o.desc then 2 ^ 32 - 1 - u else u
    v / 256 ^ i % 256
  (List.range 256).flatMap fun d => items.filter fun b => digit b.1 == d
/-- Where pass i writes, and what the next pass reads (R288). -/
def SortOp.dest (o : SortOp) (i : Nat) : Nat := if (o.keybits / 8 - 1 - i) % 2 == 0 then o.dst else o.tmp
/-- Where the share of the x-th of `c` cores starts; it ends where the next begins (R287). -/
def shareAt (c n x : Nat) : Nat := x * n / c
/-- The items of a pass, each core reading its share (R287). -/
def K.sortRead (o : SortOp) (cores : List Nat) (a n : Nat) : K (List (List Byte)) := do
  let bs ← cores.zipIdx.foldlM (fun acc (j, x) => do
    let lo := shareAt cores.length n x
    K.act j
    return acc ++ (← K.selRead o.ink j (a + 8 * lo) (8 * (shareAt cores.length n (x + 1) - lo)))) []
  return chunks 8 n bs
/-- Each core scatters the items of its share to their final places, which start at `a` (R287). -/
def K.scatter (o : SortOp) (cores : List Nat) (a n : Nat) (sorted : List (List Byte × Nat)) : K Unit :=
  cores.zipIdx.forM fun (j, x) => do
    K.act j
    (sorted.zipIdx.filter fun y => decide (shareAt cores.length n x ≤ y.1.2 ∧ y.1.2 < shareAt cores.length n (x + 1))).forM fun y =>
      K.selWrite o.ink j (a + 8 * y.2) y.1.1
/-- Passes from `i` on, `a` being what the pass reads (R287, R288). -/
def K.sortFrom (o : SortOp) (cores : List Nat) (n : Nat) : Nat → Nat → Nat → K Unit
  | 0, _, _ => pure ()
  | k + 1, i, a => do
    let items ← K.sortRead o cores a n
    K.scatter o cores (o.dest i) n (sortPass o i items.zipIdx)
    K.sortFrom o cores n k (i + 1) (o.dest i)
def K.sort (b : List Byte) (cores : List Nat) (n : Nat) : K Unit :=
  let o := sortOp b
  K.sortFrom o cores n (o.keybits / 8) 0 o.src

/-! ### Result records (R294) -/

/-- An entry of a list with its order key; of an FP16 score array that is the key of the FP16 bits, of a result record that of
the stored FP32 score (R285, R294; log 13). -/
structure SelEntry where
  index : Nat
  score : Word
  owned : Bool
  u : Nat
def SelEntry.prefixOf (e : SelEntry) : Nat := e.u / 256

structure SelRec where
  k : Nat
  tie : Bool
  clamp : Bool
  suppressed : Nat
  tied : Nat
  selected : Word
  left : Word
  ownedTotal : Word
  kprefix : Nat
  entries : List SelEntry

def readRec (b : List Byte) : SelRec :=
  let mask := field b 24 8
  { k := byteAt b 1, tie := bitOf (byteAt b 2) 0, clamp := bitOf (byteAt b 2) 1, suppressed := byteAt b 3, tied := field b 4 4,
    selected := wordAt b 8, left := wordAt b 12, ownedTotal := wordAt b 16, kprefix := field b 20 4,
    entries := (List.range (min (byteAt b 0) 64)).map fun i =>
      { index := field b (32 + 8 * i) 4, score := wordAt b (36 + 8 * i), owned := bitOf mask i,
        u := orderFp32 (field b (36 + 8 * i) 4) } }
def recBytes (r : SelRec) : List Byte :=
  let mask := (r.entries.zipIdx).foldl (fun a (e, i) => a + b2n e.owned * 2 ^ i) 0
  [BitVec.ofNat 8 r.entries.length, BitVec.ofNat 8 r.k, BitVec.ofNat 8 (b2n r.tie + 2 * b2n r.clamp), BitVec.ofNat 8 r.suppressed]
    ++ leBytes 4 r.tied ++ wordsBytes [r.selected, r.left, r.ownedTotal] ++ leBytes 4 r.kprefix ++ leBytes 8 mask
    ++ (r.entries.flatMap fun e => leBytes 4 e.index ++ leBytes 4 e.score.toNat)
    ++ (List.replicate (r.k - r.entries.length) (leBytes 4 0xFFFFFFFF ++ leBytes 4 0xFF800000)).flatMap id

def sumInOrder (l : List Word) : Word := match l with
  | [] => 0#32
  | a :: as => as.foldl F32.add a

def minusInf : Word := 0xFF800000#32
/-- A score of −∞ among the terms makes the mass −∞ (R295). -/
def mass (sum : List Word → Word) (l : List Word) : Word := if l.contains minusInf then minusInf else sum l
/-- What a list leaves of a mass: a mass of −∞ stays −∞, whatever is taken from it (R295). -/
def massLeft (total sel : Word) : Word := if total == minusInf then minusInf else F32.sub total sel

/-! ### TOPK (R291 to R297) -/

structure TopkOp where
  core : Nat
  fp16 : Bool
  cntsrc : Bool
  k : Nat
  nmax : Nat
  scores : Nat
  cnt : Nat
  out : Nat
  ibase : Nat
  ownFirst : Nat
  ownCount : Nat
  minScore : Word
def topkOp (b : List Byte) : TopkOp :=
  { core := byteAt b 1, fp16 := byteAt b 2 == 1, cntsrc := bitOf (byteAt b 3) 0, k := byteAt b 4, nmax := field b 8 4,
    scores := field b 12 4, cnt := field b 16 4, out := field b 20 4, ibase := field b 24 4, ownFirst := field b 28 4,
    ownCount := field b 32 4, minScore := wordAt b 36 }

/-- Descending prefix, then ascending index (R294). -/
def prefixOrder (a b : SelEntry) : Bool := decide (b.prefixOf < a.prefixOf) || (a.prefixOf == b.prefixOf && decide (a.index ≤ b.index))

/-- The list of R293 from the valid elements in descending prefix order: all above the K-th prefix, and of those tied with
it a free choice (R297). -/
def K.pickTop (k : Nat) (valid : List SelEntry) : K (List SelEntry) := do
  if valid.length ≤ k then return valid
  match valid[k - 1]? with
  | none => return valid
  | some e =>
    let q := e.prefixOf
    let above := valid.filter fun x => decide (q < x.prefixOf)
    let tied ← K.shuffle (valid.filter fun x => x.prefixOf == q)
    return sortBy prefixOrder (above ++ tied.take (k - above.length))

def K.tieSeen (tie : Bool) : K Unit := if tie then K.mod fun c => (c.stick .selTie).bump .selTies 1 else pure ()

def K.topk (b : List Byte) (n : Nat) (clamp : Bool) : K Unit := do
  let o := topkOp b
  let sz := if o.fp16 then 2 else 4
  let bs ← K.readInk o.core o.scores (sz * n)
  let score := fun i => if o.fp16 then FFmt.f16.toF32 (field bs (2 * i) 2) else wordAt bs (4 * i)
  let all := (List.range n).map fun i =>
    let g := (o.ibase + i) % 2 ^ 32
    ({ index := g, score := score i, owned := o.ownCount == 0 || (decide (o.ownFirst ≤ g) && decide (g < o.ownFirst + o.ownCount)),
       u := if o.fp16 then orderFp16 (field bs (2 * i) 2) else orderFp32 (score i).toNat } : SelEntry)
  -- MINSCORE is compared through the order keys of R285
  let valid := all.filter fun e => !(F32.isNaN e.score) && Nat.ble (orderFp32 o.minScore.toNat) (orderFp32 e.score.toNat)
  let l ← K.pickTop o.k (sortBy prefixOrder valid)
  let q := (l.getLast?.map SelEntry.prefixOf).getD 0
  let tied := if l.isEmpty then 0 else (valid.filter fun e => e.prefixOf == q).length
  let tie := decide ((l.filter fun e => e.prefixOf == q).length < tied)
  let total := mass vecSum ((valid.filter (·.owned)).map (·.score))
  let sel := mass sumInOrder ((l.filter (·.owned)).map (·.score))
  K.tieSeen tie
  K.writeInk o.core o.out (recBytes
    { k := o.k, tie := tie, clamp := clamp, suppressed := 0, tied := tied, selected := sel, left := massLeft total sel,
      ownedTotal := total, kprefix := q, entries := l })

/-! ### MERGE (R299 to R302) -/

/-- Whether the copy `a` of list i is kept before `b` of list j (R300). -/
def betterCopy (a : SelEntry × Nat) (b : SelEntry × Nat) : Bool :=
  decide (b.1.u < a.1.u) || (a.1.u == b.1.u && ((a.1.owned && !b.1.owned) || (a.1.owned == b.1.owned && decide (a.2 < b.2))))
def dedupe (l : List (SelEntry × Nat)) : List SelEntry :=
  (l.filter fun x => !(l.any fun y => y.1.index == x.1.index && betterCopy y x)).foldl
    (fun acc x => if acc.any (·.index == x.1.index) then acc else acc ++ [x.1]) []
def mergeOrder (a b : SelEntry) : Bool := decide (b.u < a.u) || (a.u == b.u && decide (a.index ≤ b.index))

/-- What gives bytes of memory new contents: a descriptor of an XFER stroke, an entry of a SELECT stroke that writes a result record, or
what a stroke declares that it writes. -/
inductive Maker where
  | move (x : XDesc)
  | list (b : List Byte)
  | other (rs : List Range)
def selEntries (parm : List Byte) : List (List Byte) := chunks 64 (field parm 0 2) (parm.drop 16)
def makersOf (s : Stroke) : List Maker :=
  if s.kind == 8 then (xDescs s.parm).map .move
  else .other (s.ranges.filter (·.access != 0)) :: (if s.kind == 5 then (selEntries s.parm).map .list else [])
/-- Strokes in an order in which every path rises. -/
def topoOrder (d : Ductus) (anc : List Nat) : List Stroke :=
  let paths := fun (s : Stroke) => ((List.range d.strokes.length).filter (bitOf (anc.getD s.index 0))).length
  sortBy (fun a b => Nat.ble (paths a) (paths b)) d.strokes
/-- What the strokes with a path to stroke `i` write, the latest first. -/
def makersBefore (anc : List Nat) (order : List Stroke) (i : Nat) : List Maker :=
  ((order.filter fun t => hasPath anc t.index i).flatMap makersOf).reverse
/-- Where the byte at `a` of memory `mem` (0 to 3 Inkwell, 4 HBM) comes from if the descriptor writes it; of rows that overlap the last
counts (R231). -/
def XDesc.origin (x : XDesc) (mem a : Nat) : Option (Nat × Nat) :=
  let dmem := if x.xtype == 0 || x.xtype == 2 then x.dcore else 4
  let smem := if x.xtype == 1 || x.xtype == 2 then x.score else 4
  let row := if x.dstride == 0 then x.rows - 1 else min (x.rows - 1) ((a - x.dst) / x.dstride)
  let off := a - (x.dst + row * x.dstride)
  if decide (x.xtype < 4) && dmem == mem && decide (x.dst ≤ a) && decide (off < x.rowlen) then some (smem, x.src + row * x.sstride + off) else none
def Range.has (r : Range) (mem a : Nat) : Bool :=
  (if r.space == 0 then r.core else 4) == mem && decide (r.base ≤ a ∧ a < r.base + 64 * r.len)
/-- Whether it writes the byte at `a` of memory `mem`; a SELECT stroke's records lie in what it declares. -/
def Maker.touches (mem a : Nat) : Maker → Bool
  | .move x => (x.origin mem a).isSome
  | .list _ => false
  | .other rs => rs.any (·.has mem a)
/-- Whether the result record at `a` of memory `mem` holds the prefix of an FP16 key (R285, R293): a TOPK over FP16 scores made it, a
SUPPRESS copied it from one that does (R305), an XFER brought one. MERGE forms its prefix from the FP32 scores that it is given. -/
def halfPrefix : List Maker → Nat → Nat → Bool
  | [], _, _ => false
  | .list b :: ws, mem, a =>
    if byteAt b 1 == mem && (byteAt b 0 == 1 || byteAt b 0 == 3) && field b 20 4 == a then
      if byteAt b 0 == 1 then byteAt b 2 == 1 else halfPrefix ws mem (field b 4 4)
    else if byteAt b 0 == 2 && byteAt b 1 == mem && field b 12 4 == a then false
    else halfPrefix ws mem a
  | .move x :: ws, mem, a => match x.origin mem a with
    | some (m, b) => halfPrefix ws m b
    | none => halfPrefix ws mem a
  | .other rs :: ws, mem, a => !(rs.any (·.has mem a)) && halfPrefix ws mem a
/-- The FP16 score whose order key, over 256, is `q` (R285). -/
def scoreOfPrefix (q : Nat) : Word :=
  let k := q / 256
  FFmt.f16.toF32 (if decide (2 ^ 15 ≤ k) then k - 2 ^ 15 else 2 ^ 16 - 1 - k)
/-- A record's KPREFIX as the prefix of an FP32 score. A prefix of an FP16 key holds the whole score (R293), and the record's entry the
same score as FP32 (R294): DEDUCED (log 13) that R302 compares one score's prefix with the other's. -/
def SelRec.prefix32 (r : SelRec) (half : Bool) : Nat :=
  if half then orderFp32 (scoreOfPrefix r.kprefix).toNat / 256 else r.kprefix

/-- A MERGE entry; `earlier` is the stroke's entries before it. -/
def K.merge (b : List Byte) (earlier : List (List Byte)) : K Unit := do
  let s ← get
  let ws := (earlier.map .list).reverse ++ ((s.c.img.ductus.map fun d => makersBefore (ancestors d) (topoOrder d (ancestors d)) s.idx).getD [])
  let j := byteAt b 1
  let nlist := byteAt b 2
  let k := byteAt b 4
  let lists := field b 8 4
  let out := field b 12 4
  let offs ← K.readInk j lists (4 * nlist)
  let recs ← (List.range nlist).mapM fun i => do
    let bs ← K.readInk j (field offs (4 * i) 4) 32
    let all ← K.readInk j (field offs (4 * i) 4) (32 + 8 * min (byteAt bs 0) 64)
    return readRec all
  let prefixes := (recs.zipIdx).map fun (r, i) => (r, r.prefix32 (halfPrefix ws j (field offs (4 * i) 4)))
  let cands := (recs.zipIdx).flatMap fun (r, i) => r.entries.map fun e => (e, i)
  let surv := sortBy mergeOrder (dedupe cands)
  let l := surv.take k
  let q := (l.getLast?.map SelEntry.prefixOf).getD 0
  let same := (surv.filter fun e => e.prefixOf == q).length
  let tied := if l.isEmpty then 0 else ((prefixes.filter fun r => r.1.tie && r.2 == q).map (·.1.tied)).foldl max same
  let tie := decide ((l.filter fun e => e.prefixOf == q).length < tied)
  let total := mass sumInOrder (recs.map (·.ownedTotal))
  let sel := mass sumInOrder (l.map (·.score))
  K.tieSeen tie
  K.writeInk j out (recBytes
    { k := k, tie := tie, clamp := recs.any (·.clamp), suppressed := 0, tied := tied, selected := sel, left := massLeft total sel,
      ownedTotal := total, kprefix := q, entries := l })

/-! ### SUPPRESS (R303 to R305) -/

structure SupOp where
  core : Nat
  cross : Bool
  keep : Nat
  list : Nat
  cand : Nat
  ibase : Nat
  cstride : Nat
  out : Nat
  radius : List Word
  ncand : Nat
def supOp (b : List Byte) : SupOp :=
  { core := byteAt b 1, cross := bitOf (byteAt b 2) 0, keep := byteAt b 3, list := field b 4 4, cand := field b 8 4,
    ibase := field b 12 4, cstride := field b 16 2, out := field b 20 4,
    radius := (List.range 16).map fun i => FFmt.f16.toF32 (field b (24 + 2 * i) 2), ncand := field b 56 4 }

structure Kept where
  e : SelEntry
  x : Word
  y : Word
  cls : Nat

structure SupSt where
  kept : List Kept
  supp : Nat
  range : Bool

def K.supWalk (o : SupOp) : List SelEntry → SupSt → K SupSt
  | [], st => pure st
  | e :: es, st => do
    if st.kept.length ≥ o.keep then return st
    let rel := (e.index + 2 ^ 32 - o.ibase) % 2 ^ 32
    if rel ≥ o.ncand then K.supWalk o es { st with range := true }
    else
      let b ← K.readInk o.core (o.cand + rel * o.cstride) 12
      let x := wordAt b 0
      let y := wordAt b 4
      let cls := field b 8 4
      let r := if cls < 16 then o.radius.getD cls 0 else 0#32
      let near := st.kept.any fun k => (o.cross || k.cls == cls) &&
        (let dx := F32.sub x k.x
         let dy := F32.sub y k.y
         F32.lt (F32.add (F32.mul dx dx) (F32.mul dy dy)) (F32.mul r r))
      K.supWalk o es (if near then { st with supp := st.supp + 1 } else { st with kept := st.kept ++ [⟨e, x, y, cls⟩] })

def K.suppress (b : List Byte) : K Unit := do
  let o := supOp b
  let hd ← K.readInk o.core o.list 32
  let r := readRec (← K.readInk o.core o.list (32 + 8 * min (byteAt hd 0) 64))
  let st ← K.supWalk o r.entries { kept := [], supp := 0, range := false }
  if st.range then
    K.mod (Channel.stick .selRange)
    let s ← get
    K.err .note 0x79 (initScribe s.m) (some s.idx) none
  K.bump .selSuppressed st.supp
  let l := st.kept.map (·.e)
  let sel := mass sumInOrder (l.map (·.score))
  K.writeInk o.core o.out (recBytes
    { r with k := o.keep, suppressed := st.supp, selected := sel, left := massLeft (mass sumInOrder [r.selected, r.left]) sel, entries := l })

/-! ### SELECT strokes (R284) -/

/-- The item count of an entry when the stroke issues (R289). -/
def K.entryCount (b : List Byte) (cores : List Nat) : K (Nat × Bool) :=
  match byteAt b 0 with
  | 0 => let o := sortOp b; K.countOf o.cntsrc o.ink (cores.headD 0) o.cnt o.nmax
  | 1 => let o := topkOp b; K.countOf o.cntsrc true o.core o.cnt o.nmax
  | _ => pure (0, false)
/-- The count words are read as the stroke issues; then each core runs its entries in list order (R284, R289). -/
def K.select (parm : List Byte) (cores : List Nat) : K Unit := do
  let es := selEntries parm
  let ns ← es.mapM fun b => do return (b, ← K.entryCount b cores)
  ns.zipIdx.forM fun ((b, n, clamp), i) => do
    if byteAt b 0 != 0 then K.act (byteAt b 1)
    match byteAt b 0 with
    | 0 => K.sort b cores n
    | 1 => K.topk b n clamp
    | 2 => K.merge b (es.take i)
    | _ => K.suppress b

/-! ### Load check (R284, R286, R288, R290, R298, R302, R303, R306) -/

def disjoint (a n b m : Nat) : Bool := decide (a + n ≤ b) || decide (b + m ≤ a)
def sortOk (b : List Byte) (rs : List Range) (cores : List Nat) : Bool :=
  let o := sortOp b
  let n := 8 * o.nmax
  let j := cores.headD 0
  let cov := fun wr a n => rangeHas rs (b2n (!o.ink)) j wr a n
  let p := o.keybits / 8
  decide (o.keyfmt < 3) && (o.keybits == 32 || (o.keyfmt == 0 && (o.keybits == 8 || o.keybits == 16 || o.keybits == 24)))
    && decide (byteAt b 3 < 8) && decide (1 ≤ o.nmax) && decide (o.nmax ≤ 1048576) && (o.cntsrc || o.cnt == 0) && zeroAt b 40 24
    && (!o.ink || cores.length == 1) && cov false o.src n && cov true o.tmp n && cov true o.dst n
    && (!o.cntsrc || cov false o.cnt 4) && disjoint o.src n o.tmp n && disjoint o.dst n o.tmp n
    && (disjoint o.src n o.dst n || (o.src == o.dst && p % 2 == 0))
def topkOk (b : List Byte) (rs : List Range) : Bool :=
  let o := topkOp b
  decide (byteAt b 2 < 2) && decide (byteAt b 3 < 2) && decide (1 ≤ o.k) && decide (o.k ≤ 64) && zeroAt b 5 3
    && decide (1 ≤ o.nmax) && decide (o.nmax ≤ 1048576) && (o.cntsrc || o.cnt == 0) && zeroAt b 40 24
    && rangeHas rs 0 o.core true o.out (alignUp (32 + 8 * o.k))
def mergeOk (b : List Byte) (rs : List Range) : Bool :=
  decide (2 ≤ byteAt b 2) && decide (byteAt b 2 ≤ 16) && byteAt b 3 == 0 && decide (1 ≤ byteAt b 4) && decide (byteAt b 4 ≤ 64)
    && zeroAt b 5 3 && zeroAt b 16 48 && rangeHas rs 0 (byteAt b 1) true (field b 12 4) (alignUp (32 + 8 * byteAt b 4))
/-- The candidates lie in one declared range (R303). -/
def suppressOk (b : List Byte) (rs : List Range) : Bool :=
  let o := supOp b
  decide (byteAt b 2 < 2) && decide (1 ≤ o.keep) && decide (o.keep ≤ 64) && o.cstride % 4 == 0 && decide (12 ≤ o.cstride)
    && zeroAt b 18 2 && zeroAt b 60 4 && decide (1 ≤ o.ncand) && (o.radius.all fun r => F32.isFinite r && F32.le 0 r)
    && (rs.any fun r => r.space == 0 && r.core == o.core && r.access != 1 && decide (r.base ≤ o.cand)
      && decide (o.cand + o.ncand * o.cstride ≤ r.base + 64 * r.len))
    && rangeHas rs 0 o.core true o.out (alignUp (32 + 8 * o.keep))
def selectOk (parm : List Byte) (rs : List Range) (cores : List Nat) : Bool :=
  let n := field parm 0 2
  let es := selEntries parm
  decide (1 ≤ n) && decide (n ≤ 256) && zeroAt parm 2 14 && parm.length == 16 + 64 * n
    && (!(es.any fun b => byteAt b 0 == 0) || n == 1)
    && es.all fun b => match byteAt b 0 with
      | 0 => sortOk b rs cores
      | 1 => cores.contains (byteAt b 1) && topkOk b rs
      | 2 => cores.contains (byteAt b 1) && mergeOk b rs
      | 3 => cores.contains (byteAt b 1) && suppressOk b rs
      | _ => false

/-- R111: cycles and FIX of N items on n cores at c nib cycles an item, B HBM bytes. -/
def nibCyc (n items c : Nat) : Nat := 2 * (1024 + ceilDiv (ceilDiv items n * c) 256)
def nibFix (b : Nat) : Nat := 400 + ceilDiv (b * 100) 16384
def selCost (b : List Byte) : Nat :=
  match byteAt b 0 with
  | 1 => 64 + (if byteAt b 4 ≤ 8 then 2 else 9) * ceilDiv (field b 8 4) 64
  | 2 => 64 + 64 * byteAt b 2
  | _ => 320
/-- CYC and FIX bounds (R290, R306). -/
def selectBound (parm : List Byte) (cores : List Nat) : Nat × Nat :=
  match selEntries parm with
  | b :: _ =>
    if byteAt b 0 == 0 then
      let o := sortOp b
      let p := o.keybits / 8
      (p * nibCyc cores.length o.nmax 4, p * nibFix (if o.ink then 0 else 16 * o.nmax))
    else (([0, 1, 2, 3].map fun j => (((selEntries parm).filter fun b => byteAt b 1 == j).map selCost).foldl (· + ·) 0).foldl max 0, 0)
  | [] => (0, 0)

end Sys2Proof.Machine
end

