-- ==== Sys2Proof/Machine/SiteMap.lean ====
section
/-! DEFINITION. The site map (chapter "The site map"): the kernels MAP_HASH to MAP_REFRESH, COMMIT's apply, tail pages,
table keys and the delta export. The staging areas and the page directory are bytes of the table's WORK region; the manual gives its size
but not the places in it (log 10). -/
namespace Sys2Proof.Machine

/-! ### Arguments (R257) and places -/

structure MapArgs where
  set : Nat
  table : Nat
  lfirst : Nat
  lcount : Nat
  qfirst : Nat
  qcount : Nat
  q : Nat
  pairs : Nat
  uniq : Nat
  cmap : Nat
  feat : Nat
  out : Nat
def mapArgs (b : List Byte) : MapArgs :=
  { set := byteAt b 1, table := byteAt b 16, lfirst := byteAt b 17, lcount := byteAt b 18, qfirst := field b 20 4,
    qcount := field b 24 4, q := field b 28 4, pairs := field b 32 8, uniq := field b 40 8, cmap := field b 48 8,
    feat := field b 56 8, out := field b 64 8 }

def Channel.tab (c : Channel) (x : Nat) : TableSt := c.map.tables.getD x TableSt.reset
def Channel.modTab (x : Nat) (f : TableSt → TableSt) (c : Channel) : Channel :=
  { c with map := { c.map with tables := modAt c.map.tables x f } }
def Channel.tabCfg (c : Channel) (x : Nat) : Option MapTable := c.img.sitemap.bind fun s => s.tables[x]?
/-- First logical row of level l (R248). -/
def MapTable.lbase (t : MapTable) (l : Nat) : Nat := ((t.levels.take l).map fun v => 2 ^ v.log2).foldl (· + ·) 0
/-- R249. -/
def MapTable.rowOf (t : MapTable) (l : Nat) (ix iy iz : Int) : Nat :=
  let u := fun (i : Int) => (i % 4294967296).toNat
  let h := (u ix ^^^ (u iy * 2935416011 % 2 ^ 32)) ^^^ (u iz * 1713204187 % 2 ^ 32)
  t.lbase l + h % 2 ^ (t.levels[l]?.map (·.log2)).getD 0
/-- Record size of a table (R251, R252). -/
def MapTable.recSize (t : MapTable) : Nat := if t.train == 0 then 8 else 32
def Folio.plane (f : Folio) (s : Nat) : Nat := (f.rows * s + 2047) / 2048 * 2048
def Folio.recAt (f : Folio) (s j p : Nat) : Nat := f.base + j * f.plane s + s * p
def Folio.countAt (f : Folio) (s p : Nat) : Nat := f.base + 4 * f.plane s + 2 * p
def Folio.indirAt (f : Folio) (row : Nat) : Nat := f.indir + 4 * row
def Folio.reverseAt (f : Folio) (lrows p : Nat) : Nat := f.indir + 4 * lrows + 4 * p

/-! ### WORK: two staging areas, then the page directory (R248, R265, R275). DESIGN CHOICE (log 10): their order and places -/

def Channel.workBase (c : Channel) (t : MapTable) : Nat := (c.region t.work).elim 0 (·.base)
/-- Bytes of one staging area: its training entries, then its migration entries. -/
def MapTable.areaLen (t : MapTable) : Nat := 136 * t.updMax + 16 * t.migMax
def Channel.trainAt (c : Channel) (t : MapTable) (area i : Nat) : Nat := c.workBase t + area * t.areaLen + 136 * i
def Channel.migAt (c : Channel) (t : MapTable) (area i : Nat) : Nat := c.workBase t + area * t.areaLen + 136 * t.updMax + 16 * i
/-- The directory entry of a tail page. -/
def Channel.dirAt (c : Channel) (t : MapTable) (page : Nat) : Nat := c.workBase t + 2 * t.areaLen + 4 * page
/-- A directory entry of a mapped page: SLOT, FOLIO, MAPPED, USED (R265). -/
def dirEntry (slot folio used : Nat) : Nat := slot % 8192 + folio % 4 * 8192 + 32768 + used % 65536 * 65536
/-- The cache slot that a directory entry names for a folio, where it is mapped for it. -/
def dirSlot (folio e : Nat) : Option Nat := if bitOf e 15 && bitsOf e 14 13 == folio then some (bitsOf e 12 0) else none

/-- Where an indirection entry leads (R253). -/
inductive RowPlace where
  | hot (slot : Nat)
  | empty
  | tail (index : Nat)
  | outOfRange
  deriving DecidableEq, Repr
def rowPlace (lrows e : Nat) : RowPlace :=
  if e < 2 ^ 31 then .hot e
  else if e == 0xFFFFFFFF then .empty
  else if e - 2 ^ 31 < lrows then .tail (e - 2 ^ 31) else .outOfRange

/-- The four values of a slice record (R250). -/
def sliceVals (code : Nat) (b : List Byte) : List Word :=
  let scale := FFmt.f16.toF32 (field b 4 2)
  let off := FFmt.f16.toF32 (field b 6 2)
  (List.range 4).map fun f =>
    let c := if code == 0 then byteAt b f else byteAt b (f / 2) / (if f % 2 == 0 then 1 else 16) % 16
    F32.fma scale (F32.ofNat c) off

/-! ### Query cells (R260) -/

/-- Cumulative stride of a set from set 0, an axis at a time. -/
def setStride (f : Front) (axis : Nat) : Nat → Nat → Nat
  | 0, _ => 1
  | n + 1, s =>
    match f.sets[s]? with
    | some r => if s == 0 || r.parent == 0xFF then 1 else
      (if axis == 0 then r.sx else if axis == 1 then r.sy else r.sz) * setStride f axis n r.parent
    | none => 1
/-- A cell's centre in metres, in FP32: the cells of a strided set are as many cells of set 0 wide as its strides make (R133). -/
def cellCentre (f : Front) (set axis : Nat) (c : Int) : Word :=
  let w := setStride f axis 8 set
  let e := if axis == 0 then f.edgeX else if axis == 1 then f.edgeY else f.edgeZ
  let o := if axis == 0 then f.originX else if axis == 1 then f.originY else f.originZ
  F32.div (centreMm o (c * (w : Int)) w e) f1000

/-- A query-level: cell number, level, lower vertex and the fractions per axis. -/
structure QLevel where
  cell : Nat
  level : Nat
  i0 : List Int
  frac : List Word
/-- Query cells of the batch: those of the window that the set holds in the frame (R257). -/
def queryCells (c : Channel) (a : MapArgs) : Nat := min a.qcount (c.setCells a.set - a.qfirst)
/-- Their keys, from the set's key list (R260). -/
def K.queryKeys (own : Nat → Nat) (f : Front) (a : MapArgs) : K (List Nat) := do
  K.readKeys own f a.set a.qfirst (queryCells (← K.chan) a)
/-- The query-levels of cells with these keys, in the order of R260. -/
def qLevels (ks : List Nat) (f : Front) (t : MapTable) (a : MapArgs) : List QLevel :=
  (ks.zipIdx a.qfirst).flatMap fun (k, i) => (List.range a.lcount).map fun dl =>
    let l := a.lfirst + dl
    let e := (t.levels[l]?.map (·.edge)).getD 0
    let us := [(0, keyX k), (1, keyY k), (2, keyZ k)].map fun (ax, x) => F32.div (cellCentre f a.set ax x) e
    { cell := i, level := l, i0 := us.map F32.floorInt, frac := us.map fun u => F32.sub u (F32.ofInt (F32.floorInt u)) }
/-- The weight of corner cn = 4·dz + 2·dy + dx (R263). -/
def cornerWeight (q : QLevel) (cn : Nat) : Word :=
  let f := fun i => let a := q.frac.getD i 0; if bitOf cn i then a else F32.sub F32.one a
  F32.mul (F32.mul (f 0) (f 1)) (f 2)

/-! ### MAP_HASH, MAP_UNIQUE (R260, R261) -/

def K.mapHash (cores : List Nat) (f : Front) (t : MapTable) (a : MapArgs) : K Unit := do
  let own ← K.owners cores
  let ks ← K.queryKeys own f a
  for (q, n) in (qLevels ks f t a).zipIdx do
    let g := fun i => q.i0.getD i 0
    let prs := (List.range 8).flatMap fun cn =>
      leBytes 4 (t.rowOf q.level (g 0 + b2n (bitOf cn 0)) (g 1 + b2n (bitOf cn 1)) (g 2 + b2n (bitOf cn 2))) ++ leBytes 4 (8 * n + cn)
    K.putLines own a.pairs (a.pairs + 64 * n) prs

/-- The sorted pair list as (row, payload). -/
def K.readPairs (own : Nat → Nat) (n : Nat) (a : MapArgs) : K (List (Nat × Nat)) := do
  let bs ← K.heldRead a.pairs a.pairs (8 * n) (K.readLines own a.pairs)
  return (chunks 8 n bs).map fun b => (field b 0 4, field b 4 4)
/-- Runs of equal rows: the row and the position of its first pair. -/
def uniqueRuns : Nat → Option Nat → List (Nat × Nat) → List (Nat × Nat)
  | _, _, [] => []
  | i, prev, (r, _) :: ps => if prev == some r then uniqueRuns (i + 1) prev ps else (r, i) :: uniqueRuns (i + 1) (some r) ps
def pairCount (c : Channel) (a : MapArgs) : Nat := 8 * a.lcount * queryCells c a

def K.mapUnique (cores : List Nat) (a : MapArgs) : K Unit := do
  let own ← K.owners cores
  let ps ← K.readPairs own (pairCount (← K.chan) a) a
  let us := uniqueRuns 0 none ps
  K.putLines own a.uniq a.uniq (us.flatMap fun (r, i) => leBytes 4 r ++ leBytes 4 i)
  for ((_, pay), i) in ps.zipIdx do
    if ← K.heldTo a.cmap (a.cmap + 4 * pay) 4 then
      K.writeLines own (a.cmap + 4 * pay) (leBytes 4 ((us.filter fun u => Nat.ble u.2 i).length - 1))

/-! ### MAP_FETCH and TAILFETCH (R262, R265, R266) -/

def Channel.tailBase (c : Channel) : Nat := (c.img.sitemap.bind fun s => c.region s.tailcache).elim 0 (·.base)
def tailPkt (ring : Nat) (k : Nat) (r : TailReq) : OutPkt :=
  { body := .tailfetch r.id r.table r.folio r.page, ring := ring, frametag := BitVec.ofNat 32 k, reports := none, eom := true }
/-- Whether outbound ring `n` allows opcode 80h + `bit` (R77). -/
def Channel.sends (c : Channel) (n bit : Nat) : Bool := c.rings.any fun r => r.num == n && r.enabled && r.out && r.opmask.getLsbD bit
/-- A request is queued, and outstanding, as soon as there is room (R105). One that still waits for room when a stroke of its frame is
abandoned is never sent (R64, `Channel.abandon`; log 17). -/
def Channel.feedTail (c : Channel) : Channel :=
  match c.map.unsentFetch with
  | r :: rest =>
    if c.roomOther && decide (c.map.reqs.length < 256) then
      let ring := (c.img.sitemap.map (·.tailRing)).getD 0
      { c with
        map := { c.map with unsentFetch := rest, reqs := c.map.reqs ++ [{ r with since := c.local }] }
        outq := c.outq ++ [tailPkt ring c.tick.k r] }
    else c
  | [] => c
/-- R266, on a TAIL_RING that allows TAILFETCH (R77). -/
def Channel.tailRequest (table folio page : Nat) (c : Channel) : Channel :=
  let same := fun (r : TailReq) => r.table == table && r.folio == folio && r.page == page
  if !(c.sends ((c.img.sitemap.map (·.tailRing)).getD 0) 3) || c.map.reqs.any same || c.map.unsentFetch.any same
    || decide (256 ≤ c.map.reqs.length) || c.map.slots.any (fun s => s.table == table && s.folio == folio && s.page == page) then c
  else
    let r : TailReq := { id := c.map.nextReq, frame := c.tick.k, table := table, folio := folio, page := page, since := c.local }
    ({ c with map := { c.map with nextReq := (c.map.nextReq + 1) % 2 ^ 32, unsentFetch := c.map.unsentFetch ++ [r] } } : Channel).feedTail

def featAt (a : MapArgs) (j u : Nat) : Nat := a.feat + 16777216 * j + 16 * u

/-- A site-map row or tail page lies where an index read from memory says: a request that leaves the region is cut, and answers
poisoned data (R235). -/
def K.rowRead (region j a n : Nat) (ahead : List Nat) : K (List Byte) := do
  if ← K.within region a n then K.nibReadAhead j a n true ahead else K.poisoned 4 a n
def K.rowWrite (region j a : Nat) (bs : List Byte) : K Unit := do
  if ← K.within region a bs.length then K.nibWriteHbm j a bs

/-- Core `j` resolves one unique row and writes its features (R262); core C(4m) also counts, reads the page's directory entry and sets its
USED (R265). It answers the entry, and the other cores take it as `dir`: no core reads a line that another writes (R226; log 10). `u` is
the row's unique index, `ahead` the lines of the indirection entries to come (R225). -/
def K.fetchRow (t : MapTable) (x : Nat) (fo : Folio) (a : MapArgs) (row u : Nat) (ahead : List Nat) (j dir : Nat) : K Nat := do
  let s := t.recSize
  let e := leNat (← K.rowRead t.region j (fo.indirAt row) 4 ahead)
  let put := fun (v : List Word) => K.putHeld (featAt a j 0) j (featAt a j u) (wordsBytes v)
  let zeros := List.replicate 4 0#32
  match rowPlace t.lrows e with
  | .hot p =>
    let b ← K.rowRead t.region j (fo.recAt s j p) 8 []
    put (sliceVals fo.code b)
    if j == 0 then
      let n := leNat (← K.rowRead t.region 0 (fo.countAt s p) 2 [])
      K.rowWrite t.region 0 (fo.countAt s p) (leBytes 2 (min (n + 1) 65535))
    return 0
  | .tail ix =>
    let c ← K.chan
    let at_ := c.dirAt t (ix / 2048)
    let d ← if j == 0 then return leNat (← K.rowRead t.work 0 at_ 4 []) else pure dir
    match dirSlot fo.slot d with
    | some slot =>
      if j == 0 then K.rowWrite t.work 0 (at_ + 2) (leBytes 2 c.tick.k)
      let b ← K.rowRead ((c.img.sitemap.map (·.tailcache)).getD 0) j (c.tailBase + 65536 * slot + 16384 * j + 8 * (ix % 2048)) 8 []
      put (sliceVals fo.code b)
    | none =>
      put zeros
      if j == 0 then K.mod fun c => ((c.bump .mapTailMisses 1).stick .tailMiss).tailRequest x fo.slot (ix / 2048)
    return d
  | pl =>
    put zeros
    if pl == .outOfRange && j == 0 then
      let st ← get
      if !(st.c.tab x).rangeRaised then
        K.mod (Channel.modTab x fun t => { t with rangeRaised := true })
        K.err .degraded 0x77 (initCore st.m 0) (some x) (some row)
    return 0

/-- Every core treats every unique row, all its requests through its own Reservoir (R258, R224). -/
def K.mapFetch (t : MapTable) (a : MapArgs) : K Unit := do
  let c ← K.chan
  let mut dirs : List Nat := []
  for j in [0, 1, 2, 3] do
    let ps ← K.readPairs (fun _ => j) (pairCount c a) a
    let n := (uniqueRuns 0 none ps).length
    if j == 0 then K.bump .mapUnique n
    let us ← K.heldRead a.uniq a.uniq (8 * n) (K.nibReadHbm j a.uniq)
    let rows := (chunks 8 n us).map fun b => field b 0 4
    for (row, u) in rows.zipIdx do
      match (c.tab a.table).current with
      | some fo =>
        let d ← K.fetchRow t a.table fo a row u (((rows.drop (u + 1)).take 4096).map fun r => fo.indirAt r / 128) j (dirs.getD u 0)
        if j == 0 then dirs := dirs ++ [d]
      | none => K.putHeld (featAt a j 0) j (featAt a j u) (List.replicate 16 0#8)

/-! ### MAP_BLEND (R263) -/

/-- Core `j`'s features at a unique index that the corner map holds, held to the region of its part of FEAT (R235). -/
def K.featRead (a : MapArgs) (j u : Nat) : K (List Byte) := do
  if ← K.heldTo (featAt a j 0) (featAt a j u) 16 then K.nibReadHbm j (featAt a j u) 16 else K.poisoned 4 (featAt a j u) 16

def K.mapBlend (f : Front) (t : MapTable) (a : MapArgs) : K Unit := do
  for j in [0, 1, 2, 3] do
    let ks ← K.queryKeys (fun _ => j) f a
    for (q, n) in (qLevels ks f t a).zipIdx do
      let cm ← K.heldRead a.cmap (a.cmap + 32 * n) 32 (K.nibReadHbm j (a.cmap + 32 * n))
      let vs ← (List.range 8).mapM fun cn => K.featRead a j (field cm (4 * cn) 4)
      let feat := fun (ft : Nat) => foldFrom F32.add ((vs.zipIdx).map fun (v, cn) => F32.mul (cornerWeight q cn) (wordAt v (4 * ft)))
      let base := a.out + 4 * a.q * q.cell + j * a.q
      K.putHeld a.out j (base + 8 * q.level) ((List.range 4).flatMap fun ft => f16Bytes (feat ft))
      if q.level == a.lfirst then K.putHeld a.out j (base + 8 * t.nlevels) (List.replicate (a.q - 8 * t.nlevels) 0#8)

/-! ### MAP_TRAIN (R272 to R275) -/

def bf16Val (b : List Byte) (off : Nat) : Word := FFmt.bf16.toF32 (field b off 2)
def bf16Bytes (w : Word) : List Byte := leBytes 2 (FFmt.bf16.ofF32 .rne false w)

/-- R274. -/
def requant (code : Nat) (xs : List Word) : List Byte :=
  let lo := match xs with
    | [] => 0#32
    | v :: vs => vs.foldl F32.min v
  let hi := match xs with
    | [] => 0#32
    | v :: vs => vs.foldl F32.max v
  let top := if code == 0 then 255 else 15
  let offH := FFmt.f16.ofF32 .down false lo
  let off := FFmt.f16.toF32 offH
  let scH := FFmt.f16.ofF32 .up false (F32.div (F32.sub hi off) (F32.ofNat top))
  let sc := FFmt.f16.toF32 scH
  let cd := fun (x : Word) => if F32.abs sc == 0#32 then 0 else
    (max 0 (min (top : Int) (roundInt (F32.div (F32.sub x off) sc)))).toNat
  let cs := xs.map cd
  (if code == 0 then cs.map (BitVec.ofNat 8) else
    [BitVec.ofNat 8 (cs.getD 0 0 + 16 * cs.getD 1 0), BitVec.ofNat 8 (cs.getD 2 0 + 16 * cs.getD 3 0), 0#8, 0#8]) ++ leBytes 2 scH ++ leBytes 2 offH

/-- R273 on one slice: the record after the update with gradients g. -/
def trainSlice (t : MapTable) (code : Nat) (g : List Word) (b : List Byte) : List Byte :=
  let x := sliceVals code b
  let gg := fun f => g.getD f 0
  let om := fun (beta : Word) => F32.sub F32.one beta
  let m := (List.range 4).map fun f => F32.add (F32.mul t.beta1 (bf16Val b (8 + 2 * f))) (F32.mul (om t.beta1) (gg f))
  let sq := (List.range 4).map fun f => F32.mul (gg f) (gg f)
  let v1 := (List.range 4).map fun f => F32.add (F32.mul t.beta2 (bf16Val b (16 + 2 * f))) (F32.mul (om t.beta2) (sq.getD f 0))
  let v2 := F32.add (F32.mul t.beta2 (wordAt b 16)) (F32.div (F32.mul (om t.beta2) (sumInOrder sq)) (F32.ofNat 4))
  let d := fun f => if t.train == 1 then v1.getD f 0 else v2
  let nx := (List.range 4).map fun f =>
    F32.sub (x.getD f 0) (F32.div (F32.mul t.lr (m.getD f 0)) (F32.add (F32.sqrt (d f)) t.eps))
  requant code nx ++ m.flatMap bf16Bytes ++ (if t.train == 1 then v1.flatMap bf16Bytes else leBytes 4 v2.toNat ++ List.replicate 4 0#8)
    ++ List.replicate 8 0#8

def TableSt.stage (t : TableSt) (area : Nat) : Stage := if area == 0 then t.stage0 else t.stage1
def TableSt.setStage (area : Nat) (s : Stage) (t : TableSt) : TableSt := if area == 0 then { t with stage0 := s } else { t with stage1 := s }

/-- A queued DELTA packet whose entries lie in staging area `area` of table `x` (R281): an export applied by frame e's COMMIT reads
area (e − 1) mod 2. -/
def OutBody.inArea (x area : Nat) : OutBody → Bool
  | .delta0 table _ _ k _ _ _ => table == x && (k + 1) % 2 == area
  | _ => false
def OutBody.entries : OutBody → Nat
  | .delta0 _ _ _ _ _ _ es => es.length
  | _ => 0
/-- `n` entries of the export of frame `k`'s COMMIT are lost; one DELTA_LOST for each export (R283). -/
def K.loseEntries (x k n : Nat) : K Unit := do
  let s ← get
  let said := s.c.map.lostSaid.contains (x, k)
  K.mod fun c => { (c.bump .mapDeltaLost n).stick .deltaLost with map := { c.map with lostSaid := (x, k) :: c.map.lostSaid } }
  if !said then K.err .note 0x74 (initScribe s.m) none none
/-- A frame's first ELECTIVE stroke of a table starts its area empty (R275); entries of it not yet sent, queued or not, are lost
(R283; log 17), and entries of the outbound queue that free take unsent records and TAILFETCH requests (R375, R105). -/
def K.openStage (x folio : Nat) : K Unit := do
  let s ← get
  let c := s.c
  let area := c.tick.k % 2
  let t := c.tab x
  if (t.stage area).frame == some c.tick.k then return
  K.mod (Channel.modTab x fun t => t.setStage area { Stage.empty with frame := some c.tick.k, folio := folio })
  let mine := t.exports.filter fun e => (e.k + 1) % 2 == area
  K.mod (Channel.modTab x fun t => { t with exports := t.exports.filter fun e => (e.k + 1) % 2 != area })
  for e in mine do K.loseEntries x e.k (e.total - e.first)
  let gone := c.outq.filter fun p => p.body.inArea x area
  K.mod fun c => { c with outq := c.outq.filter fun p => !(p.body.inArea x area) }
  for p in gone do
    match p.body with
    | .delta0 _ _ _ k _ _ es => K.loseEntries x k es.length
    | _ => pure ()
  if !gone.isEmpty then K.mod fun c => (c.formErr).feedTail

/-- One unique row of MAP_TRAIN (R272): core j reads and updates its slice's record; core C(4m) stores the entry, its row, slot and four
records, since the four share its lines and a line that is written belongs to one core (R275, R226; log 10). `ahead` is the lines of the
indirection entries to come (R225). -/
def K.trainRow (t : MapTable) (fo : Folio) (a : MapArgs) (qs : List QLevel) (row : Nat) (pays ahead : List Nat) : K Unit := do
  let s ← get
  let c := s.c
  let area := c.tick.k % 2
  let st := (c.tab a.table).stage area
  let es ← [0, 1, 2, 3].mapM fun j => K.rowRead t.region j (fo.indirAt row) 4 ahead
  let e := leNat (es.headD [])
  match rowPlace t.lrows e with
  | .hot p =>
    if st.train ≥ t.updMax then
      K.bump .mapTrainSkipped 1
      K.mod (Channel.stick .trainLimit)
      if !c.map.trainLimitRaised then
        K.mod fun c => { c with map := { c.map with trainLimitRaised := true } }
        K.err .note 0x76 (initScribe s.m) none none
    else
      let at_ := c.trainAt t area st.train
      let recs ← [0, 1, 2, 3].mapM fun j => do
        let mut g := List.replicate 4 0#32
        for pay in pays do
          match qs[pay / 8]? with
          | none => pure ()
          | some q =>
            let ga := a.out + 4 * a.q * q.cell + j * a.q + 8 * q.level
            let gb ← if ← K.heldTo a.out ga 8 then K.nibReadHbm j ga 8 else K.poisoned 4 ga 8
            let w := cornerWeight q (pay % 8)
            g := (g.zipIdx).map fun (acc, f) => F32.add acc (F32.mul w (FFmt.f16.toF32 (field gb (2 * f) 2)))
        let b ← K.rowRead t.region j (fo.recAt 32 j p) 32 []
        return trainSlice t fo.code g b
      K.rowWrite t.work 0 at_ (leBytes 4 row ++ leBytes 4 p ++ recs.flatten)
      K.mod (Channel.modTab a.table fun ts => ts.setStage area { ts.stage area with train := (ts.stage area).train + 1 })
  | _ => K.bump .mapTrainSkipped 1

def K.mapTrain (f : Front) (t : MapTable) (a : MapArgs) : K Unit := do
  let c ← K.chan
  match (c.tab a.table).current with
  | none => pure ()
  | some fo =>
    if t.train == 0 || c.doubtP != 0#32 then return
    K.openStage a.table fo.slot
    -- every core reads the pairs and the keys through its own Reservoir (R258)
    let reads ← [0, 1, 2, 3].mapM fun j => do
      return (← K.readPairs (fun _ => j) (pairCount c a) a, ← K.queryKeys (fun _ => j) f a)
    let ps := (reads.headD ([], [])).1
    let qs := qLevels (reads.headD ([], [])).2 f t a
    let us := uniqueRuns 0 none ps
    for ((row, i), u) in us.zipIdx do
      let stop := ((us[u + 1]?).map (·.2)).getD ps.length
      K.trainRow t fo a qs row (((ps.drop i).take (stop - i)).map (·.2)) (((us.drop (u + 1)).take 4096).map fun r => fo.indirAt r.1 / 128)

/-! ### MAP_REFRESH (R279, R280) -/

/-- Running state of the selection. -/
structure Mig where
  load : List Nat
  moved : Nat
  used : List Nat
  out : List MigEntry
  stop : Bool

/-- Shard of slot p (R253). -/
def shardOf (s p : Nat) : Nat := p * s / 256 % 64

/-- One slot of a hot shard (R280). `counts` and `rev` are per slot; `sum` is ΣL, so M = sum/64. -/
def migSlot (t : MapTable) (s sum occ : Nat) (counts rev : List Nat) (shard : Nat) (g : Mig) (p : Nat) : Mig :=
  let lt := g.load.getD shard 0
  let cp := counts.getD p 0
  if g.stop || 64 * lt ≤ sum || g.moved == t.migMax || rev.getD p 0 == 0xFFFFFFFF || cp * occ < 2 * lt then g else
  let free := fun (d : Nat) => (List.range rev.length).find? fun q => shardOf s q == d && rev.getD q 0 == 0xFFFFFFFF && !(g.used.contains q)
  let cand := (List.range 64).filter fun d => (free d).isSome && decide (64 * (g.load.getD d 0 + cp) ≤ sum)
  match (sortBy (fun a b => decide (g.load.getD a 0 ≤ g.load.getD b 0)) cand).head? with
  | none => { g with stop := true }
  | some d => match free d with
    | none => { g with stop := true }
    | some q =>
      { g with load := modAt (modAt g.load shard (· - cp)) d (· + cp), moved := g.moved + 1, used := q :: g.used,
               out := g.out ++ [{ src := p, dst := q, row := rev.getD p 0 }] }

def migrations (t : MapTable) (s : Nat) (counts rev : List Nat) : List MigEntry :=
  let slots := List.range counts.length
  let load := (List.range 64).map fun d => ((slots.filter fun p => shardOf s p == d).map fun p => counts.getD p 0).foldl (· + ·) 0
  let sum := load.foldl (· + ·) 0
  let hot := (List.range 64).filter fun d => decide (t.skew * sum < 16 * 64 * load.getD d 0)
  let order := sortBy (fun a b => decide (load.getD b 0 < load.getD a 0) || (load.getD a 0 == load.getD b 0 && decide (a ≤ b))) hot
  (order.foldl (fun g d =>
    let mine := slots.filter fun p => shardOf s p == d
    let occ := (mine.filter fun p => rev.getD p 0 != 0xFFFFFFFF).length
    mine.foldl (migSlot t s sum occ counts rev d) g) { load := load, moved := 0, used := [], out := [], stop := false }).out
/-- SKEW_SEEN (R279). -/
def skewSeen (s : Nat) (counts : List Nat) : Nat :=
  let slots := List.range counts.length
  let load := (List.range 64).map fun d => ((slots.filter fun p => shardOf s p == d).map fun p => counts.getD p 0).foldl (· + ·) 0
  let sum := load.foldl (· + ·) 0
  if sum == 0 then 16 else min 255 (16 * 64 * load.foldl max 0 / sum)

/-- The bytes of a migration entry (R275). -/
def MigEntry.toBytes (g : MigEntry) : List Byte := leBytes 4 g.src ++ leBytes 4 g.dst ++ leBytes 4 g.row ++ leBytes 4 0
/-- An area takes MIG_MAX entries; what a second refresh of the frame selects beyond them is not staged (log 10). -/
def K.mapRefresh (t : MapTable) (x : Nat) : K Unit := do
  let c ← K.chan
  match (c.tab x).current with
  | none => pure ()
  | some fo =>
    let due := match (c.tab x).lastRefresh with
      | some k => Nat.ble (k + t.refreshN) c.tick.k
      | none => true
    if !due then return
    let s := t.recSize
    let cb ← K.nibReadHbm 0 (fo.countAt s 0) (2 * fo.rows)
    let rb ← K.nibReadHbm 0 (fo.reverseAt t.lrows 0) (4 * fo.rows)
    let counts := (List.range fo.rows).map fun p => field cb (2 * p) 2
    let rev := (List.range fo.rows).map fun p => field rb (4 * p) 4
    K.openStage x fo.slot
    let area := c.tick.k % 2
    let st := ((← K.chan).tab x).stage area
    let mg := (migrations t s counts rev).take (t.migMax - st.mig)
    for (g, i) in mg.zipIdx do
      K.rowWrite t.work 0 (c.migAt t area (st.mig + i)) g.toBytes
    K.mod (Channel.modTab x fun ts =>
      { ts.setStage area { st with refresh := true, mig := st.mig + mg.length } with skewSeen := skewSeen s counts })
    K.nibWriteHbm 0 (fo.countAt s 0) (counts.flatMap fun n => leBytes 2 (n / 2))

/-! ### MAP and ELECTIVE strokes -/

/-- Without a FRONT section no set holds a cell: MAP_UNIQUE and MAP_FETCH find no pair, MAP_HASH, MAP_BLEND and MAP_TRAIN nothing to
do (log 20). -/
def K.mapKernel (parm : List Byte) (cores : List Nat) : K Unit := do
  let c ← K.chan
  let a := mapArgs parm
  match c.tabCfg a.table with
  | none => pure ()
  | some t => match byteAt parm 0, c.img.front with
    | 0x10, some f => K.mapHash cores f t a
    | 0x11, _ => K.mapUnique cores a
    | 0x12, _ => K.mapFetch t a
    | 0x13, some f => K.mapBlend f t a
    | 0x14, some f => K.mapTrain f t a
    | 0x15, _ => K.mapRefresh t a.table
    | _, _ => pure ()

/-! ### COMMIT's apply (R276) and the export (R281 to R283) -/

/-- COMMIT's accesses to a table's region, at places that indices in memory name (R235). -/
def K.commitGet (region a n : Nat) : K (List Byte) := do
  if ← K.within region a n then K.readHbm a n else K.poisoned 4 a n
def K.commitPut (region a : Nat) (bs : List Byte) : K Unit := do
  if ← K.within region a bs.length then K.writeHbm a bs
/-- One migration entry, by its bytes: the records, the count, the indirection and the reverse map (R276). -/
def K.applyMig (t : MapTable) (fo : Folio) (e : List Byte) : K Unit := do
  let z := t.recSize
  let src := field e 0 4
  let dst := field e 4 4
  let row := field e 8 4
  for j in [0, 1, 2, 3] do
    let b ← K.commitGet t.region (fo.recAt z j src) z
    K.commitPut t.region (fo.recAt z j dst) b
  let n ← K.commitGet t.region (fo.countAt z src) 2
  K.commitPut t.region (fo.countAt z dst) n
  K.commitPut t.region (fo.countAt z src) [0#8, 0#8]
  K.commitPut t.region (fo.indirAt row) (leBytes 4 dst)
  K.commitPut t.region (fo.reverseAt t.lrows dst) (leBytes 4 row)
  K.commitPut t.region (fo.reverseAt t.lrows src) (leBytes 4 0xFFFFFFFF)
/-- COMMIT writes HBM: the lines leave every Reservoir. -/
def K.commitTable (t : MapTable) (x : Nat) : K Unit := do
  let s ← get
  let c := s.c
  let area := (c.tick.k + 1) % 2
  let ts := c.tab x
  let st := ts.stage area
  let target := ts.current.filter fun f => f.slot == st.folio
  let staged := st.frame.isSome && st.frame.map (· + 1) == some c.tick.k
  K.mod (Channel.modTab x fun t => t.setStage area Stage.empty)
  match target, staged with
  | some fo, true =>
    for i in List.range st.train do
      let e ← K.commitGet t.work (c.trainAt t area i) 136
      for j in [0, 1, 2, 3] do
        K.commitPut t.region (fo.recAt 32 j (field e 4 4)) (bytesAt e (8 + 32 * j) 32)
    for i in List.range st.mig do
      K.applyMig t fo (← K.commitGet t.work (c.migAt t area i) 16)
    K.bump .mapTrainRows st.train
    K.bump .mapMigrations st.mig
    K.mod (Channel.modTab x fun ts => { ts with
      lastRefresh := if st.refresh then st.frame else ts.lastRefresh
      exports := if st.train == 0 then ts.exports else ts.exports ++
        [{ k := c.tick.k, folio := fo.slot, serial := fo.serial, total := st.train, first := 0 }] })
  | _, _ =>
    if !(st.train == 0 && st.mig == 0) then
      K.mod (Channel.stick .stageDiscard)
      K.err .note 0x75 (initScribe s.m) none none

/-- The DELTA entry that a training entry's bytes give (R275, R282). -/
def deltaEntry (e : List Byte) : DeltaEntry :=
  { row := field e 0 4, slot := field e 4 4, slices := [0, 1, 2, 3].flatMap fun j => bytesAt e (8 + 32 * j) 8 }
/-- The next DELTA packet of the first running export, and the channel once it is formed, its entries read from the applied staging area
(R282, R283); `n` is a free number for poisoned bytes. DESIGN CHOICE (log 17): R76 does not
say whether a DELTA, whose header names a frame (R281), reports it; the model has it report none, so that CAPTIME is the time of sending
and FRAMETAG the frame in progress. -/
def Channel.nextDelta (n : Nat) (c : Channel) : Option (OutPkt × Channel) := do
  let ring := (c.img.sitemap.map (·.deltaRing)).getD 0
  if !(c.sends ring 7) then none
  let x ← (List.range c.map.tables.length).find? fun x => !(c.tab x).exports.isEmpty
  match (c.tab x).exports, c.tabCfg x with
  | e :: rest, some t =>
    let cnt := min 5460 (e.total - e.first)
    let part := (List.range cnt).map fun i => deltaEntry (c.openBytes n (c.trainAt t ((e.k + 1) % 2) (e.first + i)) 136)
    let last := Nat.ble e.total (e.first + cnt)
    some ({ body := .delta0 x e.folio e.serial e.k e.first e.total part, ring := ring, frametag := BitVec.ofNat 32 c.tick.k,
            reports := none, eom := last },
      (c.modTab x fun t => { t with exports := if last then rest else { e with first := e.first + cnt } :: rest }).bump .perfHbmRd (136 * cnt))
  | _, _ => none
def Hw.exportOne (m : Ch) (hw : Hw) : Hw :=
  match (hw.ch m).nextDelta (Config.freeNat hw.freeCtr) with
  | some (p, c) => ({ hw with freeCtr := hw.freeCtr + 1 }.setCh m c).outPush m p
  | none => hw
def Hw.exportFree (m : Ch) : Nat → Hw → Hw
  | 0, hw => hw
  | n + 1, hw => if (hw.ch m).roomOther then Hw.exportFree m n (hw.exportOne m) else hw
def Hw.exportMore (m : Ch) : Nat → Hw → Hw
  | 0, hw => hw
  | n + 1, hw => Hw.exportMore m n (hw.exportOne m)
/-- DELTA packets of the running exports: as many as find a free entry, and then a free number that displace older packets (R105;
log 17). A channel in FENCED publishes none (R428). -/
def Hw.exportDeltas (m : Ch) (hw : Hw) : Hw :=
  if (hw.ch m).st == .fenced then hw else
  let hw := hw.exportFree m 64
  let (n, hw) := hw.free
  hw.exportMore m (n % 65)

/-- COMMIT's site-map part: every table. -/
def K.mapCommit : K Unit := do
  let c ← K.chan
  match c.img.sitemap with
  | none => pure ()
  | some s => for (t, x) in s.tables.zipIdx do K.commitTable t x

/-! ### The boundary (R255, R265, R269) -/

def applyKey (t : TableSt) (k : KeyChange) : TableSt :=
  match k with
  | .install g key => match t.keyCur with
    | none => { t with keyCur := some (g, key) }
    | some (g0, k0) => { t with keyCur := some (g, key), keyPrev := some (g0, k0), keyPrevGen := g0 }
  | .retire => { t with keyPrev := none }

/-- Table x at T(k): the folio of the last PUBLISH becomes CURRENT, the others EMPTY; key changes apply in order. -/
def TableSt.boundary (t : TableSt) : TableSt :=
  let t := { t with keyStaged := [], rangeRaised := false, keyCur := (t.keyStaged.foldl applyKey t).keyCur,
                    keyPrev := (t.keyStaged.foldl applyKey t).keyPrev, keyPrevGen := (t.keyStaged.foldl applyKey t).keyPrevGen }
  if t.pending.isEmpty then t else
  { t with current := (t.pending.find? fun f => t.lastPublish == some f.slot).orElse fun _ => t.current, pending := [], lastPublish := none }

/-- The device writes the directory entry of an occupied slot's page (R265, R501). -/
def Channel.setDir (e : Nat) (s : TailSlot) (c : Channel) : Channel :=
  match c.tabCfg s.table with
  | some t => (c.storeHbm (c.dirAt t s.page) (leBytes 4 e) none).bump .perfHbmWr 4
  | none => c
/-- Slots are given up: the entries of those that were mapped are written 0. -/
def Channel.unmapSlots (gone : List TailSlot) (c : Channel) : Channel := (gone.filter (·.mapped)).foldl (fun c s => c.setDir 0 s) c
/-- Free the pages that belong to a folio no longer current. -/
def Channel.dropPages (c : Channel) : Channel :=
  let live := fun (x fo : Nat) => (c.tab x).current.any fun f => f.slot == fo
  { c.unmapSlots (c.map.slots.filter fun s => !(live s.table s.folio)) with map := { c.map with
      slots := c.map.slots.filter fun s => live s.table s.folio
      reqs := c.map.reqs.filter fun r => live r.table r.folio
      unsentFetch := c.map.unsentFetch.filter fun r => live r.table r.folio } }

/-- USED of an occupied slot's page, as its directory entry stands; `n` is a free number for poisoned bytes. -/
def Channel.usedOf (n : Nat) (c : Channel) (s : TailSlot) : Nat :=
  (c.tabCfg s.table).elim 0 fun t => leNat (c.openBytes n (c.dirAt t s.page + 2) 2)
/-- The mapped page to give up: largest (k − USED) mod 2^16, then the lower slot. -/
def evictPage (k : Nat) (used : TailSlot → Nat) (l : List TailSlot) : Option TailSlot :=
  let age := fun (s : TailSlot) => (k + 65536 - used s) % 65536
  (l.filter (·.mapped)).foldl (fun b s => match b with
    | none => some s
    | some v => if age v < age s || (age v == age s && decide (s.slot < v.slot)) then some s else some v) none
def evictPages (k total : Nat) (used : TailSlot → Nat) : Nat → List TailSlot → List TailSlot
  | 0, l => l
  | n + 1, l =>
    if l.length + 64 ≤ total then l else
    match evictPage k used l with
    | some v => evictPages k total used n (l.filter (·.slot != v.slot))
    | none => l

/-- Installed pages are mapped, their entries written; `k` is the frame that begins. -/
def Channel.mapPages (k : Nat) (c : Channel) : Channel :=
  { (c.map.slots.filter fun s => !s.mapped).foldl (fun c s => c.setDir (dirEntry s.slot s.folio k) s) c with
    map := { c.map with slots := c.map.slots.map fun p => { p with mapped := true } } }
/-- Where fewer than 64 slots are free, the entries of the mapped pages are read, and pages are given up (R265). -/
def Channel.evict (n k : Nat) (c : Channel) : Channel :=
  let total := (c.img.sitemap.map (·.tailSlots)).getD 0
  if c.map.slots.length + 64 ≤ total then c else
  let kept := evictPages k total (c.usedOf n) 8192 c.map.slots
  let gone := c.map.slots.filter fun s => !(kept.any (·.slot == s.slot))
  { (c.unmapSlots gone).bump .perfHbmRd (4 * c.map.slots.length) with map := { c.map with slots := kept } }
/-- The site map at T(k), `k` the frame that begins; `n` is a free number. -/
def Channel.mapBoundary (n k : Nat) (committed : Bool) (c : Channel) : Channel :=
  match c.img.sitemap with
  | none => c
  | some _ =>
    -- the staging that the abandoned COMMIT of frame k − 1 was to take (R62)
    let drop := fun (t : TableSt) => if committed then t else t.setStage (k % 2) Stage.empty
    let c := { c with map := { c.map with tables := c.map.tables.map fun t => (drop t).boundary, trainLimitRaised := false } }
    ((c.dropPages).mapPages k).evict n k

/-! ### PUBLISH, TAILPAGE, table keys (R254, R267, R269) -/

/-- [a, a+n) lies in a region. -/
def Channel.areaIn (c : Channel) (r a n : Nat) : Bool := (c.region r).any fun g => g.holds a n
/-- The areas of a folio (R252) as (address, length). -/
def folioAreas (t : MapTable) (f : Folio) : List (Nat × Nat) :=
  [(f.base, 4 * f.plane t.recSize + 2 * f.rows), (f.indir, 4 * t.lrows + 4 * f.rows)]

/-- R254 and R99: whether a PUBLISH on a ring of `tenant` with firewall region `win` is accepted. -/
def Channel.publishOk (c : Channel) (tenant win x : Nat) (f : Folio) (codeOk : Bool) : Bool :=
  match c.tabCfg x with
  | none => false
  | some t =>
    let ts := c.tab x
    let rowsOf := fun (s : TableSt) => (s.current.elim 0 (·.rows)) + (s.pending.map (·.rows)).foldl (· + ·) 0
    let total := (c.map.tables.map rowsOf).foldl (· + ·) 0 - (((ts.pending.filter fun p => p.slot == f.slot).map (·.rows)).foldl (· + ·) 0) + f.rows
    codeOk && f.rows != 0 && f.rows % 2048 == 0 && f.base % 2048 == 0 && f.indir % 64 == 0
      && ((folioAreas t f).all fun (a, n) => c.areaIn t.region a n)
      && c.areaIn win f.base 1 && c.areaIn win f.indir 1
      && decide (total ≤ 2 ^ 26) && t.tenant == tenant && !(ts.current.any fun cu => cu.slot == f.slot)
/-- An accepted PUBLISH. -/
def Channel.publish (x : Nat) (f : Folio) (c : Channel) : Channel :=
  c.modTab x fun t =>
    let n := t.serial + 1
    { t with serial := n, lastPublish := some f.slot, pending := (t.pending.filter (·.slot != f.slot)) ++ [{ f with serial := n }] }

def Channel.closeReq (id : Nat) (c : Channel) : Channel :=
  { c with map := { c.map with reqs := c.map.reqs.filter (·.id != id) } }
def freeSlots (total : Nat) (l : List TailSlot) : List Nat := (List.range total).filter fun n => !(l.any (·.slot == n))

/-- R267 on a TAILPAGE whose request is outstanding; `gen` is the header's KEYGEN. -/
def Hw.tailInstall (m : Ch) (r : TailReq) (gen : Nat) (p : SealedPage) (hw : Hw) : Hw :=
  let c := hw.ch m
  let t := c.tab r.table
  let key := match t.keyCur, t.keyPrev with
    | some (g, k), some (g', k') => if g == gen then some (k, false) else if g' == gen then some (k', true) else none
    | some (g, k), none => if g == gen then some (k, false) else none
    | _, _ => none
  let hw := hw.modCh m (Channel.closeReq r.id)
  let refuse := fun (h : Hw) (code : Nat) =>
    (h.modCh m fun c => (c.bump .mapTailRefused 1).stick .tailRefused).raise m .degraded code initDisp none none
  match key with
  | none => refuse hw 0x71
  | some (k, prev) =>
    let serial := t.current.elim 0 (·.serial)
    if !(p.intact && p.key == k && p.table == r.table && p.folio == r.folio && p.gen == gen && p.page == r.page && p.serial == serial) then refuse hw 0x72
    else
      let fs := freeSlots ((c.img.sitemap.map (·.tailSlots)).getD 0) c.map.slots
      if fs.isEmpty then
        (hw.modCh m fun c => (c.bump .mapTailRefused 1).stick .tailFull).raise m .note 0x73 initDisp none none
      else
        let (n, hw) := hw.free
        let slot := fs.getD (n % fs.length) 0
        let hw := hw.modCh m fun c =>
          let c := c.storeHbm (c.tailBase + 65536 * slot) p.plain none
          { (c.bump .perfHbmWr p.plain.length) with map := { c.map with slots := c.map.slots ++ [{ slot := slot, table := r.table, folio := r.folio, page := r.page, mapped := false }] } }
        match prev, t.keyCur with
        | true, some (g, kc) => if !(c.sends ((c.img.sitemap.map (·.deltaRing)).getD 0) 7) then hw else
          (hw.modCh m (Channel.bump .mapReencrypted 1)).outPush m
            { body := .delta1 r.table r.folio g serial c.tick.k r.page kc p.plain, ring := (c.img.sitemap.map (·.deltaRing)).getD 0,
              frametag := BitVec.ofNat 32 c.tick.k, reports := none, eom := true }
        | _, _ => hw

/-- The key slots after the changes already accepted in the open frame (R269). -/
def TableSt.staged (t : TableSt) : TableSt := t.keyStaged.foldl applyKey t
def TableSt.installOk (t : TableSt) (gen : Nat) : Bool :=
  match t.staged.keyCur with
  | none => true
  | some (g, _) => gen == (g + 1) % 4 && t.staged.keyPrev.isNone
def TableSt.retireOk (t : TableSt) : Bool := t.staged.keyPrev.isSome

/-! ### Load checks (R247, R248, R257, R259, R276) -/

def f0005 : Word := F32.ofRat false 5 1000
def levelOk (l : Level) : Bool := F32.le f0005 l.edge && F32.le l.edge (F32.ofNat 100) && decide (10 ≤ l.log2) && decide (l.log2 ≤ 24)
/-- R248. `b` is the table record's bytes. -/
def MapTable.ok (c : Channel) (tenant : Nat) (t : MapTable) : Bool :=
  let reg := fun (g : Nat) => (c.region g).filter fun r => r.tenant == tenant
  decide (1 ≤ t.nlevels) && decide (t.nlevels ≤ 16) && decide (t.train ≤ 2) && t.tenant == tenant && decide (17 ≤ t.skew)
    && decide (t.skew ≤ 64) && (reg t.region).any (·.hostw) && t.levels.all levelOk
    && t.lrows == (t.levels.map fun l => 2 ^ l.log2).foldl (· + ·) 0 && decide (t.lrows ≤ 2 ^ 26) && decide (t.updMax ≤ 1048576)
    && (t.train != 0 || (t.updMax == 0 && t.lr == 0#32 && t.beta1 == 0#32 && t.beta2 == 0#32 && t.eps == 0#32))
    && decide (t.migMax ≤ 65536) && decide (1 ≤ t.refreshN)
    && (reg t.work).any fun r => decide (2 * (136 * t.updMax + 16 * t.migMax) + t.lrows / 512 ≤ r.len)
/-- An outbound class-2 ring that can carry what R247 sends on it: a hairpin ring sends MEMWRITE only (R106, R521). -/
def Channel.outClass2 (c : Channel) (n : Nat) : Bool := c.rings.any fun r => r.num == n && r.enabled && r.out && !r.hairpin && r.cls == 2 && n != 0
def sitemapWhy (c : Channel) (tenant : Nat) (s : SiteMap) : Why :=
  leastWhy [
    whyIf (decide (8 < s.ntables) || decide (8192 < s.tailSlots) || decide (s.tailTimeout < 1000) || decide (10000000 < s.tailTimeout)
      || !s.rsvdOk || !(s.tables.all fun t => t.ok c tenant)
      || !((c.region s.tailcache).any fun r => r.tenant == tenant && decide (65536 * s.tailSlots ≤ r.len))) 0x29,
    whyIf (!(c.outClass2 s.tailRing && c.outClass2 s.deltaRing)) 0x2A]

/-- R257 and R259 on a MAP or ELECTIVE stroke. DESIGN CHOICE (log 20): of the kernel header of R109 only KERNEL and SET are looked at; a
RULING or CHANNELS that is not 0, reserved bytes 3 and 8 to 15 that are not, and a SET above 7, which holds no cell, are accepted: R109 names
no outcome. -/
def mapKernelOk (c : Channel) (kind : Nat) (parm : List Byte) (rs : List Range) (cores : List Nat) : Bool :=
  let a := mapArgs parm
  let k := byteAt parm 0
  let cov := fun (g : Nat) => (c.region g).any fun r => rangeBoth rs 1 0 r.base r.len
  match c.tabCfg a.table with
  | none => false
  | some t =>
    (if kind == 6 then decide (0x10 ≤ k) && decide (k ≤ 0x13) else k == 0x14 || k == 0x15)
      && decide (1 ≤ a.lcount) && decide (a.lfirst + a.lcount ≤ t.nlevels) && byteAt parm 19 == 0 && decide (a.qcount * a.lcount ≤ 131072)
      && a.q % 128 == 0 && decide (8 * t.nlevels ≤ a.q) && zeroAt parm 72 8
      && (if k == 0x12 || k == 0x13 || k == 0x14 then cores == [0, 1, 2, 3] else if k == 0x15 then cores == [0] else true)
      && (if k == 0x12 || k == 0x14 || k == 0x15 then cov t.region && cov t.work
          else (c.region t.region).any fun r => rangeHas rs 1 0 false r.base r.len)
/-- R276: COMMIT's apply bound in ns. -/
def applyBound (s : SiteMap) : Nat :=
  (s.tables.map fun t => 400 + nsAt (128 * t.updMax + 448 * t.migMax) 4096).foldl (· + ·) 0

end Sys2Proof.Machine
end

