-- ==== Sys2Proof/Machine/Scribe.lean ====
section
/-! DEFINITION. The models of the Scribe (chapter "The Scribe and the motion envelope", R307 to R343): KINEMATIC, THERMAL
and HEALTH leave their outputs for RECORD, which assembles the MAIN record and the RESULT. FP32 throughout; log 13 names
the operation orders that the rules leave open. -/
namespace Sys2Proof.Machine

/-- A model entry of a SCRIBE stroke's parameter block (R308). -/
structure ModelEntry where
  model : Nat
  core : Nat
  a : Nat
  b : Nat
  c : Nat
  d : Nat
  e : Nat
def modelEntry (b : List Byte) : ModelEntry :=
  { model := byteAt b 0, core := byteAt b 1, a := field b 4 4, b := field b 8 4, c := field b 12 4, d := field b 16 4, e := field b 20 2 }
def modelEntries (parm : List Byte) : List ModelEntry := (chunks 32 (byteAt parm 0) (parm.drop 16)).map modelEntry

/-- Doubt MODEL; record MODEL_INPUT once per frame (R318). -/
def K.modelInput : K Unit := do
  let s ← get
  K.mod fun c => { (c.doubt .model).stick .model with scribe := { c.scribe with modelRaised := true } }
  if !s.c.scribe.modelRaised then K.err .doubt 0x81 (initScribe s.m) none none
def K.modOut (f : ModelOut → ModelOut) : K Unit := K.mod fun c => { c with scribe := { c.scribe with out := f c.scribe.out } }

/-- P_max in seconds (R322). -/
def Image.pmaxSec (i : Image) : Word :=
  if i.tickSrc == 0 then F32.ofRat false i.periodNs 1000000000
  else F32.ofRat false (i.periodNs * (1000 + i.tickTol)) 1000000000000
/-- T_REACT + 2·P_max. -/
def Image.reaction (i : Image) (tReact : Word) : Word := F32.add tReact (F32.mul F32.two i.pmaxSec)

/-! ### KINEMATIC (R315 to R327) -/

def g980665 : Word := F32.ofRat false 980665 100000
/-- R317: the covered sectors, wrapping through sector 0. -/
def covered (first last i : Nat) : Bool :=
  if first ≤ last then decide (first ≤ i) && decide (i ≤ last) else decide (first ≤ i) || decide (i ≤ last)
/-- Centre bearing φ_i, in (−π, π], fixed point. -/
def centreAngle (i : Nat) : Int :=
  let n : Int := 2 * (i : Int) + 1
  (Fix.pi : Int) * (if n > 1440 then n - 2880 else n) / 1440

structure Obstacle where
  x : Word
  y : Word
  q : Word

def rangeOf (r : Word) : Word := if F32.isNaN r || F32.lt r 0 then 0 else r
def sectorObstacle (i : Nat) (r : Word) : Option Obstacle :=
  let r := rangeOf r
  if F32.isFinite r then
    some { x := F32.mul r (Fix.toF32 (Fix.cos (centreAngle i))), y := F32.mul r (Fix.toF32 (Fix.sin (centreAngle i))), q := 0 }
  else none

/-- Two FP32 values as integers of one unit. -/
def commonInts (a b : Word) : Int × Int :=
  match F32.dec a, F32.dec b with
  | .fin na ma ea, .fin nb mb eb =>
    let u := min ea eb
    (FVal.alignInt na ma ea u, FVal.alignInt nb mb eb u)
  | _, _ => (0, 0)
/-- θ of R320, in [0, 2π). -/
def pathAngle (rc x dy : Word) : Word :=
  let (ix, iy) := commonInts x dy
  let along := if F32.lt rc 0 then iy else -iy
  if ix == 0 && iy == 0 then 0 else Fix.toF32 (Fix.angle along ix : Nat)

def f0001 : Word := F32.ofRat false 1 10000
/-- R320: the candidate distance of an obstacle, if it has one. -/
def candidate (kappa h smax : Word) (o : Obstacle) : Option Word :=
  let hq := F32.add h o.q
  let (inside, s) :=
    if F32.lt (F32.abs kappa) f0001 then (F32.lt 0 o.x && F32.le (F32.abs o.y) hq, o.x)
    else
      let rc := F32.div F32.one kappa
      let dy := F32.sub o.y rc
      let lat := F32.abs (F32.sub (F32.sqrt (F32.add (F32.mul o.x o.x) (F32.mul dy dy))) (F32.abs rc))
      (F32.le lat hq, F32.mul (F32.abs rc) (pathAngle rc o.x dy))
  let d := F32.sub s o.q
  if inside && F32.le d smax then some d else none
/-- R321. -/
def freeDistance (kappa h smax overhang : Word) (os : List Obstacle) : Word :=
  let best := (os.filterMap (candidate kappa h smax)).foldl F32.min smax
  F32.max 0 (F32.sub best overhang)

/-- R324's solution, given that D_dir exceeds the margin. -/
def stopSpeed (t a d dm : Word) : Word :=
  F32.mul a (F32.sub (F32.sqrt (F32.add (F32.mul t t) (F32.div (F32.mul F32.two (F32.sub d dm)) a))) t)
/-- R323. -/
def brakeDecel (mass fbrake mu grade gdir : Word) : Word :=
  F32.add (F32.min (F32.div fbrake mass)
    (F32.mul (F32.mul mu g980665) (F32.sqrt (F32.sub F32.one (F32.mul grade grade))))) (F32.mul g980665 gdir)
/-- R325. -/
def accelLimit (ad amax vd vnow tau : Word) : Word :=
  F32.max (F32.neg ad) (F32.min amax (F32.div (F32.sub vd (F32.abs vnow)) tau))

def half (i : Int) : Half := BitVec.ofInt 16 i
def clampInt (lo hi i : Int) : Int := max lo (min hi i)
/-- Floor of an FP32 value; a product that overflowed lies beyond every field. -/
def floorFar (a : Word) : Int :=
  match F32.dec a with
  | .inf neg => if neg then -(2 ^ 200) else 2 ^ 200
  | v => v.floorInt
/-- Floor of n·a as an unsigned field below FFFFh. -/
def floorU (a : Word) (n : Nat) : Half := half (clampInt 0 65534 (floorFar (F32.mul (F32.ofNat n) a)))
/-- Floor of n·a as a signed field, saturated. -/
def floorS (a : Word) (n : Nat) : Half := half (clampInt (-32768) 32767 (floorFar (F32.mul (F32.ofNat n) a)))
def safe20 : Word := F32.ofRat false (2 ^ 20 - 1) (2 ^ 20)
/-- floor(1,000·v·(1 − 2^−20)) mm/s (R324). -/
def speedField (v : Word) : Half := half (clampInt 0 65534 (F32.floorInt (F32.mul (F32.mul f1000 v) safe20)))
def ffff : Half := 0xFFFF#16

/-- The obstacles of the detections (R319), read while the record lasts. -/
def K.detObstacles (sc : ScribeCfg) (t : Word) (e : ModelEntry) (ncand : Nat) : K (List Obstacle) := do
  if e.b == 0xFFFFFFFF then return []
  let hd ← K.readInk e.core e.b 32
  let r := readRec (← K.readInk e.core e.b (32 + 8 * min (byteAt hd 0) 64))
  let mut out := []
  for en in r.entries do
    let rel := (en.index + 2 ^ 32 - e.d) % 2 ^ 32
    if rel < ncand then
      let b ← K.readInk e.core (e.c + rel * e.e) 12
      let cls := field b 8 4
      let q := if cls < 16 then
          F32.add (FFmt.f16.toF32 (sc.classR.getD cls 0)) (F32.mul (FFmt.f16.toF32 (sc.classV.getD cls 0)) t)
        else 0
      out := out ++ [{ x := wordAt b 0, y := wordAt b 4, q := q }]
  return out

/-- Candidate records that the stroke's declared ranges hold from C on. -/
def candidatesIn (rs : List Range) (core c stride : Nat) : Nat :=
  match rs.find? fun r => r.space == 0 && r.core == core && r.base ≤ c && c < r.base + 64 * r.len with
  | some r => if stride == 0 then 0 else (r.base + 64 * r.len - c - 12) / stride + 1
  | none => 0
/-- The SUPPRESS entry that last writes the record at `out` of core `core` before stroke `i`. -/
def suppressFor (d : Ductus) (anc : List Nat) (i core out : Nat) : Option SupOp :=
  let sups := fun (s : Stroke) => ((selEntries s.parm).filter fun b => byteAt b 0 == 3 && byteAt b 1 == core && field b 20 4 == out)
  ((nearest anc false (d.strokes.filter fun s => s.kind == 5 && !(sups s).isEmpty && hasPath anc s.index i)).head?).bind fun s =>
    ((sups s).getLast?).map supOp
/-- How many candidates a detection may name: NCAND of the SUPPRESS entry that made the list; without one, those the declared
ranges hold (R319; log 13). -/
def Channel.candidates (c : Channel) (i : Nat) (rs : List Range) (e : ModelEntry) : Nat :=
  match c.img.ductus.bind fun d => suppressFor d (ancestors d) i e.core e.b with
  | some o => o.ncand
  | none => candidatesIn rs e.core e.c e.e

def K.kinematic (rs : List Range) (e : ModelEntry) : K Unit := do
  let c ← K.chan
  match c.img.scribe with
  | none => pure ()
  | some sc =>
    let bs ← K.readInk e.core e.a 5760
    let rr := wordsAt bs 0 1440
    let cov := covered sc.coverFirst sc.coverLast
    if (rr.zipIdx).any fun (r, i) => cov i && (F32.isNaN r || F32.lt r 0) then K.modelInput
    let mo := fun i => sc.motion.getD i 0
    let t := c.img.reaction (mo 0)
    let dets ← K.detObstacles sc t e (c.candidates (← get).idx rs e)
    let os := ((rr.zipIdx).filterMap fun (r, i) => if cov i then sectorObstacle i r else none) ++ dets
    K.modOut fun o => { o with free := some rr }
    match c.cal.msValid with
    | none => K.modOut fun o => { o with dFwd := none, vFwd := 0, vRev := 0, aLim := 0, stopKin := false, kinTorque := sc.motor.map fun _ => 0 }
    | some ms =>
      let mv := fun i => ms.getD i 0
      let mass := mv 0
      let grade := mv 1
      let vnow := mv 4
      let kappa := mv 5
      let h := F32.add (F32.add (mo 2) (mv 7)) (F32.mul (mo 3) (F32.abs (mv 6)))
      let dF := freeDistance kappa h (mo 6) (mo 4) os
      let dR := freeDistance kappa h (mo 6) (mo 5) (os.map fun o => { o with x := F32.neg o.x })
      let aF := brakeDecel mass (mv 2) (mv 3) grade grade
      let aR := brakeDecel mass (mv 2) (mv 3) grade (F32.neg grade)
      let lim := fun a d => if F32.lt a (mo 9) || F32.le d (mo 1) then 0 else F32.min (stopSpeed t a d (mo 1)) (mo 7)
      let vF := lim aF dF
      let vR := lim aR dR
      let fwd := F32.le 0 vnow
      let vd := if fwd then vF else vR
      let al := accelLimit (if fwd then aF else aR) (mo 8) vd vnow (mo 10)
      let gd := if fwd then grade else F32.neg grade
      let net := F32.add al (F32.mul g980665 gd)
      let tq := sc.motor.map fun m => F32.clamp (F32.div (F32.mul (F32.mul (F32.mul m.share mass) net) m.rWheel) m.gear) 0 m.tqMax
      K.modOut fun o =>
        { o with dFwd := some (floorU dF 100, floorU dR 100), vFwd := speedField vF, vRev := speedField vR, aLim := floorS al 1000,
                 stopKin := F32.lt (F32.add vd (mo 11)) (F32.abs vnow), kinTorque := tq }

/-! ### THERMAL (R328 to R336) -/

/-- R328: the extended sample time. -/
def sampleTime (captime : Int) (stamp : Nat) : Int :=
  captime + ((stamp : Int) - captime % (2 ^ 32 : Int) + (2 ^ 31 : Int)) % (2 ^ 32 : Int) - (2 ^ 31 : Int)

/-- P_max in thousandths of a ns (R322). -/
def Image.pmaxMilli (i : Image) : Nat := i.periodNs * (if i.tickSrc == 0 then 1000 else 1000 + i.tickTol)

def fcur (b : List Byte) : Word := let v := signed 16 (field b 6 2); F32.ofRat (v < 0) v.natAbs 10
def fntc (b : List Byte) : Word := let v := signed 16 (field b 12 2); F32.ofRat (v < 0) v.natAbs 100
/-- R330: the power of one sample. -/
def samplePower (k : ThermClass) (b : List Byte) : Word :=
  let i := F32.abs (fcur b)
  let cond := if bitOf (byteAt b 5) 0 then F32.mul i (F32.ofRat false (field b 8 2) 1000) else 0
  let sw := F32.mul (F32.mul (F32.mul (F32.ofNat (10 * field b 14 2)) k.eRef) (F32.div i k.iRef))
    (F32.div (F32.ofRat false (field b 10 2) 10) k.vRef)
  F32.add cond sw

/-- The samples of a switch in a frame, as they accumulate: count, loss sum, NTC value, its time. -/
structure TelAcc where
  switch : Nat
  n : Nat
  sum : Word
  ntc : Word
  at_ : Int

def telAdd (l : List TelAcc) (s : Nat) (p ntc : Word) (e : Int) : List TelAcc :=
  if l.any (·.switch == s) then
    l.map fun a => if a.switch == s then
      { a with n := a.n + 1, sum := F32.add a.sum p, ntc := if a.at_ ≤ e then ntc else a.ntc, at_ := max a.at_ e } else a
  else l ++ [{ switch := s, n := 1, sum := p, ntc := ntc, at_ := e }]

def blankSample (w0 w1 : Word) : List Byte := leBytes 4 w0.toNat ++ leBytes 4 w1.toNat

/-- The kept samples of the closed halves; test samples are checked and the other discards counted (R329, R369). -/
def K.readTelem (sc : ScribeCfg) : K (List TelAcc) := do
  let segs ← K.inputSegs K.readHbm 3
  let mut acc : List TelAcc := []
  for (rg, sg, bs) in segs do
    let c ← K.chan
    let safety := c.safetyRing sg.ring
    let check := safety && !(c.duct.blankDone.contains (blankKey rg 3))
    if check then K.blankPacket sg.ring sg.frametag
    for b in chunks 16 sg.count bs do
      let e := sampleTime sg.captime (field b 0 4)
      let sw := byteAt b 4
      let tk : Int := c.tick.tkLoc
      let cls := (sc.switches[sw]?).bind fun r => if r.enabled then sc.classes[r.cls]? else none
      if bitOf (byteAt b 5) 1 then
        if check then K.blankPair sg.ring (bytesAt b 6 8) blankSample
        K.bump .telemDiscards 1
      else match cls with
        | some k =>
          if 1000 * (tk - e) ≤ 2 * (c.img.pmaxMilli : Int) && e ≤ tk then acc := telAdd acc sw (samplePower k b) (fntc b) e
          else K.bump .telemDiscards 1
        | none => K.bump .telemDiscards 1
    if check && sg.eom then K.blankEnd sg.ring ((c.img.safety.map (·.testSamples)).getD 0) false
  K.mod fun c => { c with duct := { c.duct with blankDone := c.duct.blankDone ++ (segs.map fun s => blankKey s.1 3).eraseDups } }
  return acc

/-- One step of the ladder: x := PHI·x + GAMMA·P + ETA·T. -/
def ladderStep (k : ThermClass) (p t : Word) (x : List Word) : List Word :=
  (List.range k.stages).map fun i =>
    let row := (List.range k.stages).map fun j => F32.mul (k.phi.getD (8 * i + j) 0) (x.getD j 0)
    F32.add (F32.add (sumInOrder row) (F32.mul (k.gamma.getD i 0) p)) (F32.mul (k.eta.getD i 0) t)
def ladderSteps (k : ThermClass) (p t : Word) : Nat → List Word → List Word
  | 0, x => x
  | n + 1, x => ladderSteps k p t n (ladderStep k p t x)

/-- R334: (F_j, U_j) of every row. -/
def horizonRows (k : ThermClass) (x : List Word) (p t rho : Word) : List (Word × Word) :=
  k.rows.map fun r =>
    (F32.add (sumInOrder ((List.range k.stages).map fun j => F32.mul (r.a.getD j 0) (x.getD j 0))) (F32.mul r.e (F32.add t k.ntcMargin)),
     F32.mul (F32.add r.b (F32.mul k.rjc rho)) p)
/-- R334: the derate. -/
def derateOf (k : ThermClass) (rows : List (Word × Word)) : Word :=
  match (rows.filter fun (_, u) => F32.lt 0 u).map fun (f, u) => F32.div (F32.sub k.tjLimit f) u with
  | [] => F32.one
  | q :: qs => F32.clamp (qs.foldl F32.min q) 0 F32.one

/-- The 18-bit ring that a TELEM_HOLD record names: one of the channel's TELEM rings, of several a free choice (R378; log 13). -/
def K.telemRing : K (Option Nat) := do
  let s ← get
  let rs := s.c.rings.filter fun r => r.enabled && !r.out && r.opmask.getLsbD 3
  match rs with
  | [] => return none
  | [r] => return some (ring18 s.m r.num)
  | _ => return (rs[(← K.free) % rs.length]?).map fun r => ring18 s.m r.num
def K.staleTelem : K Unit := do
  let s ← get
  K.mod (Channel.doubt .staleInput)
  K.modOut fun o => { o with staleSaid := true }
  if !s.c.scribe.out.staleSaid then K.err .doubt 0x97 (initScribe s.m) (← K.telemRing) (some 2)

/-- A derate for which an infinite or NaN intermediate leaves no rule: any value from 0 to 1 (log 13). -/
def K.freeDerate : K Word := do return F32.ofRat false ((← K.free) % 8388609) 8388608
/-- One enabled switch (R329 to R335): the telemetry used, the node state after the steps, and the outputs. -/
def K.thermalSwitch (k : ThermClass) (hold s : Nat) (acc : List TelAcc) : K Unit := do
  let c ← K.chan
  let kf := c.tick.k
  match acc.find? (·.switch == s) with
  | some a =>
    let tel : SwTel := { switch := s, loss := F32.div a.sum (F32.ofNat a.n), ntc := a.ntc, last := kf }
    K.mod fun c => { c with scribe := { c.scribe with work := { c.scribe.work with tel := c.scribe.work.tel.filter (·.switch != s) ++ [tel] } } }
  | none => K.modOut fun o => { o with noSample := o.noSample ++ [s] }
  let c ← K.chan
  match c.scribe.work.tel.find? (·.switch == s) with
  | none =>
    K.staleTelem
    K.modOut fun o => { o with switchDer := o.switchDer ++ [(s, 0)] }
  | some tel =>
    if kf - tel.last > hold then K.staleTelem
    let (x0, n, reset) := match c.scribe.cur.therm.find? (·.switch == s) with
      | none => (List.replicate k.stages tel.ntc, 1, false)
      | some th => if kf - th.kc > 4 then (List.replicate k.stages k.tjLimit, 1, true) else (th.nodes, kf - th.kc, false)
    if reset then
      let st ← get
      K.mod (Channel.stick .thermalReset)
      K.modOut fun o => { o with resetSaid := true }
      if !st.c.scribe.out.resetSaid then K.err .degraded 0x84 (initScribe st.m) none none
    let x := ladderSteps k tel.loss tel.ntc n x0
    let rho := (assoc c.scribe.cur.rth s).getD 0
    let rows := horizonRows k x tel.loss tel.ntc rho
    let hot := rows.any fun (f, _) => F32.lt k.tjLimit f
    let now := F32.add (x.getD 0 0) (F32.mul (F32.mul k.rjc rho) tel.loss)
    K.mod fun c => { c with scribe := { c.scribe with work := { c.scribe.work with
      therm := c.scribe.work.therm.filter (·.switch != s) ++ [{ switch := s, nodes := x, kc := kf }] } } }
    if hot then
      let st ← get
      K.mod fun c => { c.stick .tjOver with scribe := { c.scribe with tjRaised := true } }
      if !st.c.scribe.tjRaised then K.err .degraded 0x83 (initScribe st.m) none none
    let der ← if rows.any (fun (f, u) => F32.isNaN f || F32.isNaN u) then K.freeDerate else pure (derateOf k rows)
    K.modOut fun o =>
      { o with switchDer := o.switchDer ++ [(s, der)], tjNow := o.tjNow ++ [(s, now)], tjOver := o.tjOver || hot,
               tjOverSw := if hot then o.tjOverSw ++ [s] else o.tjOverSw, stopTherm := o.stopTherm || F32.lt k.tjTrip now }

/-- R336: the derate of each motor. -/
def motorDerate (sc : ScribeCfg) (der : List (Nat × Word)) (i : Nat) : Word :=
  ((sc.switches.zipIdx).filterMap fun (r, s) => if r.enabled && r.motor == i then assoc der s else none).foldl F32.min F32.one

def K.thermal : K Unit := do
  let c ← K.chan
  match c.img.scribe with
  | none => pure ()
  | some sc =>
    let acc ← K.readTelem sc
    for (r, s) in sc.switches.zipIdx do
      if r.enabled then
        match sc.classes[r.cls]? with
        | some k => K.thermalSwitch k sc.telemHold s acc
        | none => pure ()
    K.modOut fun o => { o with derates := (List.range sc.motors).map (motorDerate sc o.switchDer) }

/-! ### HEALTH (R337 to R339) -/

def clampLife (w : Word) : Nat := (clampInt 0 7 (signed 32 w.toNat)).toNat
def finiteOr0 (w : Word) : Word := if F32.isFinite w then w else 0

def K.health (e : ModelEntry) : K Unit := do
  let c ← K.chan
  match c.img.scribe with
  | none => pure ()
  | some sc =>
    for (r, s) in sc.switches.zipIdx do
      if r.enabled then
        let b ← K.readInk e.core (e.a + 16 * s) 16
        let ws := wordsAt b 0 3
        if ws.any fun w => !(F32.isFinite w) then K.modelInput
        let g := fun i => finiteOr0 (ws.getD i 0)
        let rth := F32.clamp (g 2) 0 F32.two
        K.mod fun c => { c with scribe := { c.scribe with work := { c.scribe.work with rth := assocSet c.scribe.work.rth s rth } } }
        K.modOut fun o => { o with swHealth := o.swHealth ++ [(s, F32.clamp (g 0) 0 F32.one, g 1, rth, clampLife (wordAt b 12))] }
    for v in List.range sc.inverters do
      let b ← K.readInk e.core (e.b + 16 * v) 16
      let ws := wordsAt b 0 2
      if ws.any fun w => !(F32.isFinite w) then K.modelInput
      K.modOut fun o => { o with invHealth := o.invHealth ++ [(v, finiteOr0 (ws.getD 0 0), finiteOr0 (ws.getD 1 0), clampLife (wordAt b 8))] }

/-! ### RECORD (R340, R341, R343) -/

def f10000 (w : Word) : Int := floorFar (F32.mul (F32.ofNat 10000) w)
/-- An unsigned field; a value no rule fits to 16 bits is free (log 13). -/
def K.freeHalf : K Half := do return half ((← K.free : Nat) : Int)
def K.u16 (i : Int) : K Half := do
  if 0 ≤ i && i ≤ 65535 then return half i else K.freeHalf
/-- TJ_NOW in 0.1 °C; of a NaN, a free value (log 13). -/
def K.tjField (w : Word) : K Half := if F32.isNaN w then K.freeHalf else pure (floorS w 10)
def capField (w : Word) : K Half := K.u16 (f10000 w)
def esrField (w : Word) : K Half := K.u16 (min 65534 (floorFar (F32.mul f1000 w)))

/-- The first entry with the best value, earlier entries winning ties. -/
def bestBy (better : Word → Word → Bool) (l : List (Nat × Word)) : Option (Nat × Word) :=
  l.foldl (fun b x => match b with
    | none => some x
    | some y => if better x.2 y.2 then some x else some y) none

def HealthVals.none_ : HealthVals :=
  { healthMin := ffff, healthSwitch := 0xFF#8, lifeMin := 0xFF#8, tjMax := 0x8000#16, tjSwitch := 0xFF#8, capMin := ffff, esrMax := ffff }

/-- The health values of the record. -/
def K.healthVals (sc : ScribeCfg) (o : ModelOut) : K HealthVals := do
  let hs := if sc.health then bestBy F32.lt (o.swHealth.map fun h => (h.1, h.2.1)) else none
  let lives := o.swHealth.map (·.2.2.2.2) ++ o.invHealth.map (·.2.2.2)
  let tj := if sc.therm then bestBy F32.gt o.tjNow else none
  let cap := if sc.health then bestBy F32.lt (o.invHealth.map fun v => (v.1, v.2.1)) else none
  let esr := if sc.health then bestBy F32.gt (o.invHealth.map fun v => (v.1, v.2.2.1)) else none
  let capF ← match cap with
    | some v => capField v.2
    | none => pure ffff
  let esrF ← match esr with
    | some v => esrField v.2
    | none => pure ffff
  let tjF ← match tj with
    | some t => K.tjField t.2
    | none => pure 0x8000#16
  return { healthMin := hs.elim ffff fun h => half (f10000 h.2), healthSwitch := hs.elim 0xFF#8 fun h => BitVec.ofNat 8 h.1,
           lifeMin := if sc.health && !lives.isEmpty then BitVec.ofNat 8 (lives.foldl min 7) else 0xFF#8,
           tjMax := tjF, tjSwitch := tj.elim 0xFF#8 fun t => BitVec.ofNat 8 t.1,
           capMin := capF, esrMax := esrF }

def Half.le (h : Half) : List Byte := leBytes 2 h.toNat

/-- R339: the health entries. -/
def K.healthEntries (o : ModelOut) : K (List (List Byte)) := do
  let mut out := []
  for (s, h, von, rth, life) in o.swHealth do
    let tj ← match assoc o.tjNow s with
      | some t => K.tjField t
      | none => K.freeHalf
    let der ← match assoc o.switchDer s with
      | some d => pure (half (f10000 d))
      | none => K.freeHalf
    out := out ++ [[0x00#8, BitVec.ofNat 8 s, BitVec.ofNat 8 life,
        BitVec.ofNat 8 (b2n (o.tjOverSw.contains s) + 2 * b2n (o.noSample.contains s))] ++ Half.le (half (f10000 h)) ++ Half.le (floorS von 10000)
      ++ Half.le (half (f10000 rth)) ++ Half.le tj ++ Half.le der ++ [0x00#8, 0x00#8]]
  for (v, cap, esr, life) in o.invHealth do
    let cf ← capField cap
    let ef ← esrField esr
    out := out ++ [[0x01#8, BitVec.ofNat 8 v, BitVec.ofNat 8 life, 0x00#8] ++ Half.le cf ++ Half.le ef ++ List.replicate 8 0x00#8]
  return out

def f65535 : Word := F32.ofRat false 65535 100
/-- R343: one sector of the free-space section. -/
def freeField (cov : Bool) (r : Word) : Half :=
  if !cov then ffff
  else
    let r := rangeOf r
    if F32.le f65535 r then ffff else half (clampInt 0 65535 (floorFar (F32.mul (F32.ofNat 100) r)))

def torqueFields (sc : ScribeCfg) (o : ModelOut) : List Half :=
  (List.range 8).map fun i =>
    if i < sc.motors then
      let kin := F32.floorInt (o.kinTorque.getD i 0)
      let th := F32.floorInt (F32.mul ((sc.motor[i]?).elim 0 (·.tqMax)) (o.derates.getD i 0))
      if sc.kin && sc.therm then half (min kin th) else if sc.kin then half kin else if sc.therm then half th else ffff
    else ffff

/-- RECORD: the MAIN record and the RESULT sections. -/
def K.record (e : ModelEntry) : K Unit := do
  let s ← get
  let c := s.c
  match c.img.scribe with
  | none => pure ()
  | some sc =>
    let hd ← K.readInk e.core e.a 64
    let n := field hd 0 4
    if n > 64 then K.modelInput
    let det ← K.readInk e.core (e.a + 64) (32 * min n 64)
    let o := (← K.chan).scribe.out
    let hv ← K.healthVals sc o
    let hes ← K.healthEntries o
    let saf := (c.rings.filter fun r => r.safety).foldl (fun (b : Option Ring) r => match b with
      | none => some r
      | some x => if r.num < x.num then some r else some x) none
    let rec_ : EnvRec :=
      { k := c.tick.k, inputTag := (saf.bind (·.tagClosed)).getD 0, fromMargin := false, channel := s.m, stop := (sc.kin && o.stopKin) || (sc.therm && o.stopTherm),
        kin := sc.kin, therm := sc.therm, healthOld := false, tjOver := sc.therm && o.tjOver, motors := sc.motors, doubts := 0,
        vFwd := if sc.kin then o.vFwd else ffff, vRev := if sc.kin then o.vRev else ffff,
        aLim := if sc.kin then o.aLim else 0x7FFF#16, dFwd := if sc.kin then (o.dFwd.map (·.1)).getD ffff else ffff, dRev := if sc.kin then (o.dFwd.map (·.2)).getD ffff else ffff,
        coverFirst := sc.coverFirst, coverLast := sc.coverLast, torque := torqueFields sc o,
        derate := (List.range 8).map fun i => if sc.therm && i < sc.motors then half (f10000 (o.derates.getD i 0)) else 10000#16,
        healthMin := hv.healthMin, healthSwitch := hv.healthSwitch, lifeMin := hv.lifeMin, tjMax := hv.tjMax,
        tjSwitch := hv.tjSwitch, capMin := hv.capMin, esrMax := hv.esrMax }
    let res : ResultRec :=
      { k := c.tick.k, rstate := 0, detections := some (chunks 32 (min n 64) det),
        free := o.free.map fun rr => (rr.zipIdx).map fun (r, i) => freeField (covered sc.coverFirst sc.coverLast i) r,
        health := if sc.health then some hes else none }
    K.mod fun c => { c with duct := { c.duct with main := some rec_, result := some res } }

/-! ### Payload layouts (R103, R104, R340) -/

/-- The 128-byte envelope record (R340). -/
def EnvRec.bytes (e : EnvRec) : List Byte :=
  let flags := b2n e.stop + 2 * b2n e.kin + 4 * b2n e.therm + 8 * b2n e.healthOld + 16 * b2n e.tjOver
  leBytes 8 e.k ++ wordsBytes [e.inputTag]
    ++ [BitVec.ofNat 8 (b2n e.fromMargin), BitVec.ofNat 8 e.channel.val, BitVec.ofNat 8 flags, BitVec.ofNat 8 e.motors]
    ++ wordsBytes [e.doubts] ++ [e.vFwd, e.vRev, e.aLim, e.dFwd, e.dRev].flatMap Half.le ++ leBytes 2 e.coverFirst ++ leBytes 2 e.coverLast
    ++ [0x00#8, 0x00#8] ++ e.torque.flatMap Half.le ++ e.derate.flatMap Half.le ++ Half.le e.healthMin ++ [e.healthSwitch, e.lifeMin]
    ++ Half.le e.tjMax ++ [e.tjSwitch, 0x00#8] ++ Half.le e.capMin ++ Half.le e.esrMax ++ List.replicate 48 0x00#8
/-- A section of a RESULT: its 16-byte header, then its contents. -/
def resultSection (stype count : Nat) (body : List Byte) : List Byte :=
  leBytes 4 stype ++ leBytes 4 count ++ leBytes 4 (16 + body.length) ++ leBytes 4 0 ++ body
/-- A RESULT payload (R104). -/
def ResultRec.bytes (r : ResultRec) : List Byte :=
  let secs := (r.detections.elim [] fun l => [resultSection 1 l.length (l.flatMap id)])
    ++ (r.free.elim [] fun l => [resultSection 2 l.length (l.flatMap Half.le)])
    ++ (r.health.elim [] fun l => [resultSection 3 l.length (l.flatMap id)])
  leBytes 8 r.k ++ [BitVec.ofNat 8 r.rstate, BitVec.ofNat 8 secs.length] ++ List.replicate 54 0x00#8 ++ secs.flatMap id

/-- The entries of a SCRIBE stroke before RECORD, in list order (R310). -/
def K.models (rs : List Range) (parm : List Byte) : K Unit :=
  (modelEntries parm).forM fun e => match e.model with
    | 0 => K.kinematic rs e
    | 1 => K.thermal
    | 2 => K.health e
    | _ => pure ()

/-! ### Load check of SCRIBE strokes and the SCRIBE section (R309 to R314, R331) -/

/-- R310: the cost of one entry; `slots` is S. -/
def modelCost (sc : ScribeCfg) (slots : Nat) (e : ModelEntry) : Nat :=
  let en := sc.switches.filter (·.enabled)
  match e.model with
  | 0 => 20000 + 40 * ((List.range 1440).filter (covered sc.coverFirst sc.coverLast)).length + 400 * 64 + 500 * sc.motors
  | 1 => 10000 + 6 * slots + (en.map fun r => match sc.classes[r.cls]? with
      | some k => 32 * k.stages * k.stages + 4 * (k.stages + 2) * k.hsteps
      | none => 0).foldl (· + ·) 0
  | 2 => 5000 + 100 * en.length + 200 * sc.inverters
  | _ => 20000

/-- One entry's form and inputs, which lie in declared ranges that the stroke may read (R308, R309). `sup` is the SUPPRESS entry
that makes a record; a record that none makes is taken at its greatest length (log 13). -/
def modelEntryOk (sup : Nat → Nat → Option SupOp) (rs : List Range) (b : List Byte) : Bool :=
  let e := modelEntry b
  let inR := rangeHas rs 0 e.core false
  zeroAt b 2 2 && zeroAt b 22 10 && decide (e.core < 4) &&
  (match e.model with
   | 0 =>
     let o := sup e.core e.b
     inR e.a 5760 && e.e % 4 == 0 && (e.b == 0xFFFFFFFF || (decide (12 ≤ e.e) && inR e.b (32 + 8 * (o.map (·.keep)).getD 64)
       && inR e.c (((o.map (·.ncand)).getD 1 - 1) * e.e + 12)))
   | 1 => e.core == 0 && zeroAt b 4 18
   | 2 => inR e.a 768 && inR e.b 64 && zeroAt b 12 10
   | 3 => inR e.a (64 + 32 * 64) && zeroAt b 8 14
   | _ => false)

def scribeStrokeOk (sup : Nat → Nat → Option SupOp) (rs : List Range) (parm : List Byte) : Bool :=
  let n := byteAt parm 0
  decide (1 ≤ n) && decide (n ≤ 4) && zeroAt parm 1 15 && decide (16 + 32 * n ≤ parm.length) &&
  (chunks 32 n (parm.drop 16)).all (modelEntryOk sup rs) &&
  ((modelEntries parm).dropLast.all (·.model != 3))

/-- R310's bound. -/
def scribeBound (sc : ScribeCfg) (slots : Nat) (parm : List Byte) : Nat :=
  400 + ((modelEntries parm).map (modelCost sc slots)).foldl (· + ·) 0

def inF (lo hi : Word) (x : Word) : Bool := F32.le lo x && F32.le x hi
def fr (n d : Nat) : Word := F32.ofRat false n d
/-- R312. -/
def motionOk (m : List Word) : Bool :=
  let g := fun i => m.getD i 0
  inF 0 (fr 5 1) (g 0) && inF 0 (fr 50 1) (g 1) && inF (fr 1 10) (fr 10 1) (g 2) && inF 0 (fr 10 1) (g 3) && inF 0 (fr 20 1) (g 4)
    && inF 0 (fr 20 1) (g 5) && inF (fr 1 1) (fr 655 1) (g 6) && inF (fr 1 10) (fr 65 1) (g 7) && inF (fr 1 100) (fr 10 1) (g 8)
    && inF (fr 1 100) (fr 10 1) (g 9) && inF (fr 5 100) (fr 10 1) (g 10) && inF 0 (fr 5 1) (g 11) && F32.lt 0 (g 12)
    && F32.isFinite (g 12) && F32.le (g 12) (g 13) && F32.isFinite (g 13)
def f16Fine (h : Nat) : Bool := let w := FFmt.f16.toF32 h; F32.isFinite w && F32.le 0 w
/-- R313. -/
def motorsOk (sc : ScribeCfg) : Bool :=
  let ms := sc.motor.take sc.motors
  (ms.all fun m => F32.lt 0 m.rWheel && F32.isFinite m.rWheel && F32.lt 0 m.gear && F32.isFinite m.gear && inF 0 F32.one m.share
    && inF 0 (fr 65534 1) m.tqMax)
    && (ms.isEmpty || F32.le (F32.abs (F32.sub (sumInOrder (ms.map (·.share))) F32.one)) (fr 1 1000))
/-- R331. -/
def classOk (k : ThermClass) : Bool :=
  decide (4 ≤ k.stages) && decide (k.stages ≤ 8) && decide (1 ≤ k.hsteps) && decide (k.hsteps ≤ 64) && F32.lt 0 k.horizon
    && F32.le k.horizon (fr 10 1) && F32.isFinite k.tjLimit && F32.isFinite k.tjTrip && F32.le k.tjLimit k.tjTrip && F32.le 0 k.rjc
    && F32.isFinite k.rjc && F32.isFinite k.eRef && F32.lt 0 k.iRef && F32.isFinite k.iRef && F32.lt 0 k.vRef && F32.isFinite k.vRef
    && F32.le 0 k.ntcMargin && F32.isFinite k.ntcMargin
/-- R314. -/
def scribeOk (sc : ScribeCfg) : Bool :=
  sc.rsvdOk && decide (sc.motors ≤ 8) && decide (sc.coverFirst ≤ 1439) && decide (sc.coverLast ≤ 1439) && decide (sc.inverters ≤ 4)
    && motionOk sc.motion && sc.classR.all f16Fine && sc.classV.all f16Fine && motorsOk sc && sc.classes.all classOk
    && sc.switches.all fun r => !r.enabled || (decide (r.inverter < sc.inverters) && (sc.classes[r.cls]?).isSome && decide (r.motor < sc.motors))

end Sys2Proof.Machine
end

