-- ==== Sys2Proof/Machine/Margin.lean ====
section
/-! DEFINITION. The Margin unit, the Proof and the selector's records (chapter "Safety mechanisms", R345 to R367): what
Margin reads at ingest, what it closes at a boundary, its record, and the comparison with Main. -/
namespace Sys2Proof.Machine

/-! ### The safety record (R353) -/

def SafetyCfg.v (s : SafetyCfg) (i : Nat) : Word := s.vals.getD i 0
def SafetyCfg.zLow (s : SafetyCfg) : Word := s.v 0
def SafetyCfg.zHigh (s : SafetyCfg) : Word := s.v 1
def SafetyCfg.rMin (s : SafetyCfg) : Word := s.v 2
def SafetyCfg.halfWidth (s : SafetyCfg) : Word := s.v 3
def SafetyCfg.lFront (s : SafetyCfg) : Word := s.v 4
def SafetyCfg.lRear (s : SafetyCfg) : Word := s.v 5
def SafetyCfg.sMax (s : SafetyCfg) : Word := s.v 6
def SafetyCfg.tReact (s : SafetyCfg) : Word := s.v 7
def SafetyCfg.aBrake (s : SafetyCfg) : Word := s.v 8
def SafetyCfg.dMargin (s : SafetyCfg) : Word := s.v 9
def SafetyCfg.vMax (s : SafetyCfg) : Word := s.v 10
def SafetyCfg.aMax (s : SafetyCfg) : Word := s.v 11
def SafetyCfg.tauAcc (s : SafetyCfg) : Word := s.v 12
def SafetyCfg.vTol (s : SafetyCfg) : Word := s.v 13
def SafetyCfg.proofTol (s : SafetyCfg) : Word := s.v 14
def SafetyCfg.zMin (s : SafetyCfg) : Word := s.v 15
def SafetyCfg.tolT (s : SafetyCfg) : Word := s.v 16
def SafetyCfg.k2 (s : SafetyCfg) : Word := s.v 17
def SafetyCfg.k1 (s : SafetyCfg) : Word := s.v 18
def SafetyCfg.rTh (s : SafetyCfg) : Word := s.v 19
def SafetyCfg.tjLimit (s : SafetyCfg) : Word := s.v 20
def SafetyCfg.ntcTrip (s : SafetyCfg) : Word := s.v 21
def SafetyCfg.exAtol (s : SafetyCfg) : Word := s.v 22
def SafetyCfg.exRtol (s : SafetyCfg) : Word := s.v 23
def SafetyCfg.exQstep (s : SafetyCfg) : Word := s.v 24
/-- H: 0 selects 3. -/
def SafetyCfg.h (s : SafetyCfg) : Nat := if s.proofH == 0 then 3 else s.proofH

/-- R353: ranges of the record's values. -/
def safetyRanges : List (Word × Word) :=
  let i := fun (n : Int) => F32.ofInt n
  [(i (-10), i 20), (i (-10), i 20), (0, i 20), (fr 1 10, i 10), (0, i 20), (0, i 20), (i 1, i 655), (0, i 5), (fr 1 100, i 10), (0, i 50),
   (fr 1 10, i 65), (fr 1 100, i 10), (fr 5 100, i 10), (0, i 5), (0, i 10), (0, i 100), (0, i 50), (0, 0x7F7FFFFF#32), (0, 0x7F7FFFFF#32),
   (1#32, 0x7F7FFFFF#32), (i (-40), i 250), (i (-40), i 250), (0, 0x7F7FFFFF#32), (0, i 1), (1#32, 0x7F7FFFFF#32)]
def safetyOk (s : SafetyCfg) (kin therm : Bool) (rings : List Ring) : Bool :=
  s.rsvdOk && decide (s.scanners ≤ 16) && decide (1 ≤ s.proofE) && decide (1 ≤ s.proofW) && decide (s.testPoints ≤ 4096)
    && decide (s.testRows ≤ 64) && decide (s.testSamples ≤ 64) && F32.lt s.zLow s.zHigh
    && ((safetyRanges.zipIdx).all fun (r, i) => inF r.1 r.2 (s.v i)) && (!s.rangeMode || kin) && (!s.powerMode || therm)
    && rings.all fun r => !(r.enabled && !r.out && r.safety && r.opmask.getLsbD 1) || decide (r.source < s.scanners)

/-! ### Reading at ingest (R22, R355, R357, R359) -/

/-- Whether Margin reads packets of opcode `op` (1 SWEEP, 3 TELEM) of a ring: SWEEP in range mode, TELEM in power-stage mode (R355, R357);
with MODE 0 it has no input (R358). -/
def Channel.marginReads (c : Channel) (op : Nat) (r : Ring) : Bool :=
  r.enabled && !r.out && r.safety && r.opmask.getLsbD op && c.img.safety.any fun s => (op == 1 && s.rangeMode) || (op == 3 && s.powerMode)
/-- Rings that Margin reads. -/
def Channel.marginRing (c : Channel) (r : Ring) : Bool := c.marginReads 1 r || c.marginReads 3 r

def minOpt (a : Option Word) (b : Word) : Option Word :=
  match a with
  | none => some b
  | some x => some (if F32.lt b x then b else x)

/-- Metres from millimetres. -/
def toM (w : Word) : Word := F32.div w f1000

/-- The sector of a point: ⌊bearing / 0.25°⌋ (R355). -/
def sectorOf (x y : Word) : Nat :=
  let (ix, iy) := commonInts x y
  if ix == 0 && iy == 0 then 0 else min 1439 (Fix.angle ix iy * 1440 / (2 * Fix.pi))

/-- One point record of a scanner (R355). -/
def rangePoint (s : SafetyCfg) (pose : PoseM) (set : RangeSet) (rec_ : List Byte) : RangeSet :=
  let fl := byteAt rec_ 7
  if bitOf fl 0 || bitOf fl 1 then set else
  let p := fun a => toM (pose.place (pointMm rec_ 0) (pointMm rec_ 2) (pointMm rec_ 4) a)
  let x := p 0
  let y := p 1
  let z := p 2
  let rho := F32.sqrt (F32.add (F32.mul x x) (F32.mul y y))
  if F32.le s.zLow z && F32.le z s.zHigh && F32.le s.rMin rho then
    let i := sectorOf x y
    let inLane := F32.le (F32.abs y) s.halfWidth
    { sectors := assocSet set.sectors i ((minOpt (assoc set.sectors i) rho).getD rho),
      f := if F32.lt 0 x && inLane then minOpt set.f (F32.sub x s.lFront) else set.f,
      b := if F32.lt x 0 && inLane then minOpt set.b (F32.sub (F32.neg x) s.lRear) else set.b }
  else set

def marginPose (s : SafetyCfg) (scanner : Nat) : PoseM := poseOf (s.poses.getD scanner identityPose)

/-- R357: a sample's current and NTC value join the sums of its switch. -/
def powerSample (l : List SwPower) (b : List Byte) (e : Int) : List SwPower :=
  let s := byteAt b 4
  let i := fcur b
  let sq := F32.mul i i
  if l.any (·.switch == s) then
    l.map fun p => if p.switch == s then
      { p with sumSq := F32.add p.sumSq sq, n := p.n + 1, ntc := if p.lastE ≤ e then fntc b else p.ntc, lastE := max p.lastE e } else p
  else l ++ [{ switch := s, sumSq := sq, n := 1, ntc := fntc b, lastE := e }]

/-- FROZEN_INPUT of the open frame (R359). -/
def Hw.frozen (m : Ch) (ring kind : Nat) (hw : Hw) : Hw :=
  (hw.modCh m fun c => { c.doubtInput .frozenInput with mrg := { c.mrg with frozenOpen := true } }).raiseIn m .doubt 0x96 (initMargin m)
    (some (ring18 m ring)) (some kind)

/-- Margin reads the points of an accepted SWEEP packet. -/
def Channel.marginPoints (scanner : Nat) (recs : List (List Byte)) (c : Channel) : Channel :=
  match c.img.safety with
  | some s =>
    if s.rangeMode then
      { c with mrg := { c.mrg with openSet := recs.foldl (rangePoint s (marginPose s scanner)) c.mrg.openSet } }
    else c
  | none => c

/-- Times of the non-test samples: whether one is not later than the previous of its switch, and the times kept. -/
def sampleTimes (cap : Int) (recs : List (List Byte)) (last : List (Nat × Int)) : Bool × List (Nat × Int) :=
  recs.foldl (fun (acc : Bool × List (Nat × Int)) b =>
    if bitOf (byteAt b 5) 1 then acc else
    let s := byteAt b 4
    let e := sampleTime cap (field b 0 4)
    (acc.1 || (match assoc acc.2 s with
      | some p => decide (e ≤ p)
      | none => false), assocSet acc.2 s e)) (false, last)

/-- Margin reads the samples of an accepted TELEM packet. -/
def Channel.marginSamples (cap : Int) (recs : List (List Byte)) (c : Channel) : Channel :=
  let power := match c.img.safety with
    | some s => if s.powerMode then
        recs.foldl (fun l b => if bitOf (byteAt b 5) 1 then l else powerSample l b (sampleTime cap (field b 0 4))) c.mrg.openPower
      else c.mrg.openPower
    | none => c.mrg.openPower
  { c with mrg := { c.mrg with openPower := power, lastTime := (sampleTimes cap recs c.mrg.lastTime).2 } }

/-- The message state of the ring after a packet's records, and after its EOM (R359). -/
def MsgState.packet (s : MsgState) (tag : Word) (cap sweep : Nat) (bytes : List Byte) : MsgState :=
  match s.openTag with
  | none => { s with openTag := some tag, openCrc := crc32Run crc32Init bytes, openCap := cap, openSweep := sweep }
  | some _ => { s with openCrc := crc32Run s.openCrc bytes }
def MsgState.close (s : MsgState) (sweep : Bool) : MsgState :=
  { s with openTag := none, lastCrc := some (~~~ s.openCrc), lastCap := some s.openCap,
           lastSweep := if sweep then some s.openSweep else s.lastSweep }

/-- Margin reads an accepted SWEEP (`sweep` = true) or TELEM packet. -/
def Hw.marginPacket (m : Ch) (r : Ring) (sweep : Bool) (sweepId : Nat) (tag : Word) (cap : Int) (eom : Bool) (recs : List (List Byte))
    (hw : Hw) : Hw :=
  if !((hw.ch m).marginReads (if sweep then 1 else 3) r) then hw else
  let s0 := r.msg
  let first := s0.openTag.isNone
  let s1 := s0.packet tag cap.toNat sweepId (recs.flatMap id)
  let s2 := if eom then s1.close sweep else s1
  let hw := hw.modCh m (Channel.modRing r.num fun r => { r with msg := s2 })
  let hw := if sweep && first && s0.lastSweep == some sweepId then hw.frozen m r.num 1 else hw
  let hw := if first && (match s0.lastCap with
    | some c => decide (cap.toNat ≤ c)
    | none => false) then hw.frozen m r.num 2 else hw
  let hw := if !sweep && (sampleTimes cap recs (hw.ch m).mrg.lastTime).1 then hw.frozen m r.num 2 else hw
  let hw := hw.modCh m fun c => if sweep then c.marginPoints r.source recs else c.marginSamples cap recs
  if eom && s0.lastCrc == some (~~~ s1.openCrc) then hw.frozen m r.num 0 else hw

/-! ### Closing a frame (R356, R357, R359) -/

/-- R357: the derate and NTC value of a switch with samples. -/
def switchMargin (s : SafetyCfg) (p : SwPower) : SwMargin :=
  let i := F32.sqrt (F32.div p.sumSq (F32.ofNat p.n))
  let pm := F32.add (F32.mul s.k2 (F32.mul i i)) (F32.mul s.k1 i)
  let rise := F32.mul s.rTh pm
  { switch := p.switch, ntc := p.ntc,
    d := if F32.le (F32.add p.ntc rise) s.tjLimit then F32.one else F32.clamp (F32.div (F32.sub s.tjLimit p.ntc) rise) 0 F32.one }

def enabledSwitch (c : Channel) (s : Nat) : Bool := (c.img.scribe.bind fun sc => sc.switches[s]?).any (·.enabled)

/-- At T(k) Margin closes the set of frame k. -/
def Channel.marginClose (c : Channel) : Channel :=
  let fresh := match c.img.safety with
    | some s => (c.mrg.openPower.filter fun p => enabledSwitch c p.switch).map (switchMargin s)
    | none => []
  { c with mrg := { c.mrg with
      closedSet := c.mrg.openSet, openSet := .reset, openPower := [], frozenClosed := c.mrg.frozenOpen, frozenOpen := false,
      power := c.mrg.power.filter (fun p => !(fresh.any (·.switch == p.switch))) ++ fresh } }

/-- Rings that Margin reads and that completed no message in the frame just closed. -/
def Channel.absentRings (c : Channel) : List Nat := (c.rings.filter fun r => c.marginRing r && r.msgsOpen == 0).map (·.num)
/-- R18: the frame being processed carries FROZEN_INPUT, and Margin's record of it STOP, also when the link comes back
before the frame is published. -/
def Channel.inputLost (c : Channel) : Channel := { c.doubt .frozenInput with mrg := { c.mrg with frozenClosed := true } }
/-- FROZEN_INPUT for absent input of the frame just closed (R359). -/
def Hw.marginAbsent (m : Ch) (absent : List Nat) (hw : Hw) : Hw :=
  absent.foldl (fun h r =>
    (h.modCh m Channel.inputLost).raise m .doubt 0x96 (initMargin m)
      (some (ring18 m r)) (some 3)) hw

/-- R18 is in force for the channel. -/
def Hw.linkAbsent (m : Ch) (hw : Hw) : Bool := hw.dev.link.down || hw.dev.link.owing.any (·.1 == m)

/-! ### Margin's record (R356 to R358) -/

structure RangeLimits where
  dF : Word
  dR : Word
  vF : Word
  vR : Word
  aLim : Word
  stop : Bool

def marginSpeed (s : SafetyCfg) (t d : Word) : Word :=
  if F32.le d s.dMargin then 0 else F32.min (stopSpeed t s.aBrake d s.dMargin) s.vMax
/-- V_NOW latched for the frame, when MACHINE_STATE is not in force. -/
def Channel.vNow (c : Channel) : Option Word :=
  if c.doubts .machineState then none else c.cal.ms.map fun v => v.getD 4 0
def rangeLimits (c : Channel) (s : SafetyCfg) : RangeLimits :=
  let t := c.img.reaction s.tReact
  let dF := F32.clamp (c.mrg.closedSet.f.getD F32.pinf) 0 (F32.sub s.sMax s.lFront)
  let dR := F32.clamp (c.mrg.closedSet.b.getD F32.pinf) 0 (F32.sub s.sMax s.lRear)
  let vF := marginSpeed s t dF
  let vR := marginSpeed s t dR
  match c.vNow with
  | some v =>
    let vd := if F32.le 0 v then vF else vR
    { dF := dF, dR := dR, vF := vF, vR := vR, aLim := accelLimit s.aBrake s.aMax vd v s.tauAcc, stop := F32.lt (F32.add vd s.vTol) (F32.abs v) }
  | none => { dF := dF, dR := dR, vF := vF, vR := vR, aLim := 0, stop := false }

/-- The derate of motor i: the least over its enabled switches, 0 for one never sampled. -/
def marginDerate (c : Channel) (i : Nat) : Word :=
  match c.img.scribe with
  | none => F32.one
  | some sc => ((sc.switches.zipIdx).filterMap fun (r, s) =>
      if r.enabled && r.motor == i then some (((c.mrg.power.find? (·.switch == s)).map (·.d)).getD 0) else none).foldl F32.min F32.one

/-- Margin's record for the frame being processed; `forceStop` for a boundary that Margin or a stop makes. -/
def Hw.marginRecord (m : Ch) (forceStop : Bool) (hw : Hw) : EnvRec :=
  let c := hw.ch m
  let sc := c.img.scribe
  let motors := (sc.map (·.motors)).getD 0
  let hv := c.scribe.mainHealth.getD HealthVals.none_
  let frozen := c.mrg.frozenClosed || hw.linkAbsent m
  let range := c.img.safety.any (·.rangeMode)
  let power := c.img.safety.any (·.powerMode)
  let lim := (c.img.safety.filter (·.rangeMode)).map (rangeLimits c)
  let trip := match c.img.safety with
    | some s => s.powerMode && c.mrg.power.any fun p => F32.lt s.ntcTrip p.ntc
    | none => false
  let mode0 := !range && !power
  let der := fun (i : Nat) => if power then marginDerate c i else F32.one
  let tq := fun (i : Nat) => F32.ofNat (((c.img.safety.map (·.tqM)).getD []).getD i 0)
  let open_ : Half := if mode0 then 0 else ffff
  { k := c.tick.k, inputTag := ((c.rings.filter (·.safety)).foldl (fun (b : Option Ring) r => match b with
      | none => some r
      | some x => if r.num < x.num then some r else some x) none |>.bind (·.tagClosed)).getD 0,
    fromMargin := true, channel := m, stop := forceStop || mode0 || frozen || trip || lim.any (·.stop), kin := sc.any (·.kin),
    therm := sc.any (·.therm), healthOld := true, tjOver := false, motors := motors, doubts := c.doubtP,
    vFwd := lim.elim open_ fun l => speedField l.vF, vRev := lim.elim open_ fun l => speedField l.vR,
    aLim := lim.elim (if mode0 then 0 else 0x7FFF#16) fun l => floorS l.aLim 1000,
    dFwd := lim.elim ffff fun l => floorU l.dF 100, dRev := lim.elim ffff fun l => floorU l.dR 100,
    coverFirst := (sc.map (·.coverFirst)).getD 0, coverLast := (sc.map (·.coverLast)).getD 0,
    torque := (List.range 8).map fun i => if i < motors then (if mode0 then 0 else half (F32.floorInt (F32.mul (tq i) (der i)))) else ffff,
    derate := (List.range 8).map fun i => if power && i < motors then half (f10000 (der i)) else 10000#16,
    healthMin := hv.healthMin, healthSwitch := hv.healthSwitch, lifeMin := hv.lifeMin, tjMax := hv.tjMax, tjSwitch := hv.tjSwitch,
    capMin := hv.capMin, esrMax := hv.esrMax }

/-! ### The Proof (R360 to R364) -/

/-- R360: covered sectors that disagree. -/
def disSectors (c : Channel) (s : SafetyCfg) : Nat :=
  match c.img.scribe, c.scribe.out.free with
  | some sc, some rr =>
    let t := c.img.reaction s.tReact
    let v := F32.abs (c.vNow.getD s.vMax)
    let z := F32.add (F32.mul F32.two (F32.add (F32.mul v t) (F32.div (F32.mul v v) (F32.mul F32.two s.aBrake)))) s.zMin
    ((rr.zipIdx).filter fun (r, i) => covered sc.coverFirst sc.coverLast i &&
      (match assoc c.mrg.closedSet.sectors i with
       | some rm => F32.le rm z && F32.lt (F32.add rm s.proofTol) (rangeOf r)
       | none => false)).length
  | _, _ => 0
/-- R361: enabled switches that disagree. -/
def disSwitches (c : Channel) (s : SafetyCfg) : Nat :=
  (c.scribe.out.tjNow.filter fun (sw, tj) => match c.mrg.power.find? (·.switch == sw) with
    | some p => F32.lt tj (F32.sub p.ntc s.tolT)
    | none => false).length

/-- Events of the last W frames, the frame in progress included (R364). -/
def Channel.eventsIn (c : Channel) : Nat :=
  let w := (c.img.safety.map (·.proofW)).getD 1
  (c.mrg.events.filter fun e => decide (c.tick.k < e + w)).length

/-- RECOVERING while A is below H (R363). -/
def Channel.recovering (c : Channel) : Bool := decide (c.mrg.a < (c.img.safety.map (·.h)).getD 3)

/-- The Proof runs when RECORD has assembled the MAIN record. -/
def K.proof : K Unit := do
  let st ← get
  let c := st.c
  match c.img.safety with
  | none => K.mod fun c => { c with duct := { c.duct with verdict := some true } }
  | some s =>
    let nr := if s.rangeMode then disSectors c s else 0
    let np := if s.powerMode then disSwitches c s else 0
    let dis := decide (s.proofK < nr) || decide (0 < np)
    K.mod fun c => { c with duct := { c.duct with verdict := some (!dis) }, mrg := { c.mrg with sectorsDis := nr + np } }
    if dis then
      K.mod fun c => { (c.doubt .proof).bump .proofEvents 1 with
        mrg := { c.mrg with a := 0, events := (c.mrg.events.filter fun e => decide (c.tick.k < e + s.proofW)) ++ [c.tick.k] } }
      K.err .doubt 0x94 (initMargin st.m) (some (nr + np)) (some s.proofK)
      let c ← K.chan
      if s.proofE < c.eventsIn && !c.mrg.latent then
        K.mod fun c => { c.doubt .latentFault with mrg := { c.mrg with latent := true }, fresh := none :: c.fresh }
        K.err .doubt 0x95 (initMargin st.m) (some c.eventsIn) (some s.proofE)
    else
      K.mod fun c =>
        let c := { c with mrg := { c.mrg with a := min (c.mrg.a + 1) 255 } }
        if c.recovering then c.doubt .recovering else c

/-! ### Exemplar comparison (R365 to R367) -/

/-- q = floor(o/EX_QSTEP + 0.5), exact, saturated to 32 bits: (2o + EX_QSTEP)/(2·EX_QSTEP) as integers of one unit. EX_QSTEP is above
0 (R353). Of a NaN no value is stated (log 13). -/
def exQuant (s : SafetyCfg) (o : Word) : Int :=
  match F32.dec o, F32.dec s.exQstep with
  | .nan, _ => (Config.quantNaN o).toInt
  | .inf neg, _ => if neg then -2147483648 else 2147483647
  | .fin no mo eo, .fin _ mq eq =>
    let u := min eo eq
    let q := FVal.alignInt false mq eq u
    clampInt (-2147483648) 2147483647 ((2 * FVal.alignInt no mo eo u + q) / (2 * q))
  | .fin _ _ _, _ => 0
def exCrc (s : SafetyCfg) (os : List Word) : Word := crc32 (os.flatMap fun o => leBytes 4 (BitVec.ofInt 32 (exQuant s o)).toNat)
/-- An output element as FP32: INT32 outputs are converted (R365). -/
def exVal (outFmt : Nat) (o : Word) : Word := if outFmt == 6 then F32.ofInt (signed 32 o.toNat) else o
/-- EX_ATOL + EX_RTOL·|f|, exact. -/
def exTolerance (s : SafetyCfg) (f : Word) : FVal := FVal.add (F32.dec s.exAtol) (FVal.mul (F32.dec s.exRtol) (F32.dec f).abs)
/-- Elements out of tolerance, judged exactly, so that an output within it has the reference's q (R366; log 13). -/
def exOut (s : SafetyCfg) (os fs : List Word) : Nat :=
  ((os.zip fs).filter fun (o, f) => !(FVal.le (FVal.add (F32.dec o) (F32.dec f).neg).abs (exTolerance s f))).length
/-- Whether an odd multiple of q/2 lies in [lo, hi]. -/
def oddHalfIn (lo hi q : Int) : Bool := decide (-((-(2 * lo + q)) / (2 * q)) ≤ (2 * hi + q) / (2 * q))
/-- R366: the tolerance interval of a reference holds a quantisation boundary, formed exactly as integers of one unit. A reference
that is not finite has no interval (log 13). -/
def exBoundary (s : SafetyCfg) (f : Word) : Bool :=
  match F32.dec f, F32.dec s.exAtol, F32.dec s.exRtol, F32.dec s.exQstep with
  | .fin nf mf ef, .fin _ ma ea, .fin _ mr er, .fin _ mq eq =>
    let u := min (min ef ea) (min (er + ef) eq)
    let x := FVal.alignInt nf mf ef u
    let t := FVal.alignInt false ma ea u + FVal.alignInt false (mr * mf) (er + ef) u
    oddHalfIn (x - t) (x + t) (FVal.alignInt false mq eq u)
  | _, _, _, _ => false
def exRefsOk (s : SafetyCfg) (fs : List Word) : Bool := !(fs.any (exBoundary s))

end Sys2Proof.Machine
end

