-- ==== Sys2Proof/Machine/Ductus.lean ====
section
/-! DEFINITION. The Ductus at run time (chapter "The tick and the Ductus"): issue and completion of strokes (R40 to R43),
the operating point of a frame (R46 to R50), the exemplar (R56 to R58, R365 to R367) and span power-down (R240 to R243).
A stroke's work is done whole at its issue; what a rule ties to its completion is done at completion (log 8). -/
namespace Sys2Proof.Machine

/-! ### Time within the frame (R31) -/

/-- Local ns since T(k). -/
def Channel.elapsed (c : Channel) : Nat := c.local - c.tick.tkLoc
/-- The earliest length of the frame, T_e − T(k), in thousandths of a ns. -/
def Image.earliest (i : Image) : Nat := if i.tickSrc == 0 then i.periodNs * 1000 else i.periodNs * (1000 - i.tickTol)
/-- Whether local time has reached T_e − 10 µs. -/
def Channel.pastRaise (c : Channel) : Bool := decide (c.img.earliest ≤ (c.elapsed + 10000) * 1000)

/-- The next instant after `loc` that (t − PHASE) divides by the period (R29). -/
def Image.nextDue (i : Image) (loc : Nat) : Nat :=
  let p := max i.periodNs 1
  loc + p - ((((loc : Int) - (i.phaseNs : Int)) % (p : Int)).toNat)

/-- R462: the conditions for RUN but the boundary itself; R429 for a channel FENCED before it ever ticked. -/
def Channel.runnable (c : Channel) : Bool := (c.st == .ready || (c.st == .fenced && !c.tick.ticking)) && c.hbSinceReady && c.resv.isSome && (c.img.tickSrc != 0 || c.ts.everLocked)
/-! ### Operating points (R46 to R50, R482) -/

/-- Core clock of a point in MHz (R48). -/
def pointMhz (p : Nat) : Nat := [600, 800, 1000, 1200, 1400, 1700, 2000, 2200].getD p 600
def Ductus.worst (d : Ductus) : Bracket := d.brackets.getD (d.nbrackets - 1) { pointsMax := 0, cellsMax := 0, point := 0, tailCyc := 0, tailFix := 0 }
def Ductus.bracketAt (d : Ductus) (b : Nat) : Bracket := d.brackets.getD b d.worst
/-- The point at which a frame begins: the worst bracket's, or bracket 0's without a decision stroke (R49). -/
def Ductus.startPoint (d : Ductus) : Nat := if d.decide == 0xFFFF then (d.bracketAt 0).point else d.worst.point
/-- R47. -/
def Ductus.bracketOf (d : Ductus) (points cells : Nat) (overflow : Bool) : Nat :=
  if overflow then d.nbrackets - 1
  else ((List.range d.nbrackets).find? fun b => Nat.ble points (d.bracketAt b).pointsMax && Nat.ble cells (d.bracketAt b).cellsMax).getD (d.nbrackets - 1)
/-- t + fix ns plus cyc cycles at a clock, plus the guard of 2%, within the earliest frame length (R49, R59). -/
def fitsWithin (early t cyc mhz : Nat) : Bool := decide ((t * mhz + cyc * 1000) * 50000 + early * mhz ≤ early * mhz * 50)

def fencedCore (c : Channel) (j : Nat) : Bool := c.fenced.contains j
/-- Cores whose exemplar is awaited and has not started (R57, R58). -/
def Channel.exUnstarted (c : Channel) : List Nat := [0, 1, 2, 3].filter fun j => c.duct.exem.getD j .idle == .idle && !(fencedCore c j)
/-- Cores whose exemplar has not completed. -/
def Channel.exMissing (c : Channel) : List Nat := [0, 1, 2, 3].filter fun j => c.duct.exem.getD j .idle != .done && !(fencedCore c j)
/-- S_b on a core: the CYC of the longest single stroke of the bracket. ELECTIVE strokes take no part in the fit (R49, R53). -/
def Ductus.longest (d : Ductus) (b j : Nat) : Nat :=
  ((d.strokes.filter fun s => s.kind != 12 && bitOf s.cores j).map fun s => (s.budget.getD b (0, 0)).1).foldl max 0

/-- R49: the point for the rest of the frame. -/
def choosePoint (c : Channel) (d : Ductus) (b : Nat) : Nat :=
  let br := d.bracketAt b
  let x := if c.exMissing.isEmpty then 0 else d.exCyc
  let ok := fun (p : Nat) =>
    let mhz := pointMhz p
    let a := if p == d.worst.point then 0 else 10000
    fitsWithin c.img.earliest (c.elapsed + br.tailFix + a) (br.tailCyc + x) mhz
      && (c.exUnstarted.all fun j => fitsWithin c.img.earliest d.exLatest (d.longest b j + d.exCyc) mhz)
  ((List.range br.point).find? ok).getD br.point

/-- A change of point begins: until it is done the cores run at the lower of the two (R50). -/
def Channel.changePoint (p : Nat) (c : Channel) : Channel :=
  if c.duct.point == p then c
  else { c with duct := { c.duct with changing := some (c.duct.point, p), point := min c.duct.point p } }
/-- The power manager settles the change in progress. -/
def Channel.settlePoint (c : Channel) : Channel :=
  match c.duct.changing with
  | some (_, p) => { c with duct := { c.duct with changing := none, point := p } }
  | none => c

/-! ### Units and issue (R40 to R44, R56 to R59) -/

/-- Units of a core: 5j + 0 arrays, 1 vector, 2 nibs, 3 selection, 4 transfer; 20 Scribe, 21 peer engine. -/
def unitsOf (kind cores : Nat) : List Nat :=
  let per := fun (us : List Nat) => (coresOf cores).flatMap fun j => us.map (5 * j + ·)
  match kind with
  | 0 | 8 => per [4]
  | 1 | 4 | 6 => per [2]
  | 2 => per [0]
  | 3 => per [1]
  | 5 => per [3]
  | 7 | 11 => [20]
  | 9 => [21]
  | 12 => per [1, 2]
  | _ => []
def Ductus.stroke (d : Ductus) (i : Nat) : Option Stroke := d.strokes[i]?
def flightUnits (d : Ductus) (f : Flight) : List Nat := ((d.stroke f.idx).map fun s => unitsOf s.kind s.cores).getD []
/-- Units in use: in-flight strokes, and every unit of a core whose exemplar runs. -/
def Channel.busyUnits (c : Channel) (d : Ductus) : List Nat :=
  c.duct.flight.flatMap (flightUnits d) ++ ([0, 1, 2, 3].filter fun j => c.duct.exem.getD j .idle == .running).flatMap fun j => (List.range 5).map (5 * j + ·)

def rangesConflict (a b : Range) : Bool :=
  a.space == b.space && (a.space == 1 || a.core == b.core) && (a.access != 0 || b.access != 0)
    && decide (a.base / 64 < b.base / 64 + b.len) && decide (b.base / 64 < a.base / 64 + a.len)
/-- A stroke's scoreboards: the cores it names, or core 0 (R43). -/
def boards (cores : Nat) : List Nat := if cores == 0 then [0] else coresOf cores
def sharesBoard (a b : Nat) : Bool := (boards a).any (boards b).contains
def hbmRange (addr n access : Nat) : Range := { space := 1, access := access, core := 0, len := (addr + n + 63) / 64 - addr / 64, base := addr / 64 * 64 }
/-- A host-side write that holds strokes: it applies, or belongs to a frame already closed (R237, R238). -/
def HostWrite.holds (k : Nat) (w : HostWrite) : Bool := w.applying || (w.also.isNone && decide (w.frame ≤ k))
/-- What it writes: its data, and a remote write's landing record (R417). -/
def HostWrite.ranges (w : HostWrite) : List Range := hbmRange w.addr w.bytes.length 1 :: w.also.toList.map fun a => hbmRange a 32 1
def Channel.heldByWrite (c : Channel) (rs : List Range) : Bool :=
  c.writes.any fun w => w.holds c.tick.k && w.ranges.any fun x => rs.any (rangesConflict x)

/-- A range of an in-flight stroke conflicts with the write (R236, R237). -/
def Channel.flightConflict (c : Channel) (w : HostWrite) : Bool :=
  c.duct.flight.any fun f => f.ranges.any fun r => w.ranges.any fun x => rangesConflict x r
def Channel.applying (c : Channel) : Nat := (c.writes.filter (·.applying)).length
/-- A held write is the first of its ring that waits. -/
def Channel.isNext (c : Channel) (w : HostWrite) : Bool :=
  !w.applying && !(c.writes.any fun v => v.ring == w.ring && !v.applying && decide (v.id < w.id))
/-- What holds a waiting write is counted: a conflicting stroke once for each write, and a full table (R237). -/
def Channel.judgeHolds (c : Channel) : Channel :=
  let hit := fun (w : HostWrite) => c.isNext w && !w.held && c.flightConflict w
  let n := (c.writes.filter hit).length
  let full := decide (16 ≤ c.applying) && c.writes.any c.isNext
  let c := { c with writes := c.writes.map fun w => if hit w then { w with held := true } else w }
  (if full then c.stick .holdFull else c).bump .memHolds n

/-- Worst-case time of a stroke in ns at the present point, rounded up (R37). -/
def Channel.worstTime (c : Channel) (s : Stroke) : Nat :=
  let b := s.budget.getD c.duct.bracket (0, 0)
  ceilDiv (b.1 * 1000) (pointMhz c.duct.point) + b.2
/-- R59. -/
def Channel.electiveOk (c : Channel) (d : Ductus) (s : Stroke) : Bool :=
  let end_ := c.elapsed + c.worstTime s
  c.duct.commitDone && decide ((end_ + 10000) * 1000 < c.img.earliest)
    && (coresOf s.cores).all fun j => c.duct.exem.getD j .idle == .done || decide (end_ < d.exLatest)

/-- Whether the Scribe may issue the stroke (R41, R57, R59, R383, R428). -/
def Channel.ready (c : Channel) (d : Ductus) (s : Stroke) : Bool :=
  !(c.duct.done.contains s.index) && !(c.duct.flight.any (·.idx == s.index))
    && s.preds.all c.duct.done.contains
    && !((unitsOf s.kind s.cores).any (c.busyUnits d).contains)
    && !((fenceNames s.kind s.cores).any c.fenced.contains)
    && !(c.duct.exHold && (coresOf s.cores).any fun j => c.exUnstarted.contains j)
    && !(c.duct.flight.any fun f => sharesBoard f.cores s.cores && f.ranges.any fun r => s.ranges.any (rangesConflict r))
    && !(c.heldByWrite s.ranges)
    && (s.kind != 12 || c.electiveOk d s)
/-- R42: no stroke that goes first is ready for one of its units. -/
def Channel.firstReady (c : Channel) (d : Ductus) (s : Stroke) : Bool :=
  !(d.strokes.any fun t => t.index != s.index && ((t.kind != 12 && s.kind == 12) || ((t.kind == 12) == (s.kind == 12) && t.index < s.index))
    && (unitsOf t.kind t.cores).any (unitsOf s.kind s.cores).contains && c.ready d t)
def Channel.running (c : Channel) : Bool := (c.st == .run || c.st == .margin) && c.tick.ticking && c.stopPending.isNone

/-! ### What a stroke does -/

def K.frontKernel (parm : List Byte) (cores : List Nat) : K Unit :=
  let args := Config.nibArgs (parm.drop 16)
  match byteAt parm 0 with
  | 0x01 => K.voxelise cores
  | 0x02 => K.cellInsert cores
  | 0x03 => K.cellOrder cores
  | 0x04 => K.pointPool cores
  | 0x05 => K.coarsen (byteAt parm 1) cores
  | 0x06 => K.ruleBuild (byteAt parm 2) cores
  | 0x07 => K.columnPool args cores
  | 0x08 => K.segReduceKernel (field parm 4 4) args cores
  | 0x09 => K.viewBuild cores
  | 0x0A => K.radixKernel args cores
  | _ => pure ()
/-- Every dirty sector is written back before the stroke completes (R226). -/
def K.rsvFlushAll : K Unit := [0, 1, 2, 3].forM K.rsvFlush
/-- A nib stroke ends: errors met on the way, Reservoirs flushed, the misses of a CELL_INSERT stroke (R125), and its cycles, a
free number (log 28). -/
def K.nibEnd (insert : Bool) (late : K Unit) : K Unit := do
  late
  K.rsvFlushAll
  let n := (← get).miss
  if insert then K.mod fun c => { c with front := { c.front with wMisses := n } }
  K.bump .perfNibCyc (← K.free)

/-- An error spoils sectors of a line that core `j`'s Reservoir holds. -/
def CoreMem.spoilLine (line : Nat) (b0 b1 : Bool) (k : CoreMem) : CoreMem :=
  { k with rsv := k.rsv.map fun l => if l.line == line then { l with bad0 := l.bad0 || b0, bad1 := l.bad1 || b1 } else l }
/-- An uncorrectable error that the stroke meets (R244, R245), before its accesses or after them (`late`): whether the place
holds data then. A double tag error drops a clean line, which counts as corrected, and is uncorrectable for a line with a dirty sector. -/
def K.eccMet (late : Bool) (o : EccObs) : K Bool := do
  let j := o.core.val
  let g := o.granule
  match o.storage with
  | .inkwell =>
    K.mod fun c => c.modCore j fun k => { k with poison := insertNat k.poison g }
    K.eccUe .inkwell j g
    return true
  | .hbm =>
    K.mod fun c => { c with hbmPoison := insertNat c.hbmPoison g }
    K.eccUe .hbm 0 g
    return true
  | .blotter =>
    if !late then return false
    K.mod fun c => c.modCore j fun k => { k with poison := insertNat k.poison g }
    K.eccUe .blotter j g
    return true
  | .reservoir => match (coreMem (← K.chan) j).rsv.find? (·.line == g / 2) with
    | none => return false
    | some l =>
      if !o.tag then
        K.mod fun c => c.modCore j (CoreMem.spoilLine (g / 2) (g % 2 == 0) (g % 2 == 1))
        K.eccUe .reservoir j g
      else if l.d0 || l.d1 then
        K.mod fun c => c.modCore j (CoreMem.spoilLine (g / 2) l.d0 l.d1)
        if l.d0 then K.eccUe .reservoir j (2 * l.line)
        if l.d1 then K.eccUe .reservoir j (2 * l.line + 1)
      else
        K.mod fun c => c.modCore j fun k => { k with rsv := k.rsv.filter (·.line != g / 2) }
        K.eccCe .reservoir j g
      return true
/-- Errors met before the stroke's accesses; answers those whose place holds nothing yet. -/
def K.eccEarly (os : List EccObs) : K (List EccObs) :=
  os.foldlM (fun acc o => do
    if ← K.eccMet false o then return acc
    return acc ++ [o]) []
def K.eccLate (os : List EccObs) : K Unit := os.forM fun o => do let _ ← K.eccMet true o

/-- The work of a stroke by its kind, and the errors it meets on the way; PEER entries run by their own commands, COMMIT and
RECORD at completion. -/
def K.work (s : Stroke) (late : K Unit) : K Unit :=
  match s.kind with
  | 0 | 8 => do K.transfer s.parm s.cores; late
  | 1 => do K.frontKernel s.parm (coresOf s.cores); K.nibEnd (byteAt s.parm 0 == 2) late
  | 2 => do K.array s.parm s.cores; late
  | 3 => do K.vector s.parm s.cores; late
  | 4 => do K.gatherAddr s.parm (coresOf s.cores); K.nibEnd false late
  | 5 => do K.select s.parm (coresOf s.cores); late
  | 6 | 12 => do K.mapKernel s.parm (coresOf s.cores); K.nibEnd false late
  | 7 => do K.models s.ranges s.parm; late
  | _ => late
/-- The unit that a stroke's transactions start with (R380). -/
def strokeUnit (s : Stroke) : Nat :=
  let j := (coresOf s.cores).headD 0
  match s.kind with
  | 0 | 8 => 4 + j
  | 7 | 11 => 9
  | 9 => 8
  | _ => j
/-- What a stroke that has done its work leaves in its flight: what its writes replaced, and a free number of them that have
landed should it stop (R63; log 8). -/
def Flight.worked (x : Sx) (f : Flight) : Flight :=
  { f with undo := x.undo, keep := Config.freeNat (x.ctr - 1) % (x.undo.length + 1) }
def Channel.setFlight (idx : Nat) (g : Flight → Flight) (c : Channel) : Channel :=
  { c with duct := { c.duct with flight := c.duct.flight.map fun f => if f.idx == idx then g f else f } }

/-- The Scribe issues stroke `s`. -/
def Hw.issue (m : Ch) (s : Stroke) (obs : StrokeObs) (hw : Hw) : Hw :=
  let hw := hw.modCh m fun c =>
    { c with duct := { c.duct with flight := c.duct.flight ++ [{ idx := s.index, cores := s.cores, ranges := s.ranges, since := c.elapsed, undo := [], keep := 0 }] },
             peer := if s.kind == 9 then { c.peer with run := some { stroke := s.index, entry := 0 } } else c.peer }
  let hw := (obs.ecc.filter (·.correctable)).foldl (fun h o => h.eccCe m o.storage (initCore m o.core.val) o.core.val o.granule) hw
  hw.runKWith m s.index (strokeUnit s) obs.fw (do
      let rest ← K.eccEarly (obs.ecc.filter (fun o => !o.correctable))
      K.work s (K.eccLate rest)
      let _ ← K.free) fun x c => (c.setFlight s.index (Flight.worked x)).judgeHolds

/-- A stroke starts its work (R41). -/
def execStrokeIssue (t : Nat) (ch : Ch) (idx : Nat) (obs : StrokeObs) (s : State) : Host.Outcome State Fault Refusal :=
  s.run t fun hw =>
    let c := hw.ch ch
    match c.img.ductus with
    | some d => match d.stroke idx with
      | some st => if c.running && c.ready d st && c.firstReady d st then hw.issue ch st obs else hw
      | none => hw
    | none => hw

/-! ### Completion (R43, R49, R127, R144, R218, R241, R362) -/

/-- The entry before `entry` of a PEER stroke is complete; a CLOSE not in its own cycle, in which a frame may be accepted still (R422,
R423, R424). -/
def Channel.peerEntryDone (c : Channel) (parm : List Byte) (entry : Nat) : Bool :=
  if entry == 0 then true else
  let b := parm.drop (16 + 32 * (entry - 1))
  match byteAt b 0 with
  | 0 => !((c.peer.east.origin ++ c.peer.west.origin).any fun f => f.ptype == 1#8)
  | 2 => !(c.shut.contains (byteAt b 1)) && !((c.peer.east.rx ++ c.peer.west.rx).any fun f => f.window == byteAt b 1)
  | _ => true
/-- Every entry has run and is complete. -/
def Channel.peerDone (c : Channel) (s : Stroke) : Bool :=
  match c.peer.run with
  | some r => r.stroke == s.index && r.entry == field s.parm 0 2 && c.peerEntryDone s.parm r.entry
  | none => false

/-- R240, R241: from `now` on the named spans wait for their last writes. -/
def Channel.powerDown (w now : Nat) (c : Channel) : Channel :=
  [0, 1, 2, 3].foldl (fun c j => c.modCore j fun k =>
    { k with spans := (k.spans.zipIdx).map fun (s, i) => if bitOf w (12 * j + i) && s == .on then .draining now else s }) c

/-- The decision stroke completes: bracket and point (R47, R49). From T_e − 10 µs on the cores stay at the worst bracket's
point, so a decision that comes later selects none (R31, R50). DESIGN CHOICE (log 29): a frame first marked OVERFLOW after its decision
keeps the bracket chosen here; no rule moves it to the worst. -/
def Channel.decideFrame (d : Ductus) (c : Channel) : Channel :=
  let b := d.bracketOf c.front.points c.front.cells (c.doubts .overflow)
  let c := { c with duct := { c.duct with decided := true, bracket := b } }
  if c.pastRaise || c.duct.raised then c else (c.settlePoint).changePoint (choosePoint c d b)

def holdsRecord (parm : List Byte) : Option ModelEntry := (modelEntries parm).find? (·.model == 3)

/-- R277: COMMIT's apply may start: its bound ends before T_e − 10 µs. A channel without tables applies nothing. -/
def Channel.mayCommit (c : Channel) (idx : Nat) : Bool :=
  match c.img.sitemap with
  | some sm =>
    sm.tables.isEmpty || (!c.pastRaise && c.duct.flight.any fun f => f.idx == idx && decide ((f.since + applyBound sm + 10000) * 1000 < c.img.earliest))
  | none => true

/-- Whether local time is past T_e − 10 µs: a PDPOINT stroke that completes then switches nothing off (R241). -/
def Channel.pastCut (c : Channel) : Bool := decide (c.img.earliest < (c.elapsed + 10000) * 1000)
/-- The stroke completes: its work is committed, its entries and units are released. -/
def Hw.complete (m : Ch) (d : Ductus) (s : Stroke) (hw : Hw) : Hw :=
  let hw := hw.modCh m (Channel.setFlight s.index fun f => { f with undo := [] })
  let hw := if s.kind == 1 || s.kind == 4 || s.kind == 6 || s.kind == 12 then
      (coresOf s.cores).foldl (fun h j => h.runK m s.index j (K.flushBlotter j)) hw else hw
  let hw := if s.kind == 11 then (hw.runK m s.index 9 K.mapCommit).exportDeltas m else hw
  let hw := if s.kind == 7 then match holdsRecord s.parm with
      | some e => hw.runK m s.index 9 (do K.record e; K.proof)
      | none => hw
    else hw
  let now := hw.now
  hw.modCh m fun c =>
    let c := if s.kind == 1 && byteAt s.parm 0 == 0x02 then c.insertDone else c
    let c := if s.kind == 1 && byteAt s.parm 0 == 0x09 then c.viewActivate else c
    let c := { c.bump .perfStrokes 1 with
      hairQ := c.hairQ.map fun (h : HairPkt) => if h.stroke == some s.index then { h with stroke := none } else h
      duct := { c.duct with flight := c.duct.flight.filter (·.idx != s.index), done := insertNat c.duct.done s.index,
                            commitDone := c.duct.commitDone || s.kind == 11 },
      peer := if s.kind == 9 then { c.peer with run := none } else c.peer }
    let c := if s.index == d.decide then c.decideFrame d else c
    (if s.pdpoint && !c.pastCut then c.powerDown s.pdword now else c).judgeHolds

/-- A stroke completes (R43). -/
def execStrokeComplete (t : Nat) (ch : Ch) (idx : Nat) (s : State) : Host.Outcome State Fault Refusal :=
  s.run t fun hw =>
    let c := hw.ch ch
    match c.img.ductus with
    | some d => match d.stroke idx with
      | some st => if c.duct.flight.any (·.idx == idx) && (st.kind != 9 || c.peerDone st) && (st.kind != 11 || c.mayCommit idx) then hw.complete ch d st else hw
      | none => hw
    | none => hw

/-! ### Points and spans -/

/-- Whether the cores may rise: from T(k+1) − 10 µs, in RUN or MARGIN or FENCED with a return accepted; from T(0) − 10 µs before the first
boundary, which is the next instant of R29 or the counted edge that completes N, once the conditions of R462 hold (R50, R487). -/
def Channel.mayRaise (c : Channel) : Bool :=
  if c.st.ticks && c.tick.ticking then c.pastRaise && (c.running || (c.st == .fenced && c.resv.isSome && c.stopPending.isNone))
  else c.runnable && (if c.img.tickSrc == 0 then decide (c.img.nextDue c.local ≤ c.local + 10000) else decide (c.img.tickN ≤ c.tick.edges + 1))
/-- From 10 µs before the boundary the cores rise to the worst bracket's point (R50, R487). -/
def execPointRaise (t : Nat) (ch : Ch) (s : State) : Host.Outcome State Fault Refusal :=
  s.run t fun hw =>
    let c := hw.ch ch
    match c.img.ductus with
    | some d =>
      if c.mayRaise && !c.duct.raised then
        hw.modCh ch fun c => { (c.settlePoint).changePoint d.startPoint with duct := { ((c.settlePoint).changePoint d.startPoint).duct with raised := true } }
      else hw
    | none => hw

/-- A change of point is complete (R50). -/
def execPointChangeDone (t : Nat) (ch : Ch) (s : State) : Host.Outcome State Fault Refusal :=
  s.run t fun hw => hw.modCh ch Channel.settlePoint

def Channel.setSpan (j i : Nat) (x : Span) (c : Channel) : Channel := c.modCore j fun k => { k with spans := setAt k.spans i x }
def Channel.spanAt (c : Channel) (j i : Nat) : Option Span := (coreMem c j).spans[i]?

/-- Every span that is off powers up and starts clearing (R243). -/
def execSpanPowerUp (t : Nat) (ch : Ch) (s : State) : Host.Outcome State Fault Refusal :=
  s.run t fun hw =>
    if (hw.ch ch).tick.ticking && (hw.ch ch).pastRaise then
      hw.modCh ch fun c => { c with core := c.core.map fun k => { k with spans := k.spans.map fun x => if x == .off then .clearing else x } }
    else hw

/-- The span's zeros are written: it returns to service (R243). -/
def execSpanClearDone (t : Nat) (ch core : Ch) (span : Fin 12) (s : State) : Host.Outcome State Fault Refusal :=
  s.run t fun hw =>
    if (hw.ch ch).spanAt core span == some .clearing then
      hw.modCh ch fun c => (c.setSpan core span .on).modCore core fun k =>
        { k with ink := Cells.clear k.ink (1048576 * span.val) 1048576, poison := k.poison.filter fun g => g / 16384 != span.val }
    else hw

/-- ns that the span has waited for its last writes, none where it does not wait. -/
def Hw.drained (ch core : Ch) (span : Fin 12) (hw : Hw) : Option Nat :=
  match (hw.ch ch).spanAt core span with
  | some (.draining since) => some (hw.now - since)
  | _ => none
/-- Every write to the span has landed within 2 µs: it is switched off (R241). -/
def execSpanPowerDown (t : Nat) (ch core : Ch) (span : Fin 12) (s : State) : Host.Outcome State Fault Refusal :=
  s.run t fun hw =>
    match hw.drained ch core span with
    | some ns => if ns ≤ 2000 then hw.modCh ch (Channel.setSpan core span .off) else hw
    | none => hw

/-- The writes have not landed within 2 µs: the span stays on for the rest of the frame (R241). -/
def execPdTimeout (t : Nat) (ch core : Ch) (span : Fin 12) (s : State) : Host.Outcome State Fault Refusal :=
  s.run t fun hw =>
    match hw.drained ch core span with
    | some ns =>
      if 2000 ≤ ns then
        (hw.modCh ch fun c => ((c.setSpan core span .kept).stick .pdTimeout).bump .pdTimeouts 1).raise ch .note 0x61 (initScribe ch) none none
      else hw
    | none => hw

/-! ### The exemplar (R56 to R58, R365 to R367) -/

/-- R56: the core's exemplar starts when every unit of the core is idle. -/
def execExemplarStart (t : Nat) (ch core : Ch) (s : State) : Host.Outcome State Fault Refusal :=
  s.run t fun hw =>
    let c := hw.ch ch
    match c.img.ductus with
    | some d =>
      if c.running && c.exUnstarted.contains core.val && !((c.busyUnits d).any fun u => u / 5 == core.val && u < 20) then
        hw.modCh ch fun c => { c with duct := { c.duct with exem := setAt c.duct.exem core .running } }
      else hw
    | none => hw

/-- R57: T(k) + EX_LATEST passes with an exemplar unstarted. -/
def execExemplarLatest (t : Nat) (ch : Ch) (s : State) : Host.Outcome State Fault Refusal :=
  s.run t fun hw =>
    let c := hw.ch ch
    match c.img.ductus with
    | some d => if c.running && decide (d.exLatest ≤ c.elapsed) && !c.exUnstarted.isEmpty then
        hw.modCh ch fun c => { c with duct := { c.duct with exHold := true } } else hw
    | none => hw

/-- The exemplar's allocation on a core (R213). -/
def exAlloc (c : Channel) (core : Nat) : Option Alloc := c.img.allocs.find? fun a => a.exemplar && a.core == core

/-- The words of a core's exemplar output as they lie in its allocation. -/
def exOutput (c : Channel) (core : Ch) (e : ExemplarCfg) : List Word :=
  match exAlloc c core with
  | some a => wordsAt (Cells.read ramDefault (coreMem c core).ink (a.base + e.outOffset) (4 * e.elements)) 0 e.elements
  | none => []
/-- A word of the output and what a faulty core changes in it. -/
def xorWords (l faults : List Word) : List Word := (l.zipIdx).map fun (w, i) => w ^^^ faults.getD i 0#32
/-- The exemplar's blocks run in order on the core (R470); then what a faulty core changes in its output, bit by bit, is applied
(`faults`, empty or zeros without one; log 15). -/
def K.exemplarRun (core : Ch) (e : ExemplarCfg) (faults : List Word) : K Unit := do
  ((Config.exemplarBlocks e.nblocks e.blocks).take e.nblocks).forM fun x => if x.1 then K.array x.2 (2 ^ core.val) else K.vector x.2 (2 ^ core.val)
  if !(faults.all (· == 0#32)) then
    let c ← K.chan
    match exAlloc c core with
    | some a => K.writeInk core (a.base + e.outOffset) (wordsBytes (xorWords (exOutput c core e) faults))
    | none => pure ()
/-- A core's exemplar runs and its output is compared (R365, R367, R470); the CRC is formed over the output quantised. `crcFault` is what
a fault of the logic that forms it changes in the CRC, 0 without one (R366). DESIGN CHOICE (log 12): a SAT record of its blocks has 0 in
DETAIL0, since the exemplar has no stroke index (R161). -/
def Hw.exemplarCheck (m core : Ch) (faults : List Word) (crcFault : Word) (hw : Hw) : Hw :=
  let c := hw.ch m
  match c.img.exemplar, c.img.safety with
  | some e, some sf =>
    let hw := hw.runK m 0 core.val (K.exemplarRun core e faults)
    let os := (exOutput (hw.ch m) core e).map (exVal e.outFmt)
    let bad := exOut sf os e.refs + (e.refs.length - os.length)
    let crcBad := exCrc sf os ^^^ crcFault != e.crc
    if bad == 0 && !crcBad then hw
    else
      let hw := hw.modCh m fun c => { c.doubt .exemplar with duct := { c.duct with exFailNow := setAt c.duct.exFailNow core true } }
      let hw := hw.raise m .doubt 0x90 (initCore m core.val) (some core.val) (some (min bad 0x7FFFFFFF + (if crcBad then 2 ^ 31 else 0)))
      if c.duct.exFailLast.getD core false then hw.fence m core.val else hw
  | _, _ => hw

/-- R365: the core's exemplar completes. -/
def execExemplarDone (t : Nat) (ch core : Ch) (faults : List Word) (crcFault : Word) (s : State) : Host.Outcome State Fault Refusal :=
  s.run t fun hw =>
    if (hw.ch ch).duct.exem.getD core .idle == .running then
      (hw.modCh ch fun c => { c with duct := { c.duct with exem := setAt c.duct.exem core .done } }).exemplarCheck ch core faults crcFault
    else hw

end Sys2Proof.Machine
end

