-- ==== Sys2Proof/Machine/LoadCheck.lean ====
section
/-! DEFINITION. The load checks of step 9 (R55): every rule that refuses an image, gathered by reason code. The reason
reported is the first of R55's table, whose codes rise in its order. Reserved image fields that a rule of the section's
table asks to be 0 are refused with that section's reason (log 20). -/
namespace Sys2Proof.Machine

/-! ### The graph -/

def ordered (anc : List Nat) (a b : Nat) : Bool := hasPath anc a b || hasPath anc b a

/-! ### Strokes one by one (BAD_STROKE and the codes their own rules name) -/

def uncoreKind (k : Nat) : Bool := k == 0 || k == 7 || k == 8 || k == 9 || k == 11
def isKernel (s : Stroke) (code : Nat) : Bool := s.kind == 1 && byteAt s.parm 0 == code
def isArray (s : Stroke) (op : Nat) : Bool := s.kind == 2 && byteAt s.parm 0 == op
/-- Bytes in one region of the channel's tenant and outside the ring area (R235). -/
def HbmOk (c : Channel) (a n : Nat) : Bool :=
  decide (a + n ≤ ringArea) && c.img.regions.any fun r => r.holds a n && r.tenant == c.img.tenant.getD 0
/-- R39, R213, R214, R235. DESIGN CHOICE (log 20): R39 and R55 name no outcome for ACCESS above 2, LEN 0 or a BASE that is no multiple of
64; the model refuses them with BAD_STROKE. -/
def rangeOk (c : Channel) (r : Range) : Bool :=
  decide (r.access ≤ 2) && decide (1 ≤ r.len) && r.base % 64 == 0 &&
  (if r.space == 0 then
     decide (r.core ≤ 3) && decide (r.base + 64 * r.len ≤ inkSize) &&
     match c.img.allocs.find? fun a => a.core == r.core && Nat.ble a.base r.base && decide (r.base + 64 * r.len ≤ a.base + a.len) with
     | some a => r.access == 0 || !(a.keep || a.preload)
     | none => false
   else r.space == 1 && HbmOk c r.base (64 * r.len))

/-- CYC and FIX cover a bound in every bracket; a descriptor has four, and R52 refuses more brackets by its own reason. -/
def budgetHas (d : Ductus) (s : Stroke) (cyc fix : Nat) : Bool :=
  (List.range (min d.nbrackets 4)).all fun b => let q := s.budget.getD b (0, 0); decide (cyc ≤ q.1) && decide (fix ≤ q.2)

/-- R424, R425: a PEER stroke's entries and bound. -/
def peerEntries (parm : List Byte) : List (List Byte) := chunks 32 (field parm 0 2) (parm.drop 16)
def peerFix (parm : List Byte) : Nat :=
  1000 + ((peerEntries parm).map fun b => match byteAt b 0 with
    | 0 => ceilDiv (field b 16 4 * 10000) 5954
    | 2 => 15000
    | _ => 0).foldl (· + ·) 0
def peerStrokeOk (c : Channel) (rs : List Range) (parm : List Byte) : Bool :=
  let n := field parm 0 2
  decide (1 ≤ n) && decide (n ≤ 64) && zeroAt parm 2 14 && parm.length == 16 + 32 * n && (peerEntries parm).all fun b =>
    zeroAt b 6 2 && zeroAt b 24 8 && match byteAt b 0 with
    | 0 =>
      let src := field b 8 8
      let len := field b 16 4
      decide (byteAt b 1 < 64) && decide (byteAt b 2 ≤ 7) && decide (byteAt b 3 ≤ 2) && src % 64 == 0 && len % 64 == 0 && decide (64 ≤ len)
        && decide (len ≤ 16777216) && field b 20 4 % 64 == 0 && (c.region (field b 4 2)).any (fun g => g.holds src len && g.tenant == c.img.tenant.getD 0) && rangeHas rs 1 0 false src len
    | 1 | 2 => decide (byteAt b 1 < (c.img.peer.map (·.windows)).getD 0)
    | _ => false

/-- Kernels that R110 lists for FRONT. The model refuses each of them, BAD_STROKE, on a set above 7, a ruling above 15, CHANNELS outside
SEG_REDUCE, a ruling that is not declared, or COARSEN of set 0 or of a set without a parent (R108, R109; log 20). DESIGN CHOICE (log 20):
without a FRONT section only SEG_REDUCE and RADIX_PASS, which read none of it, are accepted. -/
def frontKernelOk (c : Channel) (s : Stroke) : Bool :=
  let p := s.parm
  let k := byteAt p 0
  decide (16 ≤ p.length) && byteAt p 3 == 0 && zeroAt p 8 8 && decide (byteAt p 1 ≤ 7) && decide (byteAt p 2 ≤ 15)
    && decide (1 ≤ k) && decide (k ≤ 0x0A) && (k == 0x08 || field p 4 4 == 0) && (k != 0x02 || s.cores == 15)
    && match c.img.front with
      | none => k == 0x08 || k == 0x0A
      | some f => (k != 0x06 || (f.rulings[byteAt p 2]?).isSome) && (k != 0x05 || (f.sets[byteAt p 1]?).any fun r => r.parent != 0xFF)

/-- Spill of a ruling's part read by a SPARSE stroke (R234). -/
def spillOf (f : Front) (s : Stroke) : Nat :=
  if isArray s 1 then ((f.rulings[(sparseHdr s.parm).ruling]?).map fun r => (r.parts.map (·.spillLen)).foldl max 0).getD 0 else 0

/-- An ARRAY stroke; bounds count the enabled arrays of a core (R194). -/
def arrayWhy (c : Channel) (d : Ductus) (anc : List Nat) (arrays : Nat) (s : Stroke) : Why :=
  let cores := coresOf s.cores
  match byteAt s.parm 0 with
  | 0 => leastWhy [whyIf (!(matmulOk s.parm s.ranges cores arrays)) 0x21,
      whyIf (!(budgetHas d s (matmulBound arrays (arrayHdr s.parm) (mPasses s.parm)) 0)) 0x21]
  | 1 => match c.img.front with
    | none => some 0x21
    | some f =>
      let builds := (d.strokes.filter fun t => isKernel t 0x06 && byteAt t.parm 2 == (sparseHdr s.parm).ruling).map fun t => coresOf t.cores
      leastWhy [sparseWhy f s.parm s.ranges cores builds,
        match f.rulings[(sparseHdr s.parm).ruling]? with
        | some r => whyIf (!(budgetHas d s (sparseBound arrays f r s.parm) (if spillOf f s == 0 then 0 else 400 + nsAt (spillOf f s) 4096))) 0x21
        | none => some 0x21]
  | 2 => leastWhy [denseWhy s.parm s.ranges cores, whyIf (!(budgetHas d s (denseBound arrays s.parm) 0)) 0x21]
  | 3 =>
    let stream := if isLift s then c.img.front.bind fun f => liftStreamOf d anc f s else none
    leastWhy [resampleWhy s.parm s.ranges cores (stream.map (·.2)),
      whyIf (!(budgetHas d s (resampleBound arrays ((stream.map (·.1)).getD 0) s.parm) 0)) 0x21]
  | _ => some 0x21

/-- Bytes of TELEM slots in one half of the channel's TELEM regions (R310). -/
def telemSlots (c : Channel) : Nat := ((c.inputOrder 3).map fun r => ((c.region r).map (·.len / 16)).getD 0).foldl (· + ·) 0

/-- One stroke's own checks. DESIGN CHOICE (log 20): a descriptor whose INDEX is not its position is refused, BAD_STROKE; R36 says that they
are equal, and neither it nor R55 names an outcome. DESIGN CHOICE (log 20): GATHER strokes, which read rulings or cameras, of an image without a FRONT section
are refused, BAD_STROKE; R108 names no refusal. -/
def strokeWhy (c : Channel) (d : Ductus) (arrays : Nat) (fuse : Nat) (anc : List Nat) (m : Ch) (s : Stroke) (pos : Nat) : Why :=
  let cores := coresOf s.cores
  let bad := fun (b : Bool) => whyIf b 0x21
  leastWhy [
    bad (s.index != pos || s.kind == 10 || decide (12 < s.kind) || decide (8 < s.nrange) || decide (32 < s.npred)),
    bad (uncoreKind s.kind && s.budget.any fun q => q.1 != 0),
    bad (cores.any fun j => bitsOf fuse (4 * (4 * m.val + j) + 3) (4 * (4 * m.val + j)) == 15),
    bad (!(s.ranges.all (rangeOk c))),
    match s.kind with
    | 0 | 8 => leastWhy [bad (!(transferOk m c s.kind s.parm cores)), bad (!(budgetHas d s 0 (transferFix cores (xDescs s.parm))))]
    | 1 => bad (!(frontKernelOk c s))
    | 2 => arrayWhy c d anc arrays s
    | 3 => leastWhy [bad (!(vectorOk s.parm)), bad (!(budgetHas d s (vectorBound s.parm) 0))]
    | 4 => match c.img.front with
      | some f => leastWhy [bad (byteAt s.parm 0 != 0x0B), gatherWhy d anc s.index f s.parm]
      | none => some 0x21
    | 5 => leastWhy [bad (!(selectOk s.parm s.ranges cores)),
        bad (!(budgetHas d s (selectBound s.parm cores).1 (selectBound s.parm cores).2))]
    | 6 | 12 => bad (!(mapKernelOk c s.kind s.parm s.ranges cores))
    | 7 => match c.img.scribe with
      | some sc => leastWhy [bad (!(scribeStrokeOk (suppressFor d anc s.index) s.ranges s.parm)), bad (!(budgetHas d s 0 (scribeBound sc (telemSlots c) s.parm)))]
      | none => some 0x21
    | 9 => leastWhy [bad (!(peerStrokeOk c s.ranges s.parm)), bad (!(budgetHas d s 0 (peerFix s.parm)))]
    | _ => match c.img.sitemap with
      | some sm => leastWhy [bad (!(budgetHas d s 0 (applyBound sm))),
          bad (!(sm.tables.all fun t => [t.region, t.work].all fun g => (c.region g).any fun r => rangeBoth s.ranges 1 0 r.base r.len))]
      | none => none]

/-- R309: the models of the Ductus. -/
def modelsWhy (sc : ScribeCfg) (d : Ductus) (anc : List Nat) : Why :=
  let ms := (d.strokes.filter (·.kind == 7)).flatMap fun s => (modelEntries s.parm).map fun e => (e.model, s.index)
  let of := fun k => (ms.filter (·.1 == k)).map (·.2)
  whyIf ([0, 1, 2, 3].any (fun k => decide (1 < (of k).length)) || (of 3).isEmpty
    || (sc.kin && (of 0).isEmpty) || (sc.therm && (of 1).isEmpty) || (sc.health && (of 2).isEmpty)
    || (match of 3 with
        | r :: _ => [0, 1, 2].any (fun k => (of k).any fun i => i != r && !(hasPath anc i r))
            || !(d.strokes.any fun s => s.kind == 11 && hasPath anc r s.index)
        | [] => false)) 0x21

/-! ### Tiles (R164): judged on the contents the image gives them

DEDUCED (log 13): a tile is judged on the bytes that lie there when it is loaded, as far as the image fixes them: what PRELOAD places, what
XFER strokes bring from there or from a DATA section as loaded (R231, R472), the exemplar's input, and the zeros of R475 elsewhere. What
any other stroke, a packet, a peer or the device itself writes is not known at load. -/

/-- PRELOAD copies (R472): each allocation takes its bytes from the DATA section's HBM copy. -/
def Channel.preload (c : Channel) : Channel :=
  (c.img.allocs.filter (·.preload)).foldl (fun c a =>
    match c.img.dataDest.find? (·.1 == a.section_) with
    | some (_, dest, _) =>
      (c.bump .perfHbmRd a.len).modCore a.core fun k => { k with ink := Cells.write ramDefault k.ink a.base (Cells.read ramDefault c.hbm (dest + a.soffset) a.len) }
    | none => c) c

/-- (rows, address) of the 2:4 tiles that an ARRAY parameter block loads. -/
def tilesOf (parm : List Byte) : List (Nat × Nat) :=
  let h := arrayHdr parm
  if !h.sp24 then [] else
  match h.op with
  | 0 => ((mPasses parm).filter (·.load)).map fun p => (slotRows p.pack, p.w)
  | 1 => if 2 ≤ (sparseHdr parm).smode then [] else (cPasses parm).map fun p => (if (sparseHdr parm).packing == 0 then 128 else 64, p.tile)
  | 2 => (cPasses parm).map fun p => (if (denseHdr parm).packing == 0 then 128 else 64, p.tile)
  | _ => []
def frontAreas (f : Front) : List (Nat × Nat) :=
  [(f.celltab, 33554432), (f.context, 33554432), (f.pointmap, 8388608), (f.features, 67108864)]
/-- What the front end writes besides: key lists, view tables and spill areas (R128, R137, R143). -/
def frontLists (f : Front) : List (Nat × Nat) :=
  ((f.sets.zipIdx).map fun (r, i) => (keylistBase f i, 8 * r.cap))
    ++ (f.cameras.flatMap fun k => [(k.copy0, 8 * f.bevW * f.bevH * k.heights.length), (k.copy1, 8 * f.bevW * f.bevH * k.heights.length)])
    ++ f.rulings.flatMap fun r => r.parts.map fun p => (p.spillBase, p.spillLen)
/-- HBM that nothing but strokes writes, and they as they declare: in a region, and in none that the host, ingest, a peer, the site map or
the front end writes. -/
def Channel.quietHbm (c : Channel) (a : Nat) : Bool :=
  let rs := (c.img.regions.zipIdx).filter fun (r, _) => r.holds a 1
  let mapped := (c.img.sitemap.map fun s => s.tailcache :: s.tables.flatMap fun t => [t.region, t.work]).getD []
  !rs.isEmpty && rs.all (fun (r, i) => !(r.hostw || r.input || r.peerw || mapped.contains i))
    && c.img.front.all fun f => (frontAreas f ++ frontLists f).all fun x => !(decide (x.1 ≤ a ∧ a < x.1 + x.2))
/-- A byte as the image leaves it at READY: of a DATA section in HBM, of a PRELOAD allocation, of the exemplar's input (R213, R470, R472), or
one of the zeros of R475. DESIGN CHOICE (log 13): past its input an EXEMPLAR allocation holds results of the exemplar's own blocks, written
over R475's zeros, so no byte there is taken as known and a 2:4 tile there is not judged. -/
def Channel.loadedByte (c : Channel) (mem a : Nat) : Option Byte :=
  let data := fun h => (Cells.read ramDefault c.hbm h 1).head?
  if mem == 4 then
    if c.img.dataDest.any fun x => decide (x.2.1 ≤ a ∧ a < x.2.1 + x.2.2) then data a else if c.quietHbm a then some 0#8 else none
  else match c.img.allocs.find? fun x => (x.preload || x.exemplar) && x.core == mem && decide (x.base ≤ a ∧ a < x.base + x.len) with
    | some x =>
      if x.exemplar then c.img.exemplar.bind fun e => e.input[a - x.base]?
      else (c.img.dataDest.find? (·.1 == x.section_)).bind fun y => data (y.2.1 + x.soffset + (a - x.base))
    | none => some 0#8
/-- The byte at `a` of memory `mem` after these writes, the latest first; none where the image does not fix it. -/
def Channel.madeByte (c : Channel) : List Maker → Nat → Nat → Option Byte
  | [], mem, a => c.loadedByte mem a
  | .move x :: ws, mem, a => match x.origin mem a with
    | some (m, b) => c.madeByte ws m b
    | none => c.madeByte ws mem a
  | .list _ :: ws, mem, a => c.madeByte ws mem a
  | .other rs :: ws, mem, a => if rs.any (·.has mem a) then none else c.madeByte ws mem a
/-- The byte at `a` of memory `mem` if none of these writes it. -/
def Channel.stillByte (c : Channel) (ws : List Maker) (mem a : Nat) : Option Byte :=
  if ws.any (·.touches mem a) then none else c.loadedByte mem a
/-- A 2:4 tile of `rows` rows at `a` holds a pair of indices that do not ascend (R164). Its indices, 16 bytes a row, stand behind its
weights; `get` gives the bytes that are known. -/
def tileBad (get : Nat → Option Byte) (fmt rows a : Nat) : Bool :=
  let ix := a + rows * (if fmt == 4 || fmt == 5 then 128 else 64)
  (List.range (rows / 2)).any fun g => (List.range 16).any fun q =>
    match get (ix + 32 * g + q), get (ix + 32 * g + 16 + q) with
    | some lo, some hi => (List.range 4).any fun x => decide (bitsOf hi.toNat (2 * x + 1) (2 * x) ≤ bitsOf lo.toNat (2 * x + 1) (2 * x))
    | _, _ => false
/-- Every tile of the strokes, in the first frame and after a whole frame before it. -/
def strokeTilesBad (c : Channel) (d : Ductus) (anc : List Nat) (order : List Stroke) : Bool :=
  d.strokes.any fun s => s.kind == 2 &&
    let before := makersBefore anc order s.index
    (coresOf s.cores).any fun j => (tilesOf s.parm).any fun (rows, a) =>
      [before, before ++ (order.flatMap makersOf).reverse].any fun ws => tileBad (c.madeByte ws j) (arrayHdr s.parm).wfmt rows a
/-- Every tile of the exemplar's ARRAY blocks (R470), on every core, by the bytes that no stroke writes: the exemplar has no place in the
order of the strokes. -/
def exemplarTilesBad (c : Channel) (d : Ductus) : Bool :=
  c.img.exemplar.any fun e => e.nblocks != 0 &&
    let ws := d.strokes.flatMap makersOf
    ((Config.exemplarBlocks e.nblocks e.blocks).take e.nblocks).any fun (array, parm) => array && (List.range 4).any fun j =>
      (tilesOf parm).any fun (rows, a) => tileBad (c.stillByte ws j) (arrayHdr parm).wfmt rows a
def tilesWhy (c : Channel) (d : Ductus) (anc : List Nat) (order : List Stroke) : Why :=
  whyIf (strokeTilesBad c d anc order || exemplarTilesBad c d) 0x21

/-! ### UNORDERED (R44, R215, R221, R240, R276, R423) -/

def spansOf (r : Range) : List Nat := if r.space == 0 then (List.range ((r.base + 64 * r.len - 1) / 1048576 - r.base / 1048576 + 1)).map fun i => 12 * r.core + r.base / 1048576 + i else []
def strokeSpans (s : Stroke) : List Nat := s.ranges.flatMap spansOf
/-- A nib stroke whose charge B is above 0 in some bracket, judged from its kernel and its arguments (R221, R111, R258), or a SORT with
SPACE 0. Points and cells are those of the worst bracket, but before the decision stroke those that the input allows: none without a
SWEEP ring (R111). CELL_INSERT is charged a wave's misses even so (R125), and RULE_BUILD takes the bracket's cells. VIEW_BUILD has the
entries of the cameras, a lift's GATHER its view-table entries, and the site-map kernels but MAP_REFRESH the query cells. -/
def nibHbm (c : Channel) (d : Ductus) (anc : List Nat) (s : Stroke) : Bool :=
  let a := Config.nibArgs (s.parm.drop 16)
  let heights := fun (k : CameraRec) => !k.heights.isEmpty
  match s.kind with
  | 1 => match byteAt s.parm 0 with
    | 0x01 | 0x03 | 0x04 | 0x05 | 0x07 => !(d.decide != 0xFFFF && hasPath anc s.index d.decide) || !(c.inputOrder 1).isEmpty
    | 0x08 => field s.parm 4 4 != 0 && ((a.space == 0 && a.count != 0) || (a.dstSpace == 0 && a.nsegs != 0))
    | 0x09 => (c.img.front.map fun f => f.cameras.any heights).getD false
    | 0x0A => a.count != 0 && (a.space == 0 || a.dstSpace == 0)
    | _ => true
  | 4 =>
    let g := gatherArgs s.parm
    g.form == 0 || (g.brows != 0 && ((c.img.front.bind fun f => f.cameras[g.camera]?).map heights).getD false)
  | 6 | 12 =>
    let q := mapArgs s.parm
    byteAt s.parm 0 == 0x15 || (q.qcount != 0 && ((c.img.front.bind fun f => f.sets[q.set]?).map fun r => r.cap != 0).getD false)
  | 5 => (selEntries s.parm).any fun b => byteAt b 0 == 0 && !(sortOp b).ink
  | _ => false
/-- The core quarters a stroke draws on; COMMIT draws on all of them when it applies staging (R276). -/
def quarters (c : Channel) (s : Stroke) : List Nat :=
  match s.kind with
  | 0 | 8 => ((xDescs s.parm).map fun x => x.engine (coresOf s.cores)).eraseDups
  | 2 => match c.img.front with
    | some f => if spillOf f s == 0 then [] else coresOf s.cores
    | none => []
  | 11 => if (c.img.sitemap.map fun sm => sm.tables.any fun t => decide (0 < t.updMax) || decide (0 < t.migMax)).getD false then [0, 1, 2, 3] else []
  | _ => []

def pairsOf (l : List Stroke) : List (Stroke × Stroke) := l.flatMap fun a => (l.filter fun b => decide (a.index < b.index)).map fun b => (a, b)

def unorderedWhy (c : Channel) (d : Ductus) (anc : List Nat) : Why :=
  let free := (pairsOf d.strokes).filter fun (a, b) => !(ordered anc a.index b.index)
  let share := fun (l k : List Nat) => l.any k.contains
  let pd := d.strokes.filter (·.pdpoint)
  let bitsIn := fun (w : Nat) (sp : Nat) => bitOf w sp
  let winRegion := fun (w : Nat) => (c.img.peer.bind fun p => p.wins[w]?).bind fun x => c.region x.region
  whyIf (
    (free.any fun (a, b) =>
      share (unitsOf a.kind a.cores) (unitsOf b.kind b.cores) || a.ranges.any (fun r => b.ranges.any (rangesConflict r))
        || share (strokeSpans a) (strokeSpans b) || share (quarters c a) (quarters c b)
        || (nibHbm c d anc a && (nibHbm c d anc b || !(quarters c b).isEmpty)) || (nibHbm c d anc b && !(quarters c a).isEmpty))
    || (d.strokes.any fun s => s.kind == 11 && !(quarters c s).isEmpty &&
          d.strokes.any fun t => t.index != s.index && !(quarters c t).isEmpty && !(hasPath anc t.index s.index))
    || (pd.any fun p => d.strokes.any fun s => (strokeSpans s).any (bitsIn p.pdword)
          && (s.kind == 12 || (s.index != p.index && !(hasPath anc s.index p.index))))
    || (d.strokes.any fun p => p.kind == 9 && (peerEntries p.parm).any fun b => byteAt b 0 == 2 && (winRegion (byteAt b 1)).any fun r =>
          d.strokes.any fun s => (s.ranges.any fun x => x.space == 1 && decide (x.base < r.stop) && decide (r.base < x.base + 64 * x.len))
            && (s.index == p.index || !(ordered anc s.index p.index)))) 0x23

/-! ### Brackets and fit (R46, R52 to R54) -/

/-- R46, R52, but for R54. -/
def bracketsOk (d : Ductus) (anc : List Nat) : Bool :=
  let bs := d.brackets.take d.nbrackets
  let ins := (d.strokes.filter fun s => isKernel s 0x02).map (·.index)
  Nat.ble 1 d.nbrackets && Nat.ble d.nbrackets 4
    && (d.decide != 0xFFFF || d.nbrackets == 1)
    && (d.decide == 0xFFFF || ((d.stroke d.decide).any (fun s => s.kind == 1) && !ins.isEmpty
          && ins.all fun i => i == d.decide || hasPath anc i d.decide))
    && (bs.zip (bs.drop 1)).all (fun (a, b) => Nat.ble a.pointsMax b.pointsMax && Nat.ble a.cellsMax b.cellsMax
          && (Nat.blt a.pointsMax b.pointsMax || Nat.blt a.cellsMax b.cellsMax))
    && (bs.getLast?).any fun w => w.pointsMax == 2097152 && w.cellsMax == 1048576

structure PathSum where
  time : Nat
  cyc : Nat
  fix : Nat
/-- Longer in time. R54 does not say which of two longest paths of equal time gives TAIL_CYC and TAIL_FIX: the model takes
the one with more CYC (log 28). -/
def PathSum.better (a b : PathSum) : Bool := Nat.blt b.time a.time || (a.time == b.time && Nat.blt b.cyc a.cyc)

/-- Longest path sums over strokes in topological order: `w` weighs a stroke, `keep` tells which strokes take part. -/
def longestPaths (order : List Stroke) (w : Stroke → PathSum) (keep : Stroke → Bool) : List (Nat × PathSum) :=
  order.foldl (fun acc s =>
    if !(keep s) then acc else
    let p := s.preds.foldl (fun (b : PathSum) q => match assoc acc q with
      | some x => if x.better b then x else b
      | none => b) ⟨0, 0, 0⟩
    let x := w s
    assocSet acc s.index ⟨p.time + x.time, p.cyc + x.cyc, p.fix + x.fix⟩) []
def longest (l : List (Nat × PathSum)) : PathSum := l.foldl (fun b x => if x.2.better b then x.2 else b) ⟨0, 0, 0⟩

/-- Time of a stroke in bracket b at clock f, over the unit 1/(fW·fB) ns; `o` is the other clock. -/
def scaled (s : Stroke) (b f o : Nat) : PathSum :=
  let q := s.budget.getD b (0, 0)
  ⟨q.1 * 1000 * o + q.2 * f * o, q.1, q.2⟩
/-- R53's first condition for bracket b. -/
def fitTime (d : Ductus) (anc : List Nat) (order : List Stroke) (early b : Nat) : Bool :=
  let fw := pointMhz d.worst.point
  let fb := pointMhz (d.bracketAt b).point
  let early_ := fun (s : Stroke) => d.decide != 0xFFFF && (s.index == d.decide || hasPath anc s.index d.decide)
  let path := longest (longestPaths order (fun s => if early_ s then scaled s b fw fb else scaled s b fb fw) (·.kind != 12))
  let change := if (d.bracketAt b).point == d.worst.point then 0 else 10000 * fw * fb
  -- path + change + EX_CYC/f + P/50 < P, times 50,000
  Nat.blt ((path.time + change + d.exCyc * 1000 * fw) * 50000) (early * 49 * fw * fb)
def exemplarLate (d : Ductus) (early b : Nat) : Bool :=
  let fb := pointMhz (d.bracketAt b).point
  let sb := ([0, 1, 2, 3].map (d.longest b)).foldl max 0
  !(Nat.ble ((d.exLatest * fb + (sb + d.exCyc) * 1000) * 50000) (early * 49 * fb))
/-- R54: the sums along the longest path from the end of the decision stroke. DESIGN CHOICE (log 28): with DECIDE = FFFFh there is no
decision stroke and the rule names no sums, so TAIL_CYC and TAIL_FIX are not looked at; and a POINT above 7, which has no clock in R48, is
weighed here at 600 MHz, so that BRACKETS (24h) may be found before POINT (25h). -/
def tailOk (d : Ductus) (anc : List Nat) (order : List Stroke) (b : Nat) : Bool :=
  if d.decide == 0xFFFF then true else
  let fb := pointMhz (d.bracketAt b).point
  let t := longest (longestPaths order (fun s => scaled s b fb 1) fun s => s.kind != 12 && hasPath anc d.decide s.index)
  t.cyc == (d.bracketAt b).tailCyc && t.fix == (d.bracketAt b).tailFix

/-! ### FIT_INKWELL (R55, R213, R215, R240) -/

def allocSpans (a : Alloc) : List Nat := spansOf { space := 0, access := 0, core := a.core, len := a.len / 64, base := a.base }
def inkwellOk (c : Channel) : Bool :=
  let al := c.img.allocs
  let d := c.img.ductus
  let strokes := (d.map (·.strokes)).getD []
  c.img.allocsOk && al.all (fun a => a.rsvdOk && a.base % 64 == 0 && a.len % 64 == 0 && decide (64 ≤ a.len) && decide (a.core ≤ 3)
      && decide (a.base + a.len ≤ inkSize) && (!a.preload || (c.img.dataDest.any fun x => x.1 == a.section_ && decide (a.soffset + a.len ≤ x.2.2)) && a.soffset % 64 == 0))
    && ((al.zipIdx).all fun (a, i) => (al.drop (i + 1)).all fun b => a.core != b.core || disjoint a.base a.len b.base b.len)
    && !(al.any fun a => a.exemplar && (allocSpans a).any fun sp => strokes.any fun s => (strokeSpans s).contains sp)
    && !(strokes.any fun s => s.pdpoint && al.any fun a => (a.keep || a.preload || a.exemplar) && (allocSpans a).any (bitOf s.pdword))

/-! ### FIT_TABLE (R114, R132, R138, R145, R222, R248, R314, R353, R406, R431, R471, R472) -/

def regionOk (tenant : Nat) (r : Region) : Bool :=
  r.rsvdOk && r.base % 64 == 0 && r.len % 64 == 0 && decide (1 ≤ r.len) && decide (r.stop ≤ hbmSize) && r.tenant == tenant && decide (r.tenant ≤ 7)
def setOk (f : Front) (r : SetRec) (i : Nat) : Bool :=
  if i != 0 && r.parent == 0xFF then true else
  let st := [(r.sx, r.kx), (r.sy, r.ky), (r.sz, r.kz)]
  (if i == 0 then r.parent == 0xFF && r.cap == 1048576
   else decide (r.parent < i) && (r.parent == 0 || (f.sets[r.parent]?).any fun p => p.parent != 0xFF))
    && st.all (fun (s, k) => decide (1 ≤ s) && decide (s ≤ 4) && decide (s ≤ k)) && decide (1 ≤ r.cap) && decide (r.cap ≤ 1048576)
    && r.keylist % 64 == 0 && decide (f.features + 67108864 + r.keylist + 8 * r.cap ≤ hbmSize)
/-- R138. DESIGN CHOICE (log 20): the worst pair count divided by n is rounded up; the rule does not say how a count that is no whole number
rounds. -/
def rulingFits (f : Front) (r : RulingRec) : Bool :=
  let s := rulShape f r
  let n := max r.parts.length 1
  let cap := fun k => ((f.sets[k]?).map (·.cap)).getD 0
  let pairs := if r.rtype == 0 then ceilDiv (cap s.outSet * (s.size - 1)) n
    else ceilDiv (cap s.inSet * (ceilDiv s.kx s.sx * ceilDiv s.ky s.sy * ceilDiv s.kz s.sz)) n
  decide (r.rtype < 2) && r.parts.all fun p => decide ((8 * pairs + 8 * s.size - p.inkLen + 63) / 64 * 64 ≤ p.spillLen)
/-- The checks of the FRONT section (R113, R132, R133, R138). DESIGN CHOICE (log 20): a FEAT entry above 31 (bits 7:5) or an entry that is
not 0 past NF is refused with FIT_TABLE; no rule names an outcome. -/
def frontOk (f : Front) : Bool :=
  let between := fun (lo hi x : Nat) => decide (lo ≤ x) && decide (x ≤ hi)
  [f.edgeX, f.edgeY, f.edgeZ].all (between 5 2000) && [f.extX, f.extY, f.extZ].all (between 1 32768) && between 1 32 f.nf
    && between 1 144 f.missRatio && f.celltab % 2097152 == 0 && (f.feat.zipIdx).all (fun (b, i) => decide (b.toNat < 32) && (i < f.nf || b == 0#8))
    && (frontAreas f).all (fun a => decide (a.1 + a.2 ≤ hbmSize))
    && (((frontAreas f).zipIdx).all fun (a, i) => ((frontAreas f).drop (i + 1)).all fun b => disjoint a.1 a.2 b.1 b.2)
    && ((f.sets.zipIdx).all fun (r, i) => setOk f r i) && decide (f.rulings.length ≤ 16) && f.rulings.all (rulingFits f)
    && decide ((f.cameras.map fun k => f.bevW * f.bevH * k.heights.length).foldl (· + ·) 0 ≤ 4194304)
def timeOk (t : TimeCfg) : Bool :=
  let between := fun (lo hi x : Nat) => decide (lo ≤ x) && decide (x ≤ hi)
  t.rsvdOk && decide (t.domain ≤ 127) && between 2 255 t.lossN && between 1000 1000000 t.intervalUs && between 100 100000 t.tcMs
    && between 100 1000000000 t.stepMax && between 10 1000000 t.delayMax && !(t.master && t.peer) && !(t.master && !t.ring)
def dataOk (c : Channel) : Bool :=
  c.img.dataDest.all fun (_, dest, len) => decide (dest + len ≤ ringArea) && c.img.regions.any fun r => r.holds dest len
def tableOk (c : Channel) (tenant : Nat) : Bool :=
  c.img.regionsOk && c.img.chanRsvdOk && decide (1000 ≤ c.img.hbTimeoutUs) && decide (c.img.hbTimeoutUs ≤ 1000000)
    && c.img.regions.all (regionOk tenant) && c.img.front.all frontOk && c.img.time.all timeOk && dataOk c
    && (match c.img.scribe with
        | some sc => scribeOk sc && (match c.img.safety with
          | some sf => safetyOk sf sc.kin sc.therm c.rings
          | none => false)
        | none => false)

/-! ### FIT_RING (R220, R314, R431, R521) -/

/-- One descriptor that is not all zeros. OWNER is judged whether the ring is enabled or not (R431). -/
def ringOk (c : Channel) (tenant : Nat) (r : Ring) : Bool :=
  let ops := r.opmask.toNat
  let only := fun (mask : Nat) => ops &&& mask == ops
  let names := fun (p : Region → Bool) => (c.region r.region).any fun g => p g && g.tenant == r.tenant
  r.tenant == tenant && (!r.enabled || (if r.num == 0 then r.bidir && !r.out && only 0x3FFE
        else !r.bidir && (if !r.out then only 0x27E else if r.hairpin then ops == 0 else only 0x8E))
    && (r.out || ((ops &&& 0x0E == 0 || names (·.input)) && (ops &&& 0x220 == 0 || names (·.hostw)))))
def ringsFit (c : Channel) (tenant : Nat) : Bool :=
  let out := fun (n bit : Nat) => c.rings.any fun r => r.num == n && r.enabled && r.out && n != 0 && r.opmask.getLsbD bit
  c.img.ringsOk && (c.rings.any fun r => r.num == 0 && r.enabled) && c.rings.all (ringOk c tenant)
    && !(c.img.regions.any fun g => decide (ringArea < g.stop))
    && (c.img.scribe.all fun sc => out sc.envRing 1 && (c.rings.any fun r => r.num == sc.envRing && r.cls == 0) && out sc.resultRing 2)

/-! ### FIT_WINDOW (R415) and FIT_FILTER (R132, R138) -/

def windowsOk (c : Channel) (tenant : Nat) : Bool :=
  c.img.peer.all fun p => p.rsvdOk && decide (p.windows ≤ 64) && decide (1000 ≤ p.graceUs) && decide (p.graceUs ≤ 1000000) && p.wins.all fun w =>
    ((c.region w.region).any fun r => r.peerw && r.tenant == tenant && decide (320 ≤ r.len)) && w.expect &&& w.writers == w.expect
/-- FIT_FILTER of the rulings (R134, R138); an even or zero component of a submanifold kernel is refused so too (log 20). -/
def filterOk (f : Front) : Bool :=
  ((f.sets.zipIdx).all fun (r, i) => (i != 0 && r.parent == 0xFF) || (decide (r.kx ≤ 5) && decide (r.ky ≤ 5) && decide (r.kz ≤ 5)))
    && f.rulings.all fun r => decide ((rulShape f r).size ≤ 125)
      && (r.rtype != 0 || [r.kx, r.ky, r.kz].all fun k => k % 2 == 1 && decide (k ≤ 5))

/-! ### Step 9 -/

def tickOk (i : Image) : Bool :=
  decide (25000 ≤ i.periodNs) && decide (i.periodNs ≤ 1000000000) && decide (i.tickSrc ≤ 1)
    && (if i.tickSrc == 0 then decide (i.phaseNs < i.periodNs) else decide (1 ≤ i.tickTol) && decide (i.tickTol ≤ 100) && decide (i.tickN ≤ 16))

def ductusWhys (m : Ch) (c : Channel) (d : Ductus) (arrays fuse : Nat) : List Why :=
  let anc := ancestors d
  let order := topoOrder d anc
  let bs := List.range (min d.nbrackets 4)
  let early := c.img.earliest
  [ whyIf (d.nstrokes == 0 || Nat.blt 4096 d.nstrokes || !d.lenOk) 0x21,
    whyIf ((d.strokes.filter (·.kind == 11)).length != 1) 0x21,
    leastWhy ((d.strokes.zipIdx).map fun (s, i) => strokeWhy c d arrays fuse anc m s i),
    (match c.img.scribe with
      | some sc => modelsWhy sc d anc
      | none => some 0x21),
    ownedWhy d, tilesWhy c d anc order,
    whyIf (d.strokes.any fun s => hasPath anc s.index s.index || s.preds.any fun p => Nat.ble d.nstrokes p) 0x22,
    unorderedWhy c d anc,
    whyIf (!(bracketsOk d anc)) 0x24, whyIf (bs.any fun b => !(tailOk d anc order b)) 0x24,
    whyIf (bs.any fun b => Nat.blt 7 (d.bracketAt b).point) 0x25,
    whyIf (bs.any fun b => !(fitTime d anc order early b)) 0x26,
    whyIf (bs.any fun b => exemplarLate d early b) 0x27 ]

/-- The exemplar's header, and its input and output within each core's EXEMPLAR allocation (R470; log 20). -/
def exemplarWhy (i : Image) : Why :=
  whyIf (!(i.exemplar.all fun e => e.hdrOk && (i.allocs.filter (·.exemplar)).all fun a =>
    decide (e.input.length ≤ a.len) && decide (e.outOffset + 4 * e.elements ≤ a.len))) 0x21

/-- The load checks of step 9. -/
def loadWhy (m : Ch) (c : Channel) (arrays fuse : Nat) : Why :=
  let tenant := c.img.tenant.getD 0
  leastWhy ([whyIf (!(tickOk c.img)) 0x20,
    whyIf (!(inkwellOk c)) 0x28, whyIf (!(tableOk c tenant)) 0x29,
    (c.img.sitemap.bind fun s => sitemapWhy c tenant s),
    whyIf (!(ringsFit c tenant)) 0x2A, whyIf (!(windowsOk c tenant)) 0x2B, whyIf (!(c.img.front.all filterOk)) 0x2C,
    exemplarWhy c.img]
    ++ (match c.img.ductus with
        | some d => ductusWhys m c d arrays fuse
        | none => [some 0x21]))

end Sys2Proof.Machine
end

