-- ==== Sys2Proof/Machine/Boot.lean ====
section
/-! DEFINITION. Start-up (chapter "Start-up, configuration image, power and clocks"): PORST (R457 to R459), the steps of
R473 from BOOT to READY, the opening of sessions (R437), and power reservations (R484, R485). -/
namespace Sys2Proof.Machine

/-! ### Sessions (R432, R437) -/

/-- A new session of a tenant: a fresh key pair and secret (log 3), the next serial, K_0 as generation 0. -/
def Hw.newSession (tenant : Nat) (hw : Hw) : Hw :=
  let sg := hw.dev.signet
  let serial := (sg.sessionCtr + 1) % 2 ^ 32
  let hw := hw.modSig fun s => { s with sessionCtr := serial, fresh := s.fresh + 2 }
  let k0 := Key.session hw.dev.fuses.deviceId (sg.fresh + 1) tenant serial
  hw.modSession tenant fun s =>
    { s with isOpen := true, serial := serial, ekD := sg.fresh, ss1 := sg.fresh + 1, oldSs := (if s.isOpen then s.ss1 :: s.oldSs else s.oldSs), genCur := 0, keyCur := k0, genPrev := 0,
             keyPrev := .zeros, prevLive := false }
/-- The Signet accepts the tenant's EK_T: its first session opens (R437), with SESSION_OPEN. -/
def Hw.openSession (tenant : Nat) (ekT : List Byte) (hw : Hw) : Hw :=
  let hw := (hw.modSession tenant fun s => { s with ekT := some ekT }).newSession tenant
  hw.raiseDev .note 0xD0 initSignet (some tenant) (some (hw.session tenant).serial)

/-! ### Power (R19, R482, R484, R485) -/

/-- The channel reservation of a point, in 0.1 W. -/
def pointPower (p : Nat) : Nat := [134, 158, 190, 230, 274, 342, 430, 510].getD p 510
def standing : Nat := 370
/-- The standing reservation and all held reservations. -/
def Hw.reserved (hw : Hw) : Nat := standing + (chans.map fun m => ((hw.ch m).resv).getD 0).foldl (· + ·) 0
def Channel.need (c : Channel) : Nat := (c.img.ductus.map fun d => pointPower d.worst.point).getD 0
def Hw.fitsPower (m : Ch) (hw : Hw) : Bool :=
  let c := hw.ch m
  (c.img.chCap == 0 || decide (c.need ≤ c.img.chCap)) && decide (hw.reserved + c.need ≤ hw.dev.capDw)

/-! ### PORST (R457 to R459, R505) -/

/-- PORST_N rises: rails and clocks have been within limits for 1 ms (R456, R488). -/
def execPorstRelease (t : Nat) (testMode : Bool) (s : State) : Host.Outcome State Fault Refusal :=
  s.run t fun hw =>
    if hw.dev.porstN then hw
    else hw.modDev fun d => { d with porstN := true, testMode := testMode, porstAt := hw.now, rails := 0xFF#8, vio18Ok := true, vio33Ok := true, refclkOk := true,
                                     marginClkOk := true, ucieLock := true }

/-- A channel as PORST_N falls: only the xSPI memory is as it was; the pins go to their levels of OFF. -/
def Channel.unpowered (now : Nat) (c : Channel) : Channel :=
  { Channel.reset with nvm := { Nvm.reset with cells := c.nvm.cells, size := c.nvm.size }, pinFrom := if c.pinAt = now then c.pinFrom else c.pins, pinAt := now }
/-- What survives PORST_N low: fuses, the xSPI memories and the state of VIO's supplies; the model's own counters go on. -/
def Hw.powerDown (hw : Hw) : Hw :=
  { hw with
    dev := { Device.reset with fuses := hw.dev.fuses, signet := { Signet.reset with fresh := hw.dev.signet.fresh }, vio18Ok := hw.dev.vio18Ok,
                               vio33Ok := hw.dev.vio33Ok }
    due := []
    ch0 := hw.ch0.unpowered hw.now, ch1 := hw.ch1.unpowered hw.now, ch2 := hw.ch2.unpowered hw.now, ch3 := hw.ch3.unpowered hw.now }

/-- PORST_N falls: every channel is in OFF at once, every session ends (R459). Commands of the same cycle are dropped: a sector that a
LEAVE_MAINT of it programmed is as before (R463; log 21). -/
def execPorst (t : Nat) (s : State) : Host.Outcome State Fault Refusal := s.run t fun hw => (hw.undoAll 1).powerDown

/-- The fuses are read; DEV_FAULT_N is released unless VAUX or MARGIN_CLK is out of limits (R347, R505). -/
def execFusesRead (t : Nat) (s : State) : Host.Outcome State Fault Refusal :=
  s.run t fun hw =>
    if hw.dev.porstN && !hw.dev.testMode && !hw.dev.signet.fusesRead then
      (hw.modSig fun g => { g with fusesRead := true }).modDev fun d =>
        { d with faultLow := d.deviceStop || !(d.rails.getLsbD 1) || !d.marginClkOk }
    else hw

/-- The identity key pair is ready (R444, R458). -/
def execSignetReady (t : Nat) (s : State) : Host.Outcome State Fault Refusal :=
  s.run t fun hw =>
    if hw.dev.porstN && !hw.dev.testMode && hw.dev.signet.fusesRead then hw.modSig fun g => { g with ready := true } else hw

/-- What a channel keeps of itself as it enters BOOT (R464, R498): its xSPI memory, timebase and training, what TMASTER said since it left
OFF, the owner slot and measurement of its last verification, memory contents that no one can read before LOAD clears them, monitor
conditions, and packets not yet through the dispatcher. -/
def Channel.restart (now : Nat) (c : Channel) : Channel :=
  { Channel.reset with
    startMark := now, nvm := { Nvm.reset with cells := c.nvm.cells, size := c.nvm.size }
    pinFrom := if c.pinAt = now then c.pinFrom else c.pins, pinAt := now, moved := some (now, 3)
    tb := { c.tb with rem := 0, past := { since := now, sub := c.tb.sub, rem := 0, rNum := 0, den := 1 } :: c.tb.past }
    ts := { TimeSrv.reset with tmaster := c.ts.tmaster, masterValid := c.ts.masterValid }
    boot := { Boot.reset with hbm := c.boot.hbm, measurement := c.boot.measurement, ownerSlot := c.boot.ownerSlot }
    mon := { c.mon with deviation := 0, deviationAt := 0 }, hbm := c.hbm, hbmPoison := c.hbmPoison
    core := c.core.map fun k => { CoreMem.reset with ink := k.ink, poison := k.poison }
    ctxWait := c.ctxWait }
/-- The timebase starts from zero as the channel leaves OFF (R389). -/
def Channel.startTime (now : Nat) (c : Channel) : Channel := { c with tb := { Timebase.reset with running := true } }.markTime now

/-- Channel m's uncore regulator is within limits, from (m + 1) ms after PORST_N rises: OFF to BOOT, the registers at their reset
values (R389, R458, R498). -/
def execUncoreUp (t : Nat) (ch : Ch) (s : State) : Host.Outcome State Fault Refusal :=
  s.run t fun hw =>
    let c := hw.ch ch
    if hw.dev.porstN && !hw.dev.testMode && c.st == .off && decide (hw.dev.porstAt + 1000000 * (ch.val + 1) ≤ hw.now) then
      (hw.modCh ch fun c => { (c.restart hw.now).startTime hw.now with startMark := hw.dev.porstAt, moved := none }).enter ch .boot 0
    else hw

/-! ### Refusal (R465, R473) -/

def Hw.refuse (m : Ch) (reason : Nat) (sect : Option Nat) (hw : Hw) : Hw :=
  let hw := hw.modCh m fun c => { c with failSect := sect.getD c.failSect }
  (hw.enter m .refused reason).raise m .degraded 0xD8 initSignet (some reason) (some (sect.getD 0xFFFFFFFF))

/-! ### Steps 1 to 6 -/

/-- Bytes of the memory the device uses (R466, R467). -/
def Nvm.usable (n : Nvm) : Nat := (n.size.map fun s => min s 536870912).getD 0
def Nvm.read (n : Nvm) (a len : Nat) : List Byte := Cells.read norDefault n.cells a len

def magic : List Byte := [0x56#8, 0x41#8, 0x4C#8, 0x4F#8, 0x52#8, 0x44#8, 0x49#8, 0x4D#8]
/-- The image header as read: as many bytes as HDRLEN can count, at most 9,320 (R468). -/
def Nvm.header (n : Nvm) : Option (List Byte) :=
  n.size.map fun _ =>
    let fixed := n.read 0 1888
    let nsect := byteAt fixed 11
    let sig := field (n.read (1888 + 96 * nsect) 2) 0 2
    n.read 0 (1896 + 96 * nsect + sig)

/-- The requests in the order the Signet serves them: in order of request, those of one cycle the lower channel first (R458). -/
def Hw.request (m : Ch) (hw : Hw) : Hw :=
  let later := fun (x : Ch) => (hw.ch x).boot.reqAt == hw.now && decide (m.val < x.val)
  (hw.modCh m fun c => { c with boot := { c.boot with reqAt := hw.now } }).modSig fun g =>
    { g with queue := g.queue.filter (fun x => !(later x)) ++ m :: g.queue.filter later }
/-- SFDP discovery and the header read finish; the verification request is queued (R458, R466). -/
def execHeaderRead (t : Nat) (ch : Ch) (s : State) : Host.Outcome State Fault Refusal :=
  s.run t fun hw =>
    let c := hw.ch ch
    if c.st == .boot && !c.boot.hdrSeen then
      (hw.modCh ch fun c => { c with boot := { c.boot with hdrSeen := true, header := c.nvm.header } }).request ch
    else hw

/-- How often a section type may stand: (least, most) (R470). -/
def occurs (ty : Nat) : Nat × Nat :=
  if ty == 7 || ty == 8 || ty == 12 then (0, 1) else if ty == 14 then (0, 51) else if 1 ≤ ty ∧ ty ≤ 13 then (1, 1) else (0, 0)
/-- Lengths that the section table fixes (R430, R470, R471). -/
def sectLenOk (e : SectEntry) : Bool :=
  match e.type with
  | 1 => e.len == 1600
  | 2 => e.len == 64
  | 4 => e.len == 4194304
  | 10 => e.len == 672
  | 11 => e.len == 32
  | _ => true
/-- The section rules of R470, and the entries' own limits (R469). -/
def sectionsOk (hdrlen imagelen : Nat) (es : List SectEntry) : Bool :=
  (es.map (·.type)).head? == some 1
    && ((List.range 256).all fun ty => let n := (es.filter (·.type == ty)).length; decide ((occurs ty).1 ≤ n) && decide (n ≤ (occurs ty).2))
    && (es.zip (es.drop 1)).all (fun (a, b) => decide (a.type ≤ b.type) && decide (a.offset < b.offset) && decide (a.offset + a.len ≤ b.offset))
    && es.all fun e => decide (hdrlen ≤ e.offset) && e.offset % 4096 == 0 && decide (e.offset + e.len ≤ imagelen) && e.rsvdOk && sectLenOk e
        && (if e.type == 14 then e.dest % 64 == 0 else e.dest == 0)

def verifyWhy (hw : Hw) (m : Ch) (sigOk : Bool) : Option Nat × Option Nat :=
  let c := hw.ch m
  match c.boot.header with
  | none => (some 0x01, none)
  | some h =>
    let nsect := byteAt h 11
    let siglen := field h (1888 + 96 * nsect) 2
    let hdrlen := field h 12 4
    let imagelen := field h 16 4
    let slots := hw.dev.fuses.slots
    let dig := Shake.shake256 32 (bytesAt h 64 1793)
    let slot := (List.range slots.length).find? fun i => (slots[i]?).any fun s => s.provisioned && !s.revoked && s.digest == dig
    if bytesAt h 0 8 != magic then (some 0x01, none)
    else if !(field h 8 2 == 1 && decide (1 ≤ nsect) && decide (nsect ≤ 64) && decide (1 ≤ siglen) && decide (siglen ≤ 1280)
        && hdrlen == 1896 + 96 * nsect + siglen && decide (imagelen ≤ c.nvm.usable) && zeroAt h 20 44 && zeroAt h 1857 31
        && zeroAt h (1890 + 96 * nsect) 6 && sectionsOk hdrlen imagelen (parseEntries h nsect)) then (some 0x02, none)
    else if byteAt h 10 != b2n hw.dev.fuses.grade1630 then (some 0x03, none)
    else match slot with
      | none => (some 0x04, none)
      | some i => if sigOk then (none, some i) else (some 0x05, none)

/-- Step 6, once the header is accepted and training has ended: LOAD, or HBM. -/
def Hw.step6 (m : Ch) (hw : Hw) : Hw :=
  let c := hw.ch m
  if c.st == .boot && c.boot.verified then
    match c.boot.hbm with
    | some true => hw.enter m .load 0
    | some false => hw.refuse m 0x06 none
    | none => hw
  else hw

/-- The Signet serves the request at the front of its queue: steps 1 to 5. Step 5 fixes slot and measurement (R447). -/
def execImageVerify (t : Nat) (sigOk : Bool) (s : State) : Host.Outcome State Fault Refusal :=
  s.run t fun hw =>
    if !hw.dev.signet.ready then hw else
    match hw.dev.signet.queue with
    | [] => hw
    | m :: rest =>
      let hw := hw.modSig fun g => { g with queue := rest }
      if (hw.ch m).st != .boot then hw else
      match verifyWhy hw m sigOk with
      | (some why, _) => hw.refuse m why none
      | (none, slot) =>
        let h := ((hw.ch m).boot.header).getD []
        let es := parseEntries h (byteAt h 11)
        let meas := Shake.shake256 64 (h ++ es.flatMap (·.digest) ++ [BitVec.ofNat 8 (slot.getD 0)])
        let hw := hw.modCh m fun c =>
          { c with slot := slot, boot := { c.boot with verified := true, ownerSlot := slot, measurement := meas, sects := es, nsect := es.length,
                                                       imageLen := field h 16 4 } }
        hw.step6 m

/-- Training of the channel's four HBM3 channels ends (step 6). -/
def execHbmTrained (t : Nat) (ch : Ch) (ok : Bool) (s : State) : Host.Outcome State Fault Refusal :=
  s.run t fun hw =>
    let c := hw.ch ch
    if c.st == .boot && c.boot.hbm.isNone then (hw.modCh ch fun c => { c with boot := { c.boot with hbm := some ok } }).step6 ch else hw

/-! ### Steps 7 and 8 -/

/-- R475: zeros in HBM, the Inkwells and the Reservoirs; the zeros of HBM are bytes written (R501). -/
def execLoadClear (t : Nat) (ch : Ch) (s : State) : Host.Outcome State Fault Refusal :=
  s.run t fun hw =>
    let c := hw.ch ch
    if c.st == .load && !c.boot.cleared then
      hw.modCh ch fun c =>
        { c.bump .perfHbmWr hbmSize with hbm := [], hbmPoison := [], core := List.replicate 4 .reset, boot := { c.boot with cleared := true } }
    else hw

/-- A camera before any CALIB record (log 5). -/
def CamCal.reset : CamCal := { intr := List.replicate 8 0, extr := identityPose, gen := 0, active := 0, genActive := 0, genOther := 0 }

/-- The matched content takes effect (R472, R474); a DATA section goes to HBM (R501), the ring table at step 10. -/
def Channel.takeSection (e : SectEntry) (idx : Nat) (b : List Byte) (c : Channel) : Channel :=
  let c := { c with img := c.img.withSection e idx b }
  match e.type with
  | 4 => { c with rings := parseRings b }
  | 7 => { c with front := { c.front with cams := (c.img.front.map fun f => f.cameras.map fun _ => CamCal.reset).getD [] } }
  | 8 => { c with map := { c.map with tables := (c.img.sitemap.map fun sm => sm.tables.map fun _ => TableSt.reset).getD [] } }
  | 14 => if e.dest + b.length ≤ hbmSize then (c.storeHbm e.dest b none).bump .perfHbmWr b.length else c
  | _ => c

/-- The next section's digest is compared (R447, R474); a TENANT section is also held against the tenant's EK_T (R432). -/
def execSectionMatch (t : Nat) (ch : Ch) (s : State) : Host.Outcome State Fault Refusal :=
  s.run t fun hw =>
    let c := hw.ch ch
    if !(c.st == .load && c.boot.cleared) then hw else
    match c.boot.sects[c.boot.nextSect]? with
    | none => hw
    | some e =>
      let i := c.boot.nextSect
      let b := c.nvm.read e.offset e.len
      if Shake.shake256 64 b != e.digest then hw.refuse ch 0x07 (some i) else
      let tenant := byteAt b 0
      let ek := bytesAt b 32 1568
      let known := (hw.session tenant).ekT
      if e.type == 1 && known.isSome && known != some ek then hw.refuse ch 0x30 (some i) else
      let hw := if e.type == 1 && known.isNone && decide (tenant < 8) then hw.openSession tenant ek else hw
      hw.modCh ch fun c => { c.takeSection e i b with boot := { c.boot with nextSect := i + 1 } }

/-! ### Steps 9 to 11 -/

/-- Step 9 (R55). -/
def execLoadCheck (t : Nat) (ch : Ch) (s : State) : Host.Outcome State Fault Refusal :=
  s.run t fun hw =>
    let c := hw.ch ch
    if c.st == .load && c.boot.cleared && c.boot.nextSect == c.boot.nsect && !c.boot.checked then
      match loadWhy ch c (if hw.dev.fuses.grade1630 then 3 else 4) hw.dev.fuses.arrayFuse.toNat with
      | some why => hw.refuse ch why none
      | none => hw.modCh ch fun c => { c with boot := { c.boot with checked := true } }
    else hw

/-- The exemplar's input fills its allocation on every core; the CRC is formed from the references (R365, R470). -/
def Channel.loadExemplar (c : Channel) : Channel :=
  match c.img.exemplar, c.img.safety with
  | some e, some sf =>
    let c := { c with img := { c.img with exemplar := some { e with crc := exCrc sf e.refs } } }
    (c.img.allocs.filter (·.exemplar)).foldl (fun c a =>
      c.modCore a.core fun k => { k with ink := Cells.write ramDefault k.ink a.base (e.input.take a.len) }) c
  | _, _ => c
def Channel.refsOk (c : Channel) : Bool :=
  match c.img.exemplar, c.img.safety with
  | some e, some sf => exRefsOk sf e.refs
  | _, _ => false

/-- Step 10: PRELOAD, the exemplar's input, and the ring table into the ring area (R220, R473). -/
def Channel.stepTen (now : Nat) (c : Channel) : Channel :=
  { ((c.preload).loadExemplar).bump .perfHbmWr (hbmSize - ringArea) with ringsLoaded := true, boot := { c.boot with checkAt := some now } }
/-- READY: the reservation is held, input is taken from now on (R35, R462, R485). -/
def Hw.toReady (m : Ch) (hw : Hw) : Hw :=
  let f := fun (c : Channel) =>
    { c with resv := some c.need, startUs := min ((hw.now - c.startMark) / 1000) (2 ^ 32 - 1), hbSinceReady := false, hbLast := none,
             tick := .reset, duct := { Duct.reset with bracket := (c.img.ductus.map (·.nbrackets)).getD 1 - 1 } }
  (hw.modCh m f).enter m .ready 0

/-- Refused by the power check (R19). -/
def Channel.overCap (c : Channel) : Bool := c.st == .refused && c.reason == 0x31#8 && c.resv.isNone
/-- The channels above `m` that the power check has judged in the same cycle: they are judged after it (R19; log 21). -/
def Hw.checkedAfter (m : Ch) (hw : Hw) : List Ch :=
  chans.filter fun x => decide (m.val < x.val) && ((hw.ch x).st == .ready || (hw.ch x).overCap) && (hw.ch x).boot.checkAt == some hw.now
/-- Without the reservations of those. -/
def Hw.aside (m : Ch) (hw : Hw) : Hw := (hw.checkedAfter m).foldl (fun h x => h.modCh x fun c => { c with resv := none }) hw
/-- The STATUS of a state that was not entered after all does not leave. -/
def Channel.unsay (st : ChState) (c : Channel) : Channel :=
  { c with outq := c.outq.filter fun p => match p.body with
      | .status 1 x .. => x != st
      | _ => true }
/-- READY was not reached after all (R19). -/
def Channel.unready (c : Channel) : Channel := { c.unsay .ready with startUs := 0, duct := .reset }
/-- The record of a refusal by the power check. -/
def ErrRec.overCap (x : Ch) (r : ErrRec) : Bool := r.code == 0xD8#8 && r.channel == some x && r.detail0 == some 0x31#32
/-- A refusal by the power check did not happen after all: its STATUS and its record do not leave, and the summary bit that it set, where
no other DEGRADED record of this ns sets it and none waits, is as before (R19; log 21). -/
def Channel.unrefused (x : Ch) (c : Channel) : Channel :=
  let q := c.errq.filter fun e => !(e.carry == .waiting && e.record.overCap x)
  let fresh := c.fresh.erase (some .sumDegraded)
  let keep := fresh.contains (some .sumDegraded) || q.any fun e => e.record.severity == .degraded
  { c.unsay .refused with errq := q, fresh := fresh, sticky := if keep then c.sticky else setAt c.sticky (Sticky.sumDegraded).ctorIdx false }
def Hw.unrefuse (x : Ch) (hw : Hw) : Hw :=
  (hw.modCh x (Channel.unrefused x)).modSig fun g => { g with log := g.log.filter fun r => !(r.overCap x && r.time == compact (hw.ch x).local) }
/-- A channel that the check has judged already is judged beside the reservations of the lower ones. -/
def Hw.judgeAgain (x : Ch) (hw : Hw) : Hw :=
  let fits := ((hw.modCh x fun c => { c with resv := none }).aside x).fitsPower x
  if (hw.ch x).st == .ready then
    if fits then hw.modCh x fun c => { c with resv := some c.need } else (hw.modCh x Channel.unready).refuse x 0x31 none
  else if fits then (hw.unrefuse x).toReady x else hw

/-- Step 10: PRELOAD copies, the ring table, the exemplar references (R366); then step 11, the reservation (R19, R484). -/
def execPreloadCopy (t : Nat) (ch : Ch) (s : State) : Host.Outcome State Fault Refusal :=
  s.run t fun hw =>
    let c := hw.ch ch
    if c.st == .load && c.boot.checked then
      let hw := hw.modCh ch (Channel.stepTen hw.now)
      if !(hw.ch ch).refsOk then hw.refuse ch 0x21 none
      else if !((hw.aside ch).fitsPower ch) then hw.refuse ch 0x31 none
      else (hw.checkedAfter ch).foldl (fun h x => h.judgeAgain x) (hw.toReady ch)
    else hw

end Sys2Proof.Machine
end

