-- ==== Sys2Proof/Machine/Tick.lean ====
section
/-! DEFINITION. The tick boundary (R29 to R35, R61 to R65, R345): the frame in progress is judged and published, carried
state is swapped, the channel changes state, and the next frame is latched. -/
namespace Sys2Proof.Machine

/-! ### Heartbeats (R91) -/

/-- ns of real time since the last accepted HEARTBEAT, when more than HB_TIMEOUT. -/
def Hw.hbLapse (m : Ch) (hw : Hw) : Option Nat :=
  let c := hw.ch m
  match c.hbLast with
  | some t => if c.img.hbTimeoutUs * 1000 < hw.now - t then some (hw.now - t) else none
  | none => none
/-- HEARTBEAT_MISSING while the lapse lasts: the doubt, and one record for each lapse. -/
def Hw.hbCheck (m : Ch) (hw : Hw) : Hw :=
  match hw.hbLapse m with
  | none => hw
  | some ns =>
    let said := (hw.ch m).grd.hbRaised
    let hw := hw.modCh m fun c => { c.doubt .heartbeat with grd := { c.grd with hbRaised := true } }
    if said then hw else hw.raise m .doubt 0x98 initDisp (some (ns / 1000)) none

/-! ### Publishing frame k (R34, R65, R104, R340 to R342, R345) -/

/-- R65: the deadline is judged; answers whether a stroke was abandoned. -/
def Hw.judgeDeadline (m : Ch) (hw : Hw) : Hw :=
  let c := hw.ch m
  let left := c.strokesLeft
  let ex := c.exMissing
  if left.isEmpty && ex.isEmpty then hw
  else
    (hw.modCh m fun c => ((c.doubt .deadlineMiss).stick .missed).bump .ductMiss 1).raise m .doubt 0x93 (initScribe m)
      (some (left.head?.getD 0xFFFFFFFF)) (some (ex.foldl (fun a j => a + 2 ^ j) 0))
/-- R363: a frame that was not compared carries RECOVERING while A is below H. -/
def Channel.notCompared (c : Channel) : Channel := if c.duct.verdict.isNone && c.recovering then c.doubt .recovering else c

/-- R34: MAIN needs every stroke done, no doubt, and a MAIN record; a channel in MARGIN publishes Margin's (R460). -/
def Channel.mainOk (c : Channel) : Bool := c.st == .run && c.doubtP == 0#32 && c.duct.main.isSome && c.strokesLeft.isEmpty && c.exMissing.isEmpty

def EnvRec.health (r : EnvRec) : HealthVals :=
  { healthMin := r.healthMin, healthSwitch := r.healthSwitch, lifeMin := r.lifeMin, tjMax := r.tjMax, tjSwitch := r.tjSwitch,
    capMin := r.capMin, esrMax := r.esrMax }

/-- The record the selector publishes for the frame in progress; `forceStop` makes it Margin's with STOP. -/
def Hw.select (m : Ch) (forceStop : Bool) (hw : Hw) : EnvRec :=
  let c := hw.ch m
  match c.duct.main with
  | some r => if c.mainOk && !forceStop then r else { hw.marginRecord m forceStop with healthOld := true }
  | none => hw.marginRecord m forceStop

/-- Record and pins of frame k at boundary time `loc`. -/
def Hw.publishEnv (m : Ch) (loc : Nat) (forceStop : Bool) (hw : Hw) : Hw :=
  let c := hw.ch m
  let r := hw.select m forceStop
  let tag := BitVec.ofNat 32 c.tick.k
  let now := hw.now
  let hw := hw.modCh m fun c =>
    let c := (c.bump (if r.fromMargin then .envMargin else .envMain) 1).setPins now { ok := !r.fromMargin, margin := r.fromMargin, stop := r.stop }
    { c with
      env := { c.env with source := r.fromMargin, stop := r.stop, healthOld := r.healthOld, lastK := r.k }
      scribe := if r.fromMargin then c.scribe else { c.scribe with mainHealth := some r.health } }
  match c.img.scribe with
  | some sc => hw.outPush m { body := .envelope r, ring := sc.envRing, frametag := tag, reports := some (compact loc), eom := true }
  | none => hw

/-- R65, R104: the RESULT of frame k. -/
def Channel.resultOf (c : Channel) : Option ResultRec :=
  if !c.strokesLeft.isEmpty then some { k := c.tick.k, rstate := 1, detections := none, free := none, health := none }
  else c.duct.result.map fun r => { r with rstate := if c.doubtP == 0#32 then 0 else 2 }
def Hw.publishResult (m : Ch) (loc : Nat) (hw : Hw) : Hw :=
  let c := hw.ch m
  match c.resultOf, c.img.scribe with
  | some r, some sc =>
    hw.outPush m { body := .result r, ring := sc.resultRing, frametag := BitVec.ofNat 32 c.tick.k, reports := some (compact loc), eom := true }
  | _, _ => hw

/-- The frame in progress ends at `loc`. A FENCED channel publishes nothing; its pins follow Margin's record (R428). -/
def Hw.closeFrame (m : Ch) (loc : Nat) (forceStop : Bool) (hw : Hw) : Hw :=
  let hw := hw.hbCheck m
  if (hw.ch m).st == .fenced then
    let r := hw.marginRecord m forceStop
    hw.modCh m (Channel.setPins hw.now { ok := false, margin := true, stop := r.stop })
  else
    let hw := (hw.judgeDeadline m).modCh m Channel.notCompared
    let force := forceStop || (hw.ch m).stopPending.isSome
    (hw.publishEnv m loc force).publishResult m loc

/-! ### Changes of state at the boundary -/

/-- A window opens: its lag counts start at 0 (R421, R422). -/
def Channel.openWindow (w : Nat) (c : Channel) : Channel :=
  match c.img.peer.bind fun p => p.wins[w]? with
  | none => c
  | some x =>
    let ps := (List.range 8).filter fun p => x.expect.getLsbD p
    { c with peer := { c.peer with winOpen := insertNat c.peer.winOpen w,
                                   lag := (c.peer.lag.filter fun l => l.1 != w) ++ ps.map fun p => (w, p, 0) } }
/-- A close takes effect in one cycle: a frame of that cycle is accepted still (R422). -/
def Channel.closeWindow (w : Nat) (c : Channel) : Channel :=
  { c with shut := if c.peer.winOpen.contains w then w :: c.shut else c.shut, peer := { c.peer with winOpen := c.peer.winOpen.filter (· != w), lag := c.peer.lag.filter fun l => l.1 != w } }
/-- R422: windows with OPEN_AT_RUN that are closed open as the channel enters RUN. -/
def Channel.openAtRun (c : Channel) : Channel :=
  let ws := ((c.img.peer.map (·.wins)).getD []).zipIdx
  (ws.filter fun (x, w) => x.openAtRun && !(c.peer.winOpen.contains w)).foldl (fun c x => c.openWindow x.2) c

/-- RUN, with A as given (R363); a fenced unit or the latent alarm keeps the channel in MARGIN (R364, R383). -/
def Hw.toRun (m : Ch) (a : Nat) (hw : Hw) : Hw :=
  let hw := hw.modCh m fun c => { c with mrg := { c.mrg with a := a } }
  let hw := (hw.enter m .run 0).modCh m Channel.openAtRun
  let c := hw.ch m
  if c.mrg.latent || !c.fenced.isEmpty then hw.enter m .margin 0 else hw

/-- R364: at the boundary after LATENT is cleared the alarm ends. -/
def Channel.endAlarm (c : Channel) : Channel :=
  if c.mrg.latentClear then { c with mrg := { c.mrg with latent := false, latentClear := false, events := [], a := 0 } } else c

/-- State changes due at a boundary of a ticking channel, STOPPED before FENCED's return, MARGIN and RUN (R463). -/
def Hw.boundaryState (m : Ch) (hw : Hw) : Hw :=
  let was := (hw.ch m).mrg.latentClear
  let hw := hw.modCh m Channel.endAlarm
  let c := hw.ch m
  match c.stopPending with
  | some code => (hw.modCh m fun c => { c with stopPending := none }).enter m .stopped code.toNat
  | none =>
    match c.st with
    | .fenced => if c.resv.isSome then hw.toRun m 0 else hw
    | .margin => if was && c.fenced.isEmpty then hw.toRun m 0 else hw
    | .run => if c.mrg.latent || !c.fenced.isEmpty then hw.enter m .margin 0 else hw
    | _ => hw

/-! ### Latching frame k (R33) -/

/-- Doubts whose condition lasts as the frame begins (R351). -/
def Hw.lasting (m : Ch) (hw : Hw) : Channel → Channel := fun c =>
  let on := fun (b : Bool) (d : Doubt) (c : Channel) => if b then c.doubt d else c
  let c := ((((((c |> on (!c.mon.volt.isEmpty) .voltage) |> on (!c.mon.temp.isEmpty) .temperature) |> on (!c.mon.clock.isEmpty) .clock)
    |> on (c.mrg.latent || !c.fenced.isEmpty) .latentFault) |> on c.peer.grace.isSome .epoch)
    |> on (c.ts.state == .refusing) .timeStep) |> on (hw.hbLapse m).isSome .heartbeat
  if hw.linkAbsent m then c.inputLost else c

/-- Calibration takes effect (R66, R117, R144). -/
def Channel.takeCalib (c : Channel) : Channel :=
  let cams := (c.front.cams.zipIdx).map fun (cc, i) =>
    (c.cal.camNext.filter fun n => n.1 == i).foldl (fun cc n =>
      if n.2.1 == 0 then { cc with intr := n.2.2.take 8, gen := cc.gen + 1 } else { cc with extr := n.2.2.take 7, gen := cc.gen + 1 }) cc
  { c with front := { c.front with cams := cams },
           cal := { c.cal with poses := c.cal.posesNext.foldl (fun l p => assocSet l p.1 (p.2.take 7)) c.cal.poses, posesNext := [], camNext := [] } }

/-- R315: the accepted ranges of a machine state. -/
def machineOk (sc : ScribeCfg) (v : List Word) : Bool :=
  let g := fun i => v.getD i 0
  let mo := fun i => sc.motion.getD i 0
  let big : Word := 0x7F7FFFFF#32
  inF (mo 12) (mo 13) (g 0) && inF (F32.neg (fr 1 2)) (fr 1 2) (g 1) && inF 0 big (g 2) && inF 0 (fr 3 2) (g 3)
    && inF (F32.ofInt (-100)) (F32.ofNat 100) (g 4) && inF (F32.ofInt (-1)) F32.one (g 5) && inF (F32.neg (fr 12 10)) (fr 12 10) (g 6)
    && inF 0 (F32.ofNat 5) (g 7) && inF 0 (F32.ofNat 16777215) (g 14) && F32.eqv (F32.ofInt (F32.floorInt (g 14))) (g 14)
/-- MS_COUNT of two latched machine states is the same value (R316). -/
def sameCount (a b : List Word) : Bool := F32.eqv (a.getD 14 0) (b.getD 14 0)

/-- R316: the machine state is latched and judged. -/
def Hw.takeMachine (m : Ch) (hw : Hw) : Hw :=
  let c := hw.ch m
  let ms := c.cal.msNext.orElse fun _ => c.cal.ms
  let same := match c.cal.ms, ms with
    | some a, some b => if sameCount a b then c.cal.msSame + 1 else 0
    | _, _ => 0
  match c.img.scribe with
  | none => hw
  | some sc =>
    let good := ms.any (machineOk sc) && decide (same ≤ sc.msHold)
    let hw := hw.modCh m fun c => { c with cal := { c.cal with ms := ms, msNext := none, msSame := same, msValid := if good then ms else c.cal.msValid } }
    if sc.kin && !good then (hw.modCh m fun c => (c.doubt .machineState).stick .msBad).raise m .doubt 0x80 (initScribe m) none none else hw

/-- R88. -/
def Hw.expectCheck (m : Ch) (counts : List Ring) (hw : Hw) : Hw :=
  (counts.filter fun r => r.enabled && !r.out && decide (r.msgsOpen < r.expect)).foldl (fun h r =>
    (h.modCh m (Channel.doubt .staleInput)).raise m .doubt 0x97 (initIngest m) (some (ring18 m r.num)) (some 0)) hw

/-- R421: the lag of every expected writer. -/
def Channel.countLag (c : Channel) : Channel :=
  { c with peer := { c.peer with landed := [], lag := c.peer.lag.map fun (w, p, n) => (w, p, if c.peer.landed.contains (w, p) then 0 else n + 1) } }
def Channel.lateWriter (c : Channel) : Option (Nat × Nat) :=
  ((c.peer.lag.find? fun (w, _, n) => match c.img.peer.bind fun p => p.wins[w]? with
    | some x => x.maxLag != 0 && decide (x.maxLag < n)
    | none => false)).map fun (w, p, _) => (w, p)
def Hw.lagCheck (m : Ch) (hw : Hw) : Hw :=
  match (hw.ch m).lateWriter with
  | some (w, p) => (hw.modCh m fun c => (c.doubt .staleInput).stick .peerLate).raise m .doubt 0xCA (initPeer m) (some w) (some p)
  | none => hw

/-- The rings at T(k): counts of the closed frame end, readings are latched (R88, R340, R503). -/
def Ring.boundary (r : Ring) : Ring :=
  { r with msgsOpen := 0, tagClosed := r.tagOpen, tagOpen := none, latAccepted := r.accepted, latDiscarded := r.discarded, latGaps := r.gaps }

/-- The channel's own fields as frame `k` begins at `loc`: what the manual latches, and per-frame work made empty. Of a frame
that had completed its COMMIT and then abandoned a stroke, the committed copy stays (R33, R61, R64; log 29). -/
def Channel.beginFrame (now loc k : Nat) (c : Channel) : Channel :=
  let start := (c.img.ductus.map (·.startPoint)).getD 0
  let worst := (c.img.ductus.map (·.nbrackets)).getD 1 - 1
  let c := if c.duct.commitDone then { c with scribe := { c.scribe with cur := c.scribe.work } } else c
  let c := c.abandon
  { c with
    tick := { ticking := true, k := k, tkNow := now, tkLoc := loc, nextDue := c.img.nextDue loc, edges := 0, early := 0 }
    doubtP := c.doubtIn, doubtIn := 0, causesP := c.causesIn, causesIn := 0
    grd := { c.grd with overflow := c.grd.overflowIn, overflowIn := false, ceTick := [], fenceFirst := none, fenceHitsTick := 0 }
    duct := { Duct.reset with bracket := worst, point := (if c.st == .fenced then 0 else start), exFailLast := c.duct.exFailNow }
    front := { c.front with insDone := false, wPoints := 0, wCells := 0, wSweeps := 0, wMisses := 0, vox := [], placed := [], keys := [],
                            working := c.causesIn.setWidth 8 }
    scribe := { c.scribe with work := c.scribe.cur, out := .reset, modelRaised := false, tjRaised := false }
    -- a span that still waited for its last writes stays on (R241)
    core := c.core.map fun k => { k with spans := k.spans.map fun x => match x with
      | .draining _ | .kept => .on
      | x => x }
    -- the half that ingest of the open frame k + 1 fills is emptied
    input := c.input.filter fun h => h.half != (k + 1) % 2
    rings := c.rings.map Ring.boundary
    peer := { c.peer with refused := none, dropTick := [] }
    ctrLat := c.ctr }

/-- T(k): the closed frame is latched and becomes the frame in progress. -/
def Hw.startFrame (m : Ch) (k loc : Nat) (hw : Hw) : Hw :=
  let c0 := hw.ch m
  let absent := c0.absentRings
  let committed := c0.duct.commitDone || !c0.tick.ticking
  let hw := hw.modCh m fun c => (c.marginClose).beginFrame hw.now loc k
  let (n, hw) := hw.free
  let hw := hw.modCh m fun c => ((c.takeCalib).mapBoundary n k committed) |> hw.lasting m
  let hw := (hw.takeMachine m).expectCheck m c0.rings
  (hw.marginAbsent m absent).lagCheck m

/-- A boundary at local time `loc` of a ticking channel: publish, change state, then begin the next frame, or latch the coarse readings
where the channel ticks no more (R454, R503). -/
def Hw.boundary (m : Ch) (loc : Nat) (forceStop : Bool) (hw : Hw) : Hw :=
  let hw := (hw.closeFrame m loc forceStop).tickRecs m
  let k := (hw.ch m).tick.k
  -- the closed frame counts for the windows open in it, before the boundary opens others (R421)
  let hw := (hw.modCh m Channel.countLag).boundaryState m
  if (hw.ch m).st.ticks then
    let hw := hw.startFrame m (k + 1) loc
    (hw.exportDeltas m).modCh m Channel.formErr
  else hw.modCh m fun c => (c.abandon).latch

/-- T(0): READY to RUN with A = H (R35, R363, R462); pins are as in READY until T(1). -/
def Hw.firstBoundary (m : Ch) (loc : Nat) (hw : Hw) : Hw :=
  let h := if (hw.ch m).st == .fenced then 0 else ((hw.ch m).img.safety.map (·.h)).getD 3
  (((hw.tickRecs m).modCh m (Channel.setPins hw.now Pins.stopOnly)).toRun m h).startFrame m 0 loc

/-! ### What makes a boundary -/

/-- The last instant of R29 at or before local time. -/
def Channel.lastDue (c : Channel) : Nat := c.img.nextDue c.local - max c.img.periodNs 1
/-- With the timebase source (R29). -/
def execTickBoundary (t : Nat) (ch : Ch) (s : State) : Host.Outcome State Fault Refusal :=
  s.run t fun hw =>
    let c := hw.ch ch
    if c.img.tickSrc != 0 then hw
    else if c.tick.ticking && c.st.ticks then if c.tick.nextDue ≤ c.local then hw.boundary ch c.tick.nextDue false else hw
    else if c.runnable && decide (c.local ≤ c.lastDue + 1) then hw.firstBoundary ch c.lastDue
    else hw

/-- R512: whether a rising edge counts; between 5 ns and 20 ns it may or may not. -/
def edgeCounts (free low high : Nat) : Bool :=
  if low < 20 || high < 5 then false else if 20 ≤ high then true else free % 2 == 1
/-- Elapsed local time against P·(1000 ± τ), in thousandths of a ns. -/
def Channel.windowOpen (c : Channel) : Bool := decide (c.img.periodNs * (1000 - c.img.tickTol) ≤ c.elapsed * 1000)
def Channel.windowShut (c : Channel) : Bool := decide (c.img.periodNs * (1000 + c.img.tickTol) ≤ c.elapsed * 1000)
def Channel.windowPast (c : Channel) : Bool := decide (c.img.periodNs * (1000 + c.img.tickTol) < c.elapsed * 1000)

/-- An edge that counts. Before T(0) the spec does not say from which edge N is counted: the model counts from READY, and counts
anew from 0 after a full count that finds the conditions of R462 unmet (R29; log 22). -/
def Hw.syncEdge (m : Ch) (hw : Hw) : Hw :=
  let c := hw.ch m
  let full := decide (c.img.tickN ≤ c.tick.edges + 1)
  if c.tick.ticking && c.st.ticks then
    if !full then hw.modCh m fun c => { c with tick := { c.tick with edges := c.tick.edges + 1 } }
    else if !c.windowOpen then
      (hw.modCh m fun c => { c with tick := { c.tick with early := c.tick.early + 1 } }).raise m .note 0x9A (initScribe m)
        (some (c.tick.early + 1)) none
    else if c.windowPast then hw
    else hw.boundary m c.local false
  else if c.st == .ready || c.st == .fenced then
    if !full then hw.modCh m fun c => { c with tick := { c.tick with edges := c.tick.edges + 1 } }
    else if c.runnable then hw.firstBoundary m c.local
    else hw.modCh m fun c => { c with tick := { c.tick with edges := 0 } }
  else hw
/-- The next edge that counts makes the boundary at which a CHANNEL_STOP is due (R30, R374). -/
def Channel.edgeStop (c : Channel) : Bool :=
  c.stopPending.isSome && c.tick.ticking && c.st.ticks && decide (c.img.tickN ≤ c.tick.edges + 1) && c.windowOpen && !c.windowPast
/-- An ENTER_MAINT of the same cycle is dropped where this edge makes that boundary (R463; log 21). -/
def Hw.edgeStops (m : Ch) (hw : Hw) : Hw :=
  if (hw.ch m).st == .maint && (hw.due.find? (Due.below m 4)).any (·.was.edgeStop) then hw.undoDue m 4 else hw
/-- A rising edge on CHn_SYNC (R30, R512). -/
def execSyncEdge (t : Nat) (ch : Ch) (lowNs highNs : Nat) (s : State) : Host.Outcome State Fault Refusal :=
  s.run t fun hw =>
    if (hw.ch ch).img.tickSrc != 1 then hw else
    let (n, hw) := hw.free
    if edgeCounts n lowNs highNs then (hw.edgeStops ch).syncEdge ch else hw

/-- The window closes without the completing edge (R30). -/
def execSyncMissing (t : Nat) (ch : Ch) (s : State) : Host.Outcome State Fault Refusal :=
  s.run t fun hw =>
    let c := hw.ch ch
    if c.img.tickSrc == 1 && c.tick.ticking && c.st.ticks && c.windowShut then
      ((hw.modCh ch (Channel.doubt .syncMissing)).raise ch .doubt 0x99 (initScribe ch) none none).boundary ch
        (c.tick.tkLoc + c.img.periodNs * (1000 + c.img.tickTol) / 1000) false
    else hw

/-- P_max + 1% has passed since T(k), counted on MARGIN_CLK (R371). -/
def Channel.tickLost (now : Nat) (c : Channel) : Bool := decide (c.img.pmaxMilli * 101 ≤ (now - c.tick.tkNow) * 100000)
/-- It passes without a boundary (R371): Margin makes it, with STOP. -/
def execTickLost (t : Nat) (ch : Ch) (s : State) : Host.Outcome State Fault Refusal :=
  s.run t fun hw =>
    let c := hw.ch ch
    if c.tick.ticking && c.st.ticks && c.tickLost hw.now then
      (hw.raise ch .channelStop 0xA2 (initMargin ch) none none).boundary ch c.local true
    else hw

/-- HB_TIMEOUT passes without a HEARTBEAT (R91). -/
def execHeartbeatMissing (t : Nat) (ch : Ch) (s : State) : Host.Outcome State Fault Refusal :=
  s.run t fun hw => if (hw.ch ch).st.ticks then hw.hbCheck ch else hw

end Sys2Proof.Machine
end

