-- ==== Sys2Proof/Machine/Registers.lean ====
section
/-! DEFINITION. The status and control map (chapter "Status and control map"): what every word of the five windows reads
(R492, R499, R500), what a view of it reads from HBM (R501), the coarse readings of the host path (R454, R497, R502), and writes field by field (R9 to R13). -/
namespace Sys2Proof.Machine

/-! ### Words -/

def lo32 (v : Nat) : Nat := v % 2 ^ 32
/-- Word `i` of a value. -/
def wordOf (v i : Nat) : Nat := v / 2 ^ (32 * i) % 2 ^ 32
/-- Two's complement in 32 bits. -/
def word32 (i : Int) : Nat := (i % 4294967296).toNat
/-- R454: a counter over the host port. -/
def coarse (v : Nat) : Nat := v / 4096 * 4096
/-- A signed quotient as an integer; its rounding is open (log 18). -/
def quotient (num : Int) (den : Nat) : Int :=
  let q := num / (den : Int)
  if num % (den : Int) == 0 then q else if Config.roundUp num den then q + 1 else q
/-- A 32-bit signed reading that saturates. -/
def satWord (i : Int) : Nat := word32 (max (-2147483648) (min 2147483647 i))

/-! ### Device window -/

/-- R446: bit s of the owner-slot masks. -/
def slotMask (p : OwnerSlot → Bool) (l : List OwnerSlot) : Nat := ((l.zipIdx).map fun (s, i) => b2n (p s) * 2 ^ i).foldl (· + ·) 0
def Hw.statesWord (hw : Hw) : Nat := (chans.map fun m => (hw.ch m).st.code * 2 ^ (4 * m.val)).foldl (· + ·) 0
def Hw.chSlots (hw : Hw) : Nat := (chans.map fun m => ((hw.ch m).boot.ownerSlot.getD 0) * 2 ^ (2 * m.val)).foldl (· + ·) 0
def Hw.chSlotsValid (hw : Hw) : Nat := (chans.map fun m => b2n (hw.ch m).boot.ownerSlot.isSome * 2 ^ m.val).foldl (· + ·) 0
def Hw.tenantChans (hw : Hw) (t : Nat) : Nat := (chans.map fun m => b2n ((hw.ch m).img.tenant == some t) * 2 ^ m.val).foldl (· + ·) 0
def Hw.keyTenant (hw : Hw) (t : Nat) : Nat :=
  let s := hw.session t
  b2n s.isOpen + 2 * b2n s.prevLive + 4 * (s.genCur % 4) + 16 * (s.genPrev % 4) + 64 * hw.tenantChans t
/-- PWR_RAILS and CLK bits in DEV_STATE. -/
def Hw.devState (hw : Hw) : Nat :=
  b2n hw.dev.signet.ready + 2 * b2n hw.dev.deviceStop + 4 * b2n (hw.dev.rails == 0xFF#8)
    + 8 * b2n (hw.dev.refclkOk && hw.dev.marginClkOk) + 65536 * hw.statesWord

/-- A word of the device window; `host` is the tenant of the ring 0 that reads, none for management. -/
def Hw.devWord (hw : Hw) (host : Option Nat) (off : Nat) : Option Nat :=
  let d := hw.dev
  let mg := fun (v : Nat) => if host.isSome then 0 else v
  let hidden := fun (t v : Nat) => match host with
    | some u => if u == t then v else 0
    | none => v
  if 0x100 ≤ off ∧ off < 0x120 then some (hidden ((off - 0x100) / 4) (hw.keyTenant ((off - 0x100) / 4)))
  else if 0x120 ≤ off ∧ off < 0x140 then some (hidden ((off - 0x120) / 4) (hw.session ((off - 0x120) / 4)).serial)
  else match off with
    | 0x000 => some hw.devState
    | 0x020 => some (wordOf d.fuses.arrayFuse.toNat 0)
    | 0x024 => some (wordOf d.fuses.arrayFuse.toNat 1)
    | 0x040 => some (b2n d.faultLow + 256 * d.faultCode.toNat)
    | 0x080 => some (wordOf d.fuses.deviceId.toNat 0)
    | 0x084 => some (wordOf d.fuses.deviceId.toNat 1)
    | 0x088 => some (b2n d.fuses.grade1630 + 256 * 0x0E7753)
    | 0x08C => some (slotMask (·.provisioned) d.fuses.slots + 16 * slotMask (·.revoked) d.fuses.slots
        + 256 * b2n d.fuses.authority.isSome + 65536 * hw.chSlots + 2 ^ 24 * hw.chSlotsValid)
    | 0x090 => some (mg d.signet.mgCounter)
    | 0x200 => some (mg d.capDw)
    | 0x204 => some hw.reserved
    | 0x208 => some (if host.isSome then d.power / 50 * 50 else d.power)
    | 0x20C => some d.rails.toNat
    | 0x300 => some (b2n d.refclkOk + 2 * b2n d.marginClkOk + 4 * b2n d.ucieLock)
    | _ => none

/-! ### Channel window -/

/-- Counter registers of 4 bytes (R502). -/
def ctrAt : Nat → Option Ctr
  | 0x184 => some .ductMiss
  | 0x30C => some .frontMisses
  | 0x310 => some .pointDrops
  | 0x314 => some .inputDrops
  | 0x318 => some .outOfGrid
  | 0x31C => some .noReturn
  | 0x404 => some .arrSat
  | 0x408 => some .arrNonfinite
  | 0x40C => some .arrSkipped
  | 0x414 => some .convPairDrops
  | 0x50C => some .inkLate
  | 0x510 => some .pdTimeouts
  | 0x514 => some .memCuts
  | 0x518 => some .memHolds
  | 0x564 => some .ceInk
  | 0x568 => some .ceRsv
  | 0x56C => some .ceHbm
  | 0x570 => some .ueInk
  | 0x574 => some .ueBlt
  | 0x578 => some .ueRsv
  | 0x57C => some .ueHbm
  | 0x658 => some .mapTailMisses
  | 0x65C => some .mapTailFetches
  | 0x660 => some .mapTailRefused
  | 0x664 => some .mapTrainRows
  | 0x668 => some .mapTrainSkipped
  | 0x66C => some .mapMigrations
  | 0x670 => some .mapDeltaLost
  | 0x674 => some .mapReencrypted
  | 0x704 => some .selClamps
  | 0x708 => some .selTies
  | 0x70C => some .selSuppressed
  | 0x818 => some .envMain
  | 0x81C => some .envMargin
  | 0x820 => some .telemDiscards
  | 0x910 => some .proofEvents
  | 0x914 => some .fwBlocks
  | 0x918 => some .fenceHits
  | 0xA04 => some .errDropped
  | 0xC20 => some .peerTx
  | 0xC24 => some .peerRx
  | 0xC28 => some .peerFwd
  | 0xC2C => some .peerRefused
  | 0xC30 => some .peerNackRecv
  | 0xC34 => some .peerDrops
  | 0xC38 => some .peerRxBad
  | 0xE0C => some .pwrOver
  | 0xF00 => some .outDrops
  | 0xF04 => some .ctxMisses
  | _ => none
/-- Counter registers of 8 bytes, by their first word. -/
def ctr8At : Nat → Option Ctr
  | 0x520 => some .rsvHits
  | 0x528 => some .rsvMisses
  | 0x530 => some .rsvWritebacks
  | 0x650 => some .mapUnique
  | 0xF40 => some .perfStrokes
  | 0xF48 => some .perfArrayCyc
  | 0xF50 => some .perfNibCyc
  | 0xF58 => some .perfHbmRd
  | 0xF60 => some .perfHbmWr
  | 0xF68 => some .perfHostIn
  | 0xF70 => some .perfHostOut
  | 0xF78 => some .perfPeerTx
  | _ => none
/-- A counter's reading: latched and coarse over the host port, exact over management (R454, R503). -/
def Channel.ctrRead (c : Channel) (host : Bool) (x : Ctr) : Nat := if host then coarse (c.ctrLat.getD x.ctorIdx 0) else c.count x

/-- The W1C bits of a register word that are sticky bits (R9, R10). -/
def stickyAt : Nat → List (Nat × Sticky)
  | 0x024 => [(2, .nvmFail)]
  | 0x180 => [(8, .missed)]
  | 0x400 => [(0, .arrSat), (1, .arrNonfinite)]
  | 0x410 => [(0, .convStream), (1, .convSweep)]
  | 0x508 => [(0, .lateWrite), (1, .pdTimeout), (2, .offRead), (3, .regionCut), (4, .holdFull)]
  | 0x560 => [(0, .ceInk), (1, .ceBlt), (2, .ceRsv), (3, .ceHbm), (4, .ueInk), (5, .ueBlt), (6, .ueRsv), (7, .ueHbm)]
  | 0x600 => [(0, .tailMiss), (1, .tailRefused), (2, .tailTimeout), (3, .tailFull), (4, .trainLimit), (5, .stageDiscard), (6, .deltaLost)]
  | 0x700 => [(0, .selClamp), (1, .selTie), (2, .selRange)]
  | 0x800 => [(2, .msBad), (3, .model), (4, .tjOver), (5, .thermalReset)]
  | 0xA00 => [(8, .sumNote), (9, .sumDegraded), (10, .sumDoubt), (11, .sumChannelStop), (12, .sumDeviceStop)]
  | 0xB10 => [(3, .stepRefused), (4, .masterChanged), (5, .holdoverSeen)]
  | 0xC04 => [(4, .peerLate), (5, .peerNacked)]
  | _ => []
def Channel.stickyWord (c : Channel) (off : Nat) : Nat := ((stickyAt off).map fun (i, x) => b2n (c.stuck x) * 2 ^ i).foldl (· + ·) 0

def Channel.ductStatus (c : Channel) : Nat :=
  c.duct.bracket % 4 + 4 * (c.duct.point % 8) + 32 * b2n c.duct.decided + 64 * b2n (c.exMissing.isEmpty && c.tick.ticking)
    + 128 * b2n c.duct.commitDone + c.stickyWord 0x180 + 65536 * c.duct.done.length
def Channel.spanWord (c : Channel) : Nat :=
  ((c.core.zipIdx).map fun (k, j) => ((k.spans.zipIdx).map fun (s, i) => b2n s.usable * 2 ^ (12 * j + i)).foldl (· + ·) 0).foldl (· + ·) 0
def Channel.mapTable (c : Channel) (x : Nat) : Nat :=
  match c.map.tables[x]? with
  | none => 0
  | some t =>
    (t.current.elim 0 fun f => f.slot + 4) + 16 * ((t.pending.map fun f => 2 ^ f.slot).foldl (fun a b => a ||| b) 0)
      + (t.keyCur.elim 0 fun k => 256 * k.1 + 1024) + 2048 * t.keyPrevGen + 8192 * b2n t.keyPrev.isSome + 65536 * t.skewSeen
def Channel.timeNow (c : Channel) : Nat :=
  c.tb.sub % 65536 + 65536 * (c.local % 1000000000) + 2 ^ 48 * (c.local / 1000000000 % 2 ^ 48)
def TimeState.code : TimeState → Nat
  | .unlocked => 0
  | .locked => 1
  | .holdover => 2
  | .refusing => 3
/-- R520: DEVICE_ID with bits [63:62] replaced by the channel. -/
def clockId (deviceId : DWord) (m : Ch) : Nat := deviceId.toNat % 2 ^ 62 + 2 ^ 62 * m.val
def Channel.masterId (c : Channel) : Nat := (c.ts.master.map fun x => x.toNat / 65536).getD 0
def TimeCfg.step (t : TimeCfg) : Nat := if t.stepMax == 0 then 1000 else t.stepMax
def Channel.stepMax (c : Channel) : Nat := (c.img.time.map (·.step)).getD 1000
def Channel.ppb (c : Channel) : Int := quotient c.ts.rNum c.rateDen
def Channel.msCountWord (c : Channel) : Nat :=
  match c.cal.ms with
  | none => 0
  | some v =>
    let w := v.getD 14 0
    if F32.isFinite w && F32.eqv (F32.ofInt (F32.floorInt w)) w && decide (0 ≤ F32.floorInt w) && decide (F32.floorInt w < 16777216) then
      (F32.floorInt w).toNat else (Config.badCount w).toNat
def Channel.peerStatus (c : Channel) : Nat :=
  b2n c.peer.east.up + 2 * b2n c.peer.west.up + 4 * b2n c.peer.position.isSome + 8 * b2n c.peer.grace.isSome + c.stickyWord 0xC04
    + 256 * (c.peer.position.getD 0 % 8) + 65536 * c.peer.members.toNat

/-- A word below 1000h of channel m's window. -/
def Hw.chWord (hw : Hw) (m : Ch) (host : Bool) (off : Nat) : Option Nat :=
  let c := hw.ch m
  match ctrAt off, ctr8At off, ctr8At (off - 4) with
  | some x, _, _ => some (c.ctrRead host x)
  | none, some x, _ => some (wordOf (c.ctrRead host x) 0)
  | none, none, some x => some (wordOf (c.ctrRead host x) 1)
  | none, none, none =>
    if 0x610 ≤ off ∧ off < 0x630 then some (c.mapTable ((off - 0x610) / 4))
    else if 0x630 ≤ off ∧ off < 0x650 then some (lo32 (c.tab ((off - 0x630) / 4)).serial)
    else match off with
    | 0x010 => some (c.st.code + 256 * c.reason.toNat + 65536 * (c.failSect % 128) + 2 ^ 24 * (c.slot.getD 0 % 4)
        + 2 ^ 26 * b2n c.slot.isSome + 2 ^ 27 * b2n c.resv.isSome)
    | 0x014 => some c.img.version.toNat
    | 0x018 => some c.boot.imageLen
    | 0x01C => some c.startUs
    | 0x020 => some c.img.hbTimeoutUs
    | 0x024 => some (b2n c.nvm.held.isSome + 2 * b2n c.nvm.erased + c.stickyWord 0x024)
    | 0x100 => some (c.img.tickSrc % 4 + 4 * ((c.img.tickN - 1) % 16) + 256 * (c.img.tickTol % 256))
    | 0x104 => some c.img.periodNs
    | 0x108 => some c.img.phaseNs
    | 0x110 => some (wordOf c.tick.k 0)
    | 0x114 => some (wordOf c.tick.k 1)
    | 0x180 => some c.ductStatus
    | 0x300 => some (c.front.status.toNat + 256 * (c.front.sweeps % 32))
    | 0x304 => some c.front.points
    | 0x308 => some c.front.cells
    | 0x400 => some (c.stickyWord off + 4 * (if hw.dev.fuses.grade1630 then 2 else 3))
    | 0x410 => some (c.stickyWord off)
    | 0x500 => some (wordOf c.spanWord 0)
    | 0x504 => some (wordOf c.spanWord 1)
    | 0x508 => some (c.stickyWord off)
    | 0x560 => some (c.stickyWord off)
    | 0x600 => some (c.stickyWord off + 128 * b2n (c.map.tables.any (·.keyPrev.isSome)) + 256 * c.map.reqs.length)
    | 0x700 => some (c.stickyWord off)
    | 0x800 => some (b2n c.env.source + 2 * b2n c.env.stop + c.stickyWord off + 64 * b2n c.env.healthOld)
    | 0x808 => some (wordOf c.env.lastK 0)
    | 0x80C => some (wordOf c.env.lastK 1)
    | 0x810 => some c.env.hostSeen.toNat
    | 0x814 => some c.msCountWord
    | 0x900 => some (b2n c.mrg.latent + 2 * b2n (c.tick.ticking && c.recovering) + 4 * b2n c.pins.ok + 8 * b2n c.pins.margin
        + 16 * b2n c.pins.stop + 256 * (c.mrg.a % 256))
    | 0x904 => some c.doubtP.toNat
    | 0x908 => some (c.mrg.sectorsDis % 2048 + 65536 * min c.eventsIn 255)
    | 0x90C => some ((c.fenced.map fun u => 2 ^ u).foldl (· + ·) 0)
    | 0xA00 => some (c.errq.length + c.stickyWord off)
    | 0xB00 => some (wordOf c.timeNow 0)
    | 0xB04 => some (wordOf c.timeNow 1)
    | 0xB08 => some (wordOf c.timeNow 2)
    | 0xB0C => some 0
    | 0xB10 => some (c.ts.state.code + 4 * b2n c.ts.slewUntil.isSome + c.stickyWord off)
    | 0xB14 => some (satWord (quotient c.ts.offset17 131072))
    | 0xB18 => some (satWord (quotient c.ts.delay17 131072))
    | 0xB1C => some (satWord c.ppb)
    | 0xB20 => some (wordOf c.masterId 0)
    | 0xB24 => some (wordOf c.masterId 1)
    | 0xB28 => some (wordOf (clockId hw.dev.fuses.deviceId m) 0)
    | 0xB2C => some (wordOf (clockId hw.dev.fuses.deviceId m) 1)
    | 0xB30 => some ((c.img.time.map fun t => b2n t.ring + 2 * b2n t.peer + 4 * b2n t.master + 8 * b2n t.upWest + 16 * (t.domain % 128)).getD 0)
    | 0xB34 => some c.stepMax
    | 0xB38 => some c.ts.refusals
    | 0xC00 => some ((c.img.peer.map fun p => p.ports.toNat + 16 * (p.windows % 128)).getD 0)
    | 0xC04 => some c.peerStatus
    | 0xC08 => some c.peer.epoch.toNat
    | 0xC0C => some c.peer.seen.toNat
    | 0xC10 => some (wordOf ((c.peer.winOpen.map fun w => 2 ^ w).foldl (· + ·) 0) 0)
    | 0xC14 => some (wordOf ((c.peer.winOpen.map fun w => 2 ^ w).foldl (· + ·) 0) 1)
    | 0xD00 => some ((c.maint.map fun x => b2n x.active + 2 * (x.tenant % 8)).getD 0)
    | 0xE00 => some (c.resv.getD 0)
    | 0xE04 => some c.img.chCap
    | 0xE08 => some (if host then c.power / 50 * 50 else c.power)
    | 0xE20 => some (if c.st == .off then 0 else 0x7FF + 65536 * ((c.mon.deviation % 65536).toNat))
    | 0xF08 => some (c.outq.length + 65536 * c.envQueued)
    | _ => none

/-! ### Ring views (R499, R500) -/

/-- The 64 bytes of a descriptor, its counters as the path reads them. -/
def Ring.bytes (host : Bool) (r : Ring) : List Byte :=
  let acc := if host then coarse r.latAccepted else r.accepted
  let dis := if host then coarse r.latDiscarded else r.discarded
  let gap := if host then coarse r.latGaps else r.gaps
  leBytes 2 r.num ++ leBytes 1 (b2n r.enabled + 2 * b2n r.out + 4 * b2n r.safety + 8 * b2n r.bidir)
    ++ leBytes 1 (r.tenant % 8 + 16 * (r.cls % 4)) ++ leBytes 4 r.opmask.toNat ++ leBytes 4 r.region ++ leBytes 1 r.expect
    ++ leBytes 1 r.source ++ leBytes 2 0 ++ leBytes 4 (r.hairpinTo % 2 ^ 18 + 2 ^ 31 * b2n r.hairpin) ++ leBytes 4 r.maxAge
    ++ leBytes 4 r.nextSeq.toNat ++ leBytes 4 r.genUsed ++ leBytes 8 acc ++ leBytes 4 dis ++ leBytes 4 gap
    ++ leBytes 4 r.outSeq.toNat ++ leBytes 12 0
def Ring.stamps (r : Ring) : List Byte := leBytes 8 r.stampA.toNat ++ leBytes 8 r.stampB.toNat
/-- The descriptor that the view shows: the image's fields, and in MAINT on ring 0 the current values of the built-in descriptor (R453,
R499). -/
def Channel.shown (c : Channel) (n : Nat) : Option Ring :=
  (c.rings.find? (·.num == n)).map fun r => match if n == 0 && c.st == .maint then c.maintRing else none with
    | some x => { r with nextSeq := x.nextSeq, outSeq := x.outSeq, genUsed := x.genUsed, accepted := x.accepted, discarded := x.discarded, gaps := x.gaps,
                         latAccepted := x.latAccepted, latDiscarded := x.latDiscarded, latGaps := x.latGaps }
    | none => r
/-- A ring's descriptor is in HBM and not in the context cache (R79); ring 0 of MAINT has one of its own (R453). -/
def Channel.uncached (c : Channel) (n : Nat) : Bool := !(c.st == .maint && n == 0) && c.ringsLoaded && !(c.ctx.contains n)
/-- The uncached rings whose descriptors the words at these offsets of the descriptor view show. -/
def Channel.uncachedIn (offs : List Nat) (c : Channel) : List Nat :=
  (((offs.filter fun o => decide (0x400000 ≤ o) && decide (o < 0x800000)).map fun o => (o - 0x400000) / 64).eraseDups).filter c.uncached
/-- A word of the two views; the descriptor view reads 0 until the ring table is loaded (R499). Ring 0's stamps of MAINT stay until the
ring table takes them over (R500). -/
def Channel.viewWord (c : Channel) (host : Bool) (off : Nat) : Nat :=
  if off < 0x800000 then
    if !c.ringsLoaded then 0 else ((c.shown ((off - 0x400000) / 64)).map fun r => field (r.bytes host) (off % 64) 4).getD 0
  else
    let n := (off - 0x800000) / 16
    (((if n == 0 then c.maintRing else none).orElse fun _ => c.ring n).map fun r => field r.stamps (off % 16) 4).getD 0

/-! ### Reading (R101, R492) -/

/-- Where an address leads. -/
inductive Place where
  | device (off : Nat)
  | channel (m : Ch) (off : Nat)
  | nowhere
  deriving DecidableEq, Repr
def placeOf (addr : Nat) : Place :=
  let off := addr % 0x1000000
  match addr / 0x1000000 with
  | 0 => .device off
  | 1 => .channel 0 off
  | 2 => .channel 1 off
  | 3 => .channel 2 off
  | 4 => .channel 3 off
  | _ => .nowhere
def inView (off : Nat) : Bool := decide (0x400000 ≤ off) && decide (off < 0x900000)
/-- The word at a place, none where nothing is mapped; `host` as in `devWord`. -/
def Hw.word (hw : Hw) (host : Option Nat) (p : Place) : Option Nat :=
  match p with
  | .device off => hw.devWord host off
  | .channel m off => if inView off then some ((hw.ch m).viewWord host.isSome off) else hw.chWord m host.isSome off
  | .nowhere => none
/-- Whether ring 0 of channel m may not reach the place: another channel's window (R101). -/
def Place.foreign (m : Ch) (p : Place) : Bool :=
  match p with
  | .channel n _ => n != m
  | _ => false
/-- A command that reads words of the descriptor view reads the descriptors of uncached rings from HBM (R499), which R501 counts. DESIGN
CHOICE (log 18): 64 bytes for each such ring and command, whichever of its words are read; the ring is not cached by it. -/
def Hw.viewReads (ps : List Place) (hw : Hw) : Hw :=
  hw.eachCh fun m h =>
    let n := ((h.ch m).uncachedIn (ps.filterMap fun p => match p with
      | .channel x off => if x == m then some off else none
      | _ => none)).length
    if n == 0 then h else h.modCh m (Channel.bump .perfHbmRd (64 * n))
/-- The places of `n` words from `addr`. -/
def placesFrom (addr n : Nat) : List Place := (List.range n).map fun i => placeOf (addr + 4 * i)
/-- One word of a REGREAD on ring 0 of channel m, whose tenant is `t`: value, foreign, unmapped. -/
def Hw.hostRead (hw : Hw) (m : Ch) (t addr : Nat) : Nat × Bool × Bool :=
  let p := placeOf addr
  if p.foreign m then (0, true, false)
  else match hw.word (some t) p with
    | some v => (v, false, false)
    | none => (0, false, true)
def rstatusOf (ws : List (Nat × Bool × Bool)) : Nat :=
  if ws.any (·.2.1) then 1 else if ws.any (·.2.2) then 2 else 0

/-! ### Writing (R9, R10, R12) -/

/-- Fields of access IM in a word of the channel window. -/
def imFields : Nat → Nat
  | 0x014 | 0x020 | 0x104 | 0x108 | 0xB34 | 0xE04 => 1
  | 0xB30 | 0xC00 => 2
  | 0x100 => 3
  | _ => 0
/-- Bits of W1C fields, and of MG fields. -/
def w1cMask (off : Nat) : Nat := if off == 0x900 then 1 else ((stickyAt off).map fun (i, _) => 2 ^ i).foldl (· + ·) 0
def mgMask (p : Place) : Nat :=
  match p with
  | .device 0x090 => 0xFFFFFFFF
  | .device 0x200 => 0xFFFF
  | .channel _ 0x90C => 0x01FF0000
  | _ => 0
/-- R364: writing 1 to LATENT ends the alarm at the next boundary, but not an alarm of the same cycle (R10). -/
def Channel.clearLatent (c : Channel) : Channel := if c.mrg.latent && !(c.fresh.contains none) then { c with mrg := { c.mrg with latentClear := true } } else c
/-- A written 1 clears the bit, unless its event set it in the same cycle (R10; log 21). -/
def Channel.w1c (x : Sticky) (c : Channel) : Channel := if c.fresh.contains (some x) then c else c.unstick x
/-- The W1C bits that a written 1 clears. -/
def Channel.writeW1c (off v : Nat) (c : Channel) : Channel :=
  let c := (stickyAt off).foldl (fun c (i, x) => if bitOf v i then c.w1c x else c) c
  if off == 0x900 && bitOf v 0 then c.clearLatent else c

/-- The record of a refused write to an IM or MG field: NOTE; which code it carries and its details are not stated
(R9; log 11). -/
def Hw.refusedField (m : Ch) (init : Nat) (hw : Hw) : Hw :=
  let (n, hw) := hw.free
  hw.raise m .note (noteCode n) init none none
/-- R12: one record for each of `n` refused fields. -/
def Hw.refusedFields (m : Ch) (init n : Nat) (hw : Hw) : Hw := (List.range n).foldl (fun h _ => h.refusedField m init) hw
/-- A word written over the host port by ring 0 of channel m: W1C bits, then the refusals. An IM field is refused in
every state, also before an image is loaded (log 11). -/
def Hw.hostWrite (m : Ch) (addr v : Nat) (hw : Hw) : Hw :=
  let p := placeOf addr
  if p.foreign m || (hw.word (some 0) p).isNone then hw else
  match p with
  | .channel _ off =>
    if inView off then hw else
    let hw := hw.modCh m (Channel.writeW1c off v)
    hw.refusedFields m initDisp (imFields off + b2n (mgMask p != 0))
  | _ => hw.refusedFields m initDisp (b2n (mgMask p != 0))

/-- The device cap (R21, R484): STATUS and the cap. -/
def Hw.setCap (dw : Nat) (hw : Hw) : Nat × Hw :=
  if dw < 1200 ∨ 2650 < dw then (4, hw)
  else if dw < hw.reserved then (3, hw)
  else (0, hw.modDev fun d => { d with capDw := dw })
/-- FENCE_REQ (R383). -/
def Hw.fenceMask (m : Ch) (mask : Nat) (hw : Hw) : Hw :=
  ((List.range 9).filter (bitOf mask)).foldl (fun h u => h.fence m u) hw
/-- The defined bits of a word of the two views: reserved bits of a descriptor never count (R77, R451, R499). -/
def viewMask (off : Nat) : Nat :=
  if 0x800000 ≤ off then 0xFFFFFFFF else
  match off % 64 / 4 with
  | 0 => 0x370FFFFF
  | 3 => 0xFFFF
  | 4 => 0x8003FFFF
  | 13 | 14 | 15 => 0
  | _ => 0xFFFFFFFF
/-- Defined bits of a word that are neither W1C nor MG: all but the reserved ones (R451). -/
def roMask (p : Place) : Nat :=
  let all := 0xFFFFFFFF
  match p with
  | .device off =>
    if 0x100 ≤ off ∧ off < 0x120 then 0x3FF else
    match off with
    | 0x000 => 0xFFFF000F
    | 0x040 => 0xFF01
    | 0x088 => 0xFFFFFF01
    | 0x08C => 0x0FFF01FF
    | 0x090 => 0
    | 0x200 => 0
    | 0x204 | 0x208 => 0xFFFF
    | 0x20C => 0xFF
    | 0x300 => 7
    | _ => all
  | .channel _ off =>
    if inView off then viewMask off else
    if 0x610 ≤ off ∧ off < 0x630 then 0xFF3FF7 ||| 0x80 else
    match off with
    | 0x010 => 0x0F7FFF0F
    | 0x024 => 3
    | 0x100 => 0xFF3F
    | 0x180 => 0x1FFF00FF
    | 0x300 => 0x1FFF
    | 0x304 => 0x3FFFFF
    | 0x308 => 0x1FFFFF
    | 0x400 => 0xC
    | 0x410 | 0x508 | 0x560 | 0x700 => 0
    | 0x504 => 0xFFFF
    | 0x600 => 0x1FF80
    | 0x800 => 0x43
    | 0x814 => 0xFFFFFF
    | 0x900 => 0xFF1E
    | 0x904 => 0xFFFFF
    | 0x908 => 0xFF07FF
    | 0x90C => 0x1FF
    | 0xA00 => 0x3F
    | 0xB0C => 0
    | 0xB10 => 7
    | 0xB30 | 0xC00 => 0x7FF
    | 0xC04 => 0xFF070F
    | 0xD00 => 0xF
    | 0xE00 | 0xE04 | 0xE08 => 0xFFFF
    | 0xE20 => 0xFFFF07FF
    | 0xF08 => 0xFF007F
    | _ => all
  | .nowhere => 0
/-- A word written over management: STATUS and the effect (R451); a refused IM field raises its record in its channel
(R9, R12). -/
def Hw.mgmtWrite (addr v : Nat) (hw : Hw) : Nat × Hw :=
  let p := placeOf addr
  match hw.word none p with
  | none => (0, hw)
  | some old =>
    let other := if (old ^^^ v) &&& roMask p != 0 then 3 else 0
    match p with
    | .device 0x090 => (0, hw.modSig fun s => { s with mgCounter := v })
    | .device 0x200 => hw.setCap (v % 65536)
    | .channel m off =>
      if inView off then (other, hw) else
      let hw := (hw.modCh m (Channel.writeW1c off v)).refusedFields m initMgmt (imFields off)
      (other, if off == 0x90C then hw.fenceMask m (bitsOf v 24 16) else hw)
    | _ => (other, hw)

/-! ### The register-write commands -/

/-- A response leaves the management port (R450). -/
def Hw.respond (command status : Nat) (data : MgmtData) (hw : Hw) : Hw := hw.emit (.mgmt command status data)
/-- A command that is not accepted, or is answered by another STATUS than 0. -/
def Hw.answerNo (command status : Nat) (hw : Hw) : Hw := (hw.respond command status .none).mgmtRefused command status
/-- The answer to a WRITE_REG of one word (R21, R451). -/
def Hw.answerWrite (st : Nat) (hw : Hw) : Hw := if st == 0 then hw.respond 0x11 0 .none else hw.answerNo 0x11 st

/-- R12: one word on either path, as the word of a REGWRITE or of a WRITE_REG; while PORST_N is low no path leads to a register. -/
def execRegisterWrite (t : Nat) (path : Path) (addr : Word) (value : Word) (s : State) : Host.Outcome State Fault Refusal :=
  s.run t fun hw =>
    if !hw.dev.porstN || hw.dev.testMode then hw else
    match path with
    | .host m =>
      if (placeOf addr.toNat).foreign m then hw.raiseIn m .degraded 0x49 initDisp (some (ring18 m 0)) none
      else hw.hostWrite m addr.toNat value.toNat
    | .mgmt =>
      let (st, hw) := hw.mgmtWrite addr.toNat value.toNat
      hw.answerWrite st

/-- R364; no management while PORST_N is low (log 1). -/
def execLatentClear (t : Nat) (ch : Ch) (s : State) : Host.Outcome State Fault Refusal :=
  s.run t fun hw => if !hw.dev.porstN || hw.dev.testMode then hw else hw.modCh ch Channel.clearLatent

/-- R383; no management while PORST_N is low (log 1). -/
def execFenceReq (t : Nat) (ch : Ch) (mask : BitVec 9) (s : State) : Host.Outcome State Fault Refusal :=
  s.run t fun hw => if !hw.dev.porstN || hw.dev.testMode then hw else hw.fenceMask ch mask.toNat

/-- A WRITE_REG of PWR_DEV_CAP (R21, R484); no management while PORST_N is low. -/
def execPwrDevCap (t : Nat) (deciwatts : Nat) (s : State) : Host.Outcome State Fault Refusal :=
  s.run t fun hw =>
    if !hw.dev.porstN || hw.dev.testMode then hw else
    let (st, hw) := hw.setCap deciwatts
    hw.answerWrite st

end Sys2Proof.Machine
end

