-- ==== Sys2Proof/Machine/Operands.lean ====
section
/-! DEFINITION. The operand forms of the host port's packets (chapter "Host port, rings and packets"): the header fields of
R74 and the payload layouts of R92 to R101 and R439. -/
namespace Sys2Proof
open Sys2Proof.Machine

/-! ### Header (R74) -/

def Packet.len (p : Packet) : Nat := p.length.toNat % 2 ^ 20
def Packet.ring (p : Packet) : Nat := p.route.toNat % 65536
def Packet.ring18 (p : Packet) : Nat := p.route.toNat % 2 ^ 18
def Packet.chan (p : Packet) : Ch := Fin.ofNat 4 (p.route.toNat / 65536)
def Packet.tenant (p : Packet) : Nat := bitsOf p.route.toNat 20 18
def Packet.gen (p : Packet) : Nat := bitsOf p.route.toNat 22 21
def Packet.eom (p : Packet) : Bool := p.flags.getLsbD 0
def Packet.ack (p : Packet) : Bool := p.flags.getLsbD 1
def Packet.op (p : Packet) : Nat := p.opcode.toNat

/-- Bytes of the packet on the stream (R73). -/
def Packet.streamLen (p : Packet) : Nat := 64 + 64 * ceilDiv p.len 64

/-- Step 1 of R84. The reserved bytes 48 to 63 are reserved fields too; the padding is ignored (R73). -/
def Packet.headerOk (p : Packet) : Bool :=
  p.version == 1#8 && p.rsvd3 == 0#8 && p.flags.toNat / 8 == 0 && !(p.flags.getLsbD 2) && p.route.toNat / 2 ^ 23 == 0
    && p.length.toNat / 2 ^ 20 == 0 && decide (p.len ≤ 262144) && p.rsvd28 == 0#32 && allZero p.rsvd48 && decide (1 ≤ p.op) && decide (p.op ≤ 13)

/-! ### Payloads -/

/-- The records after a 64-byte header, `n` bytes each. -/
def Packet.records (p : Packet) (n : Nat) : List (List Byte) := chunks n ((p.len - 64) / n) (p.payload.drop 64)

/-- L = 64 + unit·n with lo ≤ n ≤ hi. -/
def lenIs (L unit lo hi : Nat) : Bool :=
  decide (64 ≤ L) && (L - 64) % unit == 0 && decide (lo ≤ (L - 64) / unit) && decide ((L - 64) / unit ≤ hi)

/-- R93. DESIGN CHOICE (log 20): a record whose SWEEP_ID is not the header's is accepted and keeps its own, since R93 names no outcome. -/
def Packet.sweepOk (p : Packet) (r : Ring) : Bool :=
  lenIs p.len 16 1 16380 && byteAt p.payload 0 == r.source && field p.payload 8 4 == (p.len - 64) / 16
/-- R95. -/
def Packet.telemOk (p : Packet) (r : Ring) : Bool :=
  lenIs p.len 16 1 16380 && byteAt p.payload 0 == r.source && field p.payload 4 4 == (p.len - 64) / 16

/-- An IMAGE header (R94). -/
structure Stripe where
  format : Nat
  width : Nat
  firstRow : Nat
  rows : Nat
  blank : Nat
def Packet.stripe (p : Packet) : Stripe :=
  { format := byteAt p.payload 1, width := field p.payload 2 2, firstRow := field p.payload 4 2, rows := field p.payload 6 2,
    blank := field p.payload 8 2 }
def Stripe.bytes (s : Stripe) : Nat := (s.rows + s.blank) * s.width * (if s.format == 0 then 1 else 2)
def Packet.imageOk (p : Packet) (r : Ring) : Bool :=
  let s := p.stripe
  decide (64 ≤ p.len) && byteAt p.payload 0 == r.source && decide (s.format ≤ 2) && decide (1 ≤ s.width) && decide (s.width ≤ 8192)
    && decide (s.blank ≤ 4) && p.len == 64 + s.bytes

/-- A CALIB record. -/
structure CalRec where
  kind : Nat
  target : Nat
  vals : List Word
def calRec (b : List Byte) : CalRec := { kind := byteAt b 0, target := byteAt b 1, vals := wordsAt b 4 15 }
def Packet.calibs (p : Packet) : List CalRec := (chunks 64 (p.len / 64) p.payload).map calRec
/-- R96: the square of the quaternion's norm. -/
def quatSquare (v : List Word) : Word :=
  let g := fun i => v.getD i 0
  F32.add (F32.add (F32.add (F32.mul (g 0) (g 0)) (F32.mul (g 1) (g 1))) (F32.mul (g 2) (g 2))) (F32.mul (g 3) (g 3))
def CalRec.ok (c : CalRec) : Bool :=
  decide (c.kind ≤ 3) && c.vals.all F32.isFinite
    && (!(c.kind == 1 || c.kind == 2) || inF (F32.ofRat false 998001 1000000) (F32.ofRat false 1002001 1000000) (quatSquare c.vals))
def Packet.calibOk (p : Packet) : Bool :=
  p.len % 64 == 0 && decide (64 ≤ p.len) && decide (p.len ≤ 4096) && p.calibs.all CalRec.ok

def Packet.addr (p : Packet) : Nat := field p.payload 0 8
def Packet.memwriteOk (p : Packet) : Bool := lenIs p.len 64 1 4095 && p.addr % 64 == 0
/-- TAILFETCH and TAILPAGE fields (R98). -/
structure TailHdr where
  req : Nat
  table : Nat
  folio : Nat
  gen : Nat
  page : Nat
def Packet.tail (p : Packet) : TailHdr :=
  { req := field p.payload 0 4, table := byteAt p.payload 4, folio := byteAt p.payload 5, gen := byteAt p.payload 6, page := field p.payload 8 4 }
def Packet.tailReq (p : Packet) (c : Channel) : Option TailReq :=
  let h := p.tail
  c.map.reqs.find? fun r => r.id == h.req && r.table == h.table && r.folio == h.folio && r.page == h.page

/-- PUBLISH as a folio of the next serial (R99). -/
def Packet.folio (p : Packet) : Folio :=
  { slot := byteAt p.payload 1 % 4, code := byteAt p.payload 2, rows := field p.payload 4 4, base := field p.payload 8 8, indir := field p.payload 16 8, serial := 0 }
def Packet.publishOk (p : Packet) (c : Channel) (r : Ring) : Bool :=
  p.len == 64 && decide (byteAt p.payload 0 < 8) && decide (byteAt p.payload 1 < 4)
    && c.publishOk r.tenant r.region (byteAt p.payload 0) p.folio (decide (byteAt p.payload 2 ≤ 1))

/-- A KEYROTATE header (R439). -/
structure Rotate where
  scope : Nat
  target : Nat
  action : Nat
  newGen : Nat
def Packet.rotate (p : Packet) : Rotate :=
  { scope := byteAt p.payload 0, target := byteAt p.payload 1, action := byteAt p.payload 2, newGen := byteAt p.payload 3 }

/-- NVMWRITE: OFFSET and the erase flag. -/
def Packet.nvmOffset (p : Packet) : Nat := field p.payload 0 4
def Packet.nvmErase (p : Packet) : Bool := bitOf (byteAt p.payload 4) 0
/-- R479: sectors, offset and the memory's size. -/
def Packet.nvmOk (p : Packet) (n : Nvm) : Bool :=
  lenIs p.len 4096 0 63 && p.nvmOffset % 4096 == 0 && decide (p.nvmOffset < 536870912) && decide (p.nvmOffset + (p.len - 64) ≤ n.usable)

/-- REGREAD and REGWRITE: TAG, ADDR, COUNT. -/
structure RegReq where
  tag : Word
  addr : Nat
  count : Nat
def Packet.reg (p : Packet) : RegReq := { tag := wordAt p.payload 0, addr := field p.payload 4 4, count := field p.payload 8 2 }
def Packet.regOk (p : Packet) (wr : Bool) : Bool :=
  let q := p.reg
  q.addr % 4 == 0 && decide (1 ≤ q.count) && decide (q.count ≤ 64) && p.len == 64 + (if wr then 4 * q.count else 0)

/-- MEMBERSHIP: EPOCH, MEMBERS, POSITION. -/
structure Member where
  epoch : Word
  members : Byte
  position : Nat
def Packet.member (p : Packet) : Member := { epoch := wordAt p.payload 0, members := BitVec.ofNat 8 (byteAt p.payload 4), position := byteAt p.payload 5 }

end Sys2Proof
end

