-- ==== Sys2Proof/Machine/HostWrites.lean ====
section
/-! DEFINITION. The write-hold table (R236 to R239): host-side writes wait for conflicting strokes, begin to apply, and land. -/
namespace Sys2Proof.Machine

/-- A write of the ring that has not begun to apply: later packets of the ring wait behind it (R237). -/
def Channel.ringHeld (c : Channel) (ring : Nat) : Bool := c.writes.any fun w => w.ring == ring && !w.applying

/-- A stroke that is ready and conflicts goes before a write that becomes ready with it (R237). -/
def Channel.strokeFirst (c : Channel) (w : HostWrite) : Bool :=
  match c.img.ductus with
  | some d => c.running && d.strokes.any fun s => (s.ranges.any fun r => w.ranges.any fun x => rangesConflict x r) && c.ready d s
  | none => false
/-- Whether the write `w` may begin to apply: it is next on its ring, an entry is free, and no stroke conflicts (R237). -/
def Channel.mayApply (c : Channel) (w : HostWrite) : Bool :=
  c.isNext w && decide (c.applying < 16) && !(c.flightConflict w) && !(c.strokeFirst w)
/-- An accepted write takes its place: it applies at once, or waits for a stroke, an entry or an earlier write of its ring. -/
def Channel.takePlace (ring addr : Nat) (bs : List Byte) (also : Option Nat) (bad : List Nat) (c : Channel) : Channel :=
  let w := { id := c.nextWrite, ring := ring, frame := c.openFrame, addr := addr, bytes := bs, also := also, bad := bad, applying := false,
             held := false }
  let c := { c with writes := c.writes ++ [w], nextWrite := c.nextWrite + 1 }
  if c.mayApply w then { c with writes := c.writes.map fun v => if v.id == w.id then { v with applying := true } else v }
  else c.judgeHolds
/-- A write from a ring: MEMWRITE or hairpin. -/
def Channel.addWrite (ring addr : Nat) (bs : List Byte) (bad : List Nat) (c : Channel) : Channel := c.takePlace ring addr bs none bad
/-- The number of a peer port among the rings of host-side writes: above every ring number. -/
def portWriteRing : Port → Nat
  | .east => 65537
  | .west => 65538

/-- Whether the applying write `w` of a ring may land: writes of one ring land in order. A remote write lands as FRAME_LAND. -/
def Channel.mayLand (c : Channel) (w : HostWrite) : Bool :=
  w.also.isNone && w.applying && !(c.writes.any fun v => v.ring == w.ring && decide (v.id < w.id))

def Channel.writeOf (c : Channel) (id : Nat) : Option HostWrite := c.writes.find? (·.id == id)
def Channel.applyWrite (id : Nat) (c : Channel) : Channel :=
  { c with writes := c.writes.map fun w => if w.id == id then { w with applying := true } else w }
/-- The last granule lands: the bytes are in HBM with the poison they carry, and the entry frees (R237, R245). -/
def Channel.landWrite (w : HostWrite) (c : Channel) : Channel :=
  let c := (c.storeHbm w.addr w.bytes none).bump .perfHbmWr w.bytes.length
  { c with writes := c.writes.filter (·.id != w.id), hbmPoison := (w.bad.map (w.addr / 64 + ·)).foldl insertNat c.hbmPoison }.judgeHolds

end Sys2Proof.Machine
end

