-- ==== Sys2Proof/Machine/Ingest.lean ====
section
/-! DEFINITION. What the dispatcher does with accepted data packets: SWEEP, IMAGE and TELEM into the open half of their
INPUT region (R90, R93 to R95, R223), CALIB into the shadow copies (R66, R96). -/
namespace Sys2Proof.Machine

def Channel.modHalf (region half : Nat) (f : InHalf → InHalf) (c : Channel) : Channel :=
  let h := f (c.halfOf region half)
  { c with input := c.input.filter (fun x => !(x.region == region && x.half == half)) ++ [h] }

/-- Where the next bytes of ring `r` go: the end of the open half of its region `g` (R223). -/
def Channel.intakeAt (r : Ring) (g : Region) (c : Channel) : Nat :=
  g.base + c.openFrame % 2 * g.len + (c.halfOf r.region (c.openFrame % 2)).bytes
/-- `bs` goes to the end of the open half, where it fits; else R90 discards it. `sweep`: the packet is a SWEEP. -/
def Hw.intake (m : Ch) (r : Ring) (sweep : Bool) (bs : List Byte) (mk : Nat → Segment) (hw : Hw) : Hw :=
  let c := hw.ch m
  let half := c.openFrame % 2
  let used := (c.halfOf r.region half).bytes
  match c.region r.region with
  | none => hw
  | some g =>
    if g.input && decide (used + bs.length ≤ g.len) then
      hw.modCh m fun c =>
        ((c.storeHbm (c.intakeAt r g) bs none).bump .perfHbmWr bs.length).modHalf r.region half fun h =>
          { h with bytes := used + bs.length, segs := h.segs ++ [mk used] }
    else (hw.modCh m (Channel.bump .inputDrops 1)).overflowInput m (if sweep then .input else .overflow)

/-- A segment of the packet, as far as every kind has it. -/
def Packet.segment (p : Packet) (r : Ring) (kind : Nat) (cap : Int) (off n : Nat) : Segment :=
  { ring := r.num, kind := kind, offset := off, count := n, source := r.source, sweepId := 0, captime := cap, frametag := p.frametag,
    eom := p.eom, rows := 0, blankRows := 0, width := 0, format := 0, length := p.len - 64 }

def Hw.takeSweep (m : Ch) (r : Ring) (p : Packet) (hw : Hw) : Hw :=
  let cap := extend (hw.ch m).local p.captime
  let id := field p.payload 2 2
  let bs := bytesAt p.payload 64 (p.len - 64)
  (hw.intake m r true bs fun off => { Packet.segment p r 1 cap off ((p.len - 64) / 16) with sweepId := id }).marginPacket m r true id
    p.frametag cap p.eom (p.records 16)
def Hw.takeTelem (m : Ch) (r : Ring) (p : Packet) (hw : Hw) : Hw :=
  let cap := extend (hw.ch m).local p.captime
  let bs := bytesAt p.payload 64 (p.len - 64)
  (hw.intake m r false bs fun off => Packet.segment p r 3 cap off ((p.len - 64) / 16)).marginPacket m r false 0 p.frametag cap p.eom
    (p.records 16)
def Hw.takeImage (m : Ch) (r : Ring) (p : Packet) (hw : Hw) : Hw :=
  let cap := extend (hw.ch m).local p.captime
  let s := p.stripe
  hw.intake m r false (bytesAt p.payload 64 (p.len - 64)) fun off =>
    { Packet.segment p r 2 cap off s.rows with rows := s.rows, blankRows := s.blank, width := s.width, format := s.format }

/-- One CALIB record into its shadow copy; a later write to the same target replaces the earlier (R11). -/
def stageCal (k : Calib) (c : CalRec) : Calib :=
  match c.kind with
  | 0 => { k with camNext := k.camNext.filter (fun n => !(n.1 == c.target && n.2.1 == 0)) ++ [(c.target, 0, c.vals)] }
  | 1 => { k with camNext := k.camNext.filter (fun n => !(n.1 == c.target && n.2.1 == 1)) ++ [(c.target, 1, c.vals)] }
  | 2 => { k with posesNext := assocSet k.posesNext c.target c.vals }
  | _ => { k with msNext := some c.vals }
def Channel.takeCals (p : Packet) (c : Channel) : Channel := { c with cal := p.calibs.foldl stageCal c.cal }

end Sys2Proof.Machine
end

