-- ==== Sys2Proof/Machine/Keys.lean ====
section
/-! DEFINITION. Keys and nonces (R269, R433, R438 to R443), the update of the xSPI memory (R477 to R479), and MEMBERSHIP (R426,
R429). -/
namespace Sys2Proof
open Sys2Proof.Machine

/-! ### The bytes of keys and nonces (R433, R438) -/

/-- A label: ASCII without a terminator. -/
def ascii (s : String) : List Byte := s.toList.map fun c => BitVec.ofNat 8 c.toNat
/-- The 32 bytes of a shared secret. PRESUMED: the length is ML-KEM's (log 3). -/
def secretBytes (s : Nat) : List Byte := (List.range 32).map (Config.secretByte s)
/-- The 256 bits of a key, by the formulas of R438. -/
def Key.bytes : Key → List Byte
  | .zeros => List.replicate 32 0#8
  | .session id ss1 t serial => Shake.shake256 32 (ascii "VALORD SESSION" ++ secretBytes ss1 ++ leBytes 1 t ++ leBytes 1 0 ++ leBytes 4 serial ++ leBytes 8 id.toNat)
  | .sessionNext id ss1 ss2 cur t g serial =>
    Shake.shake256 32 (ascii "VALORD SESSION" ++ secretBytes ss1 ++ secretBytes ss2 ++ cur.bytes ++ leBytes 1 t ++ leBytes 1 g ++ leBytes 4 serial
      ++ leBytes 8 id.toNat)
  | .table id ss1 ss2 cur m x g serial =>
    Shake.shake256 32 (ascii "VALORD TABLE" ++ secretBytes ss1 ++ secretBytes ss2 ++ cur.bytes ++ leBytes 1 m ++ leBytes 1 x ++ leBytes 1 g
      ++ leBytes 4 serial ++ leBytes 8 id.toNat)
  | .maint id ssM m serial => Shake.shake256 32 (ascii "VALORD MAINT" ++ secretBytes ssM ++ leBytes 1 m ++ leBytes 4 serial ++ leBytes 8 id.toNat)
/-- CONFIRM of a key (R438). -/
def Key.confirm (k : Key) : List Byte := Shake.shake256 16 (ascii "VALORD CONFIRM" ++ k.bytes)
/-- A session key of a session that a renewal ended; `l` numbers those sessions' secrets (R443). -/
def Key.ended (l : List Nat) : Key → Bool
  | .session _ ss1 .. => l.contains ss1
  | .sessionNext _ ss1 .. => l.contains ss1
  | _ => false
/-- What the holder of `ek`'s decapsulation key gets from a ciphertext: a secret in every case (R439). -/
def Kem.yields (ek wrong : Nat) (ct : Kem) : Nat := if ct.toEk = ek then ct.secret else wrong
/-- The nonce of a packet (R433); `out`: device to host. -/
def packetNonce (ring18 : Nat) (out : Bool) (gen seq session : Nat) : List Byte :=
  leBytes 3 (ring18 % 2 ^ 18 + 2 ^ 23 * b2n out) ++ leBytes 1 (gen % 4) ++ leBytes 4 seq ++ leBytes 4 session

end Sys2Proof

namespace Sys2Proof.Machine

/-! ### Session keys (R440) -/

def modTenantRings (t : Nat) (f : Ring → Ring) (c : Channel) : Channel :=
  { c with rings := c.rings.map fun r => if r.tenant == t then f r else r }
/-- GEN_USED := 0 on every ring of the tenant (R82). -/
def Hw.resetGenUsed (t : Nat) (hw : Hw) : Hw :=
  hw.eachCh fun m h => h.modCh m (modTenantRings t fun r => { r with genUsed := 0, nonceRaised := false })

/-- The key that an install of SCOPE 0 makes. -/
def Hw.nextSessionKey (hw : Hw) (t ss2 : Nat) : Key :=
  let s := hw.session t
  .sessionNext hw.dev.fuses.deviceId s.ss1 ss2 s.keyCur t ((s.genCur + 1) % 4) s.serial
/-- KEY_CHANGE (R455). -/
def keyChange (k : Rotate) : Nat := k.scope + 256 * k.target + 65536 * k.action

/-- The key that an install of SCOPE 1 makes: KT_cur is that of the slots as staged (R269, R442). -/
def Hw.nextTableKey (hw : Hw) (m : Ch) (t x gen ss2 : Nat) : Key :=
  let s := hw.session t
  let cur := (((hw.ch m).tab x).staged.keyCur.map (·.2)).getD .zeros
  .table hw.dev.fuses.deviceId s.ss1 ss2 cur m.val x gen s.serial

/-- CONFIRM of the install's header is that of the key (R439). -/
def Packet.confirms (p : Packet) (k : Key) : Bool := bytesAt p.payload 16 16 == k.confirm
/-- R269, R439, R440: whether a KEYROTATE on ring 0 of tenant t passes step 11. `kem` is an install's ciphertext and the secret that a
wrong one yields; CONFIRM alone tells. -/
def Hw.rotateOk (hw : Hw) (m : Ch) (t : Nat) (p : Packet) (kem : Option (Kem × Nat)) : Bool :=
  let k := p.rotate
  let s := hw.session t
  let kemOk := fun (key : Nat → Key) => p.len == 1632 && kem.any fun x => Packet.confirms p (key (x.1.yields s.ekD x.2))
  if k.scope == 0 then
    k.target == t && p.gen == s.genCur &&
      (if k.action == 0 then k.newGen == (s.genCur + 1) % 4 && !s.prevLive && kemOk (hw.nextSessionKey t)
       else k.action == 1 && s.prevLive && p.len == 64)
  else if k.scope == 1 then
    decide (k.target < (hw.ch m).map.tables.length) &&
      (let tb := (hw.ch m).tab k.target
       if k.action == 0 then decide (k.newGen < 4) && tb.installOk k.newGen && kemOk (hw.nextTableKey m t k.target k.newGen)
       else k.action == 1 && tb.retireOk && p.len == 64)
  else false

/-- An accepted KEYROTATE. -/
def Hw.rotate (m : Ch) (t : Nat) (p : Packet) (kem : Option (Kem × Nat)) (hw : Hw) : Hw :=
  let k := p.rotate
  let s := hw.session t
  match k.scope, k.action, kem with
  | 0, 0, some (ct, wrong) =>
    let key := hw.nextSessionKey t (ct.yields s.ekD wrong)
    let g := (s.genCur + 1) % 4
    let hw := hw.modSession t fun s => { s with genPrev := s.genCur, keyPrev := s.keyCur, prevLive := true, genCur := g, keyCur := key }
    (hw.resetGenUsed t).raiseDev .note 0xD1 initSignet (some (keyChange k)) (some g)
  | 0, _, _ =>
    (hw.modSession t fun s => { s with prevLive := false, keyPrev := .zeros }).raiseDev .note 0xD1 initSignet (some (keyChange k)) (some s.genPrev)
  | _, 0, some (ct, wrong) =>
    let key := hw.nextTableKey m t k.target k.newGen (ct.yields s.ekD wrong)
    (hw.modCh m (Channel.modTab k.target fun tb => { tb with keyStaged := tb.keyStaged ++ [.install k.newGen key] })).raise m .note 0xD1
      initSignet (some (keyChange k)) (some k.newGen)
  | _, _, _ =>
    let g := ((hw.ch m).tab k.target).staged.keyPrevGen
    (hw.modCh m (Channel.modTab k.target fun tb => { tb with keyStaged := tb.keyStaged ++ [.retire] })).raise m .note 0xD1
      initSignet (some (keyChange k)) (some g)

/-! ### The xSPI memory (R477 to R479) -/

/-- A failed program or erase (D9h). -/
def Hw.nvmFail (m : Ch) (offset kind : Nat) (hw : Hw) : Hw :=
  (hw.modCh m fun c => { c.stick .nvmFail with nvm := { c.nvm with failed := true } }).raise m .degraded 0xD9 initSignet (some offset) (some kind)
def Channel.modNvm (f : Nvm → Nvm) (c : Channel) : Channel := { c with nvm := f c.nvm }
/-- A sector erased: it reads FFh. -/
def Nvm.erase (a n : Nat) (v : Nvm) : Nvm := { v with cells := Cells.clear v.cells a n }
/-- NOR programming clears bits only. -/
def Nvm.program (a : Nat) (bs : List Byte) (v : Nvm) : Nvm :=
  { v with cells := Cells.write norDefault v.cells a ((bs.zip (v.read a bs.length)).map fun (x, y) => x &&& y) }
/-- Bytes that do not read back as programmed are free (log 18). -/
def freeBytes (k : Nat) : Nat → List Byte
  | 0 => []
  | n + 1 => BitVec.ofNat 8 (Config.freeNat k) :: freeBytes (k + 1) n
def Hw.badPage (m : Ch) (a n : Nat) (hw : Hw) : Hw :=
  let bs := freeBytes hw.freeCtr n
  ({ hw with freeCtr := hw.freeCtr + n }).modCh m (Channel.modNvm fun v => { v with cells := Cells.write norDefault v.cells a bs })

/-- The pages of 256 bytes from `a` on, ascending, each programmed and read back; `bad` are the offsets of pages whose cells do not take
their data. A page that reads back other than its data fails, and what follows it is not written (R479). Answers whether all are good. -/
def Hw.programPages (m : Ch) (bad : List Nat) : Nat → Nat → List Byte → Hw → Hw × Bool
  | 0, _, _, hw => (hw, true)
  | n + 1, a, bs, hw =>
    if bs.isEmpty then (hw, true)
    else
      let page := a / 256 * 256
      let k := page + 256 - a
      let d := bs.take k
      let differs := bad.contains page
      let hw := if differs then hw.badPage m a d.length else hw.modCh m (Channel.modNvm (Nvm.program a d))
      if differs || (hw.ch m).nvm.read a d.length != d then (hw.nvmFail m page 0, false)
      else Hw.programPages m bad n (a + k) (bs.drop k) hw

/-- Sector 0's data of the packet is held; a later packet's data replace them (R477). -/
def Nvm.hold (bad : List Nat) (bs : List Byte) (v : Nvm) : Nvm :=
  if bs.isEmpty then v else { v with held := some bs, badHeld := bad.filter (· < 4096) }
/-- Free contents of sectors whose erase failed (log 18). -/
def Hw.badErase (m : Ch) (a : Nat) (hw : Hw) : Hw := (hw.badPage m a 256).nvmFail m a 1

/-- An accepted NVMWRITE. `eraseFails`: the first erase it needs fails. -/
def Hw.nvmWrite (m : Ch) (p : Packet) (bad : List Nat) (eraseFails : Bool) (hw : Hw) : Hw :=
  let off := p.nvmOffset
  let bs := bytesAt p.payload 64 (p.len - 64)
  let first := !(hw.ch m).nvm.erased
  -- R477: sector 0 is erased before the session's first write
  if first && eraseFails then hw.badErase m 0 else
  let hw := if first then hw.modCh m (Channel.modNvm fun v => { v.erase 0 4096 with erased := true }) else hw
  let n0 := if off == 0 then 4096 else 0
  let hw := hw.modCh m (Channel.modNvm (Nvm.hold bad (bs.take n0)))
  let a := off + n0
  let rest := bs.drop n0
  if rest.isEmpty then hw
  else if p.nvmErase && !first && eraseFails then hw.badErase m a
  else
    let hw := if p.nvmErase then hw.modCh m (Channel.modNvm (Nvm.erase a rest.length)) else hw
    (hw.programPages m bad (rest.length / 256 + 1) a rest).1

/-- Leaving MAINT programs the held sector where no NVM_FAIL occurred: bytes 8 to 4,095, which are read back, then MAGIC (R478). A page of
it that reads back otherwise fails as in an NVMWRITE, and MAGIC is not written (R479). -/
def Hw.nvmFinish (m : Ch) (hw : Hw) : Hw :=
  let v := (hw.ch m).nvm
  match v.held with
  | some bs =>
    if v.failed then hw else
    let (hw, good) := hw.programPages m v.badHeld 17 8 (bs.drop 8)
    if good then hw.modCh m (Channel.modNvm (Nvm.program 0 (bs.take 8))) else hw
  | none => hw

/-! ### MEMBERSHIP (R426, R427, R429) -/

/-- How a MEMBERSHIP packet is taken. -/
inductive MemberCase where
  | replace | same | refuse | removed
  deriving DecidableEq, Repr
def Channel.memberCase (c : Channel) (x : Member) : MemberCase :=
  let p := c.peer
  let inside := decide (x.position < 8) && x.members.getLsbD x.position
  let first := p.position.isNone
  let above := p.epoch.toNat < x.epoch.toNat
  if (first || above) && inside then .replace
  else if above then .removed
  else if !first && x.epoch == p.epoch && x.members == p.members && some x.position == p.position then .same
  else .refuse
def PeerSt.sawEpoch (e : Word) (p : PeerSt) : PeerSt := if p.seen.toNat < e.toNat then { p with seen := e } else p
/-- A FENCED channel that was to return is removed again: it stays FENCED with the new reason, without its reservation and at point 0
(R429, R485, R487). -/
def Channel.stayFenced (reason : Nat) (c : Channel) : Channel :=
  if c.resv.isNone then c
  else { c with resv := none, reason := BitVec.ofNat 8 reason, duct := { c.duct with point := 0, changing := none, raised := false } }
/-- FENCED at once, with its reason (R426 to R428): windows close; strokes are abandoned at the next boundary. The pins follow
Margin's record of the frame (R345); a channel without a frame shows STOP (log 12). -/
def Hw.fenceOff (m : Ch) (reason : Nat) (hw : Hw) : Hw :=
  let h := hw.modCh m fun c => { c with peer := { c.peer with grace := none } }
  if (hw.ch m).st == .fenced then h.modCh m (Channel.stayFenced reason) else
  let h := h.enter m .fenced reason
  h.modCh m fun c => c.setPins h.now { ok := false, margin := true, stop := !c.tick.ticking || (h.marginRecord m false).stop }
/-- R485: a channel that leaves FENCED reserves again at once; it stays FENCED with PWR_OVER where that does not fit. -/
def Hw.rejoin (m : Ch) (hw : Hw) : Hw :=
  let c := hw.ch m
  if c.st != .fenced || c.resv.isSome then hw
  else if hw.fitsPower m then hw.modCh m fun c => { c with resv := some c.need }
  else (hw.modCh m (Channel.bump .pwrOver 1)).raise m .note 0xDA initPower (some c.power) (some c.need)
def Hw.membership (m : Ch) (x : Member) (hw : Hw) : Hw :=
  match (hw.ch m).memberCase x with
  | .replace =>
    let caught := decide ((hw.ch m).peer.seen.toNat ≤ x.epoch.toNat)
    let f := fun (p : PeerSt) =>
      let p := { p with epoch := x.epoch, members := x.members, position := some x.position }
      if caught then { p with grace := none } else p
    let hw := hw.modCh m fun c => { c with peer := (f c.peer).sawEpoch x.epoch }
    if caught then hw.rejoin m else hw
  | .removed =>
    (hw.modCh m fun c => { c with peer := c.peer.sawEpoch x.epoch }).fenceOff m 0xCF
  | _ => hw

end Sys2Proof.Machine
end

