-- ==== Sys2Proof/Machine/Dispatcher.lean ====
section
/-! DEFINITION. The dispatcher of the host port (R79 to R107): the eleven checks of R84, what is counted and recorded, what
each accepted opcode does, packets that wait, the hairpin path, and the commands of the inbound packets. -/
namespace Sys2Proof.Machine

/-! ### The checks of R84 -/

/-- Step 2: the ring's descriptor when it is enabled and inbound. -/
def Channel.inRing (c : Channel) (n : Nat) : Option Ring :=
  if c.ringsLoaded || (c.st == .maint && n == 0) then (c.ring n).filter fun r => r.enabled && !r.out else none
/-- Step 3 (R87). -/
def Channel.admits (c : Channel) (ring op : Nat) : Bool :=
  match c.st with
  | .off | .boot | .load => false
  | .refused => ring == 0 && op == 7 && c.ringsLoaded
  | .ready | .run | .margin => op != 11
  | .stopped => ring == 0 && [7, 8, 10, 13].contains op
  | .fenced => ring == 0 && [7, 12, 13].contains op
  | .maint => ring == 0 && [7, 8, 11, 13].contains op
/-- Step 5: the key that a generation names on a ring (R440); in MAINT ring 0, and no other ring, is sealed under KM (R453). -/
def Hw.keyOf (hw : Hw) (m : Ch) (ring tenant gen : Nat) : Option Key :=
  let c := hw.ch m
  if c.st == .maint && ring == 0 then
    match c.maint with
    | some x => if gen == 0 then some x.key else none
    | none => none
  else
    let s := hw.session tenant
    if !s.isOpen then none
    else if gen == s.genCur then some s.keyCur
    else if s.prevLive && gen == s.genPrev then some s.keyPrev
    else none
/-- The generation under which the device seals (R436). -/
def Hw.curGen (hw : Hw) (m : Ch) (ring tenant : Nat) : Nat := if (hw.ch m).st == .maint && ring == 0 then 0 else (hw.session tenant).genCur
/-- SESSION of the session or maintenance session whose key seals the ring's packets (R433). -/
def Hw.sealSession (hw : Hw) (m : Ch) (ring tenant : Nat) : Nat :=
  if (hw.ch m).st == .maint && ring == 0 then ((hw.ch m).maint.map (·.session)).getD 0 else (hw.session tenant).serial
/-- Step 6: the packet verifies under the key and the nonce that its header gives (R433). -/
def Hw.authentic (hw : Hw) (m : Ch) (r : Ring) (p : Packet) (k : Key) : Bool :=
  p.sealed.intact && p.sealed.key == k
    && p.sealed.nonce == packetNonce p.ring18 false p.gen p.seq.toNat (hw.sealSession m r.num r.tenant)
/-- The packet is sealed under a key of a session of the tenant that a renewal ended (R443). -/
def Hw.sealEnded (hw : Hw) (m : Ch) (r : Ring) (p : Packet) : Bool :=
  !((hw.ch m).st == .maint && r.num == 0) && p.sealed.key.ended (hw.session r.tenant).oldSs
def genLimit : Nat := 2 ^ 32 - 1

/-- Steps 3 to 7: the first failure's code. -/
def Hw.earlyWhy (hw : Hw) (m : Ch) (r : Ring) (p : Packet) : Option Nat :=
  if !((hw.ch m).admits p.ring p.op) then some 0x42
  else if p.tenant != r.tenant then some 0x43
  else match hw.keyOf m r.num r.tenant p.gen with
  | none => some 0x44
  | some k =>
    if hw.sealEnded m r p then some 0x44
    else if !(hw.authentic m r p k) then some 0x45
    else if genLimit ≤ r.genUsed then some 0x4A
    else none

/-- d of R81. -/
def seqStep (r : Ring) (p : Packet) : Nat := (p.seq - r.nextSeq).toNat
/-- R97, R381: the range lies in the ring's window, a HOSTW region of its tenant. -/
def Channel.inWindow (c : Channel) (r : Ring) (addr n : Nat) : Bool := (c.region r.region).any fun g => g.hostw && g.tenant == r.tenant && g.holds addr n
/-- Step 10 for the opcodes that carry addresses of the host's choosing (R72, R97; R99 gives PUBLISH its own code). -/
def Channel.inFirewall (c : Channel) (r : Ring) (p : Packet) : Bool := p.op != 5 || c.inWindow r p.addr (p.len - 64)
/-- Step 11. DESIGN CHOICE (log 20): reserved fields within a payload are not looked at; R84 names no outcome where one is not 0. -/
def Hw.payloadOk (hw : Hw) (m : Ch) (r : Ring) (w : Waiting) : Bool :=
  let c := hw.ch m
  let p := w.pkt
  match p.op with
  | 1 => p.sweepOk r
  | 2 => p.imageOk r
  | 3 => p.telemOk r
  | 4 => p.calibOk
  | 5 => p.memwriteOk
  | 6 => p.len == 65600 && (p.tailReq c).isSome
  | 7 => p.regOk false
  | 8 => p.regOk true
  | 9 => p.publishOk c r
  | 10 => hw.rotateOk m r.tenant p w.kem
  | 11 => p.nvmOk c.nvm
  | 12 => p.len == 64 && c.memberCase p.member != .refuse
  | 13 => p.len == 64
  | _ => false
/-- A TAILPAGE that answers no outstanding request is only a NOTE (R98). -/
def payloadSeverity (p : Packet) : Severity := if p.op == 6 && p.len == 65600 then .note else .degraded
/-- Steps 8 to 11. -/
def Hw.lateWhy (hw : Hw) (m : Ch) (r : Ring) (w : Waiting) : Option (Nat × Severity) :=
  let p := w.pkt
  if 2 ^ 31 ≤ seqStep r p then some (0x46, .degraded)
  else if !(r.opmask.getLsbD p.op) then some (0x48, .degraded)
  else if !((hw.ch m).inFirewall r p) then some (0x49, .degraded)
  else if !(hw.payloadOk m r w) then some (0x4B, payloadSeverity p)
  else none

/-- R85, R86: a discarded packet. -/
def Hw.discard (m : Ch) (p : Packet) (r : Option Ring) (code : Nat) (sev : Severity) (hw : Hw) : Hw :=
  let hw := match r with
    | some r => hw.modCh m (Channel.modRing r.num fun r => { r with discarded := min (r.discarded + 1) (2 ^ 32 - 1) })
    | none => hw
  let authFail := r.any (·.safety) && [0x43, 0x44, 0x45, 0x4A, 0x46].contains code
  let hw := if authFail then hw.modCh m (Channel.doubtInput .authFail) else hw
  hw.raiseIn m (if authFail then .doubt else sev) code initDisp (some p.ring18) (some p.seq.toNat)

/-! ### Accepted packets -/

/-- R101, R494: a REGREAD is performed as a whole and answered. -/
def Hw.regRead (m : Ch) (p : Packet) (hw : Hw) : Hw :=
  let c := hw.ch m
  let t := ((c.ring 0).map (·.tenant)).getD 0
  let q := p.reg
  let ws := (List.range q.count).map fun i => hw.hostRead m t (q.addr + 4 * i)
  let hw := hw.viewReads ((placesFrom q.addr q.count).filter fun p => !(p.foreign m))
  let hw := if ws.any (·.2.1) then hw.raiseIn m .degraded 0x49 initDisp (some p.ring18) (some p.seq.toNat) else hw
  hw.outPush m { body := .regdata q.tag (BitVec.ofNat 32 q.addr) q.count (rstatusOf ws) (ws.map fun w => BitVec.ofNat 32 w.1), ring := 0,
                 frametag := BitVec.ofNat 32 c.tick.k, reports := none, eom := true }
/-- A boundary is due now or within 2 µs (R494, log 12). -/
def Channel.boundaryNear (c : Channel) : Bool :=
  c.tick.ticking && c.st.ticks && c.img.tickSrc == 0 && decide (c.tick.nextDue ≤ c.local + 2000)
/-- R101, R102: a REGWRITE applies its words in ascending order; ACK is answered with STATUS. -/
def Hw.regWrite (m : Ch) (p : Packet) (hw : Hw) : Hw :=
  let q := p.reg
  let addrs := (List.range q.count).map fun i => q.addr + 4 * i
  let hw := (addrs.zip (wordsAt p.payload 64 q.count)).foldl (fun h a => h.hostWrite m a.1 a.2.toNat) hw
  let hw := if addrs.any fun a => (placeOf a).foreign m then hw.raiseIn m .degraded 0x49 initDisp (some p.ring18) (some p.seq.toNat) else hw
  let c := hw.ch m
  if p.ack then hw.outPush m { body := .status 0 c.st c.reason q.tag c.tick.k, ring := 0, frametag := BitVec.ofNat 32 c.tick.k, reports := none, eom := true }
  else hw
/-- R91: a lapse that this HEARTBEAT ends late has doubted the frame in progress. -/
def Hw.heartbeat (m : Ch) (p : Packet) (hw : Hw) : Hw :=
  let hw := if (hw.ch m).st.ticks then hw.hbCheck m else hw
  hw.modCh m fun c => { c with hbLast := some hw.now, hbSinceReady := c.hbSinceReady || c.st == .ready,
                               env := { c.env with hostSeen := wordAt p.payload 4 }, grd := { c.grd with hbRaised := false } }
/-- A tail page that no command gave: it does not verify. -/
def noPage : SealedPage := { key := .zeros, table := 0, folio := 0, gen := 0, page := 0, serial := 0, intact := false, plain := [] }

/-- The opcode's effect. -/
def Hw.perform (m : Ch) (r : Ring) (w : Waiting) (hw : Hw) : Hw :=
  let p := w.pkt
  match p.op with
  | 1 => hw.takeSweep m r p
  | 2 => hw.takeImage m r p
  | 3 => hw.takeTelem m r p
  | 4 => hw.modCh m (Channel.takeCals p)
  | 5 => hw.modCh m (Channel.addWrite r.num p.addr (bytesAt p.payload 64 (p.len - 64)) [])
  | 6 => match p.tailReq (hw.ch m) with
    | some q => hw.tailInstall m q p.tail.gen (w.page.getD noPage)
    | none => hw
  | 7 => if (hw.ch m).boundaryNear || !(hw.ch m).regHeld.isEmpty then hw.modCh m fun c => { c with regHeld := c.regHeld ++ [p] } else hw.regRead m p
  | 8 => hw.regWrite m p
  | 9 => hw.modCh m (Channel.publish (byteAt p.payload 0) p.folio)
  | 10 => hw.rotate m r.tenant p w.kem
  | 11 => hw.nvmWrite m p w.badPages w.eraseFails
  | 12 => hw.membership m p.member
  | _ => hw.heartbeat m p

/-- R81, R86: a gap. DESIGN CHOICE (log 12): GAPS, DISCARDED and ACCEPTED of a descriptor stay at their highest value; no rule says
whether they wrap. -/
def Hw.gap (m : Ch) (r : Ring) (p : Packet) (d : Nat) (hw : Hw) : Hw :=
  if d == 0 then hw else
  let hw := hw.modCh m (Channel.modRing r.num fun r => { r with gaps := min (r.gaps + d) (2 ^ 32 - 1) })
  let hw := if r.safety then hw.modCh m (Channel.doubtInput .staleInput) else hw
  hw.raiseIn m (if r.safety then .doubt else .degraded) 0x47 initDisp (some p.ring18) (some p.seq.toNat)
/-- R89: CAPTIME older than MAX_AGE µs. -/
def Channel.tooOld (c : Channel) (r : Ring) (p : Packet) : Bool :=
  r.maxAge != 0 && decide ((r.maxAge * 1000 : Int) < (c.local : Int) - extend c.local p.captime)
def Hw.ageCheck (m : Ch) (r : Ring) (p : Packet) (hw : Hw) : Hw :=
  if (hw.ch m).tooOld r p then (hw.modCh m (Channel.doubtInput .staleInput)).raiseIn m .doubt 0x97 initDisp (some p.ring18) (some 1) else hw
/-- R88, R340, R18: the message of an EOM packet is complete. -/
def Hw.messageDone (m : Ch) (r : Ring) (p : Packet) (hw : Hw) : Hw :=
  if !p.eom then hw else
  let hw := hw.modCh m (Channel.modRing r.num fun r => { r with msgsOpen := r.msgsOpen + 1, tagOpen := some p.frametag })
  if hw.dev.link.down then hw else hw.modDev fun d => { d with link := { d.link with owing := d.link.owing.filter fun o => !(o.1 == m && o.2 == r.num) } }
/-- The ring's account of a packet that passed every check, before its effect (R81, R86, R89, R500). -/
def Hw.account (m : Ch) (r : Ring) (w : Waiting) (hw : Hw) : Hw :=
  let p := w.pkt
  let hw := hw.gap m r p (seqStep r p)
  let hw := hw.modCh m fun c =>
    (c.bump .perfHostIn p.len).modRing r.num fun x =>
      { x with nextSeq := p.seq + 1, accepted := min (x.accepted + 1) (2 ^ 64 - 1), stampA := compact (c.localAt w.crossed), stampB := compact c.local }
  hw.ageCheck m r p
/-- A packet that passed every check. -/
def Hw.accept (m : Ch) (r : Ring) (w : Waiting) (hw : Hw) : Hw := ((hw.account m r w).perform m r w).messageDone m r w.pkt

/-- The firewalls let ingest write INPUT regions of the ring's tenant only (R381). -/
def Channel.ingestOk (c : Channel) (r : Ring) (p : Packet) : Bool :=
  !([1, 2, 3].contains p.op) || (c.region r.region).any fun g => g.input && g.tenant == r.tenant
/-- A block discards the packet and fences nothing (R382). Its record names the address that the packet's bytes would go to (R378); for a
ring whose region does not exist that is a free value. -/
def Hw.ingestBlocked (m : Ch) (r : Ring) (hw : Hw) : Hw :=
  let c := hw.ch m
  let (a, hw) := match c.region r.region with
    | some g => (c.intakeAt r g, hw)
    | none => hw.free
  (hw.modCh m (Channel.modRing r.num fun r => { r with discarded := min (r.discarded + 1) (2 ^ 32 - 1) })).blocked m (initIngest m) a

/-- The checks in order; the first failure decides (R84). -/
def Hw.deliver (m : Ch) (w : Waiting) (hw : Hw) : Hw :=
  let p := w.pkt
  if !p.headerOk then hw.discard m p none 0x40 .degraded
  else match (hw.ch m).inRing p.ring with
  | none => hw.discard m p none 0x41 .degraded
  | some r => match hw.earlyWhy m r p with
    | some code => hw.discard m p (some r) code .degraded
    | none =>
      -- the ring has carried the packet (R82)
      let hw := if p.gen == hw.curGen m r.num r.tenant then hw.modCh m (Channel.modRing r.num fun r => { r with genUsed := r.genUsed + 1 }) else hw
      match hw.lateWhy m r w with
      | some (code, sev) => hw.discard m p (some r) code sev
      | none => if (hw.ch m).ingestOk r p then hw.accept m r w else hw.ingestBlocked m r

/-! ### Waiting (R79, R237) -/

/-- Whether a packet of the ring waits: no context, a held write or a held REGREAD of the ring. -/
def Channel.ringBlocked (c : Channel) (n : Nat) : Bool :=
  c.uncached n || !(c.st == .maint && n == 0) && c.ringsLoaded && (c.ringHeld n || (n == 0 && !c.regHeld.isEmpty))
def Channel.behind (c : Channel) (n : Nat) : Bool := c.ctxWait.any fun w => w.pkt.ring == n
/-- The class a waiting packet is served in: its ring's; 3 where step 1 of R84 fails or the ring has no enabled descriptor (R80). -/
def Channel.waitClass (c : Channel) (p : Packet) : Nat :=
  if !p.headerOk || !(c.ringsLoaded || (c.st == .maint && p.ring == 0)) then 3 else
  match c.ring p.ring with
  | some r => if r.enabled then r.cls else 3
  | none => 3
/-- Positions of the waiting packets that are the first of their ring and that nothing holds any more. -/
def Channel.released (c : Channel) : List Nat :=
  (List.range c.ctxWait.length).filter fun i => (c.ctxWait[i]?).any fun w =>
    !(c.ringBlocked w.pkt.ring) && !((c.ctxWait.take i).any fun v => v.pkt.ring == w.pkt.ring)
/-- A released packet: channel, position, class and 18-bit ring. -/
structure InCand where
  m : Ch
  idx : Nat
  cls : Nat
  ring : Nat
def Hw.inCands (hw : Hw) : List InCand :=
  chans.flatMap fun m =>
    let c := hw.ch m
    c.released.filterMap fun i => (c.ctxWait[i]?).map fun w => { m := m, idx := i, cls := c.waitClass w.pkt, ring := w.pkt.ring18 }
/-- Strict class order; within a class round-robin by 18-bit ring after the one served last (R80). -/
def Hw.nextIn (hw : Hw) : Option InCand :=
  let all := hw.inCands
  let least := fun (l : List InCand) => l.foldl (fun (b : Option InCand) x => match b with
    | none => some x
    | some y => if x.ring < y.ring then some x else some y) none
  [0, 1, 2, 3].findSome? fun cls =>
    let l := all.filter (·.cls == cls)
    (least (l.filter fun x => decide (hw.dev.link.servedIn.getD cls 0 < x.ring))).orElse fun _ => least l
/-- A packet is served. -/
def Hw.serve (w : Waiting) (hw : Hw) : Hw :=
  let m := w.pkt.chan
  let cls := (hw.ch m).waitClass w.pkt
  (hw.modDev fun d => { d with link := { d.link with servedIn := setAt d.link.servedIn cls w.pkt.ring18 } }).deliver m w
/-- A packet reaches the dispatcher. -/
def Hw.arrive (v : Waiting) (hw : Hw) : Hw :=
  let w := { v with crossed := hw.now - v.pkt.wait }
  let m := w.pkt.chan
  let c := hw.ch m
  let n := w.pkt.ring
  if !hw.dev.porstN || hw.dev.link.down then hw
  else if w.pkt.headerOk && (c.ringBlocked n || c.behind n) then
    let miss := c.uncached n
    hw.modCh m fun c => { (if miss then c.bump .ctxMisses 1 else c) with ctxWait := c.ctxWait ++ [{ w with missed := miss }] }
  else hw.serve w
def Hw.retryGo : Nat → Hw → Hw
  | 0, hw => hw
  | n + 1, hw =>
    match hw.nextIn with
    | none => hw
    | some x => match (hw.ch x.m).ctxWait[x.idx]? with
      | some w => Hw.retryGo n ((hw.modCh x.m fun c => { c with ctxWait := c.ctxWait.eraseIdx x.idx }).serve w)
      | none => hw
/-- Released packets go on, in the order of R80. -/
def Hw.retry (hw : Hw) : Hw := hw.retryGo ((chans.map fun m => (hw.ch m).ctxWait.length).foldl (· + ·) 0)

/-- The context at place `i` of the cache is written back and leaves (R79): 64 bytes of HBM. Packets of its ring that wait behind a held write
wait for a fetch too from now on (R501). -/
def Channel.evictCtx (i : Nat) (c : Channel) : Channel :=
  let ring := c.ctx.getD i 0
  let c := { c.bump .perfHbmWr 64 with ctx := c.ctx.eraseIdx i }
  let late := fun (w : Waiting) => c.uncached ring && w.pkt.ring == ring && !w.missed
  { c.bump .ctxMisses (c.ctxWait.filter late).length with ctxWait := c.ctxWait.map fun w => { w with missed := w.missed || late w } }
/-- A descriptor of 64 bytes is fetched into the cache of 1,024 contexts, and one leaves a full cache (R79): bytes of HBM that R501 counts.
Which context leaves is open (log 18). -/
def Hw.cacheRing (m : Ch) (ring : Nat) (hw : Hw) : Hw :=
  let (n, hw) := hw.free
  hw.modCh m fun c =>
    let c := if c.ctx.length < 1024 then c else c.evictCtx (n % c.ctx.length)
    { c.bump .perfHbmRd 64 with ctx := c.ctx ++ [ring] }

/-- R79. -/
def execRingContextFetch (t : Nat) (ch : Ch) (ring : Nat) (s : State) : Host.Outcome State Fault Refusal :=
  s.run t fun hw =>
    let c := hw.ch ch
    if c.behind ring && !(c.ctx.contains ring) then (hw.cacheRing ch ring).retry else hw

/-- R494: the REGREAD held across the boundary is performed. -/
def execRegreadDeferred (t : Nat) (ch : Ch) (s : State) : Host.Outcome State Fault Refusal :=
  s.run t fun hw =>
    let c := hw.ch ch
    match c.regHeld with
    | [] => hw
    | p :: rest => if c.boundaryNear then hw else ((hw.modCh ch fun c => { c with regHeld := rest }).regRead ch p).retry

/-- R237: a held host-side write begins to apply. -/
def execHostWriteApply (t : Nat) (ch : Ch) (id : Nat) (s : State) : Host.Outcome State Fault Refusal :=
  s.run t fun hw =>
    let c := hw.ch ch
    match c.writeOf id with
    | some w => if c.mayApply w then (hw.modCh ch (Channel.applyWrite id)).retry else hw
    | none => hw

/-- R237: the last granule of a host-side write lands. -/
def execHostWriteLanded (t : Nat) (ch : Ch) (id : Nat) (s : State) : Host.Outcome State Fault Refusal :=
  s.run t fun hw =>
    let c := hw.ch ch
    match c.writeOf id with
    | some w => if c.mayLand w then (hw.modCh ch (Channel.landWrite w)).retry else hw
    | none => hw

/-! ### The hairpin path (R106, R107) -/

/-- Steps 2, 3, 9, 10 and 11 against the target ring, and the conditions of R106. -/
def Hw.hairOk (hw : Hw) (src m : Ch) (h : HairPkt) (r : Ring) : Bool :=
  let c := hw.ch m
  c.admits r.num 5 && r.opmask.getLsbD 5 && (c.region r.region).any (fun g => g.holds h.addr h.bytes.length) && h.addr % 64 == 0
    && lenIs (64 + h.bytes.length) 64 1 4095 && ((hw.ch src).ring h.srcRing).any (·.tenant == r.tenant) && r.source == src.val
def Hw.hairFail (src m : Ch) (ring18_ : Nat) (seq : Option Nat) (hw : Hw) : Hw :=
  let hw := hw.raiseIn m .degraded 0x4E initDisp (some ring18_) seq
  if src == m then hw else hw.raiseIn src .degraded 0x4E initDisp (some ring18_) seq
/-- A hairpin packet reaches its target ring (R107). It completes no message of that ring: the spec gives it no EOM (log 27). DESIGN
CHOICE (log 27): it is numbered by the target ring alone, so NEXT_SEQ and GEN_USED of the source ring stay, and GEN_USED of the
target ring too, since no key seals it. -/
def Hw.hairDeliver (src m : Ch) (h : HairPkt) (hw : Hw) : Hw :=
  let n := h.target % 65536
  match (hw.ch m).inRing n with
  | none => hw.hairFail src m h.target none
  | some r =>
    let discarded := fun (h : Hw) => h.modCh m (Channel.modRing n fun x => { x with discarded := min (x.discarded + 1) (2 ^ 32 - 1) })
    if hw.hairOk src m h r then
      -- hairpin delivery writes HOSTW regions of the ring's tenant only (R381, R382)
      if !((hw.ch m).inWindow r h.addr h.bytes.length) then (discarded hw).blocked m (initHairpin m) h.addr else
      let len := 64 + h.bytes.length
      (hw.modCh m fun c =>
        ((c.bump .perfHostIn len).modRing n fun x =>
          { x with nextSeq := x.nextSeq + 1, accepted := min (x.accepted + 1) (2 ^ 64 - 1), stampA := compact c.local, stampB := compact c.local }).addWrite n h.addr
          h.bytes h.bad).modCh src (Channel.bump .perfHostOut len)
    else
      (discarded hw).hairFail src m h.target (some r.nextSeq.toNat)

/-- The oldest MEMWRITE of the source channel's hairpin rings is turned back. -/
def execHairpin (t : Nat) (src : Ch) (s : State) : Host.Outcome State Fault Refusal :=
  s.run t fun hw =>
    match (hw.ch src).hairQ with
    | [] => hw
    | h :: rest =>
      let m : Ch := Fin.ofNat 4 (h.target / 65536)
      let n := h.target % 65536
      let c := hw.ch m
      if c.ringsLoaded && (c.ringHeld n || c.behind n) then hw
      else
        let hw := hw.modCh src fun c => { c with hairQ := rest }
        let hw := if c.uncached n then (hw.modCh m (Channel.bump .ctxMisses 1)).cacheRing m n else hw
        hw.hairDeliver src m h

/-! ### The packet commands -/

/-- A packet on the stream as the command of one row, whose opcode it must carry. -/
def Hw.packet (op : Nat) (w : Waiting) (hw : Hw) : Hw := if w.pkt.op == op then hw.arrive w else hw
def plain (p : Packet) : Waiting := { pkt := p, crossed := 0, missed := false, page := none, kem := none, badPages := [], eraseFails := false }

/-- 01h SWEEP (R93). -/
def execSweep (t : Nat) (p : Packet) (s : State) : Host.Outcome State Fault Refusal := s.run t (Hw.packet 1 (plain p))
/-- 02h IMAGE (R94). -/
def execImage (t : Nat) (p : Packet) (s : State) : Host.Outcome State Fault Refusal := s.run t (Hw.packet 2 (plain p))
/-- 03h TELEM (R95). -/
def execTelem (t : Nat) (p : Packet) (s : State) : Host.Outcome State Fault Refusal := s.run t (Hw.packet 3 (plain p))
/-- 04h CALIB (R96). -/
def execCalib (t : Nat) (p : Packet) (s : State) : Host.Outcome State Fault Refusal := s.run t (Hw.packet 4 (plain p))
/-- 05h MEMWRITE (R97). -/
def execMemwrite (t : Nat) (p : Packet) (s : State) : Host.Outcome State Fault Refusal := s.run t (Hw.packet 5 (plain p))
/-- 06h TAILPAGE (R98, R267). -/
def execTailpage (t : Nat) (p : Packet) (page : SealedPage) (s : State) : Host.Outcome State Fault Refusal :=
  s.run t (Hw.packet 6 { plain p with page := some page })
/-- 07h REGREAD (R101). -/
def execRegread (t : Nat) (p : Packet) (s : State) : Host.Outcome State Fault Refusal := s.run t (Hw.packet 7 (plain p))
/-- 08h REGWRITE (R101, R102). -/
def execRegwrite (t : Nat) (p : Packet) (s : State) : Host.Outcome State Fault Refusal := s.run t (Hw.packet 8 (plain p))
/-- 09h PUBLISH (R99, R254). -/
def execPublish (t : Nat) (p : Packet) (s : State) : Host.Outcome State Fault Refusal := s.run t (Hw.packet 9 (plain p))
/-- 0Ah KEYROTATE, SCOPE 0, install (R440). -/
def execKeyrotateSessionInstall (t : Nat) (p : Packet) (ct : Kem) (wrong : Nat) (s : State) : Host.Outcome State Fault Refusal :=
  s.run t (Hw.packet 10 { plain p with kem := some (ct, wrong) })
/-- 0Ah KEYROTATE, SCOPE 0, retire (R440). -/
def execKeyrotateSessionRetire (t : Nat) (p : Packet) (s : State) : Host.Outcome State Fault Refusal := s.run t (Hw.packet 10 (plain p))
/-- 0Ah KEYROTATE, SCOPE 1, install (R269, R442). -/
def execKeyrotateTableInstall (t : Nat) (p : Packet) (ct : Kem) (wrong : Nat) (s : State) : Host.Outcome State Fault Refusal :=
  s.run t (Hw.packet 10 { plain p with kem := some (ct, wrong) })
/-- 0Ah KEYROTATE, SCOPE 1, retire (R269). -/
def execKeyrotateTableRetire (t : Nat) (p : Packet) (s : State) : Host.Outcome State Fault Refusal := s.run t (Hw.packet 10 (plain p))
/-- 0Bh NVMWRITE (R100, R479). -/
def execNvmwrite (t : Nat) (p : Packet) (badPages : List Nat) (eraseFails : Bool) (s : State) : Host.Outcome State Fault Refusal :=
  s.run t (Hw.packet 11 { plain p with badPages := badPages, eraseFails := eraseFails })
/-- 0Ch MEMBERSHIP (R426). -/
def execMembership (t : Nat) (p : Packet) (s : State) : Host.Outcome State Fault Refusal := s.run t (Hw.packet 12 (plain p))
/-- 0Dh HEARTBEAT (R91). -/
def execHeartbeat (t : Nat) (p : Packet) (s : State) : Host.Outcome State Fault Refusal := s.run t (Hw.packet 13 (plain p))
/-- A packet that fails step 1 of R84. -/
def execMalformed (t : Nat) (p : Packet) (s : State) : Host.Outcome State Fault Refusal :=
  s.run t fun hw => if p.headerOk then hw else hw.arrive (plain p)

end Sys2Proof.Machine
end

