-- ==== Sys2Proof/Machine/Outbound.lean ====
section
/-! DEFINITION. The device-to-host direction (R16, R80, R83, R105, R436): the choice of the next packet and its sealing, the
Scribe's handling of error records (R374, R375), and TAILFETCH requests that time out (R266). -/
namespace Sys2Proof.Machine

/-! ### Payload lengths (R92, R104, R281) -/

def ResultRec.len (r : ResultRec) : Nat :=
  64 + (r.detections.elim 0 fun l => 16 + 32 * l.length) + (r.free.elim 0 fun l => 16 + 2 * l.length) + (r.health.elim 0 fun l => 16 + 16 * l.length)
def OutBody.len : OutBody → Nat
  | .envelope _ => 128
  | .result r => r.len
  | .tailfetch .. => 64
  | .regdata _ _ _ _ ws => 64 + 4 * ws.length
  | .error rs _ => 32 * rs.length
  | .status .. => 64
  | .delta0 _ _ _ _ _ _ es => 64 + 48 * es.length
  | .delta1 _ _ _ _ _ _ _ bs => 64 + bs.length

/-! ### Payload bytes (R98, R101 to R104, R281, R282, R340) -/

/-- An error record of 32 bytes (R103). -/
def ErrRec.bytes (r : ErrRec) : List Byte :=
  let detail := fun (which : Nat) (d : Option Word) => leBytes 4 (d.getD (Config.blankDetail r.code which)).toNat
  [BitVec.ofNat 8 r.severity.toNat, r.code, BitVec.ofNat 8 (r.channel.elim 0xFF (·.val)), BitVec.ofNat 8 (r.initiator % 64)]
    ++ detail 0 r.detail0 ++ leBytes 8 r.k ++ leBytes 8 r.time.toNat ++ detail 1 r.detail1 ++ leBytes 4 r.dropped
/-- The nonce of a page (R268). -/
def pageNonce (table folio gen page serial : Nat) : List Byte :=
  leBytes 1 table ++ leBytes 1 folio ++ leBytes 1 gen ++ leBytes 1 0 ++ leBytes 4 page ++ leBytes 4 serial
/-- The 64-byte header of a DELTA (R281). -/
def deltaHeader (kind table folio gen serial k first count total : Nat) (tag : List Byte) : List Byte :=
  leBytes 1 kind ++ leBytes 1 table ++ leBytes 1 folio ++ leBytes 1 gen ++ leBytes 4 serial ++ leBytes 8 k ++ leBytes 4 first
    ++ leBytes 4 count ++ leBytes 4 total ++ tag ++ leBytes 20 0
/-- The payload before it is sealed, as the tables of each opcode lay it out. -/
def OutBody.payload : OutBody → List Byte
  | .envelope e => e.bytes
  | .result r => r.bytes
  | .tailfetch reqId table folio page => leBytes 4 reqId ++ leBytes 1 table ++ leBytes 1 folio ++ leBytes 2 0 ++ leBytes 4 page ++ leBytes 52 0
  | .regdata tag addr count rstatus ws =>
    leBytes 4 tag.toNat ++ leBytes 4 addr.toNat ++ leBytes 2 count ++ leBytes 1 rstatus ++ leBytes 53 0 ++ ws.flatMap fun w => leBytes 4 w.toNat
  | .error rs _ => rs.flatMap ErrRec.bytes
  | .status skind st reason tag k =>
    leBytes 1 skind ++ leBytes 1 st.code ++ [reason] ++ leBytes 1 0 ++ leBytes 4 tag.toNat ++ leBytes 8 k ++ leBytes 48 0
  | .delta0 table folio serial k first total es =>
    deltaHeader 0 table folio 0 serial k first es.length total (leBytes 16 0)
      ++ es.flatMap fun e => leBytes 4 e.row ++ leBytes 4 e.slot ++ e.slices ++ leBytes 8 0
  | .delta1 table folio gen serial k page key plain =>
    let sealed := fun (i : Nat) => Config.pageByte key (pageNonce table folio gen page serial) plain i
    deltaHeader 1 table folio gen serial k page 0 0 ((List.range 16).map sealed) ++ (List.range plain.length).map fun i => sealed (16 + i)

/-! ### The choice (R16, R80) -/

/-- A queued packet: channel, position in the queue, the packet and its ring. -/
structure Cand where
  m : Ch
  idx : Nat
  pkt : OutPkt
  ring : Ring
  deriving DecidableEq, Repr
def Cand.ring18 (c : Cand) : Nat := Sys2Proof.Machine.ring18 c.m c.ring.num
/-- The packets of channel m whose ring and session exist. -/
def Hw.candidates (hw : Hw) (m : Ch) : List Cand :=
  let c := hw.ch m
  (c.outq.zipIdx).filterMap fun (p, i) =>
    if !c.ringsLoaded && c.st != .maint then none else
    match c.ring p.ring with
    | some r => if (hw.keyOf m r.num r.tenant (hw.curGen m r.num r.tenant)).isSome then some { m := m, idx := i, pkt := p, ring := r } else none
    | none => none
def Cand.open_ (c : Cand) : Bool := decide (c.ring.genUsed < genLimit)
/-- The oldest packet of each ring. -/
def ringHeads (l : List Cand) : List Cand :=
  l.filter fun c => !(l.any fun d => d.ring18 == c.ring18 && decide (d.idx < c.idx))
/-- Round-robin by ring number after `last`. -/
def nextRing (last : Nat) (l : List Cand) : Option Cand :=
  let least := fun (l : List Cand) => l.foldl (fun (b : Option Cand) c => match b with
    | none => some c
    | some x => if c.ring18 < x.ring18 then some c else some x) none
  (least (l.filter fun c => decide (last < c.ring18))).orElse fun _ => least l
def Hw.nextOut (hw : Hw) : Option Cand :=
  let all := chans.flatMap fun m => hw.candidates m
  match all.find? fun c => c.pkt.body.isEnv && c.open_ with
  | some c => some c
  | none =>
    let heads := (ringHeads (all.filter fun c => !c.pkt.body.isEnv)).filter Cand.open_
    [0, 1, 2, 3].foldl (fun (b : Option Cand) cls => b.orElse fun _ => nextRing (hw.dev.link.served.getD cls 0) (heads.filter fun c => c.ring.cls == cls)) none

/-! ### Sealing and sending (R76, R83, R436, R500) -/

/-- The ring after it has sent a packet. -/
def Ring.sent (now : DWord) (r : Ring) : Ring :=
  if r.out then { r with nextSeq := r.nextSeq + 1, genUsed := r.genUsed + 1, stampA := now, stampB := now }
  else { r with outSeq := r.outSeq + 1, genUsed := r.genUsed + 1 }
def Ring.sendSeq (r : Ring) : Word := if r.out then r.nextSeq else r.outSeq
/-- What leaving the queue does to its channel: records it carried leave the error queue (R375), a request counts as sent. -/
def Channel.left (b : OutBody) (c : Channel) : Channel :=
  match b with
  | .error _ ids => { c with errq := c.errq.filter fun e => !(ids.contains e.id) }
  | .tailfetch .. => c.bump .mapTailFetches 1
  | _ => c
/-- Packets that waited for the freed entry (R105, R375; log 17). -/
def Hw.refill (m : Ch) (hw : Hw) : Hw := (hw.modCh m fun c => (c.formErr).feedTail).exportDeltas m
/-- Opcodes of outbound packets (R92). -/
def OutBody.opcode : OutBody → Nat
  | .envelope _ => 0x81
  | .result _ => 0x82
  | .tailfetch .. => 0x83
  | .regdata .. => 0x84
  | .error .. => 0x85
  | .status .. => 0x86
  | .delta0 .. | .delta1 .. => 0x87
/-- The 32-byte header of an outbound packet (R74). -/
def OutPkt.header (p : OutPkt) (ring18 tenant gen : Nat) (seq : Word) (captime : DWord) : List Byte :=
  leBytes 1 p.body.opcode ++ leBytes 1 (b2n p.eom) ++ leBytes 1 1 ++ leBytes 1 0 ++ leBytes 4 (ring18 % 2 ^ 18 + 2 ^ 18 * (tenant % 8) + 2 ^ 21 * (gen % 4))
    ++ leBytes 4 p.body.payload.length ++ leBytes 4 seq.toNat ++ leBytes 8 captime.toNat ++ leBytes 4 p.frametag.toNat ++ leBytes 4 0
/-- A sealed packet on the stream (R73, R433): header, tag, 16 reserved bytes, the payload encrypted, and zeros up to 64 bytes. -/
def sealPacket (key : Key) (nonce header payload : List Byte) : List Byte :=
  let s := Config.sealByte key.bytes nonce header payload
  header ++ (List.range 16).map s ++ leBytes 16 0 ++ (List.range payload.length).map (fun i => s (16 + i))
    ++ List.replicate (64 * ceilDiv payload.length 64 - payload.length) 0#8
/-- What the device emits as the packet leaves the queue: sealed under the current generation of its ring (R433, R436). -/
def Hw.sealed (x : Cand) (hw : Hw) : Emission :=
  let gen := hw.curGen x.m x.ring.num x.ring.tenant
  let key := (hw.keyOf x.m x.ring.num x.ring.tenant gen).getD .zeros
  let session := hw.sealSession x.m x.ring.num x.ring.tenant
  let captime := x.pkt.reports.getD (compact (hw.ch x.m).local)
  let payload := x.pkt.body.payload
  .packet x.m x.ring.sendSeq gen session captime x.pkt payload key
    (sealPacket key (packetNonce x.ring18 true gen x.ring.sendSeq.toNat session) (x.pkt.header x.ring18 x.ring.tenant gen x.ring.sendSeq captime) payload)
def Hw.sendOut (x : Cand) (hw : Hw) : Hw :=
  let now := compact (hw.ch x.m).local
  let f := fun (c : Channel) =>
    let c := { c with outq := c.outq.eraseIdx x.idx }
    ((c.bump .perfHostOut x.pkt.body.len).modRing x.ring.num (Ring.sent now)).left x.pkt.body
  ((((hw.modCh x.m f).refill x.m)).modDev fun d => { d with link := { d.link with served := setAt d.link.served x.ring.cls x.ring18 } }).emit (hw.sealed x)
/-- R436: NONCE_LIMIT once per generation for a ring whose packets wait. -/
def Hw.nonceHeld (hw : Hw) : Hw :=
  let held := (chans.flatMap fun m => hw.candidates m).filter fun c => !c.open_ && !c.ring.nonceRaised
  held.foldl (fun h c =>
    if ((h.ch c.m).ring c.ring.num).any (·.nonceRaised) then h else
    (h.modCh c.m (Channel.modRing c.ring.num fun r => { r with nonceRaised := true })).raise c.m .degraded 0x4A initDisp (some c.ring18)
      (some c.ring.sendSeq.toNat)) hw

/-- The host has returned credits: one packet is sealed and crosses. -/
def execOutboundSend (t : Nat) (s : State) : Host.Outcome State Fault Refusal :=
  s.run t fun hw =>
    if !hw.dev.porstN || hw.dev.link.down then hw else
    let hw := hw.nonceHeld
    match hw.nextOut with
    | some x => hw.sendOut x
    | none => hw

/-! ### Handling of records (R374, R375) -/

/-- The waiting record of highest severity, the oldest of them. -/
def Channel.nextErr (c : Channel) : Option ErrEntry :=
  (c.errq.filter (·.carry == .waiting)).foldl (fun (b : Option ErrEntry) e => match b with
    | none => some e
    | some x => if x.record.severity.toNat < e.record.severity.toNat then some e else some x) none
/-- T(0) is at this very ns: the channel has left READY, or FENCED, for RUN in this cycle. -/
def Channel.ranNow (now : Nat) (c : Channel) : Bool := c.tick.ticking && c.st.ticks && c.tick.k == 0 && c.tick.tkNow == now
/-- That transition is dropped: its STATUS does not leave, and the windows that it opened were never open (R463; log 21). -/
def Channel.unrun (c : Channel) : Channel :=
  { (c.unsay .run).unsay .margin with peer := { c.peer with winOpen := [], lag := [] } }
/-- The severity's action. A channel that has no boundary to wait for enters STOPPED at once (log 12), unless a transition of the same
cycle outranks CHANNEL_STOP; one that left READY or FENCED in the same cycle has not reached RUN (R463; log 21). -/
def Hw.actOn (m : Ch) (r : ErrRec) (hw : Hw) : Hw :=
  match r.severity with
  | .channelStop =>
    let c := hw.ch m
    match c.st with
    | .off | .stopped => hw
    | _ =>
      let ran := c.ranNow hw.now
      if c.outranked hw.now 4 then hw else
      let hw := (hw.dropDue m 4).modCh m Channel.abandon
      if c.tick.ticking && c.st.ticks && !ran then hw.modCh m fun c => { c with stopPending := some (c.stopPending.getD r.code) }
      else (hw.modCh m fun c => (if ran then c.unrun else c).ring0Counts).enter m .stopped r.code.toNat
  | _ => hw
def Channel.setCarry (id : Nat) (x : Carry) (c : Channel) : Channel :=
  { c with errq := c.errq.map fun e => if e.id == id then { e with carry := x } else e }
/-- The record is placed in an ERROR packet, or stays unsent. -/
def Channel.place (e : ErrEntry) (c : Channel) : Channel :=
  if c.roomOther then
    { c.setCarry e.id .carried with
      outq := c.outq ++ [{ body := .error [e.record] [e.id], ring := 0, frametag := BitVec.ofNat 32 c.tick.k, reports := none, eom := true }] }
  else c.setCarry e.id .unsent

def execErrorHandle (t : Nat) (ch : Ch) (s : State) : Host.Outcome State Fault Refusal :=
  s.run t fun hw =>
    match (hw.ch ch).nextErr with
    | some e => (hw.actOn ch e.record).modCh ch (Channel.place e)
    | none => hw

/-! ### TAIL_TIMEOUT (R266) -/

/-- TAIL_TIMEOUT in ns. -/
def Channel.tailLimit (c : Channel) : Nat := (c.img.sitemap.map (·.tailTimeout)).getD 0 * 1000
def execTailTimeout (t : Nat) (ch : Ch) (reqId : Nat) (s : State) : Host.Outcome State Fault Refusal :=
  s.run t fun hw =>
    let c := hw.ch ch
    if c.map.reqs.any fun r => r.id == reqId && decide (c.tailLimit < c.local - r.since) then
      (hw.modCh ch fun c => ((c.closeReq reqId).stick .tailTimeout).feedTail).raise ch .note 0x70 initDisp none none
    else hw

end Sys2Proof.Machine
end

