-- ==== Sys2Proof/Machine/Time.lean ====
section
/-! DEFINITION. Time (chapter "Time and time-stamps"): the sideband exchange (R393 to R395), the servo and the master's
changes (R399 to R404), and PTP on the peer ring (R396 to R398). -/
namespace Sys2Proof

/-! ### Ports and PTP messages -/

def Port.other : Port → Port
  | .east => .west
  | .west => .east
def Port.num : Port → Nat
  | .east => 1
  | .west => 2
/-- Event messages whose residence time is added (R397). -/
def PtpFrame.isEvent (f : PtpFrame) : Bool := decide (f.messageType ≤ 3) && decide (f.majorSdoId ≤ 1)

end Sys2Proof

namespace Sys2Proof.Machine

def Hw.modTs (m : Ch) (f : TimeSrv → TimeSrv) (hw : Hw) : Hw := hw.modCh m fun c => { c with ts := f c.ts }

/-! ### The servo (R399) -/

/-- Denominator of the servo's values; the same number as `Channel.rateDen`. -/
def TimeCfg.den (t : TimeCfg) : Int := 131072000 * t.tcMs * t.tcMs
def clampRate (t : TimeCfg) (x : Int) : Int := max (-(500000 * t.den)) (min (500000 * t.den) x)
/-- i and r after an exchange kept: `e` the offset in 2^−17 ns, `dt` the ns since the exchange kept before. -/
def servoI (t : TimeCfg) (i e : Int) (dt : Nat) : Int := clampRate t (i + e * dt)
def servoR (t : TimeCfg) (i e : Int) : Int := clampRate t (i + 2000000 * t.tcMs * e)
/-- |e| > STEP_MAX. -/
def TimeCfg.beyond (t : TimeCfg) (e : Int) : Bool := decide (t.step * 131072 < e.natAbs)
/-- R399. REFUSING is left only where |e| ≤ STEP_MAX (R402). -/
def TimeSrv.servo (t : TimeCfg) (e : Int) (dt : Nat) (s : TimeSrv) : TimeSrv :=
  let i := servoI t s.iNum e dt
  let s := { s with iNum := i, rNum := servoR t i e, slewUntil := none }
  if s.state == .refusing && t.beyond e then s else { s with newMaster := false, state := .locked, refusedSince := 0 }
/-- |e| in ns for a record, saturating (R402, R405). -/
def offsetNs (e : Int) : Nat := min (quotient (e.natAbs : Int) 131072).toNat (2 ^ 32 - 1)

/-! ### An exchange kept (R401 to R403) -/

/-- Local time := local time + e, in whole ns: the fraction carries rate corrections only (R388). -/
def Channel.stepTime (e : Int) (c : Channel) : Channel :=
  { c with tb := { c.tb with sub := ((c.tb.sub : Int) + 65536 * quotient e 131072).toNat },
           ts := { c.ts with iNum := 0, rNum := 0, slewUntil := none, newMaster := false, state := .locked, refusedSince := 0 } }
def Hw.slew (m : Ch) (t : TimeCfg) (e : Int) (hw : Hw) : Hw :=
  let said := (hw.ch m).ts.slewRaised
  let hw := hw.modTs m fun s =>
    { s with rNum := if 0 < e then 500000 * t.den else -(500000 * t.den), slewUntil := some (hw.now + 2000 * e.natAbs / 131072), slewRaised := true, state := .locked, refusedSince := 0 }
  if said then hw else hw.raise m .note 0xC2 (initScribe m) (some (offsetNs e)) none
def Hw.refuseStep (m : Ch) (e : Int) (hw : Hw) : Hw :=
  let hw := hw.modCh m fun c =>
    { (c.stick .stepRefused).doubt .timeStep with
      ts := { c.ts with state := .refusing, refusals := min (c.ts.refusals + 1) (2 ^ 32 - 1), refusedSince := c.ts.refusedSince + 1, slewUntil := none } }
  hw.raise m .doubt 0xA9 (initScribe m) (some (offsetNs e)) (some (hw.ch m).ts.refusedSince)
/-- An exchange kept with offset `e` and delay `d`, in 2^−17 ns: the table of R401, the first from the first master in its first column, in
every other case R399. -/
def Hw.kept (m : Ch) (t : TimeCfg) (e d : Int) (hw : Hw) : Hw :=
  let c := hw.ch m
  -- before a first exchange there is no Δ: it is free (log 18)
  let (free, hw) := hw.free
  let dt := match c.ts.lastKept with
    | some l => c.local - l
    | none => free
  let hw := hw.modTs m fun s => { s with offset17 := e, delay17 := d }
  let early := !c.ts.everLocked || c.ts.firstMaster || c.st == .boot || c.st == .load || c.st == .ready
  let live := c.st == .run || c.st == .margin || c.st == .fenced
  let hw := if (c.ts.newMaster || !c.ts.everLocked) && t.beyond e && (early || live) then
      if early then hw.modCh m (Channel.stepTime e)
      else if t.ring then hw.refuseStep m e
      else hw.slew m t e
    else hw.modTs m (TimeSrv.servo t e dt)
  hw.modCh m fun c => ({ c with ts := { c.ts with everLocked := true, firstMaster := false, lastKept := some c.local } }).markTime hw.now

/-! ### The sideband exchange (R393 to R395) -/

/-- The channel follows the host: SOURCE 0. -/
def Channel.hostTime (c : Channel) : Option TimeCfg := c.img.time.filter fun t => !t.peer
def TimeSrv.drop (s : TimeSrv) : TimeSrv := { s with t1 := none, t2 := none, t4 := none }

/-- When the next TREQ is due (R394): INTERVAL_US after the one before; on channel m of the interval channel 0 sends at,
m·INTERVAL_US/4 after channel 0's. None: at once. -/
def Hw.treqDue (m : Ch) (t : TimeCfg) (hw : Hw) : Option Nat :=
  let last := (hw.ch m).ts.lastSend
  match (hw.ch 0).ts.lastSend with
  | some l0 =>
    if m != 0 && (hw.ch 0).hostTime.any (·.intervalUs == t.intervalUs) then
      let p := l0 + 250 * m.val * t.intervalUs
      some (if last.any (p ≤ ·) then p + 1000 * t.intervalUs else p)
    else last.map (· + 1000 * t.intervalUs)
  | none => last.map (· + 1000 * t.intervalUs)
/-- TREQ is due. Whether the adapter retried it comes with the TRSP that answers it. -/
def execTreq (t : Nat) (ch : Ch) (s : State) : Host.Outcome State Fault Refusal :=
  s.run t fun hw =>
    let c := hw.ch ch
    match c.hostTime with
    | none => hw
    | some tc =>
      if c.st == .off || hw.dev.link.down || (hw.treqDue ch tc).any (hw.now < ·) then hw
      else
        let seq := (c.ts.seq + 1) % 256
        (hw.modTs ch fun s => { s with seq := seq, t1 := some c.local, t2 := none, t4 := none, lastSend := some hw.now }).emit (.sideband ch 0 seq)

/-- TRSP with t2 (R395). `retried`: the adapter retried it, or the TREQ that it answers. -/
def execTrsp (t : Nat) (ch : Ch) (seq : Nat) (t2 : DWord) (retried : Bool) (s : State) : Host.Outcome State Fault Refusal :=
  s.run t fun hw =>
    let c := hw.ch ch
    match c.hostTime, c.ts.t1 with
    | some tc, some t1 =>
      if hw.dev.link.down then hw
      else if seq != c.ts.seq || retried || c.ts.t4.isSome || decide (t1 + 100000 + 2 * tc.delayMax < c.local) then hw.modTs ch TimeSrv.drop
      else hw.modTs ch fun s => { s with t2 := some (extend c.local t2), t4 := some c.local }
    | _, _ => hw

/-- TFOL with t3 completes the exchange (R395). -/
def execTfol (t : Nat) (ch : Ch) (seq : Nat) (t3 : DWord) (retried : Bool) (s : State) : Host.Outcome State Fault Refusal :=
  s.run t fun hw =>
    let c := hw.ch ch
    if hw.dev.link.down then hw else
    match c.hostTime, c.ts.t1, c.ts.t2, c.ts.t4 with
    | some tc, some t1, some t2, some t4 =>
      let hw := hw.modTs ch TimeSrv.drop
      let t3 := extend c.local t3
      let e : Int := ((t2 - t1) - ((t4 : Int) - t3)) * 65536
      let d : Int := (((t4 : Int) - t1) - (t3 - t2)) * 65536
      if seq != c.ts.seq || retried || decide (t4 + 100000 + tc.delayMax < c.local) || decide (d < 0) || decide ((tc.delayMax * 131072 : Int) < d)
          || (c.ts.tmaster.isSome && !c.ts.masterValid) then hw
      else hw.kept ch tc e d
    | _, _, _, _ => hw.modTs ch TimeSrv.drop

/-- A master's identity arrives; `peer` tells a Sync's source from TMASTER's, and the first of them is no change (R401). -/
def Hw.masterIs (m : Ch) (id : BitVec 80) (peer first : Bool) (hw : Hw) : Hw :=
  if first then hw.modTs m fun s => { s with master := some id, newMaster := true, firstMaster := true }
  else if (hw.ch m).ts.master == some id then hw
  else
    let hw := hw.modCh m fun c => { c.stick .masterChanged with ts := { c.ts with master := some id, newMaster := true, firstMaster := false, slewRaised := false } }
    hw.raise m .note 0xC1 (initScribe m) (some (id.toNat / 65536 % 2 ^ 32)) (some (b2n peer))

/-- TMASTER names the first master since the channel left OFF, or after a channel reset, which clears TIME_MASTER_ID, the same one as
before (R401, R498; log 18). -/
def TimeSrv.firstTmaster (master : DWord) (s : TimeSrv) : Bool := s.tmaster.isNone || (s.master.isNone && s.tmaster == some master)
/-- A Sync names a follower's first master; identities of TMASTER carry no port number (R401). -/
def TimeSrv.firstSync (s : TimeSrv) : Bool :=
  match s.master with
  | none => true
  | some x => x.toNat % 65536 == 0
/-- TMASTER (R393, R401). Under SOURCE 1 the master in force is a Sync's source, and TMASTER is only remembered. -/
def execTmaster (t : Nat) (ch : Ch) (valid : Bool) (master : DWord) (s : State) : Host.Outcome State Fault Refusal :=
  s.run t fun hw =>
    let c := hw.ch ch
    if c.st == .off || hw.dev.link.down then hw
    else
      let hw := if c.img.time.any (·.peer) then hw else hw.masterIs ch (master ++ 0#16) false (c.ts.firstTmaster master)
      hw.modTs ch fun s => { s with tmaster := some master, masterValid := valid }

/-- The slew has removed e: r returns to i (R401). -/
def execSlewEnd (t : Nat) (ch : Ch) (s : State) : Host.Outcome State Fault Refusal :=
  s.run t fun hw =>
    if (hw.ch ch).ts.slewUntil.any (· ≤ hw.now) then
      hw.modCh ch fun c => ({ c with ts := { c.ts with rNum := c.ts.iNum, slewUntil := none } }).markTime hw.now
    else hw

/-- The local time from which the intervals without an exchange count: the last one kept, or the channel's start (log 18). -/
def Channel.lossFrom (c : Channel) : Nat := c.ts.lastKept.getD (c.localAt c.startMark)
/-- LOSS_N intervals without an exchange kept (R404). -/
def execTimeHoldover (t : Nat) (ch : Ch) (s : State) : Host.Outcome State Fault Refusal :=
  s.run t fun hw =>
    let c := hw.ch ch
    match c.img.time with
    | some tc =>
      if c.st != .off && c.ts.state != .holdover && decide (c.lossFrom + tc.lossN * tc.intervalUs * 1000 ≤ c.local) then
        let hw := hw.modCh ch fun c => { c.stick .holdoverSeen with ts := { c.ts with state := .holdover, newMaster := true, refusedSince := 0 } }
        hw.raise ch .note 0xC0 (initScribe ch) (some (word32 c.ppb)) none
      else hw
    | none => hw

/-! ### PTP (R396 to R398) -/

def PeerSt.port (p : PeerSt) (x : Port) : PeerPort :=
  match x with
  | .east => p.east
  | .west => p.west
def PeerSt.modPort (x : Port) (f : PeerPort → PeerPort) (p : PeerSt) : PeerSt :=
  match x with
  | .east => { p with east := f p.east }
  | .west => { p with west := f p.west }
def Channel.modPort (x : Port) (f : PeerPort → PeerPort) (c : Channel) : Channel := { c with peer := c.peer.modPort x f }

/-- sourcePortIdentity of the channel on a port (R520). -/
def portIdentity (deviceId : DWord) (m : Ch) (x : Port) : BitVec 80 := BitVec.ofNat 80 (clockId deviceId m * 65536 + x.num)
def Channel.follows (c : Channel) : Bool := c.st == .ready || c.st == .run || c.st == .margin || c.st == .fenced
def TimeCfg.upstream (t : TimeCfg) : Port := if t.upWest then .west else .east
/-- A message that the channel itself sends: one-step (R396). -/
def ptpFrame (t : TimeCfg) (type : Nat) (src : BitVec 80) (seq : Nat) (corr : Int) (origin : Nat) (req : BitVec 80) : PtpFrame :=
  { wellFormed := true, domain := t.domain, majorSdoId := 0, messageType := type, source := src, seqId := seq, correction := corr,
    origin := origin, requester := req, twoStep := false, rest := Config.ptpRest type }
def PeerPort.queuePtp (o : PtpOut) (p : PeerPort) : PeerPort := { p with ptp := p.ptp ++ [o] }

/-- A ring master's Sync is due on both ports (R396). -/
def execPtpSyncSend (t : Nat) (ch : Ch) (s : State) : Host.Outcome State Fault Refusal :=
  s.run t fun hw =>
    let c := hw.ch ch
    match c.img.time with
    | none => hw
    | some tc =>
      if !tc.master || !c.follows || (c.ts.lastSync.any fun l => decide (hw.now < l + 1000 * tc.intervalUs)) then hw
      else
        let seq := (c.ts.ptpSeq + 1) % 65536
        let out := fun (x : Port) => ({ f := ptpFrame tc 0 (portIdentity hw.dev.fuses.deviceId ch x) seq 0 0 0, ingress := none, own := true } : PtpOut)
        hw.modCh ch fun c =>
          let q := fun (x : Port) (c : Channel) => if (c.peer.port x).up then c.modPort x (PeerPort.queuePtp (out x)) else c
          q .west (q .east { c with ts := { c.ts with ptpSeq := seq, lastSync := some hw.now } })

/-- R397: a frame received on `x` is forwarded out of the other port. -/
def Hw.ptpForward (m : Ch) (x : Port) (f : PtpFrame) (hw : Hw) : Hw :=
  let c := hw.ch m
  let own := fun (y : Port) => f.source == portIdentity hw.dev.fuses.deviceId m y
  let recent := c.ts.seen.filter fun s => decide (hw.now < s.2.2.2 + 1000000000)
  let dup := recent.any fun s => s.1 == f.source && s.2.1 == f.messageType && s.2.2.1 == f.seqId
  if own .east || own .west || dup || !(c.peer.port x.other).up then hw
  else hw.modCh m fun c =>
    { c.modPort x.other (PeerPort.queuePtp { f := f, ingress := if f.isEvent then some c.local else none, own := false }) with
      ts := { c.ts with seen := recent ++ [(f.source, f.messageType, f.seqId, hw.now)] } }
/-- A PTP frame reaches a port: malformed ones are dropped (R398), others forwarded and taken. -/
def Hw.ptpIn (m : Ch) (x : Port) (f : PtpFrame) (take : Hw → Hw) (hw : Hw) : Hw :=
  let c := hw.ch m
  if !(c.peer.port x).up || c.st == .off || c.st == .boot then hw
  else if !f.wellFormed then
    (hw.modCh m (Channel.bump .peerRxBad 1)).raise m .note 0xC3 (initPeer m) (some (x.num - 1)) (some f.messageType)
  else take (hw.ptpForward m x f)
/-- Frames of the channel's domain that steer: not 802.1AS. -/
def TimeCfg.mine (t : TimeCfg) (f : PtpFrame) : Bool := f.domain == t.domain && f.majorSdoId == 0

/-- A follower takes a Sync from its UPSTREAM port and sends a Delay_Req (R396; log 19). -/
def Hw.takeSync (m : Ch) (x : Port) (f : PtpFrame) (hw : Hw) : Hw :=
  let c := hw.ch m
  match c.img.time with
  | none => hw
  | some tc =>
    if !(tc.peer && c.follows && x == tc.upstream && tc.mine f) then hw else
    let hw := hw.masterIs m f.source true c.ts.firstSync
    let seq := (c.ts.reqSeq + 1) % 65536
    let req : PtpOut := { f := ptpFrame tc 1 (portIdentity hw.dev.fuses.deviceId m x) seq 0 0 0, ingress := none, own := true }
    hw.modCh m fun c =>
      { c.modPort x (PeerPort.queuePtp req) with
        ts := { c.ts with syncOrigin := some ((f.origin : Int) * 65536 + f.correction), syncLocal := some c.local, reqSeq := seq, reqSent := none } }
def execPtpSyncReceive (t : Nat) (ch : Ch) (port : Port) (f : PtpFrame) (s : State) : Host.Outcome State Fault Refusal :=
  s.run t fun hw => if f.messageType == 0 then hw.ptpIn ch port f (Hw.takeSync ch port f) else hw

/-- The ring master answers a Delay_Req (R396). -/
def Hw.answerDelay (m : Ch) (x : Port) (f : PtpFrame) (hw : Hw) : Hw :=
  let c := hw.ch m
  match c.img.time with
  | none => hw
  | some tc =>
    if !(tc.master && c.follows && tc.mine f) then hw else
    let resp := ptpFrame tc 9 (portIdentity hw.dev.fuses.deviceId m x) f.seqId f.correction c.local f.source
    hw.modCh m (Channel.modPort x (PeerPort.queuePtp { f := resp, ingress := none, own := false }))
def execDelayReq (t : Nat) (ch : Ch) (port : Port) (f : PtpFrame) (s : State) : Host.Outcome State Fault Refusal :=
  s.run t fun hw => if f.messageType == 1 then hw.ptpIn ch port f (Hw.answerDelay ch port f) else hw

/-- A follower's exchange is complete: offset and delay of R395 (log 19). -/
def Hw.takeDelay (m : Ch) (x : Port) (f : PtpFrame) (hw : Hw) : Hw :=
  let c := hw.ch m
  match c.img.time, c.ts.syncOrigin, c.ts.syncLocal, c.ts.reqSent with
  | some tc, some so, some sl, some rs =>
    if !(tc.peer && c.follows && x == tc.upstream && tc.mine f && f.requester == portIdentity hw.dev.fuses.deviceId m x && f.seqId == c.ts.reqSeq) then hw
    else
      let up : Int := ((f.origin : Int) * 65536 - f.correction) - (rs : Int) * 65536
      let down : Int := (sl : Int) * 65536 - so
      let hw := hw.modTs m fun s => { s with reqSent := none }
      if decide (up + down < 0) || decide ((tc.delayMax * 131072 : Int) < up + down) then hw
      else hw.kept m tc (up - down) (up + down)
  | _, _, _, _ => hw
def execDelayResp (t : Nat) (ch : Ch) (port : Port) (f : PtpFrame) (s : State) : Host.Outcome State Fault Refusal :=
  s.run t fun hw => if f.messageType == 9 then hw.ptpIn ch port f (Hw.takeDelay ch port f) else hw

/-- Any other PTP frame (R397). -/
def execPtpOther (t : Nat) (ch : Ch) (port : Port) (f : PtpFrame) (s : State) : Host.Outcome State Fault Refusal :=
  s.run t fun hw => if f.messageType == 0 || f.messageType == 1 || f.messageType == 9 then hw else hw.ptpIn ch port f id

end Sys2Proof.Machine
end

