-- ==== Sys2Proof/Machine/Peer.lean ====
section
/-! DEFINITION. The peer ring (chapter "Peer ring"): links, reception and forwarding of frames (R409 to R419), landing records
(R417, R420), epochs and their grace (R427), egress (R413), and the entries of PEER strokes (R422 to R424). -/
namespace Sys2Proof.Machine

/-! ### Counts and records (R518, R519) -/

/-- PEER_DROP: at the tick's end with its count; at once in a channel that does not tick (log 12). -/
def Hw.peerDrop (m : Ch) (cause n : Nat) (hw : Hw) : Hw :=
  let hw := hw.modCh m (Channel.bump .peerDrops n)
  if (hw.ch m).tick.ticking then
    hw.modCh m fun c => { c with peer := { c.peer with dropTick := assocSet c.peer.dropTick cause ((assoc c.peer.dropTick cause).getD 0 + n) } }
  else hw.raise m .degraded 0xCC (initPeer m) (some cause) (some n)

/-! ### Addresses and routes (R410 to R412) -/

/-- A port's locally administered address: 02h and five bytes derived from the fused identity. -/
def portAddr (deviceId : DWord) (m : Ch) (x : Port) : BitVec 48 := 0x02#8 ++ Config.portAddress deviceId m.val (x.num - 1)
def ownAddr (deviceId : DWord) (a : BitVec 48) : Bool := chans.any fun m => a == portAddr deviceId m .east || a == portAddr deviceId m .west
/-- Members met going up from `a` to `b`, `b` included, over at most `n` positions. -/
def hopsUp (members : Byte) (a b : Nat) : Nat :=
  let d := (b + 8 - a) % 8
  ((List.range d).filter fun i => members.getLsbD ((a + i + 1) % 8)).length
def hopsDown (members : Byte) (a b : Nat) : Nat :=
  let d := (a + 8 - b) % 8
  ((List.range d).filter fun i => members.getLsbD ((a + 8 - (i + 1)) % 8)).length
/-- R412: the port of a frame from `src` to `dst`, none when no link is up. -/
def Channel.route (c : Channel) (src dst : Nat) : Option Port :=
  let best := if hopsDown c.peer.members src dst < hopsUp c.peer.members src dst then Port.west else .east
  if (c.peer.port best).up then some best
  else if (c.peer.port best.other).up then some best.other else none
/-- A frame the channel originates waits for egress. -/
def Channel.originate (x : Port) (f : PeerFrame) (c : Channel) : Channel := c.modPort x fun p => { p with origin := p.origin ++ [f] }

/-! ### Links (R409) -/

def Channel.portEnabled (c : Channel) (x : Port) : Bool := c.img.peer.any fun p => p.ports.getLsbD (x.num - 1)
def Channel.linkState (c : Channel) : Bool := c.st != .off && c.st != .boot
/-- The running SEND entry names the port that its frames use alone (R412). -/
def Channel.sendsAlone (c : Channel) : Bool :=
  match c.peer.run, c.img.ductus with
  | some r, some d => (d.stroke r.stroke).any fun s => byteAt (s.parm.drop (16 + 32 * (r.entry - 1))) 3 != 0
  | _, _ => false
/-- Frames that the channel originated and whose port `x` has lost its link: the other port takes them under its own source address;
without a link there, or where their entry names the port, they are not sent (R412). -/
def Hw.reroute (m : Ch) (x : Port) (hw : Hw) : Hw :=
  let c := hw.ch m
  let fs := (c.peer.port x).origin
  let hw := hw.modCh m (Channel.modPort x fun p => { p with origin := [] })
  let goes := fs.filter fun f => (c.peer.port x.other).up && !(f.ptype == 1#8 && c.sendsAlone)
  let id := hw.dev.fuses.deviceId
  let hw := hw.modCh m fun c => goes.foldl (fun c f => c.originate x.other { f with srcAddr := portAddr id m x.other }) c
  if goes.length < fs.length then hw.peerDrop m 2 (fs.length - goes.length) else hw
def Hw.setLink (m : Ch) (x : Port) (up : Bool) (hw : Hw) : Hw :=
  let hw := (hw.modCh m (Channel.modPort x fun p => { p with up := up })).raise m .degraded 0xC8 (initPeer m) (some (x.num - 1)) (some (b2n up))
  if up then hw else hw.reroute m x
def execPeerLink (t : Nat) (ch : Ch) (port : Port) (up : Bool) (s : State) : Host.Outcome State Fault Refusal :=
  s.run t fun hw =>
    let c := hw.ch ch
    if (c.peer.port port).up == up then hw
    else if up && !(c.portEnabled port && c.linkState) then hw
    else hw.setLink ch port up

/-! ### Epochs (R427) -/

/-- The states from which a channel enters FENCED (R460). -/
def ChState.inRing : ChState → Bool
  | .ready | .run | .margin => true
  | _ => false

/-- An epoch above the channel's own is seen (R427). -/
def Hw.newerEpoch (m : Ch) (e : Word) (hw : Hw) : Hw :=
  let hw := hw.modCh m fun c => { c with peer := c.peer.sawEpoch e }
  let c := hw.ch m
  if c.peer.grace.isSome then hw
  else
    let us := (c.img.peer.map (·.graceUs)).getD 0
    (hw.modCh m fun c => { c.doubt .epoch with peer := { c.peer with grace := some (hw.now + 1000 * us) } }).raise m .doubt 0xA8 (initPeer m)
      (some e.toNat) (some c.peer.epoch.toNat)
/-- The grace expires: FENCED, reason FENCE_EPOCH (R427, R460); a FENCED channel that was to return stays so. A state from which R460 has no way to FENCED stays (log 19). -/
def execEpochGrace (t : Nat) (ch : Ch) (s : State) : Host.Outcome State Fault Refusal :=
  s.run t fun hw =>
    if !((hw.ch ch).peer.grace.any (· ≤ hw.now)) then hw
    else if (hw.ch ch).st.inRing || (hw.ch ch).st == .fenced then hw.fenceOff ch 0xCE
    else hw.modCh ch fun c => { c with peer := { c.peer with grace := none } }

/-! ### Forwarding (R414) -/

/-- Bytes that frames hold in a buffer: their data, or whole MAC frames; which the buffer counts is open (log 18). -/
def frameLo (l : List PeerFrame) : Nat := (l.map fun f => f.len.toNat).foldl (· + ·) 0
def frameHi (l : List PeerFrame) : Nat := (l.map fun f => f.len.toNat + 50).foldl (· + ·) 0
/-- Whether `f` finds room beside `l` in a buffer of `size` bytes. -/
def roomIn (free size : Nat) (l : List PeerFrame) (f : PeerFrame) : Bool :=
  if frameHi (f :: l) ≤ size then true else if size < frameLo (f :: l) then false else free % 2 == 0

def Hw.peerForward (m : Ch) (x : Port) (f : PeerFrame) (hw : Hw) : Hw :=
  if f.ttl == 0#8 || ownAddr hw.dev.fuses.deviceId f.srcAddr then hw else
  let (n, hw) := hw.free
  if roomIn n 65536 ((hw.ch m).peer.port x.other).transit f then
    hw.modCh m (Channel.modPort x.other fun p => { p with transit := p.transit ++ [{ f with ttl := f.ttl - 1 }] })
  else hw.peerDrop m 1 1

/-! ### Reception (R416 to R419) -/

/-- Step 1 of R418. -/
def frameOk (m : Ch) (f : PeerFrame) : Bool :=
  let len := f.len.toNat
  f.fcsOk && f.etherOk && f.ring.toNat == m.val && f.pflags.toNat < 4
    && (if f.ptype == 1#8 then f.nstatus == 0#8 && len % 64 == 0 && decide (64 ≤ len) && decide (len ≤ 1408) && f.data.length == len
        else f.ptype == 2#8 && len == 0)
/-- The data area of window w: base and length (R415). -/
def Channel.dataArea (c : Channel) (w : Nat) : Option (Nat × Nat) :=
  (c.img.peer.bind fun p => p.wins[w]?).bind fun x => (c.region x.region).map fun r => (r.base, r.len - 256)
/-- Steps 4 to 9: the NSTATUS of the refusal. A window that closed at this very ns, alone or with the channel's state, still takes the
frame (R422; log 21). -/
def Channel.refusal (c : Channel) (f : PeerFrame) : Option Nat :=
  let w := f.window.toNat
  let writers := ((c.img.peer.bind fun p => p.wins[w]?).map (·.writers)).getD 0
  let now := c.shut.contains w
  if f.epoch.toNat < c.peer.epoch.toNat then some 1
  else if c.st == .fenced && !now then some 2
  else if !now && !(c.st == .ready || c.st == .run || c.st == .margin) then some 3
  else if !(decide (f.srcPos.toNat < 8) && c.peer.members.getLsbD f.srcPos.toNat && writers.getLsbD f.srcPos.toNat && (c.dataArea w).isSome) then some 4
  else if !(c.peer.winOpen.contains w || now) then some 5
  else if !((c.dataArea w).any fun a => decide (f.offset.toNat + f.len.toNat ≤ a.2)) then some 6
  else none
/-- R419: one NACK for each (SRC_POS, BLOCK). -/
def Hw.sendNack (m : Ch) (f : PeerFrame) (status : Nat) (hw : Hw) : Hw :=
  let c := hw.ch m
  let who := (f.srcPos.toNat, f.block.toNat)
  if c.peer.nacked.contains who then hw else
  let hw := hw.modCh m fun c => { c with peer := { c.peer with nacked := c.peer.nacked ++ [who] } }
  match c.peer.position with
  | none => hw
  | some pos => match c.route pos f.srcPos.toNat with
    | none => hw.peerDrop m 2 1
    | some x =>
      hw.modCh m (Channel.originate x
        { fcsOk := true, etherOk := true, dstAddr := f.srcAddr, srcAddr := portAddr hw.dev.fuses.deviceId m x, ptype := 2, pflags := 0,
          srcPos := BitVec.ofNat 8 pos, dstPos := f.srcPos, epoch := c.peer.epoch, ring := BitVec.ofNat 8 m.val, window := f.window, len := 0,
          block := f.block, offset := f.offset, fseq := f.fseq, nstatus := BitVec.ofNat 8 status, ttl := 7, kSrc := f.kSrc, data := [] })
/-- R418: a refusal, counted; its record at the tick's end (log 12). -/
def Hw.refuseFrame (m : Ch) (f : PeerFrame) (status : Nat) (hw : Hw) : Hw :=
  let hw := hw.modCh m (Channel.bump .peerRefused 1)
  let hw := if (hw.ch m).tick.ticking then
      hw.modCh m fun c => { c with peer := { c.peer with refused := match c.peer.refused with
        | some (s, n) => some (s, n + 1)
        | none => some (status, 1) } }
    else hw.raise m .note 0xCB (initPeer m) (some status) (some 1)
  hw.sendNack m f status
/-- Steps 1 to 3, then `take`. -/
def Hw.frameIn (m : Ch) (x : Port) (f : PeerFrame) (take : Hw → Hw) (hw : Hw) : Hw :=
  let c := hw.ch m
  if !(c.peer.port x).up || !c.linkState then hw
  else if !(frameOk m f) then hw.modCh m (Channel.bump .peerRxBad 1)
  else if c.peer.position != some f.dstPos.toNat then hw.peerForward m x f
  else if c.peer.epoch.toNat < f.epoch.toNat then (hw.newerEpoch m f.epoch).peerForward m x f
  else take hw
/-- The receive buffer, then steps 4 to 10. -/
def Hw.takeData (m : Ch) (x : Port) (f : PeerFrame) (hw : Hw) : Hw :=
  let (n, hw) := hw.free
  let c := hw.ch m
  if !(roomIn n 262144 ((c.peer.port x).rx.map (·.f)) f) then hw.peerDrop m 0 1
  else match c.refusal f with
  | some st => hw.refuseFrame m f st
  | none => hw.modCh m fun c =>
      let a := (c.dataArea f.window.toNat).getD (0, 0)
      ((c.bump .peerRx 1).modPort x fun p => { p with rx := p.rx ++ [{ id := c.nextWrite, window := f.window.toNat, f := f }] }).takePlace
        (portWriteRing x) (a.1 + f.offset.toNat) f.data (some (a.1 + a.2 + 32 * f.srcPos.toNat)) []
/-- A frame of PTYPE other than NACK arrives. -/
def execData (t : Nat) (ch : Ch) (port : Port) (f : PeerFrame) (s : State) : Host.Outcome State Fault Refusal :=
  s.run t fun hw => if f.ptype == 2#8 then hw else hw.frameIn ch port f (Hw.takeData ch port f)

def Hw.takeNack (m : Ch) (f : PeerFrame) (hw : Hw) : Hw :=
  (hw.modCh m fun c => (c.bump .peerNackRecv 1).stick .peerNacked).raise m .note 0xC9 (initPeer m)
    (some (f.window.toNat + 256 * f.nstatus.toNat)) (some f.block.toNat)
/-- A NACK arrives (R419). -/
def execNack (t : Nat) (ch : Ch) (port : Port) (f : PeerFrame) (s : State) : Host.Outcome State Fault Refusal :=
  s.run t fun hw => if f.ptype == 2#8 then hw.frameIn ch port f (Hw.takeNack ch f) else hw

/-! ### Landing (R417, R420) -/

/-- The landing record after an accepted frame: STATE, EPOCH, BLOCK, BYTES, K_SRC, and whether STATE became LANDED. -/
structure Landing where
  state : Nat
  epoch : Nat
  block : Nat
  bytes : Nat
  kSrc : Nat
  kLocal : Nat
  deriving DecidableEq, Repr
def landing (b : List Byte) : Landing :=
  { state := byteAt b 0, epoch := field b 4 4, block := field b 8 4, bytes := field b 12 4, kSrc := field b 16 8, kLocal := field b 24 8 }
def Landing.toBytes (pos : Nat) (l : Landing) : List Byte :=
  leBytes 1 l.state ++ leBytes 1 pos ++ leBytes 2 0 ++ leBytes 4 l.epoch ++ leBytes 4 l.block ++ leBytes 4 l.bytes ++ leBytes 8 l.kSrc ++ leBytes 8 l.kLocal
/-- STATE changes to `x` in frame `k`. -/
def Landing.to (x k : Nat) (l : Landing) : Landing := if l.state == x then l else { l with state := x, kLocal := k }
/-- R420; `last` is the FSEQ of the record's last frame, `k` the frame in progress. A block of one frame is LANDING, then LANDED. -/
def Landing.next (f : PeerFrame) (last : Option Nat) (k : Nat) (l : Landing) : Landing :=
  let n := if f.pflags.getLsbD 0 then
      { l.to 1 k with epoch := f.epoch.toNat, block := f.block.toNat, bytes := f.len.toNat, kSrc := f.kSrc.toNat }
    else if (l.state == 1 || l.state == 2) && l.block == f.block.toNat && last.any (fun n => n + 1 == f.fseq.toNat) then
      { l with bytes := l.bytes + f.len.toNat, kSrc := f.kSrc.toNat }
    else l.to 3 k
  if f.pflags.getLsbD 1 && n.state == 1 then n.to 2 k else n
/-- The frame makes the record LANDED: it is the last of its block, or follows it on a record that is LANDED already (R421). -/
def Landing.lands (f : PeerFrame) (n : Landing) : Bool := n.state == 2 && f.pflags.getLsbD 1

/-- The oldest frame of a receive buffer leaves it and lands with its landing record; its entry frees. -/
def Hw.landHead (m : Ch) (x : Port) (r : RxFrame) (hw : Hw) : Hw :=
  let c := hw.ch m
  let hw := hw.modCh m fun c =>
    ({ c with writes := c.writes.filter (·.id != r.id) }.modPort x fun p => { p with rx := p.rx.drop 1 }).judgeHolds
  match c.dataArea r.window with
  | none => hw
  | some (base, len) =>
    let pos := r.f.srcPos.toNat
    let a := base + r.f.offset.toNat
    let ra := base + len + 32 * pos
    if c.fenced.contains 8 then hw.fwBlock m 8 a else
    let key := r.window * 8 + pos
    let old := landing (Cells.read ramDefault c.hbm ra 32)
    let new := old.next r.f (assoc (c.peer.lastSeq.map fun (w, p, q) => (w * 8 + p, q)) key) c.tick.k
    hw.modCh m fun c =>
      let c := ((c.storeHbm a r.f.data none).storeHbm ra (new.toBytes pos) none).bump .perfHbmRd 32
      { c.bump .perfHbmWr (r.f.data.length + 32) with peer := { c.peer with
          lastSeq := c.peer.lastSeq.filter (fun q => !(q.1 == r.window && q.2.1 == pos)) ++ [(r.window, pos, r.f.fseq.toNat)]
          landed := if new.lands r.f then c.peer.landed ++ [(r.window, pos)] else c.peer.landed } }
def execFrameLand (t : Nat) (ch : Ch) (port : Port) (s : State) : Host.Outcome State Fault Refusal :=
  s.run t fun hw =>
    let c := hw.ch ch
    match (c.peer.port port).rx with
    -- an in-flight stroke or a full write-hold table holds it (R417, R237)
    | r :: _ => if (c.writeOf r.id).any fun w => w.applying || c.mayApply w then hw.landHead ch port r else hw
    | [] => hw

/-! ### Egress (R413) -/

/-- The residence time joins correctionField, and every other field, the twoStepFlag too, leaves as it came; the channel's own Sync carries
its egress time (R396, R397). -/
def PtpOut.leaving (now : Nat) (o : PtpOut) : PtpFrame :=
  let f := match o.ingress with
    | some i => { o.f with correction := o.f.correction + 65536 * ((now : Int) - (i : Int)) }
    | none => o.f
  if o.own && f.messageType == 0 then { f with origin := now } else f
/-- A frame that a fenced peer engine originated does not leave: its transaction is blocked (R381, R383). It has no address, and DETAIL1
of the FIREWALL_BLOCK is a free value (log 12). -/
def Hw.egressBlock (m : Ch) (x : Port) (hw : Hw) : Hw :=
  let (n, hw) := hw.free
  (hw.modCh m (Channel.modPort x fun p => { p with origin := p.origin.drop 1, turn := false })).fwBlock m 8 n
def execPortEgress (t : Nat) (ch : Ch) (port : Port) (s : State) : Host.Outcome State Fault Refusal :=
  s.run t fun hw =>
    let c := hw.ch ch
    let p := c.peer.port port
    if !p.up then hw else
    match p.ptp with
    | o :: rest =>
      let hw := hw.modCh ch fun c =>
        let c := c.modPort port fun p => { p with ptp := rest }
        if o.own && o.f.messageType == 1 then { c with ts := { c.ts with reqSent := some c.local } } else c
      hw.emit (.ptp ch port (o.leaving c.local))
    | [] =>
      match p.turn, p.transit, p.origin with
      | false, f :: rest, _ | true, f :: rest, [] =>
        (hw.modCh ch fun c => (c.bump .peerFwd 1).modPort port fun p => { p with transit := rest, turn := true }).emit (.peer ch port f)
      | false, [], f :: rest | true, _, f :: rest =>
        if c.fenced.contains 8 then hw.egressBlock ch port else
        let sent := fun (c : Channel) => if f.ptype == 1#8 then (c.bump .peerTx 1).bump .perfPeerTx f.data.length else c
        (hw.modCh ch fun c => (sent c).modPort port fun p => { p with origin := rest, turn := false }).emit (.peer ch port f)
      | _, _, _ => hw

/-! ### Entries of a PEER stroke (R422 to R424) -/

/-- The next entry of the in-flight PEER stroke, when the one before it is complete and its POP is `pop`. -/
def Channel.peerNext (c : Channel) (pop : Nat) : Option (List Byte) :=
  match c.peer.run, c.img.ductus with
  | some r, some d => (d.stroke r.stroke).bind fun s =>
      let b := (peerEntries s.parm).getD r.entry []
      if r.entry < field s.parm 0 2 && c.peerEntryDone s.parm r.entry && byteAt b 0 == pop then some b else none
  | _, _ => none
def Channel.nextEntry (c : Channel) : Channel := { c with peer := { c.peer with run := c.peer.run.map fun r => { r with entry := r.entry + 1 } } }

/-- The frames of a block: at most 1,408 data bytes each, ascending OFFSET and FSEQ. -/
def cutBlock (proto : PeerFrame) : Nat → Nat → List Byte → List PeerFrame
  | 0, _, _ => []
  | n + 1, q, bs =>
    if bs.isEmpty then [] else
    let d := bs.take 1408
    let rest := bs.drop 1408
    { proto with pflags := BitVec.ofNat 8 (b2n (q == 0) + 2 * b2n rest.isEmpty), len := BitVec.ofNat 16 d.length,
                 offset := proto.offset + BitVec.ofNat 32 (1408 * q), fseq := BitVec.ofNat 16 q, data := d } :: cutBlock proto n (q + 1) rest
/-- The port a SEND entry takes (R412): its own, or by route; none when the link is down. -/
def Channel.sendPort (c : Channel) (pos dst named : Nat) : Option Port :=
  match named with
  | 0 => c.route pos dst
  | 1 => if c.peer.east.up then some .east else none
  | _ => if c.peer.west.up then some .west else none
/-- The block is read from HBM and its frames wait for egress. Which port of the addressee a frame names is not told: its address is
02h and five free bytes, and every device routes by the peer header (R410; log 19). -/
def Hw.sendBlock (m : Ch) (idx pos : Nat) (b : List Byte) (hw : Hw) : Hw :=
  let dst := byteAt b 2
  let len := field b 16 4
  let frames := ceilDiv len 1408
  match (hw.ch m).sendPort pos dst (byteAt b 3) with
  | none => (hw.modCh m fun c => { c with peer := { c.peer with block := (c.peer.block + 1) % 2 ^ 32 } }).peerDrop m 2 frames
  | some x =>
    let (n, hw) := hw.free
    let id := hw.dev.fuses.deviceId
    hw.runK m idx 8 do
      let bs ← K.readHbm (field b 8 8) len
      K.mod fun c =>
        let proto : PeerFrame :=
          { fcsOk := true, etherOk := true, dstAddr := 0x02#8 ++ BitVec.ofNat 40 n, srcAddr := portAddr id m x, ptype := 1, pflags := 0,
            srcPos := BitVec.ofNat 8 pos, dstPos := BitVec.ofNat 8 dst, epoch := c.peer.epoch, ring := BitVec.ofNat 8 m.val,
            window := BitVec.ofNat 8 (byteAt b 1), len := 0, block := BitVec.ofNat 32 c.peer.block, offset := BitVec.ofNat 32 (field b 20 4),
            fseq := 0, nstatus := 0, ttl := 7, kSrc := BitVec.ofNat 64 c.tick.k, data := [] }
        (cutBlock proto frames 0 bs).foldl (fun c f => c.originate x f)
          { c with peer := { c.peer with block := (c.peer.block + 1) % 2 ^ 32 } }
/-- SEND. -/
def execPeerSend (t : Nat) (ch : Ch) (s : State) : Host.Outcome State Fault Refusal :=
  s.run t fun hw =>
    let c := hw.ch ch
    match c.peerNext 0 with
    | none => hw
    | some b =>
      let idx := (c.peer.run.map (·.stroke)).getD 0
      let hw := hw.modCh ch Channel.nextEntry
      if c.fenced.contains 8 then hw.fwBlock ch 8 (field b 8 8) else
      match c.peer.position with
      | none => hw.peerDrop ch 3 (ceilDiv (field b 16 4) 1408)
      | some pos => if c.st == .fenced || byteAt b 2 == pos then hw.peerDrop ch 3 (ceilDiv (field b 16 4) 1408) else hw.sendBlock ch idx pos b
/-- OPEN. -/
def execPeerOpen (t : Nat) (ch : Ch) (s : State) : Host.Outcome State Fault Refusal :=
  s.run t fun hw =>
    match (hw.ch ch).peerNext 1 with
    | some b => hw.modCh ch fun c => (c.nextEntry).openWindow (byteAt b 1)
    | none => hw
/-- CLOSE; the entry completes once the window's accepted frames have landed (R423). -/
def execPeerClose (t : Nat) (ch : Ch) (s : State) : Host.Outcome State Fault Refusal :=
  s.run t fun hw =>
    match (hw.ch ch).peerNext 2 with
    | some b => hw.modCh ch fun c => (c.nextEntry).closeWindow (byteAt b 1)
    | none => hw

end Sys2Proof.Machine
end

