-- ==== Sys2Proof/Machine/Mgmt.lean ====
section
/-! DEFINITION. The management port (R449 to R454): signed commands, attestation reports (R448), registers, channel reset
(R464), the maintenance session (R453, R478), renewal (R443) and fuses (R446). -/
namespace Sys2Proof.Machine

/-! ### Requests and responses (R450, R452) -/

/-- Why a signed command is not accepted: busy until the Signet is ready (log 21), signature, counter. With no authority
fused, `open_` commands need only a signature under the key they carry (log 21). -/
def Hw.signedWhy (hw : Hw) (sg : Signed) (open_ : Bool) : Nat :=
  let g := hw.dev.signet
  if !g.ready then 5
  else
    let known := match hw.dev.fuses.authority with
      | some d => Shake.shake256 32 sg.authority == d
      | none => open_
    if !(sg.sigOk && known) then 1
    else if sg.counter ≤ g.mgCounter then 2 else 0
/-- A signed command: once accepted, MG_COUNTER takes its COUNTER, and `f` gives STATUS, data and effect. -/
def Hw.signedCmd (command : Nat) (sg : Signed) (open_ : Bool) (f : Hw → Nat × MgmtData × Hw) (hw : Hw) : Hw :=
  if !hw.dev.porstN || hw.dev.testMode then hw else
  match hw.signedWhy sg open_ with
  | 0 =>
    let (st, data, hw) := f (hw.modSig fun g => { g with mgCounter := sg.counter })
    if st == 0 then hw.respond command 0 data else hw.answerNo command st
  | st => hw.answerNo command st
/-- An answer without data. -/
def done (st : Nat) (hw : Hw) : Nat × MgmtData × Hw := (st, .none, hw)
/-- The channel that an argument names. -/
def chArg (n : Nat) : Option Ch := if h : n < 4 then some ⟨n, h⟩ else none

/-! ### GET_CERT, GET_REPORT, GET_COUNTER (R444, R448) -/

def signetBytes (kind n len : Nat) : List Byte := (List.range len).map (Config.signetByte kind n)
/-- GET_CERT: the chain's part of at most 1 KiB; STATUS 4 past its end (log 21). -/
def execGetCert (t : Nat) (part : Nat) (s : State) : Host.Outcome State Fault Refusal :=
  s.run t fun hw =>
    if !hw.dev.porstN || hw.dev.testMode then hw
    else if Config.certLen ≤ 1024 * part then hw.respond 0x01 4 .none
    else hw.respond 0x01 0 (.bytes ((List.range (min 1024 (Config.certLen - 1024 * part))).map fun i => Config.signetByte 0 0 (1024 * part + i)))

/-- The fuse configuration as bytes, for the device measurement (log 3). -/
def Fuses.bytes (f : Fuses) : List Byte :=
  leBytes 8 f.deviceId.toNat ++ leBytes 1 (b2n f.grade1630) ++ leBytes 8 f.arrayFuse.toNat
    ++ f.slots.flatMap (fun s => s.digest ++ leBytes 1 (b2n s.provisioned + 2 * b2n s.revoked)) ++ (f.authority.getD [])
/-- Bytes 0 to 3,535 of a report on tenant `t`, none the device alone (R448). -/
def Hw.reportBody (hw : Hw) (t : Option Nat) (nonce : List Byte) : List Byte :=
  let f := hw.dev.fuses
  let ses := (t.map hw.session).filter (·.isOpen)
  let cs := chans.map hw.ch
  leBytes 1 1 ++ leBytes 1 (t.getD 0xFF) ++ leBytes 2 0 ++ leBytes 4 ((ses.map (·.serial)).getD 0) ++ leBytes 8 f.deviceId.toNat
    ++ leBytes 1 (b2n f.grade1630) ++ leBytes 1 (slotMask (·.provisioned) f.slots + 16 * slotMask (·.revoked) f.slots)
    ++ leBytes 1 ((chans.map fun m => b2n (hw.ch m).img.tenant.isSome * 2 ^ m.val).foldl (· + ·) 0) ++ leBytes 1 0 ++ signetBytes 1 0 4
    ++ nonce ++ leBytes 8 0 ++ Shake.shake256 64 (Config.signetRom ++ f.bytes) ++ cs.flatMap (fun c => c.boot.measurement)
    ++ cs.flatMap (fun c => leBytes 1 c.st.code) ++ cs.flatMap (fun c => leBytes 1 (c.img.tenant.getD 0)) ++ leBytes 8 0
    ++ (match ses with
      | some s => signetBytes 2 s.ekD 1568 ++ signetBytes 3 s.ss1 1568
      | none => leBytes 3136 0)
/-- GET_REPORT: signed at that moment; SIGLEN and SIG are free (log 3). -/
def execGetReport (t : Nat) (tenant : Nat) (nonce : List Byte) (s : State) : Host.Outcome State Fault Refusal :=
  s.run t fun hw =>
    if !hw.dev.porstN || hw.dev.testMode then hw
    else if !hw.dev.signet.ready then hw.respond 0x02 5 .none
    else if nonce.length != 32 || !(decide (tenant < 8) || tenant == 0xFF) then hw.respond 0x02 4 .none
    else
      let (n, hw) := hw.free
      let len := 1 + n % 1280
      hw.respond 0x02 0 (.bytes (hw.reportBody (if tenant < 8 then some tenant else none) nonce ++ leBytes 2 len ++ leBytes 6 0
        ++ signetBytes 4 n len ++ leBytes (1280 - len) 0))

def execGetCounter (t : Nat) (s : State) : Host.Outcome State Fault Refusal :=
  s.run t fun hw =>
    if !hw.dev.porstN || hw.dev.testMode then hw else hw.respond 0x03 0 (.counter hw.dev.signet.mgCounter)

/-! ### READ_REG, WRITE_REG, SET_POWER_CAP, READ_ERRORS (R451, R452, R484, R493) -/

/-- READ_REG: exact readings; an unmapped word reads 0 (R101, R492). -/
def execReadReg (t : Nat) (sg : Signed) (addr : Word) (count : Nat) (s : State) : Host.Outcome State Fault Refusal :=
  s.run t fun hw => hw.signedCmd 0x10 sg false (fun hw =>
    if addr.toNat % 4 != 0 || count == 0 || decide (64 < count) then done 4 hw
    else
      let ps := placesFrom addr.toNat count
      (0, .words (ps.map fun p => BitVec.ofNat 32 ((hw.word none p).getD 0)), hw.viewReads ps))

/-- The words of a WRITE_REG in ascending order; the first STATUS other than 0 answers. -/
def Hw.mgmtWrites : Nat → List Word → Hw → Nat × Hw
  | _, [], hw => (0, hw)
  | a, w :: ws, hw =>
    let (st, hw) := hw.mgmtWrite a w.toNat
    let (st', hw) := Hw.mgmtWrites (a + 4) ws hw
    (if st == 0 then st' else st, hw)
def execWriteReg (t : Nat) (sg : Signed) (addr : Word) (words : List Word) (s : State) : Host.Outcome State Fault Refusal :=
  s.run t fun hw => hw.signedCmd 0x11 sg false (fun hw =>
    if addr.toNat % 4 != 0 then done 4 hw
    else
      -- a word written to the descriptor view is compared with what it reads
      let (st, hw) := (hw.viewReads (placesFrom addr.toNat words.length)).mgmtWrites addr.toNat words
      done st hw)

def execSetPowerCap (t : Nat) (sg : Signed) (deciwatts : Nat) (s : State) : Host.Outcome State Fault Refusal :=
  s.run t fun hw => hw.signedCmd 0x12 sg false (fun hw =>
    let (st, hw) := hw.setCap deciwatts
    done st hw)

def execReadErrors (t : Nat) (sg : Signed) (s : State) : Host.Outcome State Fault Refusal :=
  s.run t fun hw => hw.signedCmd 0x14 sg false (fun hw => (0, .records (hw.dev.signet.log ++ hw.dev.signet.logDevice), hw))

/-! ### Channel reset (R464, R478) -/

/-- Accepted peer frames of one port land (R423). -/
def Hw.drainPort (m : Ch) (x : Port) : Nat → Hw → Hw
  | 0, hw => hw
  | n + 1, hw =>
    match ((hw.ch m).peer.port x).rx with
    | r :: _ => Hw.drainPort m x n (hw.landHead m x r)
    | [] => hw
def Hw.drain (m : Ch) (hw : Hw) : Hw :=
  let hw := (hw.tickRecs m).modCh m fun c => { c.abandon with writes := [] }
  [Port.east, Port.west].foldl (fun h x => h.drainPort m x ((h.ch m).peer.port x).rx.length) hw

def Hw.portDown (m : Ch) (x : Port) (hw : Hw) : Hw := if ((hw.ch m).peer.port x).up then hw.setLink m x false else hw
/-- R464: the links go down with the channel's configuration (R409); the queues are discarded. Out of OFF the timebase starts (R389,
R460). -/
def Hw.resetChannel (m : Ch) (hw : Hw) : Hw :=
  let hw := if (hw.ch m).st == .maint then hw.nvmFinish m else hw
  let hw := ((hw.drain m).portDown m .east).portDown m .west
  let hw := hw.modSig fun g => { g with queue := g.queue.filter (· != m) }
  let hw := hw.modDev fun d => { d with link := { d.link with owing := d.link.owing.filter (·.1 != m) } }
  ((hw.modCh m fun c => if c.st == .off then (c.restart hw.now).startTime hw.now else c.restart hw.now).enter m .boot 0).retry

/-- The reset by a command, which drops an ENTER_MAINT of the same cycle, and which a PORST or a DEVICE_STOP of it would drop (R463; log 21). -/
def Hw.resetDue (m : Ch) (command : Nat) (hw : Hw) : Hw :=
  let hw := hw.undoDue m 3
  (hw.resetChannel m).addDue m command 3 (hw.ch m)
def execResetChannel (t : Nat) (sg : Signed) (ch : Nat) (s : State) : Host.Outcome State Fault Refusal :=
  s.run t fun hw => hw.signedCmd 0x13 sg false (fun hw =>
    match chArg ch with
    | none => done 4 hw
    | some m =>
      if (hw.ch m).outranked hw.now 3 then done 5 hw
      else if hw.dev.deviceStop then done 3 hw else done 0 (hw.resetDue m 0x13))

/-! ### Maintenance session (R453, R461) -/

def ChState.mayMaint : ChState → Bool
  | .refused | .ready | .run | .margin | .stopped | .fenced => true
  | _ => false
/-- The built-in descriptor of ring 0 (R453). What ring 0 counted and stamped since the channel's start goes on (R498 to R500); GEN_USED
counts what KM seals, from 0. -/
def maintRing (tenant : Nat) (old : Option Ring) : Ring :=
  { num := 0, enabled := true, out := false, safety := false, bidir := true, tenant := tenant, cls := 3, opmask := 0x2980#32, region := 0,
    expect := 0, source := 0, hairpinTo := 0, hairpin := false, maxAge := 0, nextSeq := 0, genUsed := 0
    accepted := (old.map (·.accepted)).getD 0, discarded := (old.map (·.discarded)).getD 0, gaps := (old.map (·.gaps)).getD 0
    outSeq := 0, stampA := (old.map (·.stampA)).getD 0, stampB := (old.map (·.stampB)).getD 0
    latAccepted := (old.map (·.latAccepted)).getD 0, latDiscarded := (old.map (·.latDiscarded)).getD 0, latGaps := (old.map (·.latGaps)).getD 0
    msgsOpen := 0, tagOpen := none,
    tagClosed := none, nonceRaised := false
    msg := { openTag := none, openCrc := 0, openCap := 0, openSweep := 0, lastCrc := none, lastSweep := none, lastCap := none }
    blank := { active := false, firstTag := 0, lfsr := 0, count := 0, rows := 0, failed := false } }
/-- Ring 0 as it stands before MAINT: without a ring table, that of an earlier MAINT. -/
def Channel.oldRing0 (c : Channel) : Option Ring := if c.ringsLoaded then c.ring 0 else c.maintRing
/-- MAINT on acceptance: the next SESSION, KM, the built-in ring 0, and the memory's update state begins anew (R477). -/
def Hw.enterMaint (m : Ch) (tenant ekM : Nat) (hw : Hw) : MgmtData × Hw :=
  let was := hw.ch m
  let sg := hw.dev.signet
  let serial := (sg.sessionCtr + 1) % 2 ^ 32
  let hw := hw.modSig fun g => { g with sessionCtr := serial, fresh := g.fresh + 1 }
  let km := Key.maint hw.dev.fuses.deviceId sg.fresh m.val serial
  let f := fun (c : Channel) =>
    { (c.abandon).unstick .nvmFail with
      maint := some { active := true, tenant := tenant, key := km, session := serial }
      maintRing := some (maintRing tenant c.oldRing0)
      nvm := { c.nvm with held := none, badHeld := [], erased := false, failed := false } }
  let hw := (((hw.tickRecs m).modCh m f).enter m .maint 0).retry
  (.maint { toEk := ekM, secret := sg.fresh } serial, (hw.raiseDev .note 0xD0 initSignet (some (8 + m.val)) (some serial)).addDue m 0x15 5 was)
/-- A CHANNEL_STOP that waits for a boundary falls due at this time: at T(k+1) of the timebase, at the close of the CHn_SYNC window, or where
the tick is lost (R463). With CHn_SYNC, the edge that makes the boundary drops an ENTER_MAINT of its cycle (`Hw.edgeStops`). -/
def Channel.stopDue (now : Nat) (c : Channel) : Bool :=
  c.stopPending.isSome && c.tick.ticking && c.st.ticks
    && ((if c.img.tickSrc == 0 then decide (c.tick.nextDue ≤ c.local) else c.windowShut) || c.tickLost now)
/-- ENTER_MAINT; `ekM` names the encapsulation key EK_M, and C_M is the ciphertext to it (log 3). -/
def execEnterMaint (t : Nat) (sg : Signed) (ch : Nat) (tenant : Nat) (ekM : Nat) (s : State) : Host.Outcome State Fault Refusal :=
  s.run t fun hw => hw.signedCmd 0x15 sg false (fun hw =>
    match chArg ch with
    | none => done 4 hw
    | some m =>
      if 8 ≤ tenant then done 4 hw
      else if (hw.ch m).outranked hw.now 5 then done 5 hw
      else if hw.dev.deviceStop || !(hw.ch m).st.mayMaint then done 3 hw
      else if (hw.ch m).stopDue hw.now then done 5 hw
      else (0, hw.enterMaint m tenant ekM))
/-- LEAVE_MAINT: the held sector is programmed, and the channel is reset. One of the cycle of its ENTER_MAINT drops that and resets the
channel as it was before (R463; log 21). -/
def execLeaveMaint (t : Nat) (sg : Signed) (ch : Nat) (s : State) : Host.Outcome State Fault Refusal :=
  s.run t fun hw => hw.signedCmd 0x16 sg false (fun hw =>
    match chArg ch with
    | none => done 4 hw
    | some m =>
      if (hw.ch m).outranked hw.now 3 then done 5 hw
      else if hw.dev.deviceStop || (hw.ch m).st != .maint then done 3 hw else done 0 (hw.resetDue m 0x16))

/-! ### Renewal (R443) -/

/-- Every table key slot of the channel is erased, staged changes with them. -/
def Channel.eraseTableKeys (c : Channel) : Channel :=
  { c with map := { c.map with tables := c.map.tables.map fun x => { x with keyCur := none, keyPrev := none, keyPrevGen := 0, keyStaged := [] } } }
def Hw.renew (t : Nat) (hw : Hw) : Hw :=
  let hw := (hw.newSession t).resetGenUsed t
  let hw := hw.eachCh fun m h => if (h.ch m).img.tenant == some t then h.modCh m Channel.eraseTableKeys else h
  hw.raiseDev .note 0xD2 initSignet (some t) (some (hw.session t).serial)
/-- RENEW_SESSION; a tenant without a session has none to renew: STATUS 4 (log 21). -/
def execRenewSession (t : Nat) (sg : Signed) (tenant : Nat) (s : State) : Host.Outcome State Fault Refusal :=
  s.run t fun hw => hw.signedCmd 0x17 sg false (fun hw =>
    if decide (tenant < 8) && (hw.session tenant).isOpen then done 0 (hw.renew tenant) else done 4 hw)

/-! ### Fuses (R445, R446) -/

def Hw.modFuses (f : Fuses → Fuses) (hw : Hw) : Hw := hw.modDev fun d => { d with fuses := f d.fuses }
def Hw.fuseChange (slot kind : Nat) (hw : Hw) : Hw := hw.raiseDev .note 0xD4 initSignet (some slot) (some kind)
def Fuses.slot (f : Fuses) (n : Nat) : Option OwnerSlot := f.slots[n]?
/-- PROVISION_OWNER; slot 4 names the management-authority digest (log 21). -/
def execProvisionOwner (t : Nat) (sg : Signed) (slot : Nat) (digest : List Byte) (s : State) : Host.Outcome State Fault Refusal :=
  s.run t fun hw => hw.signedCmd 0x18 sg (slot == 4) (fun hw =>
    if digest.length != 32 then done 4 hw
    else if slot == 4 then
      if hw.dev.fuses.authority.isSome then done 3 hw
      else done 0 ((hw.modFuses fun f => { f with authority := some digest }).fuseChange 4 0)
    else match hw.dev.fuses.slot slot with
      | none => done 4 hw
      | some o =>
        if o.provisioned then done 3 hw
        else done 0 ((hw.modFuses fun f => { f with slots := setAt f.slots slot { o with digest := digest, provisioned := true } }).fuseChange slot 0))

/-- Owner slots that may verify an image. -/
def Fuses.usable (f : Fuses) : List Nat := (List.range f.slots.length).filter fun i => (f.slot i).any fun s => s.provisioned && !s.revoked
def execRevokeOwner (t : Nat) (sg : Signed) (slot : Nat) (s : State) : Host.Outcome State Fault Refusal :=
  s.run t fun hw => hw.signedCmd 0x19 sg false (fun hw =>
    match hw.dev.fuses.slot slot with
    | none => done 4 hw
    | some o =>
      if !o.provisioned then done 4 hw
      else if o.revoked then done 0 hw
      else if hw.dev.fuses.usable == [slot] then done 3 hw
      else done 0 ((hw.modFuses fun f => { f with slots := setAt f.slots slot { o with revoked := true } }).fuseChange slot 1))

end Sys2Proof.Machine
end

