-- ==== Sys2Proof/Machine/Monitors.lean ====
section
/-! DEFINITION. What happens to the device from outside: the host link (R18, R69), the monitors of clocks, supplies and
temperature (R371 to R373, R481, R515), lockstep, parity and pin faults (R245, R348, R349, R352, R379), scrubbing (R246), and
the 100 ms windows of power and coarse readings (R454, R486). A command is the monitor's finding; its operands are what it
measured (log 15). -/
namespace Sys2Proof.Machine

/-- The device is out of PORST and not under test (R457, R505). -/
def Hw.alive (hw : Hw) : Bool := hw.dev.porstN && !hw.dev.testMode
/-- The channel's uncore has power. -/
def Hw.powered (hw : Hw) (m : Ch) : Bool := hw.alive && (hw.ch m).st != .off
/-- A monitor's doubt of the frame in progress. -/
def Hw.doubting (m : Ch) (d : Doubt) (hw : Hw) : Hw := hw.modCh m (Channel.doubt d)
def Channel.modMon (f : Monitors → Monitors) (c : Channel) : Channel := { c with mon := f c.mon }
def Device.setRail (n : Nat) (ok : Bool) (d : Device) : Device :=
  { d with rails := if ok then d.rails ||| (1#8 <<< n) else d.rails &&& ~~~(1#8 <<< n) }

/-! ### The host link (R18, R69, R70) -/

/-- R18: LINK_DOWN; FROZEN_INPUT and Margin's STOP for the frame that each channel is processing. `lasting` does so for
every later frame that begins while the link or a message is owed. -/
def execLinkDown (t : Nat) (s : State) : Host.Outcome State Fault Refusal :=
  s.run t fun hw =>
    if !hw.alive || hw.dev.link.down then hw else
    let hw := hw.modDev fun d => { d with link := { d.link with down := true } }
    (hw.eachCh fun m h => h.modCh m Channel.inputLost).raiseDev .doubt 0xB0 initDisp none none
/-- The link is back; each ring that Margin reads owes a complete message. -/
def execLinkRestore (t : Nat) (s : State) : Host.Outcome State Fault Refusal :=
  s.run t fun hw =>
    if !hw.dev.link.down then hw else
    let owes := chans.flatMap fun m => ((hw.ch m).rings.filter (hw.ch m).marginRing).map fun r => (m, r.num)
    hw.modDev fun d => { d with link := { d.link with down := false, owing := owes } }
/-- The link trains at 16 GT/s; DETAIL0 is the rate in GT/s (log 12). -/
def execLinkDegraded (t : Nat) (s : State) : Host.Outcome State Fault Refusal :=
  s.run t fun hw =>
    if !hw.alive then hw else
    (hw.modDev fun d => { d with link := { d.link with degraded := true } }).raiseDev .degraded 0xB1 initDisp (some 16) none

/-! ### Supplies (R372, R481) -/

/-- Within ±5% of a nominal voltage in mV (R372). -/
def near5 (nominal mv : Nat) : Bool := decide (95 * nominal ≤ 100 * mv) && decide (100 * mv ≤ 105 * nominal)
/-- Core voltage of a point in mV (R482). -/
def pointMv (p : Nat) : Nat := [550, 580, 620, 660, 700, 750, 800, 850].getD p 550
/-- Whether a regulator's voltage (cores 0 to 3, uncore 4) is within limits of its operating point; while the point changes, of
either (R50, R372, R483; log 15). -/
def Channel.regulatorOk (c : Channel) (n mv : Nat) : Bool :=
  if n == 4 then near5 Config.uncoreMv mv
  else near5 (pointMv c.duct.point) mv || (match c.duct.changing with
    | some (a, b) => near5 (pointMv a) mv || near5 (pointMv b) mv
    | none => false)
/-- Limits at the balls in 0.1 mV (R508): 0 VIO18, 1 VDD_UCIE, 2 VDD_KR, 3 VPP, 4 VDD, 5 VDDQL, 6 VIO33. -/
def railLimits : List (Nat × Nat) :=
  [(17100, 18900), (7275, 7725), (8730, 9270), (17100, 19800), (10670, 11660), (3800, 4200), (31350, 34650)]
def railOk (rail mv : Nat) : Bool := (railLimits[rail]?).any fun l => decide (l.1 ≤ 10 * mv) && decide (10 * mv ≤ l.2)
/-- The number of a rail in PWR_RAILS and RAIL records: VIO's two supplies are one rail (R481, R491). -/
def railNum (rail : Nat) : Nat := rail % 6
/-- What a measurement says of VIO's supplies, with the device out of PORST or in it (R457, R507). -/
def Device.setVio (rail : Nat) (ok : Bool) (d : Device) : Device :=
  match rail with
  | 0 => { d with vio18Ok := ok }
  | 6 => { d with vio33Ok := ok }
  | _ => d
/-- DEV_FAULT_N is driven low; while VIO33 is outside its limits the ball is high-impedance (R507, R510). -/
def Hw.faultPin (hw : Hw) : Bool := hw.dev.faultLow && hw.dev.vio33Ok

/-- A voltage within limits is no breach and does nothing. -/
def execVaux (t : Nat) (mv : Nat) (s : State) : Host.Outcome State Fault Refusal :=
  s.run t fun hw => if hw.alive && !(near5 800 mv) then (hw.modDev (Device.setRail 1 false)).deviceStop 0xB3 initPower (some mv) none else hw
def execMarginClkLost (t : Nat) (s : State) : Host.Outcome State Fault Refusal :=
  s.run t fun hw => if hw.alive then (hw.modDev fun d => { d with marginClkOk := false }).deviceStop 0xB4 initPower none none else hw
/-- A breach on VIN_CORE sets VOLTAGE on every channel, for every frame while it lasts (R351). -/
def execVinCore (t : Nat) (mv : Nat) (s : State) : Host.Outcome State Fault Refusal :=
  s.run t fun hw =>
    if !hw.alive || near5 1800 mv then hw else
    let f := fun (m : Ch) (h : Hw) => h.modCh m fun c => (c.doubt .voltage).modMon fun x => { x with volt := insertNat x.volt 5 }
    ((hw.modDev (Device.setRail 0 false)).eachCh f).raiseDev .doubt 0xB2 initPower (some mv) none
/-- A breach on a core regulator (0 to 3) or the uncore regulator (4). -/
def execVoltage (t : Nat) (ch : Ch) (regulator : Fin 5) (mv : Nat) (s : State) : Host.Outcome State Fault Refusal :=
  s.run t fun hw =>
    if !(hw.powered ch) || (hw.ch ch).regulatorOk regulator.val mv then hw else
    (hw.modCh ch fun c => (c.doubt .voltage).modMon fun x => { x with volt := insertNat x.volt regulator.val }).raise ch .doubt 0x9C initPower
      (some regulator.val) (some mv)
/-- The regulator, or VIN_CORE (5), is within its limits again. -/
def execVoltageRestore (t : Nat) (ch : Ch) (regulator : Fin 6) (s : State) : Host.Outcome State Fault Refusal :=
  s.run t fun hw =>
    let back := fun (m : Ch) (h : Hw) => h.modCh m (Channel.modMon fun x => { x with volt := x.volt.filter (· != regulator.val) })
    if !hw.alive then hw
    else if regulator.val == 5 then (hw.modDev (Device.setRail 0 true)).eachCh back
    else back ch hw
/-- A breach on VIO, VDD_UCIE, VDD_KR or an HBM3 rail (R481). -/
def execRail (t : Nat) (rail : Fin 7) (mv : Nat) (s : State) : Host.Outcome State Fault Refusal :=
  s.run t fun hw =>
    let hw := hw.modDev (Device.setVio rail.val (railOk rail.val mv))
    if hw.alive && !(railOk rail.val mv) then
      (hw.modDev (Device.setRail (railNum rail.val + 2) false)).deviceStop 0xDB initPower (some (railNum rail.val)) (some mv)
    else hw

/-! ### Temperature (R373, R515) -/

/-- The limit of a sensor in 0.1 °C: junction sensors 0 to 4, HBM3 sensors 5 to 8. -/
def tempLimit (sensor : Nat) : Int := if sensor < 5 then 1250 else 1050
def execTemperature (t : Nat) (ch : Ch) (sensor : Fin 9) (tenths : Int) (s : State) : Host.Outcome State Fault Refusal :=
  s.run t fun hw =>
    if !(hw.powered ch) || decide (tenths ≤ tempLimit sensor.val) then hw else
    (hw.modCh ch fun c => (c.doubt .temperature).modMon fun x => { x with temp := insertNat x.temp sensor.val }).raise ch .doubt 0x9D initPower
      (some sensor.val) (some (word32 tenths))
/-- Any sensor above 135 °C; DETAIL0 counts the sensors through the channels (log 12). -/
def execDeviceTemp (t : Nat) (ch : Ch) (sensor : Fin 9) (tenths : Int) (s : State) : Host.Outcome State Fault Refusal :=
  s.run t fun hw =>
    if hw.alive && decide (1350 < tenths) then hw.deviceStop 0xB5 initPower (some (9 * ch.val + sensor.val)) (some (word32 tenths)) else hw
def execTemperatureRestore (t : Nat) (ch : Ch) (sensor : Fin 9) (s : State) : Host.Outcome State Fault Refusal :=
  s.run t fun hw => hw.modCh ch (Channel.modMon fun x => { x with temp := x.temp.filter (· != sensor.val) })
/-- The HBM3 base die crosses 95 °C; only the share that the controllers lend changes (R515). -/
def execDoubleRefresh (t : Nat) (above : Bool) (s : State) : Host.Outcome State Fault Refusal :=
  s.run t fun hw => if hw.alive then hw.modDev fun d => { d with doubleRefresh := above } else hw

/-! ### Clocks (R371) -/

/-- The limit of a deviation in 0.01%: 2%, or 0.5% for the tick period. -/
def clockLimit (measured : Nat) : Nat := if measured == 10 then 50 else 200
/-- The largest deviation of the window that just ended. -/
def Monitors.window (now : Nat) (dev : Int) (x : Monitors) : Monitors :=
  if x.deviationAt == now && decide (dev.natAbs ≤ x.deviation.natAbs) then x else { x with deviation := dev, deviationAt := now }
/-- The result of a window of clock `measured`, or of a tick period (10) with the timebase source. -/
def execClock (t : Nat) (ch : Ch) (measured : Fin 11) (deviation : Int) (s : State) : Host.Outcome State Fault Refusal :=
  s.run t fun hw =>
    let n := measured.val
    let off := decide (clockLimit n < deviation.natAbs)
    if !(hw.powered ch) then hw
    else if n == 10 && ((hw.ch ch).img.tickSrc != 0 || !(hw.ch ch).tick.ticking) then hw
    else
      let hw := if n == 10 then hw else
        hw.modCh ch (Channel.modMon fun x =>
          { x.window hw.now deviation with clock := if off then insertNat x.clock n else x.clock.filter (· != n) })
      let hw := if n == 9 then hw.modDev fun d => { d with refclkOk := !off } else hw
      if off then (hw.doubting ch .clock).raise ch .doubt 0x9B (initMargin ch) (some n) (some (word32 deviation)) else hw

/-! ### Faults of units and pins -/

/-- Two consecutive mismatches of a pin: 0 CHn_OK, 1 CHn_MARGIN, 2 CHn_STOP, 3 DEV_FAULT_N (R348, log 12). -/
def execPinFault (t : Nat) (ch : Ch) (pin : Fin 4) (s : State) : Host.Outcome State Fault Refusal :=
  s.run t fun hw =>
    if pin.val == 3 then if hw.alive then hw.deviceStop 0xA3 initPower (some 3) none else hw
    else if hw.powered ch then hw.raise ch .channelStop 0xA3 (initMargin ch) (some pin.val) none else hw
/-- A lockstep mismatch of Margin or the Proof, or a parity error in a Margin FIFO (R352, R490). -/
def execMarginFault (t : Nat) (ch : Ch) (s : State) : Host.Outcome State Fault Refusal :=
  s.run t fun hw => if hw.powered ch then hw.marginFault ch else hw
/-- The Margin domain's clock stops or its PLL loses lock (R349). -/
def execPinWatchdog (t : Nat) (ch : Ch) (s : State) : Host.Outcome State Fault Refusal :=
  s.run t fun hw => if hw.powered ch then hw.marginFault ch else hw
def execScribeFault (t : Nat) (ch : Ch) (s : State) : Host.Outcome State Fault Refusal :=
  s.run t fun hw => if hw.powered ch then hw.scribeFault ch else hw
/-- A parity error in a scoreboard (0), the write-hold table (1) or the ring-context cache (2) (R245, log 12). -/
def execParity (t : Nat) (ch : Ch) (storage : Fin 3) (entry : Nat) (s : State) : Host.Outcome State Fault Refusal :=
  s.run t fun hw => if hw.powered ch then hw.raise ch .channelStop 0xA4 (initScribe ch) (some storage.val) (some entry) else hw
/-- Scrubbing reads a granule of HBM (R501) and finds a bit error in it: corrected, or the granule is poisoned (R245, R246); the write leaves its line in no
Reservoir (R227). -/
def execScrub (t : Nat) (ch : Ch) (granule : Nat) (correctable : Bool) (s : State) : Host.Outcome State Fault Refusal :=
  s.run t fun hw =>
    if !(hw.powered ch) || decide (hbmSize ≤ 64 * granule) then hw else
    let hw := hw.modCh ch (Channel.bump .perfHbmRd 64)
    if correctable then (hw.eccCe ch .hbm (initScrub ch) 0 granule).modCh ch (Channel.invalidate (64 * granule) 64 none)
    else
      (hw.modCh ch fun c => { (c.bump .ueHbm 1).stick .ueHbm with hbmPoison := insertNat c.hbmPoison granule }.invalidate (64 * granule) 64 none).raise ch .degraded 0x64
        (initScrub ch) (some (eccPlace .hbm 0 granule)) (some 3)

/-! ### 100 ms windows (R454, R486) -/

def lapsed (now : Nat) (last : Option Nat) : Bool :=
  match last with
  | some t => decide (t + 100000000 ≤ now)
  | none => true
/-- A channel's mean over 100 ms against the reservation it holds. -/
def Hw.measureCh (m : Ch) (p : Nat) (hw : Hw) : Hw :=
  let hw := hw.modCh m fun c => { c with power := p }
  let c := hw.ch m
  match c.resv with
  | some r =>
    if r < p && lapsed hw.now c.grd.pwrOverAt then
      (hw.modCh m fun c => { c.bump .pwrOver 1 with grd := { c.grd with pwrOverAt := some hw.now } }).raise m .note 0xDA initPower (some p) (some r)
    else hw
  | none => hw
/-- The device's mean against the cap: a device record, counted in every channel whose queue it enters (log 12). -/
def Hw.measureDev (p : Nat) (hw : Hw) : Hw :=
  let hw := hw.modDev fun d => { d with power := p }
  if hw.dev.capDw < p && lapsed hw.now hw.dev.overAt then
    let counted := fun (m : Ch) (h : Hw) => match (h.ch m).st with
      | .off | .boot | .load => h
      | _ => h.modCh m (Channel.bump .pwrOver 1)
    ((hw.modDev fun d => { d with overAt := some hw.now }).eachCh counted).raiseDev .note 0xDA initPower (some p) (some hw.dev.capDw)
  else hw
/-- A window of power measurement closes. -/
def execPowerMeasure (t : Nat) (p0 p1 p2 p3 device : Nat) (s : State) : Host.Outcome State Fault Refusal :=
  s.run t fun hw =>
    if hw.alive then ((((hw.measureCh 0 p0).measureCh 1 p1).measureCh 2 p2).measureCh 3 p3).measureDev device else hw
/-- Every 100 ms the readings of channels that are not ticking are latched; the device window holds no counter (R502). -/
def execCounterLatch (t : Nat) (s : State) : Host.Outcome State Fault Refusal :=
  s.run t fun hw => hw.eachCh fun m h => h.modCh m fun c => if c.tick.ticking then c else c.latch

end Sys2Proof.Machine
end

