-- ==== Sys2Proof/Machine/Dispatch.lean ====
section
/-! DEFINITION. One arm per command: the meaning each constructor of `Instr` has. -/
namespace Sys2Proof.Machine

def exec (i : Instr) (s : State) : Host.Outcome State Fault Refusal :=
  match i with
  | .porstRelease t testMode => Sys2Proof.Machine.execPorstRelease t testMode s
  | .porst t => Sys2Proof.Machine.execPorst t s
  | .uncoreUp t ch => Sys2Proof.Machine.execUncoreUp t ch s
  | .headerRead t ch => Sys2Proof.Machine.execHeaderRead t ch s
  | .signetReady t => Sys2Proof.Machine.execSignetReady t s
  | .imageVerify t sigOk => Sys2Proof.Machine.execImageVerify t sigOk s
  | .hbmTrained t ch ok => Sys2Proof.Machine.execHbmTrained t ch ok s
  | .loadClear t ch => Sys2Proof.Machine.execLoadClear t ch s
  | .sectionMatch t ch => Sys2Proof.Machine.execSectionMatch t ch s
  | .loadCheck t ch => Sys2Proof.Machine.execLoadCheck t ch s
  | .preloadCopy t ch => Sys2Proof.Machine.execPreloadCopy t ch s
  | .tickBoundary t ch => Sys2Proof.Machine.execTickBoundary t ch s
  | .syncEdge t ch lowNs highNs => Sys2Proof.Machine.execSyncEdge t ch lowNs highNs s
  | .syncMissing t ch => Sys2Proof.Machine.execSyncMissing t ch s
  | .tickLost t ch => Sys2Proof.Machine.execTickLost t ch s
  | .heartbeatMissing t ch => Sys2Proof.Machine.execHeartbeatMissing t ch s
  | .pointRaise t ch => Sys2Proof.Machine.execPointRaise t ch s
  | .pointChangeDone t ch => Sys2Proof.Machine.execPointChangeDone t ch s
  | .spanPowerUp t ch => Sys2Proof.Machine.execSpanPowerUp t ch s
  | .spanClearDone t ch core span => Sys2Proof.Machine.execSpanClearDone t ch core span s
  | .spanPowerDown t ch core span => Sys2Proof.Machine.execSpanPowerDown t ch core span s
  | .pdTimeout t ch core span => Sys2Proof.Machine.execPdTimeout t ch core span s
  | .exemplarStart t ch core => Sys2Proof.Machine.execExemplarStart t ch core s
  | .exemplarLatest t ch => Sys2Proof.Machine.execExemplarLatest t ch s
  | .exemplarDone t ch core out crc => Sys2Proof.Machine.execExemplarDone t ch core out crc s
  | .strokeIssue t ch idx obs => Sys2Proof.Machine.execStrokeIssue t ch idx obs s
  | .strokeComplete t ch idx => Sys2Proof.Machine.execStrokeComplete t ch idx s
  | .sweep t p => Sys2Proof.Machine.execSweep t p s
  | .image t p => Sys2Proof.Machine.execImage t p s
  | .telem t p => Sys2Proof.Machine.execTelem t p s
  | .calib t p => Sys2Proof.Machine.execCalib t p s
  | .memwrite t p => Sys2Proof.Machine.execMemwrite t p s
  | .tailpage t p page => Sys2Proof.Machine.execTailpage t p page s
  | .regread t p => Sys2Proof.Machine.execRegread t p s
  | .regreadDeferred t ch => Sys2Proof.Machine.execRegreadDeferred t ch s
  | .regwrite t p => Sys2Proof.Machine.execRegwrite t p s
  | .registerWrite t path addr value => Sys2Proof.Machine.execRegisterWrite t path addr value s
  | .latentClear t ch => Sys2Proof.Machine.execLatentClear t ch s
  | .fenceReq t ch mask => Sys2Proof.Machine.execFenceReq t ch mask s
  | .pwrDevCap t deciwatts => Sys2Proof.Machine.execPwrDevCap t deciwatts s
  | .publish t p => Sys2Proof.Machine.execPublish t p s
  | .keyrotateSessionInstall t p ct confirm => Sys2Proof.Machine.execKeyrotateSessionInstall t p ct confirm s
  | .keyrotateSessionRetire t p => Sys2Proof.Machine.execKeyrotateSessionRetire t p s
  | .keyrotateTableInstall t p ct confirm => Sys2Proof.Machine.execKeyrotateTableInstall t p ct confirm s
  | .keyrotateTableRetire t p => Sys2Proof.Machine.execKeyrotateTableRetire t p s
  | .nvmwrite t p badPages eraseFails => Sys2Proof.Machine.execNvmwrite t p badPages eraseFails s
  | .membership t p => Sys2Proof.Machine.execMembership t p s
  | .heartbeat t p => Sys2Proof.Machine.execHeartbeat t p s
  | .malformed t p => Sys2Proof.Machine.execMalformed t p s
  | .ringContextFetch t ch ring => Sys2Proof.Machine.execRingContextFetch t ch ring s
  | .hairpin t src => Sys2Proof.Machine.execHairpin t src s
  | .hostWriteApply t ch id => Sys2Proof.Machine.execHostWriteApply t ch id s
  | .outboundSend t => Sys2Proof.Machine.execOutboundSend t s
  | .errorHandle t ch => Sys2Proof.Machine.execErrorHandle t ch s
  | .tailTimeout t ch reqId => Sys2Proof.Machine.execTailTimeout t ch reqId s
  | .getCert t part => Sys2Proof.Machine.execGetCert t part s
  | .getReport t tenant nonce => Sys2Proof.Machine.execGetReport t tenant nonce s
  | .getCounter t => Sys2Proof.Machine.execGetCounter t s
  | .readReg t sg addr count => Sys2Proof.Machine.execReadReg t sg addr count s
  | .writeReg t sg addr words => Sys2Proof.Machine.execWriteReg t sg addr words s
  | .setPowerCap t sg deciwatts => Sys2Proof.Machine.execSetPowerCap t sg deciwatts s
  | .resetChannel t sg ch => Sys2Proof.Machine.execResetChannel t sg ch s
  | .readErrors t sg => Sys2Proof.Machine.execReadErrors t sg s
  | .enterMaint t sg ch tenant ekM => Sys2Proof.Machine.execEnterMaint t sg ch tenant ekM s
  | .leaveMaint t sg ch => Sys2Proof.Machine.execLeaveMaint t sg ch s
  | .renewSession t sg tenant => Sys2Proof.Machine.execRenewSession t sg tenant s
  | .provisionOwner t sg slot digest => Sys2Proof.Machine.execProvisionOwner t sg slot digest s
  | .revokeOwner t sg slot => Sys2Proof.Machine.execRevokeOwner t sg slot s
  | .linkDown t => Sys2Proof.Machine.execLinkDown t s
  | .linkRestore t => Sys2Proof.Machine.execLinkRestore t s
  | .linkDegraded t => Sys2Proof.Machine.execLinkDegraded t s
  | .vaux t mv => Sys2Proof.Machine.execVaux t mv s
  | .marginClkLost t => Sys2Proof.Machine.execMarginClkLost t s
  | .vinCore t mv => Sys2Proof.Machine.execVinCore t mv s
  | .voltage t ch regulator mv => Sys2Proof.Machine.execVoltage t ch regulator mv s
  | .temperature t ch sensor tenths => Sys2Proof.Machine.execTemperature t ch sensor tenths s
  | .deviceTemp t ch sensor tenths => Sys2Proof.Machine.execDeviceTemp t ch sensor tenths s
  | .clock t ch measured deviation => Sys2Proof.Machine.execClock t ch measured deviation s
  | .rail t rail mv => Sys2Proof.Machine.execRail t rail mv s
  | .pinFault t ch pin => Sys2Proof.Machine.execPinFault t ch pin s
  | .marginFault t ch => Sys2Proof.Machine.execMarginFault t ch s
  | .scribeFault t ch => Sys2Proof.Machine.execScribeFault t ch s
  | .parity t ch storage entry => Sys2Proof.Machine.execParity t ch storage entry s
  | .pinWatchdog t ch => Sys2Proof.Machine.execPinWatchdog t ch s
  | .scrub t ch granule correctable => Sys2Proof.Machine.execScrub t ch granule correctable s
  | .powerMeasure t p0 p1 p2 p3 device => Sys2Proof.Machine.execPowerMeasure t p0 p1 p2 p3 device s
  | .counterLatch t => Sys2Proof.Machine.execCounterLatch t s
  | .treq t ch => Sys2Proof.Machine.execTreq t ch s
  | .trsp t ch seq t2 retried => Sys2Proof.Machine.execTrsp t ch seq t2 retried s
  | .tfol t ch seq t3 retried => Sys2Proof.Machine.execTfol t ch seq t3 retried s
  | .tmaster t ch valid master => Sys2Proof.Machine.execTmaster t ch valid master s
  | .slewEnd t ch => Sys2Proof.Machine.execSlewEnd t ch s
  | .timeHoldover t ch => Sys2Proof.Machine.execTimeHoldover t ch s
  | .ptpSyncSend t ch => Sys2Proof.Machine.execPtpSyncSend t ch s
  | .ptpSyncReceive t ch port f => Sys2Proof.Machine.execPtpSyncReceive t ch port f s
  | .delayReq t ch port f => Sys2Proof.Machine.execDelayReq t ch port f s
  | .delayResp t ch port f => Sys2Proof.Machine.execDelayResp t ch port f s
  | .ptpOther t ch port f => Sys2Proof.Machine.execPtpOther t ch port f s
  | .peerLink t ch port up => Sys2Proof.Machine.execPeerLink t ch port up s
  | .data t ch port f => Sys2Proof.Machine.execData t ch port f s
  | .nack t ch port f => Sys2Proof.Machine.execNack t ch port f s
  | .frameLand t ch port => Sys2Proof.Machine.execFrameLand t ch port s
  | .epochGrace t ch => Sys2Proof.Machine.execEpochGrace t ch s
  | .portEgress t ch port => Sys2Proof.Machine.execPortEgress t ch port s
  | .peerSend t ch => Sys2Proof.Machine.execPeerSend t ch s
  | .peerOpen t ch => Sys2Proof.Machine.execPeerOpen t ch s
  | .peerClose t ch => Sys2Proof.Machine.execPeerClose t ch s
  | .hostWriteLanded t ch id => Sys2Proof.Machine.execHostWriteLanded t ch id s
  | .fusesRead t => Sys2Proof.Machine.execFusesRead t s
  | .voltageRestore t ch regulator => Sys2Proof.Machine.execVoltageRestore t ch regulator s
  | .temperatureRestore t ch sensor => Sys2Proof.Machine.execTemperatureRestore t ch sensor s
  | .doubleRefresh t above => Sys2Proof.Machine.execDoubleRefresh t above s

end Sys2Proof.Machine
end

