-- ==== Sys2Proof/Safety.lean ====
section
/-! DEFINITION. What the claims call safe: memories in canonical form, pins that claim no record while no frame is published,
reservations within the cap, and a device that DEVICE_STOP has stopped for good. -/
namespace Sys2Proof.Machine

/-! ### Memories -/

/-- A core's Inkwell is in canonical form. -/
def CoreMem.wf (k : CoreMem) : Bool := Cells.wf ramDefault k.ink
/-- HBM, the Inkwells and the xSPI memory of a channel are in canonical form. -/
def Channel.memWf (c : Channel) : Bool := Cells.wf ramDefault c.hbm && c.core.all CoreMem.wf && Cells.wf norDefault c.nvm.cells
/-- Every memory of the device is in canonical form, those kept of a channel that R463 may still bring back too. -/
def Memory.wf (s : State) : Bool := chans.all (fun m => (s.hw.ch m).memWf) && s.hw.due.all fun d => d.was.memWf

/-! ### Pins (R345) -/

/-- Outside RUN, MARGIN and FENCED the pins are 0, 0 and 1. -/
def Channel.pinsSafe (c : Channel) : Prop := c.st.ticks = false → c.pins = Pins.stopOnly
def State.pinsSafe (s : State) : Prop := ∀ m, (s.hw.ch m).pinsSafe

/-! ### Power (R19, R484) -/

/-- The reservations in force fit the device cap. -/
def State.powerFits (s : State) : Prop := s.hw.reserved ≤ s.hw.dev.capDw

/-! ### DEVICE_STOP (R346, R374, R461) -/

/-- A channel in STOPPED with nothing in flight. -/
def Channel.halted (c : Channel) : Prop := c.st = .stopped ∧ c.duct.flight = [] ∧ c.peer.run = none
/-- After DEVICE_STOP, DEV_FAULT_N is low and every channel is in STOPPED. -/
def State.stopHolds (s : State) : Prop := s.hw.dev.deviceStop = true → s.hw.dev.faultLow = true ∧ ∀ m, (s.hw.ch m).halted

end Sys2Proof.Machine
end

