-- ==== Sys2Proof/WellFormed.lean ====
section
/-! DEFINITION. Well-formed commands: operands as wide as the fields that carry them, and the operand of the row it is for.
A command that is not well formed names nothing that can reach the device; `exec` is defined on it all the same. -/
namespace Sys2Proof

/-- A compact time: its ns field counts below one second (R390). -/
def compactOk (t : DWord) : Bool := decide (t.toNat % 2 ^ 30 < 1000000000)

/-- The payload is as long as the header says, and the packet fills its 64 + 64·⌈L/64⌉ bytes on the stream (R73, R74). -/
def Packet.sized (p : Packet) : Bool :=
  p.payload.length == p.len && p.rsvd48.length == 16 && 64 + p.payload.length + p.pad.length == p.streamLen
/-- A packet of the row with opcode `op` that passes step 1 of R84. -/
def Packet.isOp (op : Nat) (p : Packet) : Bool := p.headerOk && p.op == op && p.sized && compactOk p.captime

/-- The plain bytes of a sealed tail page: one page of 65,536 bytes (R268). -/
def SealedPage.wf (s : SealedPage) : Bool := s.plain.length == 65536 && decide (s.gen < 4)

/-- A management request's envelope: a 32-bit COUNTER and a public key of 1,793 bytes (R450). -/
def Signed.wf (g : Signed) : Bool := decide (g.counter < 2 ^ 32) && g.authority.length == 1793

/-- Field widths of IEEE 1588-2019 headers as R396 and R397 use them. -/
def PtpFrame.wf (f : PtpFrame) : Bool :=
  decide (f.domain < 256) && decide (f.majorSdoId < 16) && decide (f.messageType < 16) && decide (f.seqId < 65536)

/-- A unit of R383, the Scribe or Margin. -/
def FwObs.wf (o : FwObs) : Bool := decide (o.unit ≤ 10)

namespace Instr

/-- The check of each row. -/
def wf : Instr → Bool
  | .porstRelease _ _ | .porst _ | .uncoreUp _ _ | .headerRead _ _ | .signetReady _ | .imageVerify _ _ | .hbmTrained _ _ _
  | .loadClear _ _ | .sectionMatch _ _ | .loadCheck _ _ | .preloadCopy _ _ | .tickBoundary _ _ | .syncEdge _ _ _ _
  | .syncMissing _ _ | .tickLost _ _ | .heartbeatMissing _ _ | .pointRaise _ _ | .pointChangeDone _ _ | .spanPowerUp _ _
  | .spanClearDone _ _ _ _ | .spanPowerDown _ _ _ _ | .pdTimeout _ _ _ _ | .exemplarStart _ _ _ | .exemplarLatest _ _
  | .regreadDeferred _ _ | .latentClear _ _ | .fenceReq _ _ _ | .hairpin _ _ | .outboundSend _ | .errorHandle _ _
  | .getCounter _ | .linkDown _ | .linkRestore _ | .linkDegraded _ | .marginClkLost _ | .pinFault _ _ _ | .marginFault _ _
  | .scribeFault _ _ | .pinWatchdog _ _ | .counterLatch _ | .treq _ _ | .slewEnd _ _ | .timeHoldover _ _ | .ptpSyncSend _ _
  | .peerLink _ _ _ _ | .frameLand _ _ _ | .epochGrace _ _ | .portEgress _ _ _ | .peerSend _ _ | .peerOpen _ _ | .peerClose _ _
  | .fusesRead _ | .voltageRestore _ _ _ | .temperatureRestore _ _ _ | .doubleRefresh _ _ | .registerWrite _ _ _ _
  | .temperature _ _ _ _ | .deviceTemp _ _ _ _ | .clock _ _ _ _ => true
  | .exemplarDone _ _ _ out _ => decide (out.length < 2 ^ 24)
  | .strokeIssue _ _ idx obs => decide (idx < 65536) && obs.fw.all FwObs.wf
  | .strokeComplete _ _ idx => decide (idx < 65536)
  | .sweep _ p => p.isOp 1
  | .image _ p => p.isOp 2
  | .telem _ p => p.isOp 3
  | .calib _ p => p.isOp 4
  | .memwrite _ p => p.isOp 5
  | .tailpage _ p page => p.isOp 6 && page.wf
  | .regread _ p => p.isOp 7
  | .regwrite _ p => p.isOp 8
  | .publish _ p => p.isOp 9
  | .keyrotateSessionInstall _ p _ _ => p.isOp 10 && p.rotate.scope != 1 && p.rotate.action == 0
  | .keyrotateSessionRetire _ p => p.isOp 10 && p.rotate.scope != 1 && p.rotate.action != 0
  | .keyrotateTableInstall _ p _ _ => p.isOp 10 && p.rotate.scope == 1 && p.rotate.action == 0
  | .keyrotateTableRetire _ p => p.isOp 10 && p.rotate.scope == 1 && p.rotate.action != 0
  | .nvmwrite _ p bad _ => p.isOp 11 && bad.all fun a => a % 256 == 0
  | .membership _ p => p.isOp 12
  | .heartbeat _ p => p.isOp 13
  | .malformed _ p => !p.headerOk && p.rsvd48.length == 16
  | .ringContextFetch _ _ ring => decide (ring < 65536)
  | .hostWriteApply _ _ id | .hostWriteLanded _ _ id => decide (id < 2 ^ 64)
  | .tailTimeout _ _ id => decide (id < 2 ^ 32)
  | .pwrDevCap _ dw => decide (dw < 65536)
  | .getCert _ part => decide (part < 256)
  | .getReport _ tenant nonce => decide (tenant < 256) && nonce.length == 32
  | .readReg _ g _ count => g.wf && decide (count < 65536)
  | .writeReg _ g _ ws => g.wf && decide (ws.length ≤ 64)
  | .setPowerCap _ g dw => g.wf && decide (dw < 65536)
  | .resetChannel _ g ch | .leaveMaint _ g ch => g.wf && decide (ch < 256)
  | .readErrors _ g => g.wf
  | .enterMaint _ g ch tenant _ => g.wf && decide (ch < 256) && decide (tenant < 256)
  | .renewSession _ g tenant => g.wf && decide (tenant < 256)
  | .provisionOwner _ g slot digest => g.wf && decide (slot < 256) && digest.length == 32
  | .revokeOwner _ g slot => g.wf && decide (slot < 256)
  | .vaux _ mv | .vinCore _ mv | .voltage _ _ _ mv | .rail _ _ mv => decide (mv < 2 ^ 32)
  | .parity _ _ _ entry => decide (entry < 2 ^ 32)
  | .scrub _ _ granule _ => decide (granule < 0x6000000)
  | .powerMeasure _ p0 p1 p2 p3 d => [p0, p1, p2, p3, d].all fun p => decide (p < 65536)
  | .trsp _ _ seq t2 _ => decide (seq < 256) && compactOk t2
  | .tfol _ _ seq t3 _ => decide (seq < 256) && compactOk t3
  | .tmaster _ _ _ _ => true
  | .ptpSyncReceive _ _ _ f => f.wf && f.messageType == 0
  | .delayReq _ _ _ f => f.wf && f.messageType == 1
  | .delayResp _ _ _ f => f.wf && f.messageType == 9
  | .ptpOther _ _ _ f => f.wf && f.messageType != 0 && f.messageType != 1 && f.messageType != 9
  | .data _ _ _ f => f.ptype != 2#8
  | .nack _ _ _ f => f.ptype == 2#8

end Instr

end Sys2Proof
end

