-- ==== Sys2Proof/Certificates/Slice0/Obligations.lean ====
section
/-! DEFINITION. Statements about the model for the provers, from the numbered rules of the spec. -/
namespace Sys2Proof.Claims
open Sys2Proof.Machine

/-- `exec c` answers a next state with the queue as it stands, and the hardware after it satisfies `P`. -/
def Runs (c : Instr) (s : State) (P : Hw → Prop) : Prop := ∃ h, exec c s = .next { s with hw := h } ∧ P h
/-- The hardware `t` ns later, when the command's event comes. -/
abbrev later (s : State) (t : Nat) : Hw := s.hw.advance t
/-- The device is out of PORST and not under test. -/
def Awake (s : State) : Prop := s.hw.dev.porstN = true ∧ s.hw.dev.testMode = false
/-- Every channel but `m` is as in `a`. -/
def Others (m : Ch) (a h : Hw) : Prop := ∀ n, n ≠ m → h.ch n = a.ch n
/-- The channel is as in `a` but for its error queue and what an arrival there counts and marks (R376). -/
def UpToQueue (a c : Channel) : Prop :=
  c = { a with errq := c.errq, errNext := c.errNext, errSinceKept := c.errSinceKept, ctr := c.ctr, sticky := c.sticky, fresh := c.fresh }
/-- Nothing but channel `m` and the Signet's log of records differs from `a`. -/
def Local (m : Ch) (a h : Hw) : Prop :=
  Others m a h ∧ h.dev = { a.dev with signet := { a.dev.signet with log := h.dev.signet.log } } ∧ h.now = a.now ∧ h.emitted = a.emitted ∧
  h.due = a.due

/-- A record with these contents (R103). -/
def IsRec (r : ErrRec) (who : Option Ch) (sev : Severity) (code : Nat) (d0 d1 : Option Nat) : Prop :=
  r.severity = sev ∧ r.code = BitVec.ofNat 8 code ∧ r.channel = who ∧ r.detail0 = d0.map (BitVec.ofNat 32) ∧ r.detail1 = d1.map (BitVec.ofNat 32)
/-- After the change `f`, one record of channel `m` arrives at its queue (R376) and in the Signet's log (R452); nothing else differs. -/
def Filed (m : Ch) (sev : Severity) (code : Nat) (d0 d1 : Option Nat) (f : Channel → Channel) (a h : Hw) : Prop :=
  ∃ r, IsRec r (some m) sev code d0 d1 ∧ r.time = compact (a.ch m).local ∧
    h = (a.modCh m fun c => (f c).putErr r).modSig fun s => { s with log := logPut r s.log }
/-- After the changes `g` of the device and `f` of every channel, one device record arrives at the queues (R377) and in the log. -/
def FiledDev (sev : Severity) (code : Nat) (d0 d1 : Option Nat) (g : Device → Device) (f : Channel → Channel) (a h : Hw) : Prop :=
  (∀ m, ∃ r, IsRec r none sev code d0 d1 ∧ h.ch m = (f (a.ch m)).putDev fun _ => r) ∧
  (∃ r, IsRec r none sev code d0 d1 ∧
    h.dev = { g a.dev with signet := { (g a.dev).signet with logDevice := (g a.dev).signet.logDevice ++ [r] } }) ∧
  h.emitted = a.emitted ∧ h.now = a.now ∧ h.due = a.due
/-- Only channel `m` differs, by `f`. -/
def Only (m : Ch) (f : Channel → Channel) (a h : Hw) : Prop := h = a.modCh m f
/-- The packet that channel `m` queues when it has room. -/
def Queues (m : Ch) (body : OutBody) (ring : Nat) (a h : Hw) : Prop :=
  (a.ch m).roomOther = true →
    h = a.modCh m fun c => { c with outq := c.outq ++ [{ body := body, ring := ring, frametag := BitVec.ofNat 32 c.tick.k, reports := none, eom := true }] }
/-- The byte `x` of a memory (0 to 3 Inkwell, 4 HBM) that a write of a stroke in flight replaced: the stroke's stop may bring the old
byte back (R63, R383). -/
def Restores (c : Channel) (mem x : Nat) : Prop :=
  ∃ f ∈ c.duct.flight, ∃ u ∈ f.undo, (if u.mem < 4 then u.mem else 4) = mem ∧ 64 * u.granule ≤ x ∧ x < 64 * u.granule + u.old.length
/-- Every byte of the channel's memories reads as in `a`, but for writes of strokes in flight that a stop takes back and for bytes of HBM
that satisfy `d`. -/
def MemoryStandsBut (d : Nat → Prop) (a c : Channel) : Prop :=
  (∀ x, ¬Restores a 4 x → ¬d x → Cells.byte ramDefault c.hbm x = Cells.byte ramDefault a.hbm x) ∧
  (∀ j x : Nat, ¬Restores a j x → Cells.byte ramDefault (coreMem c j).ink x = Cells.byte ramDefault (coreMem a j).ink x) ∧
  c.nvm.cells = a.nvm.cells
/-- Every byte but those of strokes taken back. -/
def MemoryStands (a c : Channel) : Prop := MemoryStandsBut (fun _ => False) a c
/-- Byte `x` of HBM is one of the four of the directory entry of a page in the tail cache (R265). -/
def DirHolds (c : Channel) (x : Nat) : Prop :=
  ∃ p ∈ c.map.slots, ∃ t, c.tabCfg p.table = some t ∧ c.dirAt t p.page ≤ x ∧ x < c.dirAt t p.page + 4
/-- The channel as the hardware holds it, or as it was before a management command of this cycle that is dropped (R463). -/
def Stood (a : Hw) (m : Ch) (c : Channel) : Prop := c = a.ch m ∨ ∃ d ∈ a.due, d.ch = m ∧ c = d.was
/-- While PORST_N is low: OFF, the pins of R457, DEV_FAULT_N low. -/
def OffAtPorst (s : State) : Prop :=
  s.hw.dev.porstN = false → s.hw.dev.faultLow = true ∧ ∀ m, (s.hw.ch m).st = .off ∧ (s.hw.ch m).pins = { ok := false, margin := false, stop := true }

/-! Host packets -/

/-- The command of the packet's row. -/
inductive Carries : Instr → Nat → Waiting → Prop
  | sweep (t p) : p.op = 1 → Carries (.sweep t p) t (plain p)
  | image (t p) : p.op = 2 → Carries (.image t p) t (plain p)
  | telem (t p) : p.op = 3 → Carries (.telem t p) t (plain p)
  | calib (t p) : p.op = 4 → Carries (.calib t p) t (plain p)
  | memwrite (t p) : p.op = 5 → Carries (.memwrite t p) t (plain p)
  | tailpage (t p pg) : p.op = 6 → Carries (.tailpage t p pg) t { plain p with page := some pg }
  | regread (t p) : p.op = 7 → Carries (.regread t p) t (plain p)
  | regwrite (t p) : p.op = 8 → Carries (.regwrite t p) t (plain p)
  | publish (t p) : p.op = 9 → Carries (.publish t p) t (plain p)
  | sessionInstall (t p ct x) : p.op = 10 → Carries (.keyrotateSessionInstall t p ct x) t { plain p with kem := some (ct, x) }
  | sessionRetire (t p) : p.op = 10 → Carries (.keyrotateSessionRetire t p) t (plain p)
  | tableInstall (t p ct x) : p.op = 10 → Carries (.keyrotateTableInstall t p ct x) t { plain p with kem := some (ct, x) }
  | tableRetire (t p) : p.op = 10 → Carries (.keyrotateTableRetire t p) t (plain p)
  | nvmwrite (t p b e) : p.op = 11 → Carries (.nvmwrite t p b e) t { plain p with badPages := b, eraseFails := e }
  | membership (t p) : p.op = 12 → Carries (.membership t p) t (plain p)
  | heartbeat (t p) : p.op = 13 → Carries (.heartbeat t p) t (plain p)
  | malformed (t p) : p.headerOk = false → Carries (.malformed t p) t (plain p)

/-- The packet reaches the checks of R84: the link is up and nothing it must wait behind holds it (R79, R237). -/
def Reaches (a : Hw) (w : Waiting) (m : Ch) : Prop :=
  a.dev.porstN = true ∧ a.dev.link.down = false ∧ w.pkt.chan = m ∧ (a.ch m).ringBlocked w.pkt.ring = false ∧ (a.ch m).behind w.pkt.ring = false
/-- The hardware once the dispatcher has served the packet: round-robin goes on after its ring (R80). -/
def served (a : Hw) (p : Packet) : Hw :=
  a.modDev fun d => { d with link := { d.link with servedIn := setAt d.link.servedIn ((a.ch p.chan).waitClass p) p.ring18 } }
/-- The hardware once ring `r` has carried the packet: GEN_USED counts it (R82). -/
def carried (a : Hw) (m : Ch) (r : Ring) (p : Packet) : Hw :=
  if p.gen == a.curGen m r.num r.tenant then a.modCh m (Channel.modRing r.num fun r => { r with genUsed := r.genUsed + 1 }) else a
/-- The packet passes every check of R84, in order and without a wait, on ring `r` of channel `m`. -/
def Checked (a : Hw) (w : Waiting) (m : Ch) (r : Ring) : Prop :=
  Reaches a w m ∧ w.pkt.headerOk = true ∧ (a.ch m).inRing w.pkt.ring = some r ∧ r.num = w.pkt.ring ∧ a.earlyWhy m r w.pkt = none ∧
  (carried a m r w.pkt).lateWhy m r w = none
/-- It does, and the firewalls let ingest write where it goes (R381). -/
def Passes (a : Hw) (w : Waiting) (m : Ch) (r : Ring) : Prop := Checked a w m r ∧ (a.ch m).ingestOk r w.pkt = true
/-- The ring's own account of an accepted packet and its message (R81, R88, R340, R500). -/
def Took (a : Hw) (m : Ch) (r : Ring) (p : Packet) (h : Hw) : Prop :=
  ∃ x, (h.ch m).ring r.num = some x ∧ x.nextSeq = p.seq + 1 ∧ x.accepted = min (r.accepted + 1) (2 ^ 64 - 1) ∧
    x.gaps = (if seqStep r p = 0 then r.gaps else min (r.gaps + seqStep r p) (2 ^ 32 - 1)) ∧ x.discarded = r.discarded ∧
    x.msgsOpen = r.msgsOpen + b2n p.eom ∧ x.stampA = compact ((a.ch m).localAt (a.now - p.wait)) ∧ x.stampB = compact (a.ch m).local

/-! Registers and error records -/

/-- Whether a 1 of the word `v` written at `off` names sticky bit `x` (R9, R10). -/
def named (off v : Nat) (x : Sticky) : Bool := (stickyAt off).any fun y => y.2 == x && bitOf v y.1
/-- The word `v` written at `off` clears the sticky bits that its 1s name and no other, but none that an event of the same cycle set
(R10), ends a standing alarm at the next boundary where it names LATENT (R364), and changes nothing else of the channel. -/
def Clears (off v : Nat) (a c : Channel) : Prop :=
  (∀ x, c.stuck x = (a.stuck x && !(named off v x && !a.fresh.contains (some x)))) ∧
  c = { a with sticky := c.sticky, mrg := { a.mrg with
    latentClear := a.mrg.latentClear || (off == 0x900 && bitOf v 0 && a.mrg.latent && !a.fresh.contains none) } }
/-- What ring 0 of channel `m` reads at an address: 0 in another channel's window and where nothing is mapped (R101, R492). -/
def readWord (a : Hw) (m : Ch) (addr : Nat) : Word :=
  if (placeOf addr).foreign m then 0
  else BitVec.ofNat 32 ((a.word (some (((a.ch m).ring 0).elim 0 (·.tenant))) (placeOf addr)).getD 0)
/-- RSTATUS: 1 when a word lies in another channel's window, else 2 when one is unmapped, else 0 (R101). -/
def readStatus (a : Hw) (m : Ch) (addr count : Nat) : Nat :=
  if (List.range count).any fun i => (placeOf (addr + 4 * i)).foreign m then 1
  else if (List.range count).any fun i => (a.word (some (((a.ch m).ring 0).elim 0 (·.tenant))) (placeOf (addr + 4 * i))).isNone then 2 else 0
/-- The REGDATA that answers a REGREAD performed at `a`. -/
def regdata (a : Hw) (m : Ch) (p : Packet) : OutPkt :=
  { body := .regdata p.reg.tag (BitVec.ofNat 32 p.reg.addr) p.reg.count (readStatus a m p.reg.addr p.reg.count)
      ((List.range p.reg.count).map fun i => readWord a m (p.reg.addr + 4 * i))
    ring := 0, frametag := BitVec.ofNat 32 (a.ch m).tick.k, reports := none, eom := true }
/-- The record of `e` is placed behind the outbound queue `q`: alone in an ERROR packet on ring 0 where one may be formed, else it is
unsent (R375). -/
def Placed (e : ErrEntry) (q : List OutPkt) (a c : Channel) : Prop :=
  let now := fun (x : Carry) => a.errq.map fun y => if y.id == e.id then { y with carry := x } else y
  if ({ a with outq := q } : Channel).roomOther = true then
    c.outq = q ++ [{ body := .error [e.record] [e.id], ring := 0, frametag := BitVec.ofNat 32 a.tick.k, reports := none, eom := true }] ∧
    c.errq = now .carried
  else c.outq = q ∧ c.errq = now .unsent

/-! Transfers (R231) -/

/-- The rows that a transfer descriptor of 48 bytes stores in core `j`'s Inkwell (`j` below 4) or in HBM (4) hold address `y`. -/
def rowsHold (c : Channel) (b : List Byte) (j y : Nat) : Prop :=
  let dst := field b 16 8
  let rows := ∃ i, i < field b 28 4 ∧ dst + i * field b 36 4 ≤ y ∧ y < dst + i * field b 36 4 + field b 24 4
  (j = min (byteAt b 2) 4 ∧ (byteAt b 0 = 0 ∨ byteAt b 0 = 2) ∧ rows) ∨ (j = 4 ∧ (byteAt b 0 = 1 ∨ byteAt b 0 = 3) ∧ rows) ∨
  (j = min (byteAt b 2) 4 ∧ 5 ≤ byteAt b 0 ∧ dst ≤ y ∧
    y < dst + min (field b 24 4 * field b 28 4) (c.halfOf (field b 4 2) c.closedHalf).bytes)
/-- Each descriptor of an INTAKE or XFER stroke's parameter block. -/
def descriptors (parm : List Byte) : List (List Byte) := chunks 48 (field parm 0 2) (parm.drop 16)

/-! Management -/

/-- A signed request that is accepted (R450). -/
def Accepts (a : Hw) (sg : Signed) (open_ : Bool) : Prop :=
  a.dev.porstN = true ∧ a.dev.testMode = false ∧ a.dev.signet.ready = true ∧ sg.sigOk = true ∧ a.dev.signet.mgCounter < sg.counter ∧
  (∀ d, a.dev.fuses.authority = some d → Shake.shake256 32 sg.authority = d) ∧ (a.dev.fuses.authority = none → open_ = true)
/-- MG_COUNTER has taken the request's COUNTER. -/
def counted (a : Hw) (sg : Signed) : Hw := a.modSig fun g => { g with mgCounter := sg.counter }
/-- The one response of a management command. -/
def Answers (command status : Nat) (data : MgmtData) (a h : Hw) : Prop := h.emitted = a.emitted ++ [.mgmt command status data]
/-- The signed commands: time, code, envelope, and whether an unfused authority admits it (log 21). -/
def signedOf : Instr → Option (Nat × Nat × Signed × Bool)
  | .readReg t sg _ _ => some (t, 0x10, sg, false)
  | .writeReg t sg _ _ => some (t, 0x11, sg, false)
  | .setPowerCap t sg _ => some (t, 0x12, sg, false)
  | .resetChannel t sg _ => some (t, 0x13, sg, false)
  | .readErrors t sg => some (t, 0x14, sg, false)
  | .enterMaint t sg _ _ _ => some (t, 0x15, sg, false)
  | .leaveMaint t sg _ => some (t, 0x16, sg, false)
  | .renewSession t sg _ => some (t, 0x17, sg, false)
  | .provisionOwner t sg slot _ => some (t, 0x18, sg, slot == 4)
  | .revokeOwner t sg _ => some (t, 0x19, sg, false)
  | _ => none

/-! What commands reach -/

/-- The one channel that a command can change. Not here: commands of the whole device, session rotation, which resets GEN_USED on every ring
of a tenant, SECTION_MATCH, which may open a session, and commands after which waiting packets go on. -/
def channelOf : Instr → Option Ch
  | .uncoreUp _ c | .headerRead _ c | .hbmTrained _ c _ | .loadClear _ c | .loadCheck _ c | .preloadCopy _ c | .tickBoundary _ c
  | .syncEdge _ c _ _ | .syncMissing _ c | .tickLost _ c | .heartbeatMissing _ c | .pointRaise _ c | .pointChangeDone _ c | .spanPowerUp _ c
  | .spanClearDone _ c _ _ | .spanPowerDown _ c _ _ | .pdTimeout _ c _ _ | .exemplarStart _ c _ | .exemplarLatest _ c
  | .exemplarDone _ c _ _ _ | .strokeIssue _ c _ _ | .strokeComplete _ c _ | .latentClear _ c | .fenceReq _ c _ | .errorHandle _ c
  | .tailTimeout _ c _ | .voltage _ c _ _ | .temperature _ c _ _ | .clock _ c _ _ | .marginFault _ c | .scribeFault _ c | .parity _ c _ _
  | .pinWatchdog _ c | .scrub _ c _ _ | .treq _ c | .trsp _ c _ _ _ | .tfol _ c _ _ _ | .tmaster _ c _ _ | .slewEnd _ c | .timeHoldover _ c
  | .ptpSyncSend _ c | .ptpSyncReceive _ c _ _ | .delayReq _ c _ _ | .delayResp _ c _ _ | .ptpOther _ c _ _ | .peerLink _ c _ _ | .data _ c _ _
  | .nack _ c _ _ | .frameLand _ c _ | .epochGrace _ c | .portEgress _ c _ | .peerSend _ c | .peerOpen _ c | .peerClose _ c
  | .temperatureRestore _ c _ => some c
  | .sweep _ p | .image _ p | .telem _ p | .calib _ p | .memwrite _ p | .tailpage _ p _ | .regread _ p | .regwrite _ p | .publish _ p
  | .nvmwrite _ p _ _ | .membership _ p | .heartbeat _ p | .malformed _ p => some p.chan
  | _ => none

/-- The commands that may stop a stroke in flight, or fence a unit, and store nothing else but directory entries. -/
def stopsStrokes : Instr → Bool
  | .tickBoundary _ _ | .syncEdge _ _ _ _ | .syncMissing _ _ | .tickLost _ _ | .fenceReq _ _ _ | .errorHandle _ _ | .vaux _ _
  | .marginClkLost _ | .rail _ _ _ | .deviceTemp _ _ _ _ | .pinFault _ _ _ | .registerWrite _ _ _ _ | .writeReg _ _ _ _ | .peerSend _ _ => true
  | _ => false
/-- The commands that may make a boundary, at which the device writes directory entries of the tail cache (R265). -/
def makesBoundary : Instr → Bool
  | .tickBoundary _ _ | .syncEdge _ _ _ _ | .syncMissing _ _ | .tickLost _ _ => true
  | _ => false
/-- The commands by which a CHANNEL_STOP may drop an ENTER_MAINT of the same cycle (R463). -/
def dropsCommands : Instr → Bool
  | .errorHandle _ _ | .syncEdge _ _ _ _ => true
  | _ => false
/-- The commands that store to no memory: neither HBM nor an Inkwell nor an xSPI memory, and stop no stroke. -/
def storesNothing : Instr → Bool
  | .porst _ | .loadClear _ _ | .sectionMatch _ _ | .preloadCopy _ _ | .spanClearDone _ _ _ _ | .exemplarDone _ _ _ _ _
  | .strokeIssue _ _ _ _ | .strokeComplete _ _ _ | .sweep _ _ | .image _ _ | .telem _ _ | .tailpage _ _ _ | .nvmwrite _ _ _ _
  | .regreadDeferred _ _ | .ringContextFetch _ _ _ | .hostWriteApply _ _ _ | .hostWriteLanded _ _ _ | .resetChannel _ _ _
  | .enterMaint _ _ _ _ _ | .leaveMaint _ _ _ | .frameLand _ _ _ => false
  | i => !stopsStrokes i

end Sys2Proof.Claims

open Sys2Proof Sys2Proof.Machine Sys2Proof.Claims

/-! ### The queue and reset -/

/-- A step runs the command at the front of the queue with the queue's rest; an empty queue idles (log 2); every command answers a next
state with the queue as it stands. -/
def Obligations.StepRunsTheFrontCommand : Prop :=
  (∀ (c : Instr) (cs : List Instr) (hw : Hw),
    step { hw := hw, pending := c :: cs } = exec c { hw := hw, pending := cs } ∧
    step { hw := hw, pending := [] } = .next { hw := hw, pending := [] }) ∧
  ∀ (c : Instr) (s : State), Runs c s fun _ => True

/-- The state right after reset: PORST_N low, every channel OFF with pins 0, 0, 1, DEV_FAULT_N low, no session, the cap of R484; the
invariants below hold in it. -/
def Obligations.ResetIsPorstLow : Prop :=
  (Memory.wf State.reset = true ∧ State.reset.pinsSafe ∧ State.reset.powerFits ∧ State.reset.stopHolds ∧ OffAtPorst State.reset) ∧
  State.reset.pending = [] ∧ State.reset.hw.dev.porstN = false ∧ State.reset.hw.dev.faultLow = true ∧
  State.reset.hw.dev.deviceStop = false ∧ State.reset.hw.dev.capDw = 2650 ∧
  (∀ m, (State.reset.hw.ch m).st = .off ∧ (State.reset.hw.ch m).pins = { ok := false, margin := false, stop := true }) ∧
  (∀ i, (State.reset.hw.session i).isOpen = false)

/-! ### What every step keeps -/

/-- Every memory keeps its canonical form over every step. -/
def Obligations.MemoryStaysCanonical : Prop :=
  ∀ s s', Memory.wf s = true → step s = .next s' → Memory.wf s' = true

/-- Over every step, a channel outside RUN, MARGIN and FENCED drives its pins 0, 0 and 1 (R345). -/
def Obligations.PinsFollowTheState : Prop := ∀ s s', s.pinsSafe → step s = .next s' → s'.pinsSafe

/-- Over every step, the reservations in force stay within the device cap (R19, R21, R484, R485). -/
def Obligations.ReservationsStayWithinTheCap : Prop := ∀ s s', s.powerFits → step s = .next s' → s'.powerFits

/-- After DEVICE_STOP every channel stays in STOPPED with DEV_FAULT_N low over every step, and the Signet refuses RESET_CHANNEL,
LEAVE_MAINT and ENTER_MAINT with STATUS 3 (R461); 5 where a transition of the same cycle goes before (R463, log 21). -/
def Obligations.DeviceStopHolds : Prop :=
  (∀ s s', s.stopHolds → step s = .next s' → s'.stopHolds) ∧
  ∀ (t tenant ekM : Nat) (m : Ch) (sg : Signed) (s : State),
    let a := later s t
    let no := fun (cmd place : Nat) (h : Hw) =>
      Answers cmd (if (a.ch m).outranked a.now place then 5 else 3) .none a h ∧ (∀ n, UpToQueue (a.ch n) (h.ch n)) ∧ h.dev.deviceStop = true
    s.hw.dev.deviceStop = true → Accepts a sg false → tenant < 8 →
    Runs (.resetChannel t sg m.val) s (no 0x13 3) ∧ Runs (.leaveMaint t sg m.val) s (no 0x16 3) ∧
    Runs (.enterMaint t sg m.val tenant ekM) s (no 0x15 5)

/-- While PORST_N is low every CHn_OK and CHn_MARGIN is low, every CHn_STOP high and DEV_FAULT_N low, every channel in OFF: every step keeps
it so (R457). -/
def Obligations.PorstHoldsEverythingOff : Prop :=
  ∀ s s', OffAtPorst s → step s = .next s' → OffAtPorst s'

/-- A fused owner slot or authority is never unfused: over every step provisioned and revoked bits stay set, a provisioned
digest stays, and so does the authority (R445, R446). -/
def Obligations.FusesAreOneTime : Prop :=
  ∀ s s', step s = .next s' →
    s'.hw.dev.fuses.deviceId = s.hw.dev.fuses.deviceId ∧ s'.hw.dev.fuses.grade1630 = s.hw.dev.fuses.grade1630 ∧
    s'.hw.dev.fuses.arrayFuse = s.hw.dev.fuses.arrayFuse ∧
    (s.hw.dev.fuses.authority.isSome → s'.hw.dev.fuses.authority = s.hw.dev.fuses.authority) ∧
    ∀ (i : Nat) (o : OwnerSlot), s.hw.dev.fuses.slots[i]? = some o →
      ∃ o', s'.hw.dev.fuses.slots[i]? = some o' ∧
        (o.provisioned = true → o'.provisioned = true ∧ o'.digest = o.digest) ∧ (o.revoked = true → o'.revoked = true)

/-! ### Start-up -/

/-- PORST_N rises with rails and clocks in limits; the Signet reads the fuses, which releases DEV_FAULT_N when VAUX and MARGIN_CLK are in
limits, and derives its key pair; nothing else changes (R347, R458). -/
def Obligations.PorstReleaseStartsTheDevice : Prop :=
  (∀ (t : Nat) (tm : Bool) (s : State), s.hw.dev.porstN = false →
    Runs (.porstRelease t tm) s fun h =>
      h.dev = { s.hw.dev with porstN := true, testMode := tm, porstAt := s.hw.now + t, rails := 0xFF#8, vio18Ok := true, vio33Ok := true,
                              refclkOk := true, marginClkOk := true, ucieLock := true } ∧
      (∀ m, h.ch m = (later s t).ch m) ∧ h.emitted = s.hw.emitted) ∧
  ∀ (t : Nat) (s : State), Awake s →
    (s.hw.dev.signet.fusesRead = false → Runs (.fusesRead t) s fun h =>
      h.dev = { s.hw.dev with signet := { s.hw.dev.signet with fusesRead := true },
                              faultLow := s.hw.dev.deviceStop || !(s.hw.dev.rails.getLsbD 1) || !s.hw.dev.marginClkOk } ∧
      ∀ m, h.ch m = (later s t).ch m) ∧
    (s.hw.dev.signet.fusesRead = true → Runs (.signetReady t) s fun h =>
      h.dev = { s.hw.dev with signet := { s.hw.dev.signet with ready := true } } ∧ ∀ m, h.ch m = (later s t).ch m)

/-- PORST_N falls: every channel is OFF at once, nothing is published, every session ends, no memory contents survive, so that every
byte reads the model's default (log 6); the fuses (R445) and, by the model's reading (log 24), the xSPI memories do (R459). A management
command of the same cycle is undone first, and answers STATUS 5 (R463, log 21). -/
def Obligations.PorstEndsOperation : Prop :=
  ∀ (t : Nat) (s : State),
    let a := later s t
    let b := a.undoAll 1
    Runs (.porst t) s fun h =>
      (∀ m, (h.ch m).st = .off ∧ (h.ch m).pins = { ok := false, margin := false, stop := true } ∧ (h.ch m).hbm = [] ∧
        (∀ k ∈ (h.ch m).core, k.ink = [] ∧ k.rsv = []) ∧ (h.ch m).nvm.cells = (b.ch m).nvm.cells) ∧
      h.emitted = b.emitted ∧ (a.due = [] → h.emitted = s.hw.emitted ∧ ∀ m, (h.ch m).nvm.cells = (s.hw.ch m).nvm.cells) ∧
      h.dev.faultLow = true ∧ h.dev.deviceStop = false ∧ h.dev.fuses = s.hw.dev.fuses ∧
      (∀ i, (h.session i).isOpen = false)

/-- UNCORE_UP takes a channel from OFF to BOOT with its timebase at zero and its registers as at reset (R389, R458, R498); HEADER_READ holds
the header and queues the verification, in order of request and of channel within a cycle; HBM_TRAINED ends training, and step 6 follows
once the header is verified (R473). -/
def Obligations.BootStepsRun : Prop :=
  ∀ (t : Nat) (ch : Ch) (s : State),
    (Awake s → (s.hw.ch ch).st = .off → s.hw.dev.porstAt + 1000000 * (ch.val + 1) ≤ s.hw.now + t →
      Runs (.uncoreUp t ch) s fun h =>
        (h.ch ch).st = .boot ∧ (h.ch ch).pins = { ok := false, margin := false, stop := true } ∧
        (h.ch ch).tb.running = true ∧ (h.ch ch).tb.sub = 0 ∧ (h.ch ch).tb.rem = 0 ∧ (h.ch ch).local = 0 ∧
        (h.ch ch).power = 0 ∧ (h.ch ch).mon.deviation = 0 ∧ (h.ch ch).ts.master = none ∧ (∀ x, (h.ch ch).count x = 0) ∧ (∀ x, (h.ch ch).stuck x = false) ∧
        Others ch (later s t) h) ∧
    ((s.hw.ch ch).st = .boot → (s.hw.ch ch).boot.hdrSeen = false →
      Runs (.headerRead t ch) s fun h =>
        (h.ch ch).boot.hdrSeen = true ∧ (h.ch ch).boot.header = (s.hw.ch ch).nvm.header ∧ (h.ch ch).st = .boot ∧
        (let later := fun (x : Ch) => (s.hw.ch x).boot.reqAt == s.hw.now + t && decide (ch.val < x.val)
         h.dev.signet.queue = s.hw.dev.signet.queue.filter (fun x => !(later x)) ++ ch :: s.hw.dev.signet.queue.filter later) ∧
        Others ch (later s t) h) ∧
    (∀ ok, (s.hw.ch ch).st = .boot → (s.hw.ch ch).boot.hbm = none →
      Runs (.hbmTrained t ch ok) s fun h =>
        (h.ch ch).boot.hbm = some ok ∧ Others ch (later s t) h ∧
        ((s.hw.ch ch).boot.verified = false → (h.ch ch).st = .boot) ∧
        ((s.hw.ch ch).boot.verified = true → ok = true → (h.ch ch).st = .load) ∧
        ((s.hw.ch ch).boot.verified = true → ok = false → (h.ch ch).st = .refused ∧ (h.ch ch).reason = 0x06#8))

/-- The Signet serves the oldest request: steps 1 to 5 of R473 refuse with their reason, or fix the slot; step 6 follows. -/
def Obligations.ImageVerifyDecides : Prop :=
  ∀ (t : Nat) (sigOk : Bool) (s : State) (m : Ch) (rest : List Ch),
    s.hw.dev.signet.ready = true → s.hw.dev.signet.queue = m :: rest → (s.hw.ch m).st = .boot →
    Runs (.imageVerify t sigOk) s fun h =>
      h.dev.signet.queue = rest ∧ Others m (later s t) h ∧
      (∀ why x, verifyWhy s.hw m sigOk = (some why, x) → (h.ch m).st = .refused ∧ (h.ch m).reason = BitVec.ofNat 8 why) ∧
      (∀ slot, verifyWhy s.hw m sigOk = (none, slot) →
        (h.ch m).boot.verified = true ∧ (h.ch m).slot = slot ∧
        ((s.hw.ch m).boot.hbm = none → (h.ch m).st = .boot) ∧
        ((s.hw.ch m).boot.hbm = some true → (h.ch m).st = .load) ∧
        ((s.hw.ch m).boot.hbm = some false → (h.ch m).st = .refused ∧ (h.ch m).reason = 0x06#8))

/-- LOAD clears the memories, matches each section or refuses with DIGEST or TENANT_CONFLICT, runs the load checks, and ends in
READY with its reservation held. A TENANT section opens the tenant's session the first time, with the next SESSION and K_0 as generation 0
(R432, R437, R438; the secret is a number, log 3); a DATA section's bytes land in HBM at DEST, and PRELOAD allocations hold their bytes of
them at the end (R472; a section that R55 or R235 refuses lands too where HBM has room). Of channels that reach the power check at once the
lower-numbered is judged first, and a higher one that was judged before it is judged again (R19, R473 steps 7 to 11, R475, R485; log 21). -/
def Obligations.LoadStepsRun : Prop :=
  ∀ (t : Nat) (ch : Ch) (s : State), (s.hw.ch ch).st = .load →
    ((s.hw.ch ch).boot.cleared = false → Runs (.loadClear t ch) s fun h =>
      (h.ch ch).hbm = [] ∧ (h.ch ch).core = List.replicate 4 CoreMem.reset ∧ (h.ch ch).boot.cleared = true ∧ (h.ch ch).st = .load ∧
      Others ch (later s t) h) ∧
    (∀ e, (s.hw.ch ch).boot.cleared = true → (s.hw.ch ch).boot.sects[(s.hw.ch ch).boot.nextSect]? = some e →
      Runs (.sectionMatch t ch) s fun h =>
        let b := (s.hw.ch ch).nvm.read e.offset e.len
        let tenant := byteAt b 0
        let known := (s.hw.session tenant).ekT
        let serial := (s.hw.dev.signet.sessionCtr + 1) % 2 ^ 32
        (Shake.shake256 64 b ≠ e.digest →
          (h.ch ch).st = .refused ∧ (h.ch ch).reason = 0x07#8 ∧ (h.ch ch).failSect = (s.hw.ch ch).boot.nextSect) ∧
        (Shake.shake256 64 b = e.digest → e.type = 1 → known.isSome → known ≠ some (bytesAt b 32 1568) →
          (h.ch ch).st = .refused ∧ (h.ch ch).reason = 0x30#8) ∧
        (Shake.shake256 64 b = e.digest → (e.type = 1 → known.isSome → known = some (bytesAt b 32 1568)) →
          (h.ch ch).st = .load ∧ (h.ch ch).boot.nextSect = (s.hw.ch ch).boot.nextSect + 1 ∧
          (e.type = 1 → known = none → tenant < 8 → tenant < s.hw.dev.signet.sessions.length →
            h.dev.signet.sessionCtr = serial ∧ (∀ n, n ≠ tenant → h.session n = s.hw.session n) ∧
            let u := h.session tenant
            u.isOpen = true ∧ u.ekT = some (bytesAt b 32 1568) ∧ u.serial = serial ∧ u.genCur = 0 ∧ u.prevLive = false ∧
            u.keyCur = .session s.hw.dev.fuses.deviceId u.ss1 tenant serial) ∧
          (e.type ≠ 1 ∨ known.isSome → h.dev.signet.sessions = s.hw.dev.signet.sessions) ∧
          (e.type = 14 → e.dest + b.length ≤ hbmSize → (s.hw.ch ch).memWf = true →
            Cells.read ramDefault (h.ch ch).hbm e.dest b.length = b ∧
            ∀ x, x < e.dest ∨ e.dest + b.length ≤ x →
              Cells.byte ramDefault (h.ch ch).hbm x = Cells.byte ramDefault (s.hw.ch ch).hbm x) ∧
          (e.type ≠ 14 → (h.ch ch).hbm = (s.hw.ch ch).hbm))) ∧
    ((s.hw.ch ch).boot.cleared = true → (s.hw.ch ch).boot.nextSect = (s.hw.ch ch).boot.nsect → (s.hw.ch ch).boot.checked = false →
      Runs (.loadCheck t ch) s fun h =>
        let why := loadWhy ch ((later s t).ch ch) (if s.hw.dev.fuses.grade1630 then 3 else 4) s.hw.dev.fuses.arrayFuse.toNat
        (∀ w, why = some w → (h.ch ch).st = .refused ∧ (h.ch ch).reason = BitVec.ofNat 8 w) ∧
        (why = none → (h.ch ch).st = .load ∧ (h.ch ch).boot.checked = true)) ∧
    ((s.hw.ch ch).boot.checked = true →
      Runs (.preloadCopy t ch) s fun h =>
        let c := s.hw.ch ch
        (c.memWf = true → ∀ x ∈ c.img.allocs, x.preload = true → x.exemplar = false → x.core < c.core.length →
          (∀ y ∈ c.img.allocs, y ≠ x → y.core = x.core → y.base + y.len ≤ x.base ∨ x.base + x.len ≤ y.base) →
          ∀ i dest len, c.img.dataDest.find? (·.1 == x.section_) = some (i, dest, len) →
            Cells.read ramDefault (coreMem (h.ch ch) x.core).ink x.base x.len = Cells.read ramDefault c.hbm (dest + x.soffset) x.len) ∧
        let a := (later s t).modCh ch (Channel.stepTen (later s t).now)
        let fits := (a.aside ch).fitsPower ch
        ((a.ch ch).refsOk = false → (h.ch ch).st = .refused ∧ (h.ch ch).reason = 0x21#8 ∧ Others ch a h) ∧
        ((a.ch ch).refsOk = true → fits = false → (h.ch ch).st = .refused ∧ (h.ch ch).reason = 0x31#8 ∧ Others ch a h) ∧
        ((a.ch ch).refsOk = true → fits = true →
          (h.ch ch).st = .ready ∧ (h.ch ch).resv = some (a.ch ch).need ∧ (h.ch ch).ringsLoaded = true ∧
          (h.ch ch).pins = { ok := false, margin := false, stop := true } ∧
          ∀ x, x ≠ ch →
            (x ∉ a.checkedAfter ch → h.ch x = a.ch x) ∧
            (x ∈ a.checkedAfter ch → (h.ch x).st = .ready ∧ (h.ch x).resv = some (a.ch x).need ∨
              (h.ch x).st = .refused ∧ (h.ch x).reason = 0x31#8 ∧ (h.ch x).resv = none)))

/-! ### Frames -/

/-- A tick boundary that is due closes frame k and begins frame k + 1: its number, its times, an empty scoreboard, the doubts of its
input; a pending CHANNEL_STOP enters STOPPED instead (R29, R33, R374). Frame k's ENVELOPE is queued (R34), a completed COMMIT's state is in
force (R61), staged calibration, folios and table keys take effect (R11, R66, R255, R269), and the coarse readings are latched, also
where the channel ticks no more (R454, R503). -/
def Obligations.BoundaryBeginsTheNextFrame : Prop :=
  ∀ (t : Nat) (ch : Ch) (s : State),
    let a := later s t
    let c := a.ch ch
    c.img.tickSrc = 0 → c.tick.ticking = true → c.st.ticks = true → c.tick.nextDue ≤ c.local →
    Runs (.tickBoundary t ch) s fun h =>
      Local ch a h ∧
      (∀ sc, c.img.scribe = some sc → c.st ≠ .fenced → ∃ p ∈ (h.ch ch).outq, ∃ r : EnvRec, p.body = .envelope r ∧ p.ring = sc.envRing ∧
        p.frametag = BitVec.ofNat 32 c.tick.k ∧ p.reports = some (compact c.tick.nextDue) ∧ p.eom = true ∧
        (c.stopPending = none → r.fromMargin = (h.ch ch).pins.margin ∧ r.stop = (h.ch ch).pins.stop) ∧
        (c.stopPending ≠ none → r.fromMargin = true ∧ r.stop = true)) ∧
      (h.ch ch).rings.map (fun r => (r.latAccepted, r.latDiscarded, r.latGaps)) = c.rings.map (fun r => (r.accepted, r.discarded, r.gaps)) ∧
      (c.stopPending = none →
        (h.ch ch).st.ticks = true ∧ (h.ch ch).duct.done = [] ∧ (h.ch ch).duct.flight = [] ∧ (h.ch ch).doubtIn = 0 ∧
        (h.ch ch).doubtP &&& c.doubtIn = c.doubtIn ∧
        (h.ch ch).tick = { ticking := true, k := c.tick.k + 1, tkNow := a.now, tkLoc := c.tick.nextDue,
                           nextDue := c.img.nextDue c.tick.nextDue, edges := 0, early := 0 } ∧
        (h.ch ch).scribe.cur = (if c.duct.commitDone then c.scribe.work else c.scribe.cur) ∧ (h.ch ch).scribe.work = (h.ch ch).scribe.cur ∧
        (h.ch ch).cal.camNext = [] ∧ (h.ch ch).cal.posesNext = [] ∧
        (∀ (i : Nat) (cam : CamCal), c.front.cams[i]? = some cam →
          (c.cal.camNext.filter (·.1 == i) = [] → (h.ch ch).front.cams[i]? = some cam) ∧
          (∀ v, c.cal.camNext.filter (·.1 == i) = [(i, 0, v)] →
            (h.ch ch).front.cams[i]? = some { cam with intr := v.take 8, gen := cam.gen + 1 }) ∧
          (∀ v, c.cal.camNext.filter (·.1 == i) = [(i, 1, v)] →
            (h.ch ch).front.cams[i]? = some { cam with extr := v.take 7, gen := cam.gen + 1 })) ∧
        (∀ x v, c.cal.posesNext = [(x, v)] → assoc (h.ch ch).cal.poses x = some (v.take 7)) ∧
        (c.img.scribe.isSome = true → (h.ch ch).cal.ms = c.cal.msNext.orElse (fun _ => c.cal.ms) ∧ (h.ch ch).cal.msNext = none) ∧
        (c.img.sitemap.isSome = true → ∀ (x : Nat) (u : TableSt), c.map.tables[x]? = some u → ∃ v, (h.ch ch).map.tables[x]? = some v ∧
          v.pending = [] ∧ v.keyStaged = [] ∧ v.serial = u.serial ∧
          (u.pending = [] → v.current = u.current) ∧
          (∀ f, u.pending.filter (fun y => u.lastPublish == some y.slot) = [f] → v.current = some f) ∧
          (u.keyStaged = [] → v.keyCur = u.keyCur ∧ v.keyPrev = u.keyPrev) ∧
          (∀ g k, u.keyStaged = [.install g k] → v.keyCur = some (g, k) ∧ (u.keyCur.isSome = true → v.keyPrev = u.keyCur)) ∧
          (u.keyStaged = [.retire] → v.keyCur = u.keyCur ∧ v.keyPrev = none))) ∧
      (∀ code, c.stopPending = some code →
        (h.ch ch).st = .stopped ∧ (h.ch ch).reason = code ∧ (h.ch ch).pins = { ok := false, margin := false, stop := true } ∧
        (h.ch ch).resv = none ∧ (h.ch ch).duct.flight = [] ∧ (h.ch ch).ctrLat = (h.ch ch).ctr)

/-- The first boundary of a channel that may run is T(0): frame 0, RUN with A = H from READY and A = 0 from FENCED, MARGIN while
the alarm or a fence is in force, and the pins 0, 0, 1 until T(1) (R35, R363, R383, R429, R462). -/
def Obligations.FirstBoundaryEntersRun : Prop :=
  ∀ (t : Nat) (ch : Ch) (s : State),
    let a := later s t
    let c := a.ch ch
    let first := fun (loc : Nat) (h : Hw) =>
      (h.ch ch).st = (if c.mrg.latent || !c.fenced.isEmpty then .margin else .run) ∧
      (h.ch ch).pins = { ok := false, margin := false, stop := true } ∧ (h.ch ch).resv = c.resv ∧
      (h.ch ch).mrg.a = (if c.st = .fenced then 0 else (c.img.safety.map (·.h)).getD 3) ∧
      (h.ch ch).tick = { ticking := true, k := 0, tkNow := a.now, tkLoc := loc, nextDue := c.img.nextDue loc, edges := 0, early := 0 } ∧
      Local ch a h
    (c.img.tickSrc = 0 → c.runnable = true → c.tick.ticking = false → c.local ≤ c.lastDue + 1 →
      Runs (.tickBoundary t ch) s (first c.lastDue)) ∧
    (∀ low high, 20 ≤ low → 20 ≤ high → c.img.tickSrc = 1 → c.runnable = true → c.tick.ticking = false → c.img.tickN ≤ c.tick.edges + 1 →
      Runs (.syncEdge t ch low high) s (first c.local))

/-- A rising edge on CHn_SYNC of a ticking channel: edges 1 to N − 1 count; the completing edge is ignored and recorded as SYNC_EARLY
before its window and makes the boundary inside it; a pulse below 5 ns never counts (R30, R512). -/
def Obligations.SyncEdgesCount : Prop :=
  ∀ (t : Nat) (ch : Ch) (s : State) (low high : Nat),
    let a := (later s t).free.2
    let c := a.ch ch
    c.img.tickSrc = 1 → c.tick.ticking = true → c.st.ticks = true → 20 ≤ low →
    (high < 5 → Runs (.syncEdge t ch low high) s fun h => h = a) ∧
    (20 ≤ high → c.tick.edges + 1 < c.img.tickN →
      Runs (.syncEdge t ch low high) s (Only ch (fun c => { c with tick := { c.tick with edges := c.tick.edges + 1 } }) a)) ∧
    (20 ≤ high → c.img.tickN ≤ c.tick.edges + 1 → c.windowOpen = false →
      Runs (.syncEdge t ch low high) s (Filed ch .note 0x9A (some (c.tick.early + 1)) none
        (fun c => { c with tick := { c.tick with early := c.tick.early + 1 } }) a)) ∧
    (20 ≤ high → c.img.tickN ≤ c.tick.edges + 1 → c.windowOpen = true → c.windowPast = false → c.stopPending = none →
      Runs (.syncEdge t ch low high) s fun h =>
        (h.ch ch).tick.k = c.tick.k + 1 ∧ (h.ch ch).tick.tkLoc = c.local ∧ (h.ch ch).tick.edges = 0 ∧ Local ch a h) ∧
    (20 ≤ high → c.img.tickN ≤ c.tick.edges + 1 → c.windowOpen = true → c.windowPast = true →
      Runs (.syncEdge t ch low high) s fun h => h = a)

/-- A window that closes without its edge, and the loss of every boundary, are boundaries the channel makes itself: the record
published is Margin's, with STOP when the tick was lost (R30, R371). -/
def Obligations.MissingBoundariesAreMade : Prop :=
  ∀ (t : Nat) (ch : Ch) (s : State),
    let a := later s t
    let c := a.ch ch
    c.tick.ticking = true → c.st = .run ∨ c.st = .margin → c.stopPending = none →
    (c.img.tickSrc = 1 → c.windowShut = true → Runs (.syncMissing t ch) s fun h =>
      (h.ch ch).tick.k = c.tick.k + 1 ∧ (h.ch ch).tick.edges = 0 ∧
      (h.ch ch).tick.tkLoc = c.tick.tkLoc + c.img.periodNs * (1000 + c.img.tickTol) / 1000 ∧
      (h.ch ch).pins.ok = false ∧ (h.ch ch).pins.margin = true ∧ (h.ch ch).env.source = true ∧ Local ch a h) ∧
    (c.img.pmaxMilli * 101 ≤ (a.now - c.tick.tkNow) * 100000 → Runs (.tickLost t ch) s fun h =>
      (h.ch ch).tick.k = c.tick.k + 1 ∧
      (h.ch ch).pins = { ok := false, margin := true, stop := true } ∧ (h.ch ch).env.source = true ∧ (h.ch ch).env.stop = true ∧
      Local ch a h)

/-- A frame is published from MAIN only when its strokes and exemplars completed and no doubt is in force, and then it is when the
channel is in RUN and RECORD has made its record (R34, R345, R460). -/
def Obligations.MainOnlyWhenClean : Prop :=
  ∀ (t : Nat) (ch : Ch) (s : State),
    let a := later s t
    let c := a.ch ch
    c.img.tickSrc = 0 → c.tick.ticking = true → c.st = .run ∨ c.st = .margin → c.stopPending = none → c.tick.nextDue ≤ c.local →
    Runs (.tickBoundary t ch) s fun h =>
      ((h.ch ch).pins.ok = true → c.st = .run ∧ c.strokesLeft = [] ∧ c.exMissing = [] ∧ c.doubtP = 0#32 ∧ c.duct.main.isSome = true) ∧
      (∀ r, c.st = .run → c.strokesLeft = [] → c.exMissing = [] → c.doubtP = 0#32 → c.duct.main = some r → r.fromMargin = false →
        a.hbLapse ch = none → c.duct.verdict.isSome = true →
        (h.ch ch).pins = { ok := true, margin := false, stop := r.stop } ∧ (h.ch ch).env.lastK = r.k) ∧
      (h.ch ch).pins.ok = !(h.ch ch).pins.margin ∧ (h.ch ch).env.source = (h.ch ch).pins.margin ∧ (h.ch ch).env.stop = (h.ch ch).pins.stop

/-- A heartbeat lapse longer than HB_TIMEOUT doubts the frame in progress, with one record for each lapse (R91). -/
def Obligations.HeartbeatLapseDoubts : Prop :=
  ∀ (t : Nat) (ch : Ch) (s : State),
    let a := later s t
    let c := a.ch ch
    let f := fun (c : Channel) => ({ c.doubt .heartbeat with grd := { c.grd with hbRaised := true } } : Channel)
    c.st.ticks = true →
    (∀ at_, c.hbLast = some at_ → c.img.hbTimeoutUs * 1000 < a.now - at_ →
      (c.grd.hbRaised = false → Runs (.heartbeatMissing t ch) s (Filed ch .doubt 0x98 (some ((a.now - at_) / 1000)) none f a)) ∧
      (c.grd.hbRaised = true → Runs (.heartbeatMissing t ch) s (Only ch f a))) ∧
    (∀ at_, c.hbLast = some at_ → a.now - at_ ≤ c.img.hbTimeoutUs * 1000 → Runs (.heartbeatMissing t ch) s fun h => h = a)

/-! ### The Ductus -/

/-- POINT_RAISE, from 10 µs before the boundary that the channel may run through, READY's first included, changes the cores to the worst
bracket's point; they run at the lower of the two until POINT_CHANGE_DONE. Before that, or a second time, it changes nothing in any state,
and nothing else ever changes (R50, R487). -/
def Obligations.PointChangesRun : Prop :=
  ∀ (t : Nat) (ch : Ch) (s : State),
    let a := later s t
    let c := a.ch ch
    let due := (c.running = true ∧ c.pastRaise = true) ∨
      (c.st = .fenced ∧ c.tick.ticking = true ∧ c.resv.isSome = true ∧ c.stopPending = none ∧ c.pastRaise = true) ∨
      (c.runnable = true ∧ c.tick.ticking = false ∧
        (if c.img.tickSrc = 0 then c.img.nextDue c.local ≤ c.local + 10000 else c.img.tickN ≤ c.tick.edges + 1))
    (∀ d, c.img.ductus = some d → due → c.duct.raised = false →
      let p := c.settlePoint.duct.point
      let q := d.startPoint
      Runs (.pointRaise t ch) s (Only ch (fun c => { c with duct := { c.duct with
        raised := true, point := min p q, changing := if p = q then none else some (p, q) } }) a)) ∧
    (c.st.ticks = true ∨ c.tick.ticking = false → ¬due ∨ c.duct.raised = true → Runs (.pointRaise t ch) s fun h => h = a) ∧
    (∀ x p, c.duct.changing = some (x, p) → Runs (.pointChangeDone t ch) s
      (Only ch (fun c => { c with duct := { c.duct with changing := none, point := p } }) a)) ∧
    (c.duct.changing = none → c.settlePoint.duct.point = c.duct.point ∧ Runs (.pointChangeDone t ch) s fun h => h = a)

/-- An exemplar starts on a core whose units are idle, and holds the core's strokes back once EX_LATEST has passed without it; on
completion its blocks have run on the core, and an output or a CRC that differs from the image's doubts the frame, with its record,
and fences the core the second time in a row (R56, R57, R365, R367, R470; what a block asks of the units is log 15's). -/
def Obligations.ExemplarsRun : Prop :=
  ∀ (t : Nat) (ch : Ch) (s : State) (d : Ductus),
    let a := later s t
    let c := a.ch ch
    c.img.ductus = some d →
    (∀ core : Ch, c.running = true → c.exUnstarted.contains core.val = true →
      (c.busyUnits d).any (fun u => u / 5 == core.val && u < 20) = false → Runs (.exemplarStart t ch core) s
        (Only ch (fun c => { c with duct := { c.duct with exem := setAt c.duct.exem core .running } }) a)) ∧
    (c.running = true → d.exLatest ≤ c.elapsed → c.exUnstarted ≠ [] → Runs (.exemplarLatest t ch) s
      (Only ch (fun c => { c with duct := { c.duct with exHold := true } }) a)) ∧
    (∀ (core : Ch) (faults : List Word) (crcFault : Word) (e : ExemplarCfg) (sf : SafetyCfg),
      c.duct.exem.getD core .idle = .running → c.img.exemplar = some e → c.img.safety = some sf →
      Runs (.exemplarDone t ch core faults crcFault) s fun h =>
        let r := (a.modCh ch fun c => { c with duct := { c.duct with exem := setAt c.duct.exem core .done } }).runK ch 0 core.val
          (K.exemplarRun core e faults)
        let os := (exOutput (r.ch ch) core e).map (exVal e.outFmt)
        let good := exOut sf os e.refs + (e.refs.length - os.length) = 0 ∧ exCrc sf os ^^^ crcFault = e.crc
        (h.ch ch).duct.exem = setAt c.duct.exem core .done ∧ (h.ch ch).duct.done = c.duct.done ∧ (h.ch ch).tick = c.tick ∧ Local ch a h ∧
        (good → h = r) ∧
        (¬good →
          (h.ch ch).doubtP &&& Doubt.exemplar.mask = Doubt.exemplar.mask ∧
          (h.ch ch).duct.exFailNow = setAt (r.ch ch).duct.exFailNow core true ∧
          (c.duct.exFailLast.getD core false = true → core.val ∈ (h.ch ch).fenced) ∧
          (c.duct.exFailLast.getD core false = false → (h.ch ch).fenced = (r.ch ch).fenced ∧
            ∃ x d1, IsRec x (some ch) .doubt 0x90 (some core.val) (some d1) ∧ h.dev.signet.log = logPut x r.dev.signet.log)))

/-- A span named for power-down waits for its last writes and goes off within 2 µs; writes that take longer keep it on for the rest of the
frame, with PD_TIMEOUT. It powers up cleared and returns to service holding zeros (R241, R243). -/
def Obligations.SpansPowerDownAndClear : Prop :=
  ∀ (t : Nat) (ch core : Ch) (span : Fin 12) (s : State),
    let a := later s t
    let c := a.ch ch
    (∀ since, c.spanAt core span = some (.draining since) →
      (a.now - since ≤ 2000 → Runs (.spanPowerDown t ch core span) s (Only ch (Channel.setSpan core span .off) a)) ∧
      (2000 < a.now - since → Runs (.spanPowerDown t ch core span) s fun h => h = a) ∧
      (2000 ≤ a.now - since → Runs (.pdTimeout t ch core span) s (Filed ch .note 0x61 none none
        (fun c => ((c.setSpan core span .kept).stick .pdTimeout).bump .pdTimeouts 1) a)) ∧
      (a.now - since < 2000 → Runs (.pdTimeout t ch core span) s fun h => h = a)) ∧
    (c.tick.ticking = true → c.pastRaise = true → Runs (.spanPowerUp t ch) s
      (Only ch (fun c => { c with core := c.core.map fun k => { k with spans := k.spans.map fun x => if x = .off then .clearing else x } }) a)) ∧
    (c.spanAt core span = some .clearing → c.memWf = true → Runs (.spanClearDone t ch core span) s fun h =>
      (h.ch ch).spanAt core span = some .on ∧ Local ch a h ∧ (h.ch ch).hbm = c.hbm ∧ (h.ch ch).nvm = c.nvm ∧
      (∀ off, off < 1048576 → Cells.byte ramDefault (coreMem (h.ch ch) core).ink (1048576 * span.val + off) = 0#8) ∧
      (∀ x, x < 1048576 * span.val ∨ 1048576 * (span.val + 1) ≤ x →
        Cells.byte ramDefault (coreMem (h.ch ch) core).ink x = Cells.byte ramDefault (coreMem c core).ink x) ∧
      (∀ j : Nat, j ≠ core.val → coreMem (h.ch ch) j = coreMem c j))

/-- A ready stroke issues: it stands in flight, and nothing outside its channel and the log changes; one that is not ready changes
nothing. An INTAKE or XFER stroke stores to the rows of its descriptors and to no other byte (R231), and a single descriptor into Inkwell
stores the bytes of its source: the input half just closed, or its row of HBM (R223, R231). PEER and COMMIT strokes store nothing at
issue. A completion releases the stroke, marks it done, and COMMIT marks the frame committed, unless its apply could not end before
T_e − 10 µs; strokes without nibs have nothing left to store (R41, R43, R61, R277). The work is done whole at issue (log 8). -/
def Obligations.StrokesIssueAndComplete : Prop :=
  ∀ (t : Nat) (ch : Ch) (idx : Nat) (s : State) (d : Ductus) (st : Stroke),
    let a := later s t
    let c := a.ch ch
    c.img.ductus = some d → d.stroke idx = some st →
    let place := fun (f : Flight) => (f.idx, f.cores, f.ranges, f.since)
    let goes := c.running = true ∧ c.ready d st = true ∧ c.firstReady d st = true
    let ink := fun (c : Channel) (j y : Nat) => Cells.byte ramDefault (coreMem c j).ink y
    (∀ obs, goes → Runs (.strokeIssue t ch idx obs) s fun h =>
      (h.ch ch).duct.flight.map place = c.duct.flight.map place ++ [(st.index, st.cores, st.ranges, c.elapsed)] ∧
      (h.ch ch).duct.done = c.duct.done ∧ (h.ch ch).tick = c.tick ∧ Local ch a h) ∧
    (∀ obs, goes → st.kind = 0 ∨ st.kind = 8 → c.memWf = true → Runs (.strokeIssue t ch idx obs) s fun h =>
      (∀ j y : Nat, (∀ b ∈ descriptors st.parm, ¬rowsHold c b j y) → ¬Restores c j y → ink (h.ch ch) j y = ink c j y) ∧
      (∀ y, (∀ b ∈ descriptors st.parm, ¬rowsHold c b 4 y) → ¬Restores c 4 y →
        Cells.byte ramDefault (h.ch ch).hbm y = Cells.byte ramDefault c.hbm y)) ∧
    (∀ (b : List Byte) (j n src : Nat), goes → st.kind = 0 ∨ st.kind = 8 → c.memWf = true → descriptors st.parm = [b] → j = byteAt b 2 → j < 4 →
      j < c.core.length → j ∈ coresOf st.cores →
      (byteAt b 0 = 0 ∧ field b 28 4 = 1 ∧ n = field b 24 4 ∧ src = field b 8 8 ∧ c.inside (field b 4 2) src n = n ∨
        byteAt b 0 = 5 ∧ n = min (field b 24 4 * field b 28 4) (c.halfOf (field b 4 2) c.closedHalf).bytes ∧
          ∃ g, c.region (field b 4 2) = some g ∧ src = g.base + c.closedHalf * g.len) →
      (∀ y, src ≤ y → y < src + n → c.tenantOk y = true ∧ y / 64 ∉ c.hbmPoison) →
      (∀ y, field b 16 8 ≤ y → y < field b 16 8 + n → (coreMem c j).offAt (64 * (y / 64)) = false) →
      Runs (.strokeIssue t ch idx { ecc := [], fw := [] }) s fun h =>
        Cells.read ramDefault (coreMem (h.ch ch) j).ink (field b 16 8) n = Cells.read ramDefault c.hbm src n ∧ (h.ch ch).hbm = c.hbm) ∧
    (goes → st.kind = 9 ∨ st.kind = 11 → Runs (.strokeIssue t ch idx { ecc := [], fw := [] }) s fun h =>
      (h.ch ch).hbm = c.hbm ∧ (h.ch ch).core = c.core ∧ (h.ch ch).nvm = c.nvm) ∧
    (∀ obs, c.running = false ∨ c.ready d st = false ∨ c.firstReady d st = false → Runs (.strokeIssue t ch idx obs) s fun h => h = a) ∧
    (c.duct.flight.any (·.idx == idx) = true → (st.kind = 9 → c.peerDone st = true) → (st.kind = 11 → c.mayCommit idx = true) →
      Runs (.strokeComplete t ch idx) s fun h =>
      (h.ch ch).duct.flight = c.duct.flight.filter (·.idx != st.index) ∧ (h.ch ch).duct.done = insertNat c.duct.done st.index ∧
      (h.ch ch).duct.commitDone = (c.duct.commitDone || st.kind == 11) ∧ (h.ch ch).tick = c.tick ∧ Local ch a h ∧
      (st.kind = 0 ∨ st.kind = 2 ∨ st.kind = 3 ∨ st.kind = 5 ∨ st.kind = 8 ∨ st.kind = 9 →
        (h.ch ch).hbm = c.hbm ∧ ∀ j : Nat, (coreMem (h.ch ch) j).ink = (coreMem c j).ink)) ∧
    (c.duct.flight.any (·.idx == idx) = false ∨ (st.kind = 9 ∧ c.peerDone st = false) ∨ (st.kind = 11 ∧ c.mayCommit idx = false) →
      Runs (.strokeComplete t ch idx) s fun h => h = a)

/-- When the decision stroke completes, the frame's bracket is fixed: the lowest whose point and cell limits are both at or above the
frame's counts; an overflowed frame is in the worst bracket. No other stroke's completion changes it (R47). -/
def Obligations.DecisionFixesTheBracket : Prop :=
  ∀ (t : Nat) (ch : Ch) (idx : Nat) (s : State) (d : Ductus) (st : Stroke),
    let a := later s t
    let c := a.ch ch
    c.img.ductus = some d → d.stroke idx = some st → c.duct.flight.any (·.idx == idx) = true →
    (st.kind = 9 → c.peerDone st = true) → (st.kind = 11 → c.mayCommit idx = true) →
    Runs (.strokeComplete t ch idx) s fun h =>
      let x := h.ch ch
      let b := x.duct.bracket
      (st.index = d.decide →
        x.duct.decided = true ∧
        (x.doubts .overflow = true → b = d.nbrackets - 1) ∧
        (x.doubts .overflow = false → ∀ i, i < d.nbrackets →
          x.front.points ≤ (d.bracketAt i).pointsMax → x.front.cells ≤ (d.bracketAt i).cellsMax →
          b ≤ i ∧ x.front.points ≤ (d.bracketAt b).pointsMax ∧ x.front.cells ≤ (d.bracketAt b).cellsMax)) ∧
      (st.index ≠ d.decide → b = c.duct.bracket ∧ x.duct.decided = c.duct.decided)

/-! ### Host packets -/

/-- Every packet that passes the checks of R84 advances its ring: NEXT_SEQ, ACCEPTED, GAPS and the message count (R81, R88). That
ACCEPTED and GAPS stay at their highest value is the model's choice (log 12). -/
def Obligations.AcceptedPacketAdvancesItsRing : Prop :=
  ∀ (i : Instr) (t : Nat) (w : Waiting) (s : State) (m : Ch) (r : Ring),
    Carries i t w → Passes (later s t) w m r → Runs i s (Took (later s t) m r w.pkt)

/-- A packet that fails a check of R84 is not applied in whole or in part: DISCARDED counts it on a ring that step 2 passed, NEXT_SEQ
stands, and one record holds the 18-bit ring and SEQ (R85). One that the firewalls keep out of its region is discarded as well, counted,
recorded with the address that its bytes would go to, and a doubt of the frame (R223, R378, R381, R382); that no record of R85 stands
beside it, and that DISCARDED stays at its highest value, are the model's choices (log 12). -/
def Obligations.DiscardedPacketChangesNothing : Prop :=
  ∀ (i : Instr) (t : Nat) (w : Waiting) (s : State) (m : Ch),
    let a := served (later s t) w.pkt
    let p := w.pkt
    let one := fun (sev : Severity) (code : Nat) (f : Channel → Channel) (a h : Hw) =>
      ∃ x : ErrRec, IsRec x (some m) sev code (some p.ring18) (some p.seq.toNat) ∧
        h = (a.modCh m fun c => (f c).putErr x).modSig fun s => { s with log := logPut x s.log }
    let counts := fun (r : Ring) (safe : Bool) (code : Nat) (c : Channel) =>
      let c := c.modRing r.num fun x => { x with discarded := min (x.discarded + 1) (2 ^ 32 - 1) }
      if safe && [0x43, 0x44, 0x45, 0x4A, 0x46].contains code then c.doubtInput .authFail else c
    let sev := fun (r : Ring) (code : Nat) (sev : Severity) => if r.safety && [0x43, 0x44, 0x45, 0x4A, 0x46].contains code then Severity.doubt else sev
    Carries i t w → a.dev.porstN = true → a.dev.link.down = false → p.chan = m →
    (p.headerOk = false → Runs i s (one .degraded 0x40 id a)) ∧
    (Reaches a w m → p.headerOk = true →
      ((a.ch m).inRing p.ring = none → Runs i s (one .degraded 0x41 id a)) ∧
      (∀ r code, (a.ch m).inRing p.ring = some r → a.earlyWhy m r p = some code →
        Runs i s (one (sev r code .degraded) code (counts r r.safety code) a)) ∧
      (∀ r code x, (a.ch m).inRing p.ring = some r → a.earlyWhy m r p = none → (carried a m r p).lateWhy m r w = some (code, x) →
        Runs i s (one (sev r code x) code (counts r r.safety code) (carried a m r p)))) ∧
    (∀ r g, Checked (later s t) w m r → (a.ch m).ingestOk r p = false → (a.ch m).region r.region = some g →
      Runs i s (Filed m .doubt 0x9E (some (initIngest m)) (some (((carried a m r p).ch m).intakeAt r g / 64))
        (fun c => ((counts r false 0 c).bump .fwBlocks 1).doubt .latentFault) (carried a m r p)))

/-- The bytes of an accepted SWEEP, IMAGE or TELEM packet land at the end of the open half of the ring's region, in order of acceptance
(R223, log 22), and no other byte of HBM changes; past the end of the half none of it is written, and the open frame is doubted (R90, R93,
R94, R95). In both cases Margin reads every point and sample of an accepted packet on a ring it reads, and of no other (R22, R355, R357). -/
def Obligations.DataPacketsLand : Prop :=
  ∀ (i : Instr) (t : Nat) (p : Packet) (s : State) (m : Ch) (r : Ring) (g : Region),
    let a := later s t
    let c := a.ch m
    let half := c.openFrame % 2
    let used := (c.halfOf r.region half).bytes
    let bs := bytesAt p.payload 64 (p.len - 64)
    let base := g.base + half * g.len + used
    let test := fun (b : List Byte) => bitOf (byteAt b 5) 1
    (i = .sweep t p ∧ p.op = 1) ∨ (i = .image t p ∧ p.op = 2) ∨ (i = .telem t p ∧ p.op = 3) →
    Passes a (plain p) m r → c.region r.region = some g →
    (g.input = true → used + bs.length ≤ g.len → c.memWf = true → Runs i s fun h =>
      Cells.read ramDefault (h.ch m).hbm base bs.length = bs ∧
      (∀ x, x < base ∨ base + bs.length ≤ x → Cells.byte ramDefault (h.ch m).hbm x = Cells.byte ramDefault c.hbm x) ∧
      (∀ j : Nat, (coreMem (h.ch m) j).ink = (coreMem c j).ink) ∧ (h.ch m).nvm = c.nvm ∧
      ((h.ch m).halfOf r.region half).bytes = used + bs.length ∧ Others m a h) ∧
    (g.len < used + bs.length → Runs i s fun h =>
      (h.ch m).hbm = c.hbm ∧ (h.ch m).core = c.core ∧ (h.ch m).nvm = c.nvm ∧ (h.ch m).input = c.input ∧
      (h.ch m).doubtIn &&& Doubt.overflow.mask = Doubt.overflow.mask ∧ (h.ch m).causesIn.getLsbD 7 = true ∧ Others m a h) ∧
    (∀ sf, c.img.safety = some sf → Runs i s fun h =>
      (h.ch m).mrg.openSet = (if p.op = 1 ∧ c.marginReads 1 r = true then
        (p.records 16).foldl (rangePoint sf (marginPose sf r.source)) c.mrg.openSet else c.mrg.openSet) ∧
      (h.ch m).mrg.openPower = (if p.op = 3 ∧ c.marginReads 3 r = true then
        ((p.records 16).filter fun b => !(test b)).foldl (fun l b => powerSample l b (sampleTime (extend c.local p.captime) (field b 0 4)))
          c.mrg.openPower else c.mrg.openPower))

/-- CALIB writes the shadow copies, MEMWRITE takes its place among the host-side writes, and PUBLISH makes a folio pending under the
next serial; none of them reaches a memory yet (R66, R96, R237, R254). -/
def Obligations.StagedPacketsTakeTheirPlace : Prop :=
  ∀ (t : Nat) (p : Packet) (s : State) (m : Ch) (r : Ring),
    let a := later s t
    let c := a.ch m
    Passes a (plain p) m r →
    (p.op = 4 → Runs (.calib t p) s fun h =>
      (h.ch m).cal = p.calibs.foldl stageCal c.cal ∧ (h.ch m).front = c.front ∧ (h.ch m).hbm = c.hbm ∧ (h.ch m).core = c.core ∧
      (h.ch m).nvm = c.nvm ∧ Others m a h) ∧
    (p.op = 5 → Runs (.memwrite t p) s fun h =>
      let x : HostWrite := { id := c.nextWrite, ring := r.num, frame := c.openFrame, addr := p.addr, bytes := bytesAt p.payload 64 (p.len - 64),
                             also := none, bad := [], applying := false, held := false }
      ∃ w : HostWrite, (h.ch m).writes.getLast? = some w ∧ (h.ch m).writes.map (·.id) = c.writes.map (·.id) ++ [c.nextWrite] ∧
        { w with applying := false, held := false } = x ∧
        (w.applying = true ↔ ({ (h.ch m) with writes := c.writes ++ [x] } : Channel).mayApply x = true) ∧
        (h.ch m).nextWrite = c.nextWrite + 1 ∧ (h.ch m).hbm = c.hbm ∧ (h.ch m).core = c.core ∧ (h.ch m).nvm = c.nvm ∧ Others m a h) ∧
    (p.op = 9 → Runs (.publish t p) s fun h =>
      (h.ch m).hbm = c.hbm ∧ (h.ch m).core = c.core ∧ (h.ch m).nvm = c.nvm ∧ Others m a h ∧
      ∀ ts, c.map.tables[byteAt p.payload 0]? = some ts →
        ∃ ts', (h.ch m).map.tables[byteAt p.payload 0]? = some ts' ∧ ts'.serial = ts.serial + 1 ∧ ts'.current = ts.current ∧
          ts'.lastPublish = some p.folio.slot ∧ { p.folio with serial := ts.serial + 1 } ∈ ts'.pending)

/-- A tail page sealed under the current or the previous generation of its request's table lands in a free tail slot, unmapped until the
next boundary; of one under the previous generation the device exports the page under the current key, where DELTA can be sent. A page of
another generation is refused with TAIL_KEYGEN, one that does not verify with TAIL_AUTH, one that finds no slot with TAIL_FULL; nothing is
written, and each is counted and recorded. A request outstanding longer than TAIL_TIMEOUT closes with its record (R266, R267, R270). -/
def Obligations.TailpagesInstall : Prop :=
  (∀ (t : Nat) (p : Packet) (pg : SealedPage) (s : State) (m : Ch) (r : Ring) (q : TailReq),
    let a := later s t
    let c := a.ch m
    let w : Waiting := { plain p with page := some pg }
    let b := (carried a m r p).account m r w
    let tab := c.tab q.table
    let g := p.tail.gen
    let deltaRing := (c.img.sitemap.map (·.deltaRing)).getD 0
    let total := (c.img.sitemap.map (·.tailSlots)).getD 0
    let serial := tab.current.elim 0 (·.serial)
    let verifies := fun (k : Key) => pg.intact = true ∧ pg.key = k ∧ pg.table = q.table ∧ pg.folio = q.folio ∧ pg.gen = g ∧ pg.page = q.page ∧
      pg.serial = serial
    -- the slot holds a key of the generation that the header names
    let current := fun (k : Key) => tab.keyCur = some (g, k)
    let previous := fun (k : Key) => (∃ x y, tab.keyCur = some (x, y) ∧ x ≠ g) ∧ tab.keyPrev = some (g, k)
    let refused := fun (sev : Severity) (code : Nat) (bit : Sticky) (h : Hw) =>
      (h.ch m).map.slots = c.map.slots ∧ (h.ch m).hbm = c.hbm ∧ (h.ch m).outq = c.outq ∧ (h.ch m).stuck bit = (c.stick bit).stuck bit ∧
      (h.ch m).count .mapTailRefused = (c.bump .mapTailRefused 1).count .mapTailRefused ∧
      ∃ x, IsRec x (some m) sev code none none ∧ (h.ch m).errq = ((b.ch m).putErr x).errq
    let lands := fun (h : Hw) => ∃ slot ∈ freeSlots total c.map.slots,
      (h.ch m).map.slots = c.map.slots ++ [{ slot := slot, table := q.table, folio := q.folio, page := q.page, mapped := false }] ∧
      Cells.read ramDefault (h.ch m).hbm (c.tailBase + 65536 * slot) pg.plain.length = pg.plain ∧
      (∀ x, x < c.tailBase + 65536 * slot ∨ c.tailBase + 65536 * slot + pg.plain.length ≤ x →
        Cells.byte ramDefault (h.ch m).hbm x = Cells.byte ramDefault c.hbm x)
    p.op = 6 → Passes a w m r → p.tailReq c = some q →
    Runs (.tailpage t p pg) s fun h =>
      (h.ch m).map.reqs = c.map.reqs.filter (·.id != q.id) ∧ Others m a h ∧ (h.ch m).nvm = c.nvm ∧
      (∀ j : Nat, (coreMem (h.ch m) j).ink = (coreMem c j).ink) ∧
      ((∀ k, ¬current k ∧ ¬previous k) → refused .degraded 0x71 .tailRefused h) ∧
      (∀ k, current k ∨ previous k → ¬verifies k → refused .degraded 0x72 .tailRefused h) ∧
      (∀ k, current k ∨ previous k → verifies k → freeSlots total c.map.slots = [] → refused .note 0x73 .tailFull h) ∧
      (∀ k, current k → verifies k → freeSlots total c.map.slots ≠ [] → c.memWf = true → lands h ∧ (h.ch m).outq = c.outq) ∧
      (∀ k, previous k → verifies k → freeSlots total c.map.slots ≠ [] → c.memWf = true → lands h ∧
        (c.sends deltaRing 7 = false → (h.ch m).outq = c.outq) ∧
        (∀ x y, tab.keyCur = some (x, y) → c.sends deltaRing 7 = true → c.roomOther = true →
          (h.ch m).outq = c.outq ++ [{ body := .delta1 q.table q.folio x serial c.tick.k q.page y pg.plain, ring := deltaRing,
                                       frametag := BitVec.ofNat 32 c.tick.k, reports := none, eom := true }]))) ∧
  (∀ (t : Nat) (ch : Ch) (id : Nat) (s : State),
    let a := later s t
    let c := a.ch ch
    (∃ q ∈ c.map.reqs, q.id = id ∧ (c.img.sitemap.map (·.tailTimeout)).getD 0 * 1000 < c.local - q.since) →
    Runs (.tailTimeout t ch id) s
      (Filed ch .note 0x70 none none (fun c => ((c.closeReq id).stick .tailTimeout).feedTail) a))

/-- A REGREAD answers with one REGDATA of the words as they read once the packet is accepted: another channel's window reads nothing and
is recorded, an unmapped word reads 0, and RSTATUS says so. Near a boundary it waits, and is performed after it (R101, R494). -/
def Obligations.RegreadAnswers : Prop :=
  (∀ (t : Nat) (p : Packet) (s : State) (m : Ch) (r : Ring),
    let a := later s t
    let c := a.ch m
    let b := (carried a m r p).account m r (plain p)
    p.op = 7 → Passes a (plain p) m r → Runs (.regread t p) s fun h =>
      Others m a h ∧ (h.ch m).hbm = c.hbm ∧ (h.ch m).core = c.core ∧ (h.ch m).nvm = c.nvm ∧
      (c.boundaryNear = false → c.regHeld = [] → c.roomOther = true → (h.ch m).outq = c.outq ++ [regdata b m p] ∧
        (readStatus b m p.reg.addr p.reg.count = 1 → ∃ x, IsRec x (some m) .degraded 0x49 (some p.ring18) (some p.seq.toNat) ∧
          h.dev.signet.log = logPut x b.dev.signet.log) ∧
        (readStatus b m p.reg.addr p.reg.count ≠ 1 → h.dev.signet.log = b.dev.signet.log)) ∧
      (c.boundaryNear = true ∨ c.regHeld ≠ [] → (h.ch m).regHeld = c.regHeld ++ [p] ∧ (h.ch m).outq = c.outq)) ∧
  (∀ (t : Nat) (ch : Ch) (s : State) (p : Packet) (rest : List Packet),
    let a := later s t
    let c := a.ch ch
    c.regHeld = p :: rest → c.boundaryNear = false → (∀ k, (a.ch k).ctxWait = []) → c.roomOther = true →
    Runs (.regreadDeferred t ch) s fun h =>
      (h.ch ch).regHeld = rest ∧ Others ch a h ∧ (h.ch ch).outq = c.outq ++ [regdata a ch p] ∧
      (h.ch ch).hbm = c.hbm ∧ (h.ch ch).core = c.core ∧ (h.ch ch).nvm = c.nvm)

/-- A REGWRITE, or one register write of the host, clears the W1C bits that it names and that no event of the same cycle set, and no
others, and changes no memory; a write to another channel's window changes nothing but its FIREWALL record; ACK is answered with STATUS
(R9, R10, R12, R101, R102, R364). Over management a word of a channel's status register clears the same bits. A field that is not the host's to write keeps its value, whatever
records that adds. -/
def Obligations.RegwriteApplies : Prop :=
  (∀ (t : Nat) (p : Packet) (s : State) (m : Ch) (r : Ring),
    let a := later s t
    let c := a.ch m
    let own := fun (x : Sticky) => ∃ i off, i < p.reg.count ∧ placeOf (p.reg.addr + 4 * i) = .channel m off ∧
      named off ((wordsAt p.payload 64 p.reg.count).getD i 0).toNat x = true
    p.op = 8 → Passes a (plain p) m r → Runs (.regwrite t p) s fun h =>
      Others m a h ∧ (h.ch m).hbm = c.hbm ∧ (h.ch m).core = c.core ∧ (h.ch m).nvm = c.nvm ∧ (h.ch m).st = c.st ∧ (h.ch m).img = c.img ∧
      -- the five summary bits of the error queue aside, which a record of this very packet may set again
      ((p.ack = true → c.roomOther = true) → ∀ x, x ∉ [Sticky.sumNote, .sumDegraded, .sumDoubt, .sumChannelStop, .sumDeviceStop] →
        (own x → (h.ch m).stuck x = (c.stuck x && c.fresh.contains (some x))) ∧ (¬own x → (h.ch m).stuck x = c.stuck x)) ∧
      (p.ack = false → (h.ch m).outq = c.outq) ∧
      (p.ack = true → c.roomOther = true → ∃ pkt, (h.ch m).outq = c.outq ++ [pkt] ∧ pkt.ring = 0 ∧
        pkt.body = .status 0 c.st c.reason p.reg.tag c.tick.k)) ∧
  (∀ (t : Nat) (ch : Ch) (addr v : Word) (s : State) (off : Nat), Awake s →
    let a := later s t
    placeOf addr.toNat = .channel ch off → inView off = false → off ≠ 0x90C → imFields off = 0 →
    Runs (.registerWrite t (.host ch) addr v) s fun h => Clears off v.toNat (a.ch ch) (h.ch ch) ∧ Only ch (fun _ => h.ch ch) a h) ∧
  (∀ (t : Nat) (ch : Ch) (addr v : Word) (s : State), Awake s →
    placeOf addr.toNat = .nowhere ∨ (∃ off, placeOf addr.toNat = .device off ∧ off ≠ 0x090 ∧ off ≠ 0x200) →
    Runs (.registerWrite t (.host ch) addr v) s fun h => h = later s t) ∧
  (∀ (t : Nat) (ch n : Ch) (addr v : Word) (s : State) (off : Nat), Awake s → placeOf addr.toNat = .channel n off → n ≠ ch →
    let a := later s t
    Runs (.registerWrite t (.host ch) addr v) s fun h => ∃ x, IsRec x (some ch) .degraded 0x49 (some (ring18 ch 0)) none ∧
      h = (a.modCh ch (Channel.putErr x)).modSig fun s => { s with log := logPut x s.log }) ∧
  (∀ (t : Nat) (ch : Ch) (addr v : Word) (s : State) (off old : Nat), Awake s →
    let a := later s t
    placeOf addr.toNat = .channel ch off → a.chWord ch false off = some old → inView off = false → off ≠ 0x90C → imFields off = 0 →
    (old ^^^ v.toNat) &&& roMask (.channel ch off) = 0 →
    Runs (.registerWrite t .mgmt addr v) s fun h =>
      Clears off v.toNat (a.ch ch) (h.ch ch) ∧ h = { a.modCh ch (fun _ => h.ch ch) with emitted := a.emitted ++ [.mgmt 0x11 0 .none] }) ∧
  (∀ (t : Nat) (ch : Ch) (addr v : Word) (s : State) (off : Nat), Awake s →
    let a := later s t
    placeOf addr.toNat = .channel ch off → (a.chWord ch true off).isSome = true → inView off = false →
    Runs (.registerWrite t (.host ch) addr v) s fun h => Others ch a h ∧ ∃ c, Clears off v.toNat (a.ch ch) c ∧ UpToQueue c (h.ch ch))

/-! ### Keys -/

/-- An accepted KEYROTATE: SCOPE 0 moves the session to its next key at once, or retires the previous key; SCOPE 1 stages the change of
the table's slots for the next boundary. An install's key is derived from the secret its ciphertext yields, and CONFIRM is that key's
(R269, R438, R439, R440, R442). -/
def Obligations.KeysRotate : Prop :=
  ∀ (t : Nat) (p : Packet) (ct : Kem) (wrong : Nat) (s : State) (m : Ch) (r : Ring),
    let a := later s t
    let c := a.ch m
    let u := a.session r.tenant
    let secret := if ct.toEk = u.ekD then ct.secret else wrong
    p.op = 10 →
    (p.rotate.scope = 0 → p.rotate.action = 0 → Passes a { plain p with kem := some (ct, wrong) } m r →
      Runs (.keyrotateSessionInstall t p ct wrong) s fun h =>
        (let g := (u.genCur + 1) % 4
         let key := Key.sessionNext a.dev.fuses.deviceId u.ss1 secret u.keyCur r.tenant g u.serial
         bytesAt p.payload 16 16 = key.confirm ∧
         h.session r.tenant = { u with genPrev := u.genCur, keyPrev := u.keyCur, prevLive := true, genCur := g, keyCur := key }) ∧
        (∀ n, n ≠ r.tenant → h.session n = a.session n) ∧
        (∀ n, ∀ x ∈ (h.ch n).rings, x.tenant = r.tenant → x.genUsed = 0) ∧
        (∀ n, (h.ch n).hbm = (a.ch n).hbm ∧ (h.ch n).core = (a.ch n).core ∧ (h.ch n).nvm = (a.ch n).nvm)) ∧
    (p.rotate.scope = 0 → p.rotate.action = 1 → Passes a (plain p) m r → Runs (.keyrotateSessionRetire t p) s fun h =>
      h.session r.tenant = { u with prevLive := false, keyPrev := .zeros } ∧ (∀ n, n ≠ r.tenant → h.session n = a.session n) ∧
      (∀ n, (h.ch n).hbm = (a.ch n).hbm ∧ (h.ch n).core = (a.ch n).core ∧ (h.ch n).nvm = (a.ch n).nvm)) ∧
    (p.rotate.scope = 1 → p.rotate.action = 0 → Passes a { plain p with kem := some (ct, wrong) } m r →
      Runs (.keyrotateTableInstall t p ct wrong) s fun h =>
        (let cur := ((c.tab p.rotate.target).staged.keyCur.map (·.2)).getD .zeros
         let key := Key.table a.dev.fuses.deviceId u.ss1 secret cur m.val p.rotate.target p.rotate.newGen u.serial
         bytesAt p.payload 16 16 = key.confirm ∧
         ((h.ch m).tab p.rotate.target).keyStaged = (c.tab p.rotate.target).keyStaged ++ [.install p.rotate.newGen key]) ∧
        ((h.ch m).tab p.rotate.target).keyCur = (c.tab p.rotate.target).keyCur ∧
        h.dev.signet.sessions = a.dev.signet.sessions ∧ Others m a h ∧ (h.ch m).hbm = c.hbm ∧ (h.ch m).core = c.core ∧ (h.ch m).nvm = c.nvm) ∧
    (p.rotate.scope = 1 → p.rotate.action = 1 → Passes a (plain p) m r → Runs (.keyrotateTableRetire t p) s fun h =>
      ((h.ch m).tab p.rotate.target).keyStaged = (c.tab p.rotate.target).keyStaged ++ [.retire] ∧
      ((h.ch m).tab p.rotate.target).keyCur = (c.tab p.rotate.target).keyCur ∧
      h.dev.signet.sessions = a.dev.signet.sessions ∧ Others m a h ∧ (h.ch m).hbm = c.hbm ∧ (h.ch m).core = c.core ∧ (h.ch m).nvm = c.nvm)

/-- An accepted NVMWRITE: the first of the session erases sector 0; data for sector 0 are held, not programmed; a fault-free erase and
program writes the rest, and without the erase flag bits are cleared only: a page that then reads back other than its data fails with
NVM_FAIL. HBM and Inkwells are as before (R477, R479). -/
def Obligations.NvmwriteProgramsFlash : Prop :=
  ∀ (t : Nat) (p : Packet) (s : State) (m : Ch) (r : Ring),
    let a := later s t
    let c := a.ch m
    let bs := bytesAt p.payload 64 (p.len - 64)
    let old := fun (x : Nat) => Cells.byte norDefault c.nvm.cells x
    let takes := p.nvmErase = true ∨ ∀ i, 4096 ≤ p.nvmOffset + i → i < bs.length → old (p.nvmOffset + i) &&& bs.getD i 0 = bs.getD i 0
    p.op = 11 → Passes a { plain p with badPages := [], eraseFails := false } m r → c.memWf = true → Runs (.nvmwrite t p [] false) s fun h =>
      (h.ch m).hbm = c.hbm ∧ (h.ch m).core = c.core ∧ Others m a h ∧ (h.ch m).nvm.erased = true ∧
      (p.nvmOffset = 0 → bs ≠ [] → (h.ch m).nvm.held = some (bs.take 4096)) ∧
      (p.nvmOffset ≠ 0 → (h.ch m).nvm.held = c.nvm.held) ∧
      (c.nvm.erased = false → ∀ x, x < 4096 → Cells.byte norDefault (h.ch m).nvm.cells x = 0xFF#8) ∧
      (∀ x, 4096 ≤ x → x < p.nvmOffset ∨ p.nvmOffset + bs.length ≤ x →
        Cells.byte norDefault (h.ch m).nvm.cells x = old x) ∧
      (takes → (h.ch m).nvm.failed = c.nvm.failed ∧ ∀ i, 4096 ≤ p.nvmOffset + i → i < bs.length →
        Cells.byte norDefault (h.ch m).nvm.cells (p.nvmOffset + i) = bs.getD i 0) ∧
      (¬takes → (h.ch m).nvm.failed = true)

/-! ### Membership, heartbeats and waiting -/

/-- MEMBERSHIP replaces epoch, members and position, changes nothing when it repeats them, and fences a channel it removes, which stays
FENCED without its reservation where it was to return (R429); HEARTBEAT is the last one accepted, and the frame in progress is doubted where
it comes after a lapse (R91, R426). -/
def Obligations.MembershipAndHeartbeat : Prop :=
  ∀ (t : Nat) (p : Packet) (s : State) (m : Ch) (r : Ring),
    let a := later s t
    let c := a.ch m
    Passes a (plain p) m r →
    (p.op = 12 → Runs (.membership t p) s fun h =>
      Others m a h ∧ (h.ch m).hbm = c.hbm ∧ (h.ch m).core = c.core ∧ (h.ch m).nvm = c.nvm ∧
      (c.memberCase p.member = .replace →
        (h.ch m).peer.epoch = p.member.epoch ∧ (h.ch m).peer.members = p.member.members ∧ (h.ch m).peer.position = some p.member.position ∧
        (h.ch m).st = c.st ∧ (c.peer.seen.toNat ≤ p.member.epoch.toNat → (h.ch m).peer.grace = none)) ∧
      (c.memberCase p.member = .same → (h.ch m).peer = c.peer ∧ (h.ch m).st = c.st) ∧
      (c.memberCase p.member = .removed → c.st = .fenced → (h.ch m).st = .fenced ∧ (h.ch m).resv = none ∧ (h.ch m).peer.grace = none) ∧
      (c.memberCase p.member = .removed → c.st ≠ .fenced →
        (h.ch m).st = .fenced ∧ (h.ch m).reason = 0xCF#8 ∧ (h.ch m).peer.winOpen = [] ∧ (h.ch m).resv = none ∧
        (h.ch m).pins.ok = false ∧ (h.ch m).pins.margin = true)) ∧
    (p.op = 13 → Runs (.heartbeat t p) s fun h =>
      (h.ch m).hbLast = some a.now ∧ (h.ch m).hbSinceReady = (c.hbSinceReady || c.st == .ready) ∧ (h.ch m).env.hostSeen = wordAt p.payload 4 ∧
      (c.st.ticks = true → a.hbLapse m ≠ none → (h.ch m).doubts .heartbeat = true ∧
        (c.grd.hbRaised = false → ∃ x ∈ h.dev.signet.log, x.code = 0x98#8 ∧ x.channel = some m)) ∧
      (h.ch m).grd.hbRaised = false ∧ (h.ch m).st = c.st ∧ (h.ch m).hbm = c.hbm ∧ (h.ch m).core = c.core ∧ (h.ch m).nvm = c.nvm ∧ Others m a h)

/-- A fetched context enters the cache of 1,024; a held write begins to apply, and when its last granule lands its bytes are in HBM, the
entry is free, and no other byte changed (R79, R237). -/
def Obligations.WaitingPacketsGoOn : Prop :=
  ∀ (t : Nat) (ch : Ch) (s : State),
    let a := later s t
    let c := a.ch ch
    (∀ ring, c.behind ring = true → ring ∉ c.ctx → Runs (.ringContextFetch t ch ring) s fun h =>
      ring ∈ (h.ch ch).ctx ∧ (h.ch ch).ctx.length ≤ max 1024 c.ctx.length) ∧
    (∀ id w, c.writeOf id = some w → c.mayApply w = true → (∀ k, (a.ch k).ctxWait = []) →
      Runs (.hostWriteApply t ch id) s (Only ch (Channel.applyWrite id) a)) ∧
    (∀ id w, c.writeOf id = some w → c.mayLand w = true → (∀ k, (a.ch k).ctxWait = []) → c.memWf = true →
      Runs (.hostWriteLanded t ch id) s fun h =>
      (h.ch ch).writes.map (·.id) = (c.writes.filter (·.id != id)).map (·.id) ∧
      Cells.read ramDefault (h.ch ch).hbm w.addr w.bytes.length = w.bytes ∧
      (∀ x, x < w.addr ∨ w.addr + w.bytes.length ≤ x → Cells.byte ramDefault (h.ch ch).hbm x = Cells.byte ramDefault c.hbm x) ∧
      (∀ j : Nat, (coreMem (h.ch ch) j).ink = (coreMem c j).ink) ∧ (h.ch ch).nvm = c.nvm ∧ Local ch a h)

/-- A hairpin packet that passes its checks takes the target ring's next sequence and its place among the host-side writes; nothing
crosses UCIe (R106, R107). -/
def Obligations.HairpinDelivers : Prop :=
  ∀ (t : Nat) (src m : Ch) (s : State) (x : HairPkt) (rest : List HairPkt) (r : Ring),
    let a := later s t
    let c := a.ch m
    let n := x.target % 65536
    (a.ch src).hairQ = x :: rest → (Fin.ofNat 4 (x.target / 65536) : Ch) = m → n ∈ c.ctx → c.ringHeld n = false → c.behind n = false →
    c.inRing n = some r → r.num = n → a.hairOk src m x r = true → c.inWindow r x.addr x.bytes.length = true → Runs (.hairpin t src) s fun h =>
      (h.ch src).hairQ = rest ∧ (∃ y, (h.ch m).ring n = some y ∧ y.nextSeq = r.nextSeq + 1) ∧
      (h.ch m).writes.map (·.id) = c.writes.map (·.id) ++ [c.nextWrite] ∧
      (∃ w : HostWrite, (h.ch m).writes.getLast? = some w ∧ w.ring = n ∧ w.addr = x.addr ∧ w.bytes = x.bytes ∧ w.bad = x.bad) ∧
      (∀ k, k ≠ m → k ≠ src → h.ch k = a.ch k) ∧ h.dev = a.dev ∧ h.emitted = a.emitted ∧
      (∀ k, (h.ch k).hbm = (a.ch k).hbm ∧ (h.ch k).core = (a.ch k).core ∧ (h.ch k).nvm = (a.ch k).nvm)

/-! ### Control and power -/

/-- A write of 1 to LATENT ends a standing alarm at the next boundary, but not one of the same cycle (R10); FENCE_REQ fences each named
unit at once (R364, R383), doubts the frame in progress and takes a running channel to MARGIN at once: the last two are the model's
reading of R383 (log 23). While PORST_N is low, or under test, neither does anything. -/
def Obligations.ControlsLatentAndFence : Prop :=
  ∀ (t : Nat) (ch : Ch) (s : State),
    (¬Awake s → Runs (.latentClear t ch) s (fun h => h = later s t) ∧ ∀ mask, Runs (.fenceReq t ch mask) s fun h => h = later s t) ∧
    (Awake s →
    let a := later s t
    let c := a.ch ch
    (c.mrg.latent = true → Runs (.latentClear t ch) s (Only ch (fun c =>
      { c with mrg := { c.mrg with latentClear := c.mrg.latentClear || !c.fresh.contains none } }) a)) ∧
    (∀ mask : BitVec 9, Runs (.fenceReq t ch mask) s fun h =>
      (∀ u, u < 9 → (u ∈ (h.ch ch).fenced ↔ u ∈ c.fenced ∨ mask.getLsbD u = true)) ∧
      ((∃ u, u < 9 ∧ mask.getLsbD u = true ∧ u ∉ c.fenced) →
        (h.ch ch).doubtP &&& Doubt.latentFault.mask = Doubt.latentFault.mask ∧ (c.st = .run → (h.ch ch).st = .margin)) ∧
      (c.st ≠ .run → (h.ch ch).st = c.st) ∧ (h.ch ch).duct.done = c.duct.done ∧ (h.ch ch).tick = c.tick ∧
      (c.memWf = true → MemoryStands c (h.ch ch)) ∧ Local ch a h))

/-- The device cap: a write between 120 W and 265 W that holds the reservations in force is taken; one below them answers 3, one out of
range answers 4, the cap stands, and MGMT_REFUSED is raised under its rate limit (R21, R484, R452). While PORST_N is low none is taken (R457). -/
def Obligations.PowerCapIsGuarded : Prop :=
  ∀ (t dw : Nat) (sg : Signed) (s : State),
    let a := later s t
    let due := fun (a : Hw) => a.dev.signet.lastRefused.all fun x => decide (x + 100000000 ≤ a.now)
    let refused := fun (cmd st : Nat) (a h : Hw) =>
      (due a = true → FiledDev .note 0xD3 (some cmd) (some st) (fun d => { d with signet := { d.signet with lastRefused := some a.now } }) id a h) ∧
      (due a = false → h = a)
    let took := fun (a h : Hw) => h = { a with dev := { a.dev with capDw := dw } }
    let w := fun (st : Nat) => ({ a with emitted := a.emitted ++ [.mgmt 0x11 st .none] } : Hw)
    (Awake s → (1200 ≤ dw ∧ dw ≤ 2650 ∧ a.reserved ≤ dw → Runs (.pwrDevCap t dw) s (took (w 0))) ∧
     (1200 ≤ dw ∧ dw ≤ 2650 ∧ dw < a.reserved → Runs (.pwrDevCap t dw) s (refused 0x11 3 (w 3))) ∧
     (dw < 1200 ∨ 2650 < dw → Runs (.pwrDevCap t dw) s (refused 0x11 4 (w 4)))) ∧
    (s.hw.dev.porstN = false → Runs (.pwrDevCap t dw) s fun h => h = a) ∧
    (Accepts a sg false →
      let b := fun (st : Nat) => ({ counted a sg with emitted := a.emitted ++ [.mgmt 0x12 st .none] } : Hw)
      (1200 ≤ dw ∧ dw ≤ 2650 ∧ a.reserved ≤ dw → Runs (.setPowerCap t sg dw) s (took (b 0))) ∧
      (1200 ≤ dw ∧ dw ≤ 2650 ∧ dw < a.reserved → Runs (.setPowerCap t sg dw) s (refused 0x12 3 (b 3))) ∧
      (dw < 1200 ∨ 2650 < dw → Runs (.setPowerCap t sg dw) s (refused 0x12 4 (b 4))))

/-! ### Outbound packets and error records -/

/-- A record arriving at the error queue: it is kept below 32 entries; at a full queue exactly one record is discarded, the arriving one
when it is no more severe than the least severe entry of 1 to 31, else the newest of that severity. Entry 0 is never discarded, the
count of discards goes into the next record kept, and the summary bit is set either way (R376). -/
def Obligations.ErrorQueueKeepsTheWorst : Prop :=
  ∀ (c : Channel) (r : ErrRec), c.errq.length ≤ 32 →
    let h := c.putErr r
    h.sticky = (c.stick r.severity.summary).sticky ∧ h.errq.length ≤ 32 ∧
    (c.errq.length < 32 → ∃ e, h.errq = c.errq ++ [e] ∧ e.record = { r with dropped := c.errSinceKept } ∧ h.errSinceKept = 0 ∧ h.ctr = c.ctr) ∧
    (c.errq.length = 32 → h.errq[0]? = c.errq[0]? ∧ h.ctr = (c.bump .errDropped 1).ctr ∧
      ((∀ i e, 1 ≤ i → c.errq[i]? = some e → r.severity.toNat ≤ e.record.severity.toNat) →
        h.errq = c.errq ∧ h.errSinceKept = min (c.errSinceKept + 1) (2 ^ 32 - 1)) ∧
      (∀ i e, 1 ≤ i → c.errq[i]? = some e → e.record.severity.toNat < r.severity.toNat →
        (∀ j f, 1 ≤ j → c.errq[j]? = some f → e.record.severity.toNat ≤ f.record.severity.toNat) →
        (∀ j f, i < j → c.errq[j]? = some f → e.record.severity.toNat < f.record.severity.toNat) →
        ∃ k, h.errq = c.errq.eraseIdx i ++ [k] ∧ k.record = { r with dropped := min (c.errSinceKept + 1) (2 ^ 32 - 1) } ∧ h.errSinceKept = 0))

/-- The outbound queue holds at most 64 packets, one entry of which is for ENVELOPE packets only; a new ENVELOPE always enters, in place
of the oldest one when the queue is full (R105). -/
def Obligations.OutboundQueueIsBounded : Prop :=
  ∀ (a : Hw) (m : Ch) (p : OutPkt),
    let c := a.ch m
    let h := a.outPush m p
    c.outq.length ≤ 64 → c.outq.length - c.envQueued ≤ 63 →
    (h.ch m).outq.length ≤ 64 ∧ (h.ch m).outq.length - (h.ch m).envQueued ≤ 63 ∧ Local m a h ∧
    (p.body.isEnv = true → ∃ q, (h.ch m).outq = q ++ [p]) ∧
    (p.body.isEnv = true → c.outq.length = 64 → ∃ i e, c.outq[i]? = some e ∧ e.body.isEnv = true ∧
      (∀ j f, j < i → c.outq[j]? = some f → f.body.isEnv = false) ∧ (h.ch m).outq = c.outq.eraseIdx i ++ [p]) ∧
    (c.roomOther = true → (h.ch m).outq = c.outq ++ [p])

/-- With credits returned, the packet chosen leaves its queue, for whose entry the packets that waited follow (that they follow at once,
unsent records first, then TAILFETCH requests, then exports, is the model's reading, log 17), and crosses UCIe sealed
under its ring's current generation: the session's key or, on ring 0 in MAINT, KM; key, nonce, header, tag and encrypted payload are as
R433 lays them out. Its ring's next sequence advances. Without a packet that may cross nothing leaves (R80, R83, R433, R436, R453). -/
def Obligations.OutboundSendSealsOnePacket : Prop :=
  ∀ (t : Nat) (s : State),
    let a := (later s t).nonceHeld
    s.hw.dev.porstN = true → s.hw.dev.link.down = false →
    (∀ x, a.nextOut = some x → Runs (.outboundSend t) s fun h =>
      let c := a.ch x.m
      let r := x.ring
      let km := c.st = .maint ∧ r.num = 0
      let gen := if km then 0 else (a.session r.tenant).genCur
      let session := if km then (c.maint.map (·.session)).getD 0 else (a.session r.tenant).serial
      let key := (a.keyOf x.m r.num r.tenant gen).getD .zeros
      let captime := x.pkt.reports.getD (compact c.local)
      let body := x.pkt.body.payload
      let header := x.pkt.header x.ring18 r.tenant gen r.sendSeq captime
      let nonce := leBytes 3 (x.ring18 % 2 ^ 18 + 2 ^ 23) ++ leBytes 1 (gen % 4) ++ leBytes 4 r.sendSeq.toNat ++ leBytes 4 session
      Others x.m a h ∧
      h.emitted = a.emitted ++ [.packet x.m r.sendSeq gen session captime x.pkt body key (sealPacket key nonce header body)] ∧
      (let b := a.modCh x.m fun c => ((({ c with outq := c.outq.eraseIdx x.idx } : Channel).bump .perfHostOut x.pkt.body.len).modRing r.num
         (Ring.sent (compact c.local))).left x.pkt.body
       (b.ch x.m).outq = c.outq.eraseIdx x.idx ∧ (h.ch x.m).outq = ((b.refill x.m).ch x.m).outq) ∧
      ((∀ e ∈ c.errq, e.carry ≠ .unsent) → c.map.unsentFetch = [] → (∀ u ∈ c.map.tables, u.exports = []) →
        (h.ch x.m).outq = c.outq.eraseIdx x.idx) ∧
      (h.ch x.m).hbm = c.hbm ∧ (h.ch x.m).core = c.core ∧ (h.ch x.m).nvm = c.nvm ∧ (h.ch x.m).st = c.st ∧
      ∀ y, c.ring r.num = some y → ∃ z, (h.ch x.m).ring r.num = some z ∧ z.genUsed = y.genUsed + 1 ∧
        (y.out = true → z.nextSeq = y.nextSeq + 1) ∧ (y.out = false → z.outSeq = y.outSeq + 1 ∧ z.nextSeq = y.nextSeq)) ∧
    (a.nextOut = none → Runs (.outboundSend t) s fun h => h = a)

/-- The Scribe handles the waiting record of highest severity: it goes into an ERROR packet on ring 0 when one may be formed and is unsent
otherwise; CHANNEL_STOP abandons the strokes and stops at the next boundary, or at once where the channel has none (log 12) or has left READY
for RUN in this very cycle, unless a transition of the same cycle goes before it (R463; log 21), and its record is placed as any other (R374,
R375). An ENTER_MAINT of the cycle that it drops raises MGMT_REFUSED (R452). -/
def Obligations.ErrorHandleActs : Prop :=
  ∀ (t : Nat) (ch : Ch) (s : State) (e : ErrEntry),
    let a := later s t
    let c := a.ch ch
    let stops := e.record.severity = .channelStop ∧ c.st ≠ .off ∧ c.st ≠ .stopped ∧ c.outranked a.now 4 = false
    let status : OutPkt := { body := .status 1 .stopped e.record.code 0 c.tick.k, ring := 0, frametag := BitVec.ofNat 32 c.tick.k, reports := none, eom := true }
    -- with the commands that the stop drops refused, and a RUN of this cycle dropped
    let b := a.dropDue ch 4
    let x := b.ch ch
    let y := if c.ranNow a.now then x.unrun else x
    c.nextErr = some e →
    (e ∈ c.errq ∧ e.carry = .waiting ∧ ∀ x ∈ c.errq, x.carry = .waiting → x.record.severity.toNat ≤ e.record.severity.toNat) ∧
    (¬stops → Runs (.errorHandle t ch) s fun h =>
      Placed e c.outq c (h.ch ch) ∧ Only ch (fun c => { c with outq := (h.ch ch).outq, errq := (h.ch ch).errq }) a h) ∧
    (stops → c.tick.ticking = true → c.st.ticks = true → c.ranNow a.now = false → Runs (.errorHandle t ch) s fun h =>
      Placed e x.outq x (h.ch ch) ∧
      (h.ch ch).stopPending = some (c.stopPending.getD e.record.code) ∧ (h.ch ch).duct.flight = [] ∧ (h.ch ch).st = c.st ∧ Local ch b h) ∧
    (∀ d, d ∈ a.due → d.below ch 4 = true → a.dev.signet.lastRefused = none →
      ∃ r ∈ b.dev.signet.logDevice, r.severity = .note ∧ r.code = 0xD3#8 ∧ r.channel = none ∧ r.detail1 = some 5#32) ∧
    (stops → c.tick.ticking = false ∨ c.st.ticks = false ∨ c.ranNow a.now = true → Runs (.errorHandle t ch) s fun h =>
      (h.canStatus ch = false → Placed e y.outq y (h.ch ch)) ∧
      (h.canStatus ch = true → y.roomOther = true → Placed e (y.outq ++ [status]) y (h.ch ch)) ∧
      (h.ch ch).st = .stopped ∧ (h.ch ch).reason = e.record.code ∧ (h.ch ch).pins = { ok := false, margin := false, stop := true } ∧
      (h.ch ch).duct.flight = [] ∧ (h.ch ch).stopPending = c.stopPending ∧ Local ch b h)

/-! ### Management -/

/-- GET_CERT, GET_REPORT and GET_COUNTER answer and change nothing else but the free-value counter (R448, R451). -/
def Obligations.AttestationReads : Prop :=
  ∀ (t : Nat) (s : State), Awake s →
    let a := later s t
    Runs (.getCounter t) s (fun h => h = { a with emitted := a.emitted ++ [.mgmt 0x03 0 (.counter s.hw.dev.signet.mgCounter)] }) ∧
    (∀ part, Runs (.getCert t part) s fun h => ∃ st data, h = { a with emitted := a.emitted ++ [.mgmt 0x01 st data] } ∧
      (st = 4 ↔ Config.certLen ≤ 1024 * part) ∧ (st = 0 ↔ 1024 * part < Config.certLen) ∧
      (st = 0 → ∃ b, data = .bytes b ∧ b.length = min 1024 (Config.certLen - 1024 * part))) ∧
    (∀ (tenant : Nat) (nonce : List Byte), s.hw.dev.signet.ready = true → nonce.length = 32 → tenant < 8 ∨ tenant = 0xFF →
      Runs (.getReport t tenant nonce) s fun h => ∃ tail : List Byte, tail.length = 1288 ∧
        h = { a with
          emitted := a.emitted ++ [.mgmt 0x02 0 (.bytes (a.reportBody (if tenant < 8 then some tenant else none) nonce ++ tail))]
          freeCtr := a.freeCtr + 1 })

/-- A signed command is accepted only with a verified signature of the fused authority and a COUNTER above MG_COUNTER, which then takes its
value; each is answered once, and a refused one changes neither MG_COUNTER nor any register, memory, fuse or session (R450). A RESET_CHANNEL
or LEAVE_MAINT may besides drop an ENTER_MAINT of the same cycle, whose response then carries STATUS 5 (R463, log 21). -/
def Obligations.SignedCommandsCount : Prop :=
  ∀ (i : Instr) (t cmd : Nat) (sg : Signed) (open_ : Bool) (s : State), signedOf i = some (t, cmd, sg, open_) → Awake s →
    let a := later s t
    let no := fun (st : Nat) (h : Hw) =>
      Answers cmd st .none a h ∧ (∀ m, UpToQueue (a.ch m) (h.ch m)) ∧
      h.dev = { a.dev with signet := { a.dev.signet with logDevice := h.dev.signet.logDevice, lastRefused := h.dev.signet.lastRefused } }
    (s.hw.dev.signet.ready = false → Runs i s (no 5)) ∧
    (s.hw.dev.signet.ready = true → sg.sigOk = false → Runs i s (no 1)) ∧
    (s.hw.dev.signet.ready = true → (∃ d, s.hw.dev.fuses.authority = some d ∧ Shake.shake256 32 sg.authority ≠ d) → Runs i s (no 1)) ∧
    (s.hw.dev.signet.ready = true → s.hw.dev.fuses.authority = none → open_ = false → Runs i s (no 1)) ∧
    (s.hw.dev.signet.ready = true → sg.sigOk = true → sg.counter ≤ s.hw.dev.signet.mgCounter →
      (∀ d, s.hw.dev.fuses.authority = some d → Shake.shake256 32 sg.authority = d) → (s.hw.dev.fuses.authority = none → open_ = true) →
      Runs i s (no 2)) ∧
    (Accepts a sg open_ → Runs i s fun h =>
      (∃ st data, Answers cmd st data a h ∨ ∃ m : Ch, (i = .resetChannel t sg m.val ∨ i = .leaveMaint t sg m.val) ∧ Answers cmd st data (a.undoDue m 3) h) ∧ ((∀ x addr ws, i ≠ .writeReg t x addr ws) → h.dev.signet.mgCounter = sg.counter))

/-- READ_REG answers up to 64 exact words, counters as they stand and unlatched, and READ_ERRORS the Signet's log, changing MG_COUNTER
and what R501 counts of HBM reads only; WRITE_REG applies MG fields and W1C bits and answers 3 when a word would change any other field, of which reserved bits are none
(R451, R452, R454). Words of one uncached descriptor count its 64 bytes of HBM, once for the command (R499, R501; log 18). -/
def Obligations.ManagementRegisters : Prop :=
  ∀ (t : Nat) (sg : Signed) (s : State),
    let a := later s t
    Accepts a sg false →
    Runs (.readErrors t sg) s (fun h =>
      h = { counted a sg with emitted := a.emitted ++ [.mgmt 0x14 0 (.records (a.dev.signet.log ++ a.dev.signet.logDevice))] }) ∧
    (∀ (addr : Word) (count : Nat), addr.toNat % 4 = 0 → 1 ≤ count → count ≤ 64 → Runs (.readReg t sg addr count) s fun h =>
      let ws := (List.range count).map fun i => BitVec.ofNat 32 (((counted a sg).word none (placeOf (addr.toNat + 4 * i))).getD 0)
      h = { (counted a sg).viewReads (placesFrom addr.toNat count) with emitted := a.emitted ++ [.mgmt 0x10 0 (.words ws)] } ∧
      (∀ m : Ch, (∀ i off, i < count → placeOf (addr.toNat + 4 * i) = .channel m off → inView off = false) → h.ch m = a.ch m) ∧
      (∀ (m : Ch) n, n < 65536 → (a.ch m).uncached n = true →
        (∀ i, i < count → ∃ off, placeOf (addr.toNat + 4 * i) = .channel m off ∧ 0x400000 + 64 * n ≤ off ∧ off < 0x400000 + 64 * n + 64) →
        h.ch m = (a.ch m).bump .perfHbmRd 64) ∧
      (∀ (m : Ch) i off x, i < count → placeOf (addr.toNat + 4 * i) = .channel m off → ctrAt off = some x →
        ws.getD i 0 = BitVec.ofNat 32 ((a.ch m).count x)) ∧
      (∀ (m : Ch) i, i < count → placeOf (addr.toNat + 4 * i) = .channel m 0x904 → ws.getD i 0 = (a.ch m).doubtP) ∧
      (∀ i, i < count → placeOf (addr.toNat + 4 * i) = .device 0x090 → ws.getD i 0 = BitVec.ofNat 32 sg.counter)) ∧
    (∀ (addr : Word) (count : Nat), addr.toNat % 4 ≠ 0 ∨ count = 0 ∨ 64 < count → Runs (.readReg t sg addr count) s fun h =>
      Answers 0x10 4 .none a h) ∧
    (∀ (addr : Word) (m : Ch) (off : Nat) (v : Word) (old : Nat), placeOf addr.toNat = .channel m off → addr.toNat % 4 = 0 →
      inView off = false → off ≠ 0x90C → (counted a sg).chWord m false off = some old → Runs (.writeReg t sg addr [v]) s fun h =>
        let same := (old ^^^ v.toNat) &&& roMask (.channel m off) = 0
        (same → imFields off = 0 → Clears off v.toNat (a.ch m) (h.ch m) ∧
          h = { (counted a sg).modCh m (fun _ => h.ch m) with emitted := a.emitted ++ [.mgmt 0x11 0 .none] }) ∧
        (same → Answers 0x11 0 .none a h) ∧ (¬same → Answers 0x11 3 .none a h) ∧
        (∀ n, n ≠ m → UpToQueue (a.ch n) (h.ch n)) ∧ (∃ c, Clears off v.toNat (a.ch m) c ∧ UpToQueue c (h.ch m)) ∧
        -- a counter, of which every bit counts; CH_STATE; and words whose defined bits are all W1C
        (∀ x, ctrAt off = some x → old < 2 ^ 32 → v.toNat ≠ (a.ch m).count x → Answers 0x11 3 .none a h) ∧
        (off = 0x010 → v.toNat % 16 ≠ (a.ch m).st.code → Answers 0x11 3 .none a h) ∧
        (off = 0x410 ∨ off = 0x508 ∨ off = 0x560 ∨ off = 0x700 → Answers 0x11 0 .none a h)) ∧
    (∀ (v : Word), Runs (.writeReg t sg 0x90#32 [v]) s fun h =>
      h = { counted a { sg with counter := v.toNat } with emitted := a.emitted ++ [.mgmt 0x11 0 .none] })

/-- No management command that reads answers with memory contents: two devices that differ only in Inkwell, Blotter, Reservoir, HBM, input
and held packet bytes give the same answers (R452). -/
def Obligations.ManagementReadsNoMemory : Prop :=
  let hide := fun (c : Channel) => ({ c with
    hbm := [], hbmPoison := [], input := [], writes := [], hairQ := [], ctxWait := [],
    core := c.core.map fun k => { k with ink := [], poison := [], blotter := [], rsv := [], rsvReq := 0 } } : Channel)
  ∀ (i : Instr) (s u : State),
    (∃ t, (∃ part, i = .getCert t part) ∨ (∃ tn nonce, i = .getReport t tn nonce) ∨ i = .getCounter t ∨
      (∃ sg addr n, i = .readReg t sg addr n) ∨ (∃ sg, i = .readErrors t sg)) →
    s.hw.dev = u.hw.dev → s.hw.emitted = u.hw.emitted → s.hw.freeCtr = u.hw.freeCtr → s.hw.now = u.hw.now →
    (∀ m, hide (s.hw.ch m) = hide (u.hw.ch m)) →
    ∀ s' u', exec i s = .next s' → exec i u = .next u' → s'.hw.emitted = u'.hw.emitted

/-- RESET_CHANNEL, and LEAVE_MAINT from MAINT, restart the channel in BOOT: queues, rings and windows gone, reservation and KM released,
training kept; sessions and every other channel stay. A channel that is not in MAINT answers LEAVE_MAINT with 3 and stays (R460, R464); a
command that a transition of the same cycle outranks answers 5, also an ENTER_MAINT that a reset of the same cycle drops, which resets the
channel as it was before it (R463, log 21). Out of MAINT the held sector 0 is programmed: bytes 8 to
4,095 and, once they read back, MAGIC; not where NVM_FAIL occurred (R478). -/
def Obligations.ChannelResetRestarts : Prop :=
  ∀ (t : Nat) (sg : Signed) (s : State) (m : Ch),
    let a := later s t
    let c := a.ch m
    let restarted := fun (cmd : Nat) (b h : Hw) =>
      let c := b.ch m
      (h.ch m).st = .boot ∧ (h.ch m).reason = 0#8 ∧ (h.ch m).pins = { ok := false, margin := false, stop := true } ∧
      (h.ch m).resv = none ∧ (h.ch m).maint = none ∧ (h.ch m).rings = [] ∧ (h.ch m).ringsLoaded = false ∧ (h.ch m).outq = [] ∧
      (h.ch m).duct.flight = [] ∧ (h.ch m).peer.winOpen = [] ∧ (h.ch m).peer.east.rx = [] ∧ (h.ch m).peer.west.rx = [] ∧
      (h.ch m).boot.hbm = c.boot.hbm ∧ (h.ch m).boot.verified = false ∧ (h.ch m).map.tables = [] ∧ (c.ctxWait = [] → (h.ch m).errq = []) ∧
      (c.st = .off → (h.ch m).local = 0 ∧ (h.ch m).tb.running = true) ∧
      Others m b h ∧ h.dev.signet.sessions = a.dev.signet.sessions ∧ h.dev.fuses = a.dev.fuses ∧ Answers cmd 0 .none b h
    let flash := fun (c : Channel) (h : Hw) => (h.ch m).nvm.held = none ∧
      (c.nvm.held = none ∨ c.nvm.failed = true → (h.ch m).nvm.cells = c.nvm.cells) ∧
      (∀ bs, c.nvm.held = some bs → bs.length = 4096 → c.nvm.failed = false → c.memWf = true →
        (∀ x, 4096 ≤ x → Cells.byte norDefault (h.ch m).nvm.cells x = Cells.byte norDefault c.nvm.cells x) ∧
        ((∀ x, x < 4096 → Cells.byte norDefault c.nvm.cells x = 0xFF#8) → (∀ k, k < 16 → 256 * k ∉ c.nvm.badHeld) →
          ∀ x, x < 4096 → Cells.byte norDefault (h.ch m).nvm.cells x = bs.getD x 0) ∧
        ((∃ k, k < 16 ∧ 256 * k ∈ c.nvm.badHeld) → ∀ x, x < 8 →
          Cells.byte norDefault (h.ch m).nvm.cells x = Cells.byte norDefault c.nvm.cells x))
    Accepts a sg false → (∀ k, k ≠ m → (a.ch k).released = []) →
    let b := a.undoDue m 3
    let cells := fun (h : Hw) => ((b.ch m).st ≠ .maint → (h.ch m).nvm.cells = (b.ch m).nvm.cells) ∧ ((b.ch m).st = .maint → flash (b.ch m) h)
    ((∀ d ∈ a.due, d.below m 3 = false) → b = a) ∧
    (a.dev.deviceStop = false → c.outranked a.now 3 = false → Runs (.resetChannel t sg m.val) s fun h => restarted 0x13 b h ∧ cells h) ∧
    (a.dev.deviceStop = false → c.outranked a.now 3 = false → c.st = .maint → Runs (.leaveMaint t sg m.val) s fun h => restarted 0x16 b h ∧ cells h) ∧
    (c.outranked a.now 3 = true → Runs (.resetChannel t sg m.val) s fun h => Answers 0x13 5 .none a h ∧ ∀ k, UpToQueue (a.ch k) (h.ch k)) ∧
    (c.outranked a.now 3 = true → Runs (.leaveMaint t sg m.val) s fun h => Answers 0x16 5 .none a h ∧ ∀ k, UpToQueue (a.ch k) (h.ch k)) ∧
    (c.outranked a.now 3 = false → c.st ≠ .maint → Runs (.leaveMaint t sg m.val) s fun h =>
      Answers 0x16 3 .none a h ∧ ∀ k, UpToQueue (a.ch k) (h.ch k))

/-- ENTER_MAINT opens the maintenance session: the next SESSION and KM, the state MAINT at once with its pins, strokes abandoned, the
built-in ring 0 with what ring 0 counted before, the update of the xSPI memory begun anew; in any other state it answers 3 (R453, R477),
and 5 where a transition of the same cycle goes before, a CHANNEL_STOP that is due among them (R463, log 21). -/
def Obligations.EnterMaintOpensTheSession : Prop :=
  ∀ (t tenant ekM : Nat) (sg : Signed) (s : State) (m : Ch),
    let a := later s t
    let c := a.ch m
    let serial := (a.dev.signet.sessionCtr + 1) % 2 ^ 32
    Accepts a sg false → tenant < 8 →
    (a.dev.deviceStop = false → c.outranked a.now 5 = false → c.st.mayMaint = true → c.stopDue a.now = false → (∀ k, (a.ch k).ctxWait = []) →
      Runs (.enterMaint t sg m.val tenant ekM) s fun h =>
      (h.ch m).st = .maint ∧ (h.ch m).pins = { ok := false, margin := false, stop := true } ∧ (h.ch m).duct.flight = [] ∧
      (h.ch m).maint = some { active := true, tenant := tenant, key := .maint a.dev.fuses.deviceId a.dev.signet.fresh m.val serial, session := serial } ∧
      ((h.ch m).ring 0).map (fun r => (r.enabled, r.out, r.bidir, r.tenant, r.opmask)) = some (true, false, true, tenant, 0x2980#32) ∧
      ((h.ch m).ring 0).map (fun r => (r.accepted, r.discarded, r.gaps)) =
        some ((c.oldRing0.map fun r => (r.accepted, r.discarded, r.gaps)).getD (0, 0, 0)) ∧
      (h.ch m).nvm = { c.nvm with held := none, badHeld := [], erased := false, failed := false } ∧ (h.ch m).resv = none ∧
      h.dev.signet.sessionCtr = serial ∧ h.dev.signet.sessions = a.dev.signet.sessions ∧
      (∀ k, k ≠ m → UpToQueue (a.ch k) (h.ch k)) ∧ Answers 0x15 0 (.maint { toEk := ekM, secret := a.dev.signet.fresh } serial) a h) ∧
    (c.outranked a.now 5 = false → c.st.mayMaint = false → Runs (.enterMaint t sg m.val tenant ekM) s fun h =>
      Answers 0x15 3 .none a h ∧ ∀ k, UpToQueue (a.ch k) (h.ch k)) ∧
    (c.outranked a.now 5 = true ∨ a.dev.deviceStop = false ∧ c.st.mayMaint = true ∧ c.stopDue a.now = true → Runs (.enterMaint t sg m.val tenant ekM) s fun h =>
      Answers 0x15 5 .none a h ∧ ∀ k, UpToQueue (a.ch k) (h.ch k))

/-- RENEW_SESSION opens the tenant's next session, with K_0 as generation 0, and erases its keys, the table keys of its channels too (R437,
R438, R443; the secret is a number, log 3); PROVISION_OWNER and REVOKE_OWNER fuse a slot once, under the conditions of the fuses (R446). -/
def Obligations.SessionsAndFuses : Prop :=
  ∀ (t : Nat) (sg : Signed) (s : State),
    let a := later s t
    (∀ dig : List Byte, dig.length = 32 → Accepts a sg true →
      (a.dev.fuses.authority = none → Runs (.provisionOwner t sg 4 dig) s fun h =>
        h.dev.fuses = { a.dev.fuses with authority := some dig } ∧ (∀ m, UpToQueue (a.ch m) (h.ch m)) ∧ Answers 0x18 0 .none a h) ∧
      (a.dev.fuses.authority ≠ none → Runs (.provisionOwner t sg 4 dig) s fun h =>
        h.dev.fuses = a.dev.fuses ∧ Answers 0x18 3 .none a h)) ∧
    (Accepts a sg false →
    (∀ tenant, tenant < 8 → (a.session tenant).isOpen = true → Runs (.renewSession t sg tenant) s fun h =>
      let u := h.session tenant
      u.isOpen = true ∧ u.serial = (a.dev.signet.sessionCtr + 1) % 2 ^ 32 ∧ u.genCur = 0 ∧ u.prevLive = false ∧ u.ekT = (a.session tenant).ekT ∧
      u.keyCur = .session a.dev.fuses.deviceId (a.dev.signet.fresh + 1) tenant u.serial ∧ (∀ n, n ≠ tenant → h.session n = a.session n) ∧
      (∀ m, ∀ r ∈ (h.ch m).rings, r.tenant = tenant → r.genUsed = 0) ∧
      (∀ m, (a.ch m).img.tenant = some tenant → ∀ x ∈ (h.ch m).map.tables, x.keyCur = none ∧ x.keyPrev = none) ∧
      Answers 0x17 0 .none a h) ∧
    (∀ (slot : Nat) (dig : List Byte) (o : OwnerSlot), slot ≠ 4 → dig.length = 32 → a.dev.fuses.slots[slot]? = some o →
      (o.provisioned = false → Runs (.provisionOwner t sg slot dig) s fun h =>
        h.dev.fuses = { a.dev.fuses with slots := a.dev.fuses.slots.set slot { o with digest := dig, provisioned := true } } ∧
        (∀ m, UpToQueue (a.ch m) (h.ch m)) ∧ Answers 0x18 0 .none a h) ∧
      (o.provisioned = true → Runs (.provisionOwner t sg slot dig) s fun h => h.dev.fuses = a.dev.fuses ∧ Answers 0x18 3 .none a h)) ∧
    (∀ (slot : Nat) (o : OwnerSlot), a.dev.fuses.slots[slot]? = some o →
      (o.provisioned = true → o.revoked = false →
        (∃ (k : Nat) (x : OwnerSlot), k ≠ slot ∧ a.dev.fuses.slots[k]? = some x ∧ x.provisioned = true ∧ x.revoked = false) →
        Runs (.revokeOwner t sg slot) s fun h =>
          h.dev.fuses = { a.dev.fuses with slots := a.dev.fuses.slots.set slot { o with revoked := true } } ∧
          (∀ m, UpToQueue (a.ch m) (h.ch m)) ∧ Answers 0x19 0 .none a h) ∧
      (o.provisioned = true → o.revoked = false →
        (∀ (k : Nat) (x : OwnerSlot), k ≠ slot → a.dev.fuses.slots[k]? = some x → x.provisioned = true → x.revoked = true) →
        Runs (.revokeOwner t sg slot) s fun h => h.dev.fuses = a.dev.fuses ∧ Answers 0x19 3 .none a h) ∧
      (o.provisioned = true → o.revoked = true → Runs (.revokeOwner t sg slot) s fun h => h.dev.fuses = a.dev.fuses ∧ Answers 0x19 0 .none a h) ∧
      (o.provisioned = false → Runs (.revokeOwner t sg slot) s fun h => h.dev.fuses = a.dev.fuses ∧ Answers 0x19 4 .none a h)))

/-! ### The device from outside -/

/-- LINK_DOWN freezes every channel's input from the frame in progress on; the link back owes a complete message on each ring that
Margin reads, and while the link is down or a message is owed every frame that begins carries FROZEN_INPUT and STOP in Margin's record;
training at 16 GT/s only records LINK_DEGRADED (R18, R69). -/
def Obligations.LinkCommands : Prop :=
  ∀ (t : Nat) (s : State),
    let a := later s t
    (Awake s → s.hw.dev.link.down = false → Runs (.linkDown t) s
      (FiledDev .doubt 0xB0 none none (fun d => { d with link := { d.link with down := true } })
        (fun c => { c.doubt .frozenInput with mrg := { c.mrg with frozenClosed := true } }) a)) ∧
    (s.hw.dev.link.down = true → Runs (.linkRestore t) s fun h =>
      h.dev.link.down = false ∧ (∀ m, h.ch m = a.ch m) ∧
      (∀ m r, r ∈ (a.ch m).rings → (a.ch m).marginRing r = true → (m, r.num) ∈ h.dev.link.owing ∧ h.linkAbsent m = true) ∧
      h.dev = { a.dev with link := h.dev.link } ∧ h.emitted = a.emitted) ∧
    (∀ ch, let c := a.ch ch
      s.hw.dev.link.down = true ∨ (∃ n, (ch, n) ∈ s.hw.dev.link.owing) →
      c.img.tickSrc = 0 → c.tick.ticking = true → c.st.ticks = true → c.stopPending = none → c.tick.nextDue ≤ c.local →
      Runs (.tickBoundary t ch) s fun h =>
        (h.ch ch).doubtP &&& Doubt.frozenInput.mask = Doubt.frozenInput.mask ∧ (h.ch ch).mrg.frozenClosed = true ∧
        (∀ force, (h.marginRecord ch force).stop = true) ∧ h.dev.link = a.dev.link) ∧
    (Awake s → Runs (.linkDegraded t) s
      (FiledDev .degraded 0xB1 (some 16) none (fun d => { d with link := { d.link with degraded := true } }) id a))

/-- Each DEVICE_STOP event — VAUX or a rail of R481 out of its limits, the loss of MARGIN_CLK, a sensor above 135 °C, a fault of the
DEV_FAULT_N pin — drives every channel's pins to 0, 0 and 1, DEV_FAULT_N low, and every channel into STOPPED, at once; a management command
of the same cycle that it drops is undone first, and answers STATUS 5 with MGMT_REFUSED (R452, R463; both log 21's reading); DEV_FAULT's code stays the first
event's, and the REASON of a channel that is in STOPPED already takes the later code (both log 25); a voltage within its limits does
nothing. The pins are high-impedance while VIO33 is outside its limits (R346, R372, R373, R374, R481, R507, R508). -/
def Obligations.DeviceStops : Prop :=
  ∀ (t : Nat) (s : State), Awake s →
    let a := later s t
    let b := a.undoAll 2
    let stopped := fun (code : Nat) (d0 d1 : Option Nat) (h : Hw) =>
      h.dev.deviceStop = true ∧ h.dev.faultLow = true ∧
      h.dev.faultCode = (if s.hw.dev.deviceStop then s.hw.dev.faultCode else BitVec.ofNat 8 code) ∧
      (∃ r, IsRec r none .deviceStop code d0 d1 ∧ h.dev.signet.logDevice = b.dev.signet.logDevice ++ [r]) ∧
      ((∀ m, ∀ d ∈ a.due, d.below m 2 = false) → b = a) ∧
      (∀ m, (h.ch m).st = .stopped ∧ (h.ch m).reason = BitVec.ofNat 8 code ∧ (h.ch m).pins = { ok := false, margin := false, stop := true } ∧
        (h.ch m).duct.flight = [] ∧ (h.ch m).resv = none ∧ ((b.ch m).memWf = true → MemoryStands (b.ch m) (h.ch m))) ∧
      h.emitted = b.emitted
    (∀ mv, 100 * mv < 95 * 800 ∨ 105 * 800 < 100 * mv → Runs (.vaux t mv) s (stopped 0xB3 (some mv) none)) ∧
    (∀ mv, 95 * 800 ≤ 100 * mv ∧ 100 * mv ≤ 105 * 800 → Runs (.vaux t mv) s fun h => h = a) ∧
    Runs (.marginClkLost t) s (stopped 0xB4 none none) ∧
    (∀ (r : Fin 7) mv lo hi, railLimits[r.val]? = some (lo, hi) →
      (10 * mv < lo ∨ hi < 10 * mv → Runs (.rail t r mv) s fun h => stopped 0xDB (some (if r.val = 6 then 0 else r.val)) (some mv) h ∧
        (r.val = 6 → ∀ m, h.pinLevels m = none)) ∧
      (lo ≤ 10 * mv ∧ 10 * mv ≤ hi → Runs (.rail t r mv) s fun h => h = { a with dev := Device.setVio r.val true a.dev } ∧
        (r.val = 6 → ∀ m, h.pinLevels m = some (a.ch m).pins))) ∧
    (∀ ch sensor tenths, 1350 < tenths →
      Runs (.deviceTemp t ch sensor tenths) s (stopped 0xB5 (some (9 * ch.val + sensor.val)) (some (word32 tenths)))) ∧
    (∀ ch, Runs (.pinFault t ch 3) s (stopped 0xA3 (some 3) none))

/-- The monitors of voltage, temperature and clocks doubt the frame in progress with their record, hold the condition until it is over,
and VIN_CORE does so on every channel (R351, R371, R372, R373, R515). -/
def Obligations.MonitorsDoubt : Prop :=
  ∀ (t : Nat) (ch : Ch) (s : State), Awake s →
    let a := later s t
    let c := a.ch ch
    let volts := fun (n : Nat) (c : Channel) => ({ c.doubt .voltage with mon := { c.mon with volt := insertNat c.mon.volt n } } : Channel)
    (∀ mv, 100 * mv < 95 * 1800 ∨ 105 * 1800 < 100 * mv →
      Runs (.vinCore t mv) s (FiledDev .doubt 0xB2 (some mv) none (Device.setRail 0 false) (volts 5) a)) ∧
    (∀ mv, 95 * 1800 ≤ 100 * mv ∧ 100 * mv ≤ 105 * 1800 → Runs (.vinCore t mv) s fun h => h = a) ∧
    (c.st ≠ .off → ∀ (n : Fin 5) mv, c.regulatorOk n.val mv = false →
      Runs (.voltage t ch n mv) s (Filed ch .doubt 0x9C (some n.val) (some mv) (volts n.val) a)) ∧
    (∀ (n : Fin 5) mv, c.regulatorOk n.val mv = true → Runs (.voltage t ch n mv) s fun h => h = a) ∧
    (c.st ≠ .off → ∀ (n : Fin 9) (x : Int), (if n.val < 5 then 1250 else 1050) < x → Runs (.temperature t ch n x) s
      (Filed ch .doubt 0x9D (some n.val) (some (word32 x))
        (fun c => { c.doubt .temperature with mon := { c.mon with temp := insertNat c.mon.temp n.val } }) a)) ∧
    (c.st ≠ .off → ∀ (n : Fin 11) (x : Int), (n.val = 10 → c.img.tickSrc = 0 ∧ c.tick.ticking = true) →
      Runs (.clock t ch n x) s fun h =>
        Others ch a h ∧
        ((if n.val = 10 then 50 else 200) < x.natAbs →
          (h.ch ch).doubtP = c.doubtP ||| Doubt.clock.mask ∧ (n.val < 10 → n.val ∈ (h.ch ch).mon.clock) ∧
          ∃ r, IsRec r (some ch) .doubt 0x9B (some n.val) (some (word32 x)) ∧ h.dev.signet.log = logPut r a.dev.signet.log) ∧
        (x.natAbs ≤ (if n.val = 10 then 50 else 200) →
          (h.ch ch).doubtP = c.doubtP ∧ (n.val < 10 → n.val ∉ (h.ch ch).mon.clock) ∧ h.dev.signet = a.dev.signet)) ∧
    (∀ n : Fin 6, n.val < 5 → Runs (.voltageRestore t ch n) s
      (Only ch (fun c => { c with mon := { c.mon with volt := c.mon.volt.filter (· != n.val) } }) a)) ∧
    (∀ n : Fin 6, n.val = 5 → Runs (.voltageRestore t ch n) s fun h =>
      (∀ m, h.ch m = { a.ch m with mon := { (a.ch m).mon with volt := (a.ch m).mon.volt.filter (· != 5) } }) ∧ h.dev = Device.setRail 0 true a.dev) ∧
    (∀ n : Fin 9, Runs (.temperatureRestore t ch n) s
      (Only ch (fun c => { c with mon := { c.mon with temp := c.mon.temp.filter (· != n.val) } }) a))

/-- Faults of a channel's pins, of Margin, of the pin watchdog, of the Scribe and of parity raise CHANNEL_STOP; MARGIN_FAULT drives the
pins to 0, 0 and 1 without waiting for a boundary (R245, R348, R349, R352, R379). -/
def Obligations.ChannelFaultsAreRecorded : Prop :=
  ∀ (t : Nat) (ch : Ch) (s : State), Awake s → (s.hw.ch ch).st ≠ .off →
    let a := later s t
    let safe := Channel.setPins a.now { ok := false, margin := false, stop := true }
    (∀ pin : Fin 4, pin.val < 3 → Runs (.pinFault t ch pin) s (Filed ch .channelStop 0xA3 (some pin.val) none id a)) ∧
    Runs (.marginFault t ch) s (Filed ch .channelStop 0xA0 none none safe a) ∧
    Runs (.pinWatchdog t ch) s (Filed ch .channelStop 0xA0 none none safe a) ∧
    Runs (.scribeFault t ch) s (Filed ch .channelStop 0xA1 none none id a) ∧
    (∀ (st : Fin 3) entry, Runs (.parity t ch st entry) s (Filed ch .channelStop 0xA4 (some st.val) (some entry) id a))

/-- Scrubbing counts the granule it reads and a corrected error, with one ECC_CE record in a tick, and poisons an uncorrectable granule with its ECC_UE record (R245,
R246, R501). Each window of power keeps the readings; a channel whose mean is above the reservation it holds, and the device above the cap,
counts in PWR_CH_OVER and raises PWR_OVER, each at most once in 100 ms (R486; which channels count the device's event is log 12's). The latch
takes the coarse readings of channels that do not tick (R454), and a base die that crosses 95 °C changes the refresh alone (R515). -/
def Obligations.ScrubAndPower : Prop :=
  ∀ (t : Nat) (ch : Ch) (s : State), Awake s →
    let a := later s t
    let c := a.ch ch
    (∀ g, c.st ≠ .off → 64 * g < hbmSize →
      Runs (.scrub t ch g false) s (Filed ch .degraded 0x64 (some g) (some 3)
        (fun c => { ((c.bump .perfHbmRd 64).bump .ueHbm 1).stick .ueHbm with hbmPoison := insertNat c.hbmPoison g }.invalidate (64 * g) 64 none) a) ∧
      Runs (.scrub t ch g true) s fun h =>
        Local ch a h ∧ (h.ch ch).hbm = c.hbm ∧ (h.ch ch).hbmPoison = c.hbmPoison ∧ (h.ch ch).doubtP = c.doubtP ∧
        (h.ch ch).count .ceHbm = (c.bump .ceHbm 1).count .ceHbm ∧ (h.ch ch).stuck .ceHbm = (c.stick .ceHbm).stuck .ceHbm ∧
        (c.grd.ceTick.contains 3 = true → (h.ch ch).errq = c.errq ∧ (h.ch ch).ctr = (((c.bump .perfHbmRd 64).bump .ceHbm 1).bump .perfHbmWr 64).ctr) ∧
        (c.grd.ceTick.contains 3 = false → (h.ch ch).grd.ceTick.contains 3 = true ∧
          ∃ x, IsRec x (some ch) .note 0x63 (some g) (some 3) ∧ (h.ch ch).errq = (c.putErr x).errq)) ∧
    (∀ p0 p1 p2 p3 d, Runs (.powerMeasure t p0 p1 p2 p3 d) s fun h =>
      let p := fun (m : Ch) => match m with | 0 => p0 | 1 => p1 | 2 => p2 | 3 => p3
      let due := fun (last : Option Nat) => ∀ x, last = some x → x + 100000000 ≤ a.now
      let tooHigh := a.dev.capDw < d ∧ due a.dev.overAt
      -- the channels after their own means, before the device's
      ∃ b : Ch → Channel,
        (∀ m, (∀ r, (a.ch m).resv = some r → r < p m → due (a.ch m).grd.pwrOverAt → ∃ x, IsRec x (some m) .note 0xDA (some (p m)) (some r) ∧
            b m = (let c := (a.ch m).bump .pwrOver 1
                   { c with power := p m, grd := { c.grd with pwrOverAt := some a.now } }).putErr x) ∧
          ((∀ r, (a.ch m).resv = some r → r < p m → ¬due (a.ch m).grd.pwrOverAt) → b m = { a.ch m with power := p m })) ∧
        h.dev.power = d ∧ h.dev.capDw = a.dev.capDw ∧ h.emitted = a.emitted ∧
        (¬tooHigh → (∀ m, h.ch m = b m) ∧ h.dev = { a.dev with power := d }) ∧
        (tooHigh → h.dev.overAt = some a.now ∧
          (∃ x, IsRec x none .note 0xDA (some d) (some a.dev.capDw) ∧ h.dev.signet.logDevice = a.dev.signet.logDevice ++ [x]) ∧
          ∀ m, (((a.ch m).st = .off ∨ (a.ch m).st = .boot ∨ (a.ch m).st = .load) → h.ch m = b m) ∧
            (¬((a.ch m).st = .off ∨ (a.ch m).st = .boot ∨ (a.ch m).st = .load) →
              ∃ x, IsRec x none .note 0xDA (some d) (some a.dev.capDw) ∧ h.ch m = ((b m).bump .pwrOver 1).putErr x))) ∧
    Runs (.counterLatch t) s (fun h => h.dev = a.dev ∧ ∀ m,
      ((a.ch m).tick.ticking = true → h.ch m = a.ch m) ∧
      ((a.ch m).tick.ticking = false → (h.ch m).ctrLat = (a.ch m).ctr ∧ (h.ch m).ctr = (a.ch m).ctr ∧
        (h.ch m).rings.map (fun r => (r.latAccepted, r.latDiscarded, r.latGaps)) = (a.ch m).rings.map fun r => (r.accepted, r.discarded, r.gaps))) ∧
    (∀ b, Runs (.doubleRefresh t b) s fun h => h = { a with dev := { a.dev with doubleRefresh := b } })

/-! ### Time -/

/-- The sideband exchange: TREQ leaves with its sequence and t1, TRSP gives t2 and t4, TFOL completes it, and an exchange kept within
STEP_MAX locks the timebase by the servo; REFUSING is not left by one beyond it (R402). TMASTER sets or changes the master, and the first
since OFF is no change; a slew ends at the rate i; LOSS_N intervals without an exchange are HOLDOVER (R393, R394, R395, R399, R401, R404).
Where no exchange was kept yet, the intervals count from the channel's start, and the same first TMASTER after a reset is no change:
log 18's readings. -/
def Obligations.SidebandKeepsTime : Prop :=
  ∀ (t : Nat) (ch : Ch) (s : State),
    let a := later s t
    let c := a.ch ch
    (∀ tc, c.hostTime = some tc → c.st ≠ .off → a.dev.link.down = false → (a.treqDue ch tc).all (· ≤ a.now) = true →
      Runs (.treq t ch) s fun h =>
        h = { a.modCh ch (fun c => { c with ts := { c.ts with seq := (c.ts.seq + 1) % 256, t1 := some c.local,
                                                              t2 := none, t4 := none, lastSend := some a.now } }) with
              emitted := a.emitted ++ [.sideband ch 0 ((c.ts.seq + 1) % 256)] }) ∧
    (∀ tc t1 seq t2, c.hostTime = some tc → c.ts.t1 = some t1 → a.dev.link.down = false →
      (seq = c.ts.seq → c.ts.t4 = none → c.local ≤ t1 + 100000 + 2 * tc.delayMax → Runs (.trsp t ch seq t2 false) s
        (Only ch (fun c => { c with ts := { c.ts with t2 := some (extend c.local t2), t4 := some c.local } }) a)) ∧
      (seq ≠ c.ts.seq ∨ t1 + 100000 + 2 * tc.delayMax < c.local → Runs (.trsp t ch seq t2 false) s
        (Only ch (fun c => { c with ts := c.ts.drop }) a)) ∧
      Runs (.trsp t ch seq t2 true) s (Only ch (fun c => { c with ts := c.ts.drop }) a)) ∧
    (∀ tc t1 t2 t4 t3, c.hostTime = some tc → c.ts.t1 = some t1 → c.ts.t2 = some t2 → c.ts.t4 = some t4 → a.dev.link.down = false →
      let e := ((t2 - t1) - ((t4 : Int) - extend c.local t3)) * 65536
      let d := (((t4 : Int) - t1) - (extend c.local t3 - t2)) * 65536
      let kept := c.local ≤ t4 + 100000 + tc.delayMax ∧ 0 ≤ d ∧ d ≤ tc.delayMax * 131072 ∧ (c.ts.tmaster.isSome = true → c.ts.masterValid = true)
      (kept → e.natAbs ≤ tc.step * 131072 → Runs (.tfol t ch c.ts.seq t3 false) s fun h =>
          (h.ch ch).ts.state = .locked ∧ (h.ch ch).ts.everLocked = true ∧ (h.ch ch).ts.lastKept = some c.local ∧
          (h.ch ch).ts.offset17 = e ∧ (h.ch ch).ts.delay17 = d ∧ (h.ch ch).ts.firstMaster = false ∧ (h.ch ch).local = c.local ∧ Local ch a h ∧
          (∀ l, c.ts.lastKept = some l → (h.ch ch).ts.iNum = servoI tc c.ts.iNum e (c.local - l) ∧
            (h.ch ch).ts.rNum = servoR tc (h.ch ch).ts.iNum e)) ∧
      (kept → tc.step * 131072 < e.natAbs → c.ts.state = .refusing → c.ts.everLocked = true → c.ts.firstMaster = false → tc.ring = true → c.st ≠ .boot → c.st ≠ .load →
        c.st ≠ .ready → Runs (.tfol t ch c.ts.seq t3 false) s fun h =>
          (h.ch ch).ts.state = .refusing ∧ (h.ch ch).ts.lastKept = some c.local ∧ (h.ch ch).ts.offset17 = e ∧ (h.ch ch).local = c.local ∧
          Local ch a h) ∧
      (kept → tc.step * 131072 < e.natAbs → c.ts.newMaster = true → c.ts.firstMaster = true → Runs (.tfol t ch c.ts.seq t3 false) s fun h =>
          (h.ch ch).ts.state = .locked ∧ (h.ch ch).ts.newMaster = false ∧ (h.ch ch).ts.firstMaster = false ∧ (h.ch ch).ts.iNum = 0 ∧
          (h.ch ch).ts.rNum = 0 ∧ (h.ch ch).tb.sub = ((c.tb.sub : Int) + 65536 * quotient e 131072).toNat ∧ (h.ch ch).st = c.st ∧ Local ch a h) ∧
      (¬kept → Runs (.tfol t ch c.ts.seq t3 false) s (Only ch (fun c => { c with ts := c.ts.drop }) a))) ∧
    (∀ valid id, c.st ≠ .off → a.dev.link.down = false →
      let first := c.ts.tmaster = none ∨ (c.ts.master = none ∧ c.ts.tmaster = some id)
      (c.img.time.any (·.peer) = true → Runs (.tmaster t ch valid id) s
        (Only ch (fun c => { c with ts := { c.ts with tmaster := some id, masterValid := valid } }) a)) ∧
      (c.img.time.any (·.peer) = false → first ∨ c.ts.master = some (id ++ 0#16) → Runs (.tmaster t ch valid id) s
        (Only ch (fun c => { c with ts := { c.ts with
          master := some (id ++ 0#16), newMaster := c.ts.newMaster || decide first, firstMaster := c.ts.firstMaster || decide first,
          tmaster := some id, masterValid := valid } }) a)) ∧
      (c.img.time.any (·.peer) = false → ¬first → c.ts.master ≠ some (id ++ 0#16) → Runs (.tmaster t ch valid id) s fun h =>
        (h.ch ch).ts = { c.ts with master := some (id ++ 0#16), newMaster := true, firstMaster := false, slewRaised := false, tmaster := some id, masterValid := valid } ∧
        Local ch a h ∧ (h.ch ch).sticky = ((c.stick .masterChanged).stick .sumNote).sticky)) ∧
    (∀ u, c.ts.slewUntil = some u → u ≤ a.now → Runs (.slewEnd t ch) s
      (Only ch (fun c => ({ c with ts := { c.ts with rNum := c.ts.iNum, slewUntil := none } } : Channel).markTime a.now) a)) ∧
    (∀ tc l, c.img.time = some tc → (c.ts.lastKept = some l ∨ c.ts.lastKept = none ∧ l = c.localAt c.startMark) → c.st ≠ .off →
      c.ts.state ≠ .holdover → l + tc.lossN * tc.intervalUs * 1000 ≤ c.local → Runs (.timeHoldover t ch) s (Filed ch .note 0xC0 (some (word32 c.ppb)) none
        (fun c => { c.stick .holdoverSeen with ts := { c.ts with state := .holdover, newMaster := true, refusedSince := 0 } }) a))

/-- A well-formed PTP frame on a port that is up goes out of the other port once, unless its source is the channel's own; a malformed one
is dropped with PTP_DROP. The ring master queues its Sync on each port that is up and answers a Delay_Req with Delay_Resp; a follower's Sync
makes it send a Delay_Req (R396, R397, R398). -/
def Obligations.PtpForwardsAndAnswers : Prop :=
  ∀ (t : Nat) (ch : Ch) (x : Port) (s : State) (f : PtpFrame),
    let a := later s t
    let c := a.ch ch
    let row := fun (i : Instr) => (i = .ptpSyncReceive t ch x f ∧ f.messageType = 0) ∨ (i = .delayReq t ch x f ∧ f.messageType = 1) ∨
      (i = .delayResp t ch x f ∧ f.messageType = 9) ∨
      (i = .ptpOther t ch x f ∧ f.messageType ≠ 0 ∧ f.messageType ≠ 1 ∧ f.messageType ≠ 9)
    let id := fun (y : Port) => portIdentity a.dev.fuses.deviceId ch y
    ((c.peer.port x).up = true → c.st ≠ .off → c.st ≠ .boot → ∀ i, row i →
      (f.wellFormed = false → Runs i s (Filed ch .note 0xC3 (some (x.num - 1)) (some f.messageType) (Channel.bump .peerRxBad 1) a)) ∧
      (f.wellFormed = true → c.img.time = none → f.source ≠ id .east → f.source ≠ id .west → c.ts.seen = [] → (c.peer.port x.other).up = true →
        Runs i s fun h =>
          Local ch a h ∧ ((h.ch ch).peer.port x.other).ptp = (c.peer.port x.other).ptp ++
            [{ f := f, ingress := if f.isEvent then some c.local else none, own := false }]) ∧
      (f.wellFormed = true → c.img.time = none → f.source = id .east ∨ f.source = id .west → Runs i s fun h => h = a)) ∧
    (∀ tc, c.img.time = some tc → tc.master = true → c.follows = true →
      (c.ts.lastSync = none → Runs (.ptpSyncSend t ch) s fun h =>
        Local ch a h ∧ (h.ch ch).ts.lastSync = some a.now ∧
        ∀ y, (c.peer.port y).up = true → ∃ o, ((h.ch ch).peer.port y).ptp = (c.peer.port y).ptp ++ [o] ∧ o.own = true ∧ o.f.messageType = 0 ∧
          o.f.twoStep = false ∧ o.f.source = id y ∧ o.f.domain = tc.domain) ∧
      (f.wellFormed = true → f.messageType = 1 → tc.mine f = true → (c.peer.port x).up = true → Runs (.delayReq t ch x f) s fun h =>
        Local ch a h ∧ ∃ q o, ((h.ch ch).peer.port x).ptp = q ++ [o] ∧ o.f.messageType = 9 ∧ o.f.requester = f.source ∧ o.f.seqId = f.seqId ∧
          o.f.origin = c.local)) ∧
    (∀ tc, c.img.time = some tc → tc.peer = true → c.follows = true → x = tc.upstream → f.wellFormed = true → tc.mine f = true →
      (c.peer.port x).up = true →
      (f.messageType = 0 → Runs (.ptpSyncReceive t ch x f) s fun h =>
        Local ch a h ∧ (h.ch ch).ts.syncOrigin = some ((f.origin : Int) * 65536 + f.correction) ∧ (h.ch ch).ts.syncLocal = some c.local ∧
        (h.ch ch).ts.master = some f.source ∧ (h.ch ch).ts.masterValid = c.ts.masterValid ∧
        ∃ q o, ((h.ch ch).peer.port x).ptp = q ++ [o] ∧ o.own = true ∧ o.f.messageType = 1 ∧ o.f.seqId = (c.ts.reqSeq + 1) % 65536) ∧
      (f.messageType = 9 → ∀ so sl rs, c.ts.syncOrigin = some so → c.ts.syncLocal = some sl → c.ts.reqSent = some rs →
        f.requester = id x → f.seqId = c.ts.reqSeq →
        let up : Int := ((f.origin : Int) * 65536 - f.correction) - (rs : Int) * 65536
        let down : Int := (sl : Int) * 65536 - so
        0 ≤ up + down → up + down ≤ tc.delayMax * 131072 → (up - down).natAbs ≤ tc.step * 131072 → Runs (.delayResp t ch x f) s fun h =>
          Local ch a h ∧ (h.ch ch).ts.state = .locked ∧ (h.ch ch).ts.everLocked = true ∧ (h.ch ch).ts.offset17 = up - down ∧
          (h.ch ch).ts.delay17 = up + down ∧ (h.ch ch).ts.reqSent = none))

/-! ### The peer ring -/

/-- A link changes state with PEER_LINK, and the frames waiting on a port that went down take the other port or are dropped. A frame for
the channel that passes R418 enters the receive buffer; a refused one is counted and answered with one NACK for its block that carries the
status; one for another position goes out of the other port with TTL − 1; one of a newer epoch starts the grace and is forwarded. A NACK
is counted and recorded; the oldest frame lands with its record, and nothing else of HBM changes; an expired grace fences the channel
(R409, R412, R414, R417, R418, R419, R420, R427). Counts of a tick are recorded at its end (log 12). -/
def Obligations.PeerFramesArrive : Prop :=
  ∀ (t : Nat) (ch : Ch) (x : Port) (s : State) (f : PeerFrame),
    let a := later s t
    let c := a.ch ch
    let id := a.dev.fuses.deviceId
    let port := fun (h : Hw) (y : Port) => (h.ch ch).peer.port y
    let arrives := (c.peer.port x).up = true ∧ c.st ≠ .off ∧ c.st ≠ .boot ∧ frameOk ch f = true
    let mine := arrives ∧ c.peer.position = some f.dstPos.toNat ∧ f.epoch.toNat ≤ c.peer.epoch.toNat
    let row := fun (i : Instr) => (i = .data t ch x f ∧ f.ptype = 1#8) ∨ (i = .nack t ch x f ∧ f.ptype = 2#8)
    -- R414: a frame that was sent by this device, or whose TTL is 0, is discarded; another takes its place behind the forwarded ones
    let goesOn := fun (h : Hw) =>
      (port h x.other).transit = (c.peer.port x.other).transit ++
        (if f.ttl = 0#8 ∨ ownAddr id f.srcAddr = true then [] else [{ f with ttl := f.ttl - 1 }]) ∧
      (port h x.other).origin = (c.peer.port x.other).origin ∧ (port h x).rx = (c.peer.port x).rx ∧ (h.ch ch).hbm = c.hbm ∧ Local ch a h
    let drops := fun (h : Hw) (n : Nat) => (h.ch ch).count .peerDrops = (c.bump .peerDrops n).count .peerDrops
    let waiting := (c.peer.port x).origin
    ((c.peer.port x).up = false → c.portEnabled x = true → c.linkState = true → Runs (.peerLink t ch x true) s
      (Filed ch .degraded 0xC8 (some (x.num - 1)) (some 1) (Channel.modPort x fun p => { p with up := true }) a)) ∧
    ((c.peer.port x).up = true → Runs (.peerLink t ch x false) s fun h =>
      (port h x).up = false ∧ (port h x).origin = [] ∧ (port h x).transit = (c.peer.port x).transit ∧ Local ch a h ∧
      (waiting = [] → Filed ch .degraded 0xC8 (some (x.num - 1)) (some 0) (Channel.modPort x fun p => { p with up := false }) a h) ∧
      ((c.peer.port x.other).up = true → c.sendsAlone = false → (port h x.other).origin = (c.peer.port x.other).origin ++
        waiting.map (fun f => { f with srcAddr := portAddr id ch x.other })) ∧
      ((c.peer.port x.other).up = false → waiting ≠ [] → (port h x.other).origin = (c.peer.port x.other).origin ∧ drops h waiting.length)) ∧
    (f.ptype = 1#8 → mine → frameHi (f :: (c.peer.port x).rx.map (·.f)) ≤ 262144 →
      (c.refusal f = none → Runs (.data t ch x f) s fun h =>
        Local ch a h ∧ (port h x).rx = (c.peer.port x).rx ++ [{ id := c.nextWrite, window := f.window.toNat, f := f }] ∧
        (h.ch ch).count .peerRx = (c.bump .peerRx 1).count .peerRx ∧ (h.ch ch).hbm = c.hbm ∧
        (h.ch ch).writes.map (·.id) = c.writes.map (·.id) ++ [c.nextWrite] ∧ (h.ch ch).nextWrite = c.nextWrite + 1 ∧
        ∃ w : HostWrite, (h.ch ch).writes.getLast? = some w ∧ w.bytes = f.data ∧ w.also.isSome = true ∧
          ∀ base len, c.dataArea f.window.toNat = some (base, len) →
            w.addr = base + f.offset.toNat ∧ w.also = some (base + len + 32 * f.srcPos.toNat)) ∧
      (∀ st, c.refusal f = some st → Runs (.data t ch x f) s fun h =>
        Local ch a h ∧ (port h x).rx = (c.peer.port x).rx ∧ (h.ch ch).hbm = c.hbm ∧
        (h.ch ch).count .peerRefused = (c.bump .peerRefused 1).count .peerRefused ∧
        (f.srcPos.toNat, f.block.toNat) ∈ (h.ch ch).peer.nacked ∧
        (c.tick.ticking = true → (h.ch ch).peer.refused = some (c.peer.refused.elim (st, 1) fun r => (r.1, r.2 + 1))) ∧
        ((f.srcPos.toNat, f.block.toNat) ∈ c.peer.nacked → ∀ y, (port h y).origin = (c.peer.port y).origin) ∧
        ((f.srcPos.toNat, f.block.toNat) ∉ c.peer.nacked → ∀ y, c.route f.dstPos.toNat f.srcPos.toNat = some y →
          (c.tick.ticking = false → ∃ r, IsRec r (some ch) .note 0xCB (some st) (some 1) ∧ (h.ch ch).errq = (c.putErr r).errq) ∧
          ∃ n : PeerFrame, (port h y).origin = (c.peer.port y).origin ++ [n] ∧ n.ptype = 2#8 ∧ n.nstatus = BitVec.ofNat 8 st ∧
            n.srcPos = BitVec.ofNat 8 f.dstPos.toNat ∧ n.dstPos = f.srcPos ∧ n.block = f.block ∧ n.window = f.window ∧ n.epoch = c.peer.epoch ∧
            n.ttl = 7#8 ∧ n.data = []))) ∧
    (f.ptype = 1#8 → (c.peer.port x).up = true → c.st ≠ .off → c.st ≠ .boot → frameOk ch f = false →
      Runs (.data t ch x f) s (Only ch (Channel.bump .peerRxBad 1) a)) ∧
    (∀ i, row i → arrives → c.peer.position ≠ some f.dstPos.toNat →
      (frameHi (f :: (c.peer.port x.other).transit) ≤ 65536 → Runs i s fun h => goesOn h ∧ (h.ch ch).peer.grace = c.peer.grace) ∧
      (f.ttl ≠ 0#8 → ownAddr id f.srcAddr = false → 65536 < frameLo (f :: (c.peer.port x.other).transit) → Runs i s fun h =>
        (port h x.other).transit = (c.peer.port x.other).transit ∧ drops h 1 ∧ Local ch a h)) ∧
    (∀ i, row i → arrives → c.peer.position = some f.dstPos.toNat → c.peer.epoch.toNat < f.epoch.toNat →
      frameHi (f :: (c.peer.port x.other).transit) ≤ 65536 → Runs i s fun h =>
        goesOn h ∧ (h.ch ch).peer.epoch = c.peer.epoch ∧
        (h.ch ch).peer.seen = (if c.peer.seen.toNat < f.epoch.toNat then f.epoch else c.peer.seen) ∧
        (∀ u, c.peer.grace = some u → (h.ch ch).peer.grace = some u ∧ (h.ch ch).doubtP = c.doubtP) ∧
        (c.peer.grace = none → (h.ch ch).peer.grace = some (a.now + 1000 * (c.img.peer.map (·.graceUs)).getD 0) ∧
          (h.ch ch).doubtP = c.doubtP ||| Doubt.epoch.mask ∧
          ∃ r, IsRec r (some ch) .doubt 0xA8 (some f.epoch.toNat) (some c.peer.epoch.toNat) ∧ h.dev.signet.log = logPut r a.dev.signet.log)) ∧
    (f.ptype = 2#8 → mine → Runs (.nack t ch x f) s (Filed ch .note 0xC9 (some (f.window.toNat + 256 * f.nstatus.toNat)) (some f.block.toNat)
      (fun c => (c.bump .peerNackRecv 1).stick .peerNacked) a)) ∧
    (∀ r rest base len w, (c.peer.port x).rx = r :: rest → c.dataArea r.window = some (base, len) → c.writeOf r.id = some w →
      w.applying = true ∨ c.mayApply w = true → c.fenced.contains 8 = false → c.memWf = true → r.f.offset.toNat + r.f.data.length ≤ len → Runs (.frameLand t ch x) s fun h =>
        Local ch a h ∧ (port h x).rx = rest ∧
        (h.ch ch).writes.map (·.id) = (c.writes.filter (·.id != r.id)).map (·.id) ∧
        Cells.read ramDefault (h.ch ch).hbm (base + r.f.offset.toNat) r.f.data.length = r.f.data ∧
        (∀ y, y < base + r.f.offset.toNat ∨ base + r.f.offset.toNat + r.f.data.length ≤ y →
          y < base + len + 32 * r.f.srcPos.toNat ∨ base + len + 32 * r.f.srcPos.toNat + 32 ≤ y →
          Cells.byte ramDefault (h.ch ch).hbm y = Cells.byte ramDefault c.hbm y) ∧
        (r.f.pflags.getLsbD 0 = true →
          byteAt (Cells.read ramDefault (h.ch ch).hbm (base + len + 32 * r.f.srcPos.toNat) 32) 0 = (if r.f.pflags.getLsbD 1 then 2 else 1)) ∧
        (∀ j : Nat, (coreMem (h.ch ch) j).ink = (coreMem c j).ink) ∧ (h.ch ch).nvm = c.nvm) ∧
    (∀ u, c.peer.grace = some u → u ≤ a.now → c.st ≠ .ready ∧ c.st ≠ .run ∧ c.st ≠ .margin → (c.st = .fenced → c.resv = none) →
      Runs (.epochGrace t ch) s (Only ch (fun c => { c with peer := { c.peer with grace := none } }) a)) ∧
    (∀ u, c.peer.grace = some u → u ≤ a.now → c.st = .fenced → c.resv.isSome = true → Runs (.epochGrace t ch) s fun h =>
      (h.ch ch).st = .fenced ∧ (h.ch ch).reason = 0xCE#8 ∧ (h.ch ch).resv = none ∧ (h.ch ch).peer.grace = none ∧ Local ch a h) ∧
    (∀ u, c.st = .ready ∨ c.st = .run ∨ c.st = .margin → c.peer.grace = some u → u ≤ a.now → Runs (.epochGrace t ch) s fun h =>
      (h.ch ch).st = .fenced ∧ (h.ch ch).reason = 0xCE#8 ∧ (h.ch ch).peer.winOpen = [] ∧ (h.ch ch).resv = none ∧
      (h.ch ch).pins.ok = false ∧ (h.ch ch).pins.margin = true ∧ Local ch a h)

/-- The next entry of a PEER stroke runs: SEND cuts its block into frames of at most 1,408 bytes under the next block number, OPEN opens
its window with its lag counts at 0, CLOSE closes it and is complete once its cycle is over and every accepted frame of the window has
landed. Egress serves PTP first, each frame as it came but for its correction, then forwarded and own frames in turn (R397, R413, R421 to R424);
a frame that a fenced peer engine originated is blocked and counted (R381, R383; its DETAIL1 is a free value, log 12). -/
def Obligations.PeerEntriesRun : Prop :=
  ∀ (t : Nat) (ch : Ch) (s : State) (b : List Byte),
    let a := later s t
    let c := a.ch ch
    let stepped := fun (h : Hw) => (h.ch ch).peer.run = c.peer.run.map fun r => { r with entry := r.entry + 1 }
    (∀ pos x, c.peerNext 0 = some b → c.fenced.contains 8 = false → c.peer.position = some pos → c.st ≠ .fenced → byteAt b 2 ≠ pos →
      c.tenantOk (field b 8 8) = true → c.sendPort pos (byteAt b 2) (byteAt b 3) = some x → Runs (.peerSend t ch) s fun h =>
        stepped h ∧ Local ch a h ∧ (h.ch ch).peer.block = (c.peer.block + 1) % 2 ^ 32 ∧ (h.ch ch).hbm = c.hbm ∧
        ∃ fs : List PeerFrame, ((h.ch ch).peer.port x).origin = (c.peer.port x).origin ++ fs ∧ fs.length = ceilDiv (field b 16 4) 1408 ∧
          ∀ f ∈ fs, f.ptype = 1#8 ∧ f.block = BitVec.ofNat 32 c.peer.block ∧ f.dstPos = BitVec.ofNat 8 (byteAt b 2) ∧ f.ttl = 7#8 ∧
            f.epoch = c.peer.epoch ∧ f.data.length ≤ 1408) ∧
    (∀ pos x, c.peerNext 0 = some b → c.fenced.contains 8 = false → c.peer.position = some pos → c.st ≠ .fenced → byteAt b 2 ≠ pos →
      c.sendPort pos (byteAt b 2) (byteAt b 3) = some x → 0 < field b 16 4 → c.tenantOk (field b 8 8) = false → Runs (.peerSend t ch) s fun h =>
        stepped h ∧ Local ch a h ∧ 8 ∈ (h.ch ch).fenced) ∧
    (c.peerNext 0 = some b → c.fenced.contains 8 = false → c.peer.position = none ∨ c.st = .fenced ∨ c.peer.position = some (byteAt b 2) →
      Runs (.peerSend t ch) s fun h => stepped h ∧ Local ch a h ∧ (h.ch ch).peer.east.origin = c.peer.east.origin ∧
        (h.ch ch).peer.west.origin = c.peer.west.origin ∧ (h.ch ch).peer.block = c.peer.block) ∧
    (∀ w, c.peerNext 1 = some b → (c.img.peer.bind fun p => p.wins[byteAt b 1]?) = some w → Runs (.peerOpen t ch) s fun h =>
      stepped h ∧ byteAt b 1 ∈ (h.ch ch).peer.winOpen ∧ Local ch a h ∧ (h.ch ch).hbm = c.hbm ∧
      ∀ p, p < 8 → w.expect.getLsbD p = true → (byteAt b 1, p, 0) ∈ (h.ch ch).peer.lag) ∧
    (c.peerNext 2 = some b → Runs (.peerClose t ch) s fun h =>
      stepped h ∧ byteAt b 1 ∉ (h.ch ch).peer.winOpen ∧ (∀ w, w ≠ byteAt b 1 → (w ∈ (h.ch ch).peer.winOpen ↔ w ∈ c.peer.winOpen)) ∧
      (byteAt b 1 ∈ c.peer.winOpen → byteAt b 1 ∈ (h.ch ch).shut) ∧ Local ch a h ∧ (h.ch ch).hbm = c.hbm) ∧
    (∀ st : Stroke, c.peerDone st = true → ∀ n, field st.parm 0 2 = n + 1 → byteAt (st.parm.drop (16 + 32 * n)) 0 = 2 →
      let w := byteAt (st.parm.drop (16 + 32 * n)) 1
      w ∉ c.shut ∧ ∀ f, f ∈ c.peer.east.rx ∨ f ∈ c.peer.west.rx → f.window ≠ w) ∧
    (∀ x, (c.peer.port x).up = true →
      (∀ o rest, (c.peer.port x).ptp = o :: rest → Runs (.portEgress t ch x) s fun h =>
        ((h.ch ch).peer.port x).ptp = rest ∧ ((h.ch ch).peer.port x).transit = (c.peer.port x).transit ∧
        ((h.ch ch).peer.port x).origin = (c.peer.port x).origin ∧ Others ch a h ∧ h.dev = a.dev ∧
        ∃ f, h.emitted = a.emitted ++ [.ptp ch x f] ∧ f = { o.f with correction := f.correction, origin := f.origin } ∧
          (o.ingress = none → f.correction = o.f.correction) ∧ (o.own = false → f.origin = o.f.origin) ∧
          ∀ n, o.ingress = some n → f.correction = o.f.correction + 65536 * ((c.local : Int) - n)) ∧
      (∀ f rest, (c.peer.port x).ptp = [] → (c.peer.port x).transit = f :: rest → (c.peer.port x).turn = false ∨ (c.peer.port x).origin = [] →
        Runs (.portEgress t ch x) s fun h =>
          ((h.ch ch).peer.port x).transit = rest ∧ ((h.ch ch).peer.port x).origin = (c.peer.port x).origin ∧
          ((h.ch ch).peer.port x).turn = true ∧ Others ch a h ∧ h.dev = a.dev ∧ h.emitted = a.emitted ++ [.peer ch x f]) ∧
      (∀ f rest, (c.peer.port x).ptp = [] → (c.peer.port x).origin = f :: rest → (c.peer.port x).turn = true ∨ (c.peer.port x).transit = [] →
        (c.fenced.contains 8 = false → Runs (.portEgress t ch x) s fun h =>
          ((h.ch ch).peer.port x).origin = rest ∧ ((h.ch ch).peer.port x).transit = (c.peer.port x).transit ∧
          ((h.ch ch).peer.port x).turn = false ∧ Others ch a h ∧ h.dev = a.dev ∧ h.emitted = a.emitted ++ [.peer ch x f]) ∧
        (c.fenced.contains 8 = true → Runs (.portEgress t ch x) s fun h =>
          ((h.ch ch).peer.port x).origin = rest ∧ ((h.ch ch).peer.port x).transit = (c.peer.port x).transit ∧ Local ch a h ∧
          (h.ch ch).count .fenceHits = (c.bump .fenceHits 1).count .fenceHits ∧
          (h.ch ch).doubtP = c.doubtP ||| Doubt.latentFault.mask ∧
          ∃ r n, IsRec r (some ch) .doubt 0x9E (some (initPeer ch)) (some n) ∧ h.dev.signet.log = logPut r a.dev.signet.log)))

/-! ### What commands leave alone -/

/-- A command of one channel leaves every other channel as it is — PRELOAD_COPY but for the higher channels that reached the power check
in the same cycle (R19) — and of the device changes only the Signet's log and verification queue, the messages the link owes, the ring it
served last in each class, and the reading of REFCLK (R7). One that drops an ENTER_MAINT of its cycle (R463, log 21) also raises MGMT_REFUSED, a
device record, at most once per 100 ms (R452). -/
def Obligations.ChannelCommandsTouchOneChannel : Prop :=
  ∀ (i : Instr) (m : Ch) (s s' : State), channelOf i = some m → exec i s = .next s' →
    s'.pending = s.pending ∧
    ∃ t, s'.hw.now = s.hw.now + t ∧
      let a := later s t
      let drops := dropsCommands i = true ∧ ∃ d ∈ a.due, d.below m 4 = true
      (∀ n, n ≠ m → (∀ u, i = .preloadCopy u m → n ∉ a.checkedAfter m) →
        (¬drops → s'.hw.ch n = a.ch n) ∧ (drops → UpToQueue (a.ch n) (s'.hw.ch n))) ∧
      (¬drops → s'.hw.dev.signet.logDevice = s.hw.dev.signet.logDevice ∧ s'.hw.dev.signet.lastRefused = s.hw.dev.signet.lastRefused) ∧
      s'.hw.dev = { s.hw.dev with
        refclkOk := s'.hw.dev.refclkOk
        link := { s.hw.dev.link with owing := s'.hw.dev.link.owing, servedIn := s'.hw.dev.link.servedIn }
        signet := { s.hw.dev.signet with log := s'.hw.dev.signet.log, queue := s'.hw.dev.signet.queue
                                         logDevice := s'.hw.dev.signet.logDevice, lastRefused := s'.hw.dev.signet.lastRefused } }

/-- A command that stores nothing leaves every byte of HBM, of every Inkwell and of every xSPI memory reading as before; one that stops
strokes in flight leaves every byte so that their unfinished writes had not replaced (R63, R383), a boundary but for the directory entries
of the pages in the tail cache (R265), and one that drops a management command of its own cycle but for what that command did (R463; that it
is undone is log 21's reading). -/
def Obligations.CommandsThatStoreNothing : Prop :=
  (∀ (i : Instr) (s s' : State), stopsStrokes i = true → Memory.wf s = true → exec i s = .next s' →
    ∀ m, ∃ b, Stood s.hw m b ∧ MemoryStandsBut (fun x => makesBoundary i = true ∧ DirHolds b x) b (s'.hw.ch m)) ∧
  ∀ (i : Instr) (s s' : State), storesNothing i = true → exec i s = .next s' → ∀ (m : Ch) (x : Nat),
    Cells.byte ramDefault (s'.hw.ch m).hbm x = Cells.byte ramDefault (s.hw.ch m).hbm x ∧
    (∀ j : Nat, Cells.byte ramDefault (coreMem (s'.hw.ch m) j).ink x = Cells.byte ramDefault (coreMem (s.hw.ch m) j).ink x) ∧
    Cells.byte norDefault (s'.hw.ch m).nvm.cells x = Cells.byte norDefault (s.hw.ch m).nvm.cells x
end

