-- ==== Sys2Proof/Laws/State.lean ====
section
/-! SUPPORT. One lemma per field for each update of the state that the operations make: none of them needs its record unfolded. -/
namespace Sys2Proof.Machine

/-! ### Channels of the hardware -/

@[simp] theorem Hw.ch_setCh_same (m : Ch) (c : Channel) (hw : Hw) : (hw.setCh m c).ch m = c := by
  revert m; intro m; match m with
  | 0 => rfl
  | 1 => rfl
  | 2 => rfl
  | 3 => rfl
theorem Hw.ch_setCh_ne {m n : Ch} (h : n ≠ m) (c : Channel) (hw : Hw) : (hw.setCh m c).ch n = hw.ch n := by
  match m, n with
  | 0, 0 => exact absurd rfl h
  | 0, 1 => rfl
  | 0, 2 => rfl
  | 0, 3 => rfl
  | 1, 0 => rfl
  | 1, 1 => exact absurd rfl h
  | 1, 2 => rfl
  | 1, 3 => rfl
  | 2, 0 => rfl
  | 2, 1 => rfl
  | 2, 2 => exact absurd rfl h
  | 2, 3 => rfl
  | 3, 0 => rfl
  | 3, 1 => rfl
  | 3, 2 => rfl
  | 3, 3 => exact absurd rfl h
theorem Hw.ch_setCh (m n : Ch) (c : Channel) (hw : Hw) : (hw.setCh m c).ch n = if n = m then c else hw.ch n := by
  by_cases h : n = m
  · subst h; simp
  · simp [h, Hw.ch_setCh_ne h]
/-- Two hardwares are equal when everything outside the channels and each channel are. -/
theorem Hw.ext_ch {a b : Hw} (hd : a.dev = b.dev) (hn : a.now = b.now) (hf : a.freeCtr = b.freeCtr) (he : a.emitted = b.emitted)
    (hu : a.due = b.due) (hc : ∀ m, a.ch m = b.ch m) : a = b := by
  have h0 := hc 0
  have h1 := hc 1
  have h2 := hc 2
  have h3 := hc 3
  cases a; cases b
  simp only [Hw.ch] at h0 h1 h2 h3
  simp_all
@[simp] theorem Hw.setCh_dev (m : Ch) (c : Channel) (hw : Hw) : (hw.setCh m c).dev = hw.dev := by
  match m with
  | 0 => rfl
  | 1 => rfl
  | 2 => rfl
  | 3 => rfl
@[simp] theorem Hw.setCh_now (m : Ch) (c : Channel) (hw : Hw) : (hw.setCh m c).now = hw.now := by
  match m with
  | 0 => rfl
  | 1 => rfl
  | 2 => rfl
  | 3 => rfl
@[simp] theorem Hw.setCh_freeCtr (m : Ch) (c : Channel) (hw : Hw) : (hw.setCh m c).freeCtr = hw.freeCtr := by
  match m with
  | 0 => rfl
  | 1 => rfl
  | 2 => rfl
  | 3 => rfl
@[simp] theorem Hw.setCh_emitted (m : Ch) (c : Channel) (hw : Hw) : (hw.setCh m c).emitted = hw.emitted := by
  match m with
  | 0 => rfl
  | 1 => rfl
  | 2 => rfl
  | 3 => rfl
@[simp] theorem Hw.setCh_due (m : Ch) (c : Channel) (hw : Hw) : (hw.setCh m c).due = hw.due := by
  match m with
  | 0 => rfl
  | 1 => rfl
  | 2 => rfl
  | 3 => rfl

@[simp] theorem Hw.ch_modCh_same (m : Ch) (f : Channel → Channel) (hw : Hw) : (hw.modCh m f).ch m = f (hw.ch m) := by
  simp [Hw.modCh]
theorem Hw.ch_modCh_ne {m n : Ch} (h : n ≠ m) (f : Channel → Channel) (hw : Hw) : (hw.modCh m f).ch n = hw.ch n := by
  simp [Hw.modCh, Hw.ch_setCh_ne h]
theorem Hw.ch_modCh (m n : Ch) (f : Channel → Channel) (hw : Hw) : (hw.modCh m f).ch n = if n = m then f (hw.ch m) else hw.ch n := by
  simp [Hw.modCh, Hw.ch_setCh]
@[simp] theorem Hw.modCh_dev (m : Ch) (g : Channel → Channel) (hw : Hw) : (hw.modCh m g).dev = hw.dev := by simp [Hw.modCh]
@[simp] theorem Hw.modCh_now (m : Ch) (g : Channel → Channel) (hw : Hw) : (hw.modCh m g).now = hw.now := by simp [Hw.modCh]
@[simp] theorem Hw.modCh_freeCtr (m : Ch) (g : Channel → Channel) (hw : Hw) : (hw.modCh m g).freeCtr = hw.freeCtr := by simp [Hw.modCh]
@[simp] theorem Hw.modCh_emitted (m : Ch) (g : Channel → Channel) (hw : Hw) : (hw.modCh m g).emitted = hw.emitted := by simp [Hw.modCh]
@[simp] theorem Hw.modCh_due (m : Ch) (g : Channel → Channel) (hw : Hw) : (hw.modCh m g).due = hw.due := by simp [Hw.modCh]

@[simp] theorem Hw.modDev_dev (f : Device → Device) (hw : Hw) : (hw.modDev f).dev = f hw.dev := rfl
@[simp] theorem Hw.modDev_ch (m : Ch) (f : Device → Device) (hw : Hw) : (hw.modDev f).ch m = hw.ch m := rfl
@[simp] theorem Hw.modDev_now (f : Device → Device) (hw : Hw) : (hw.modDev f).now = hw.now := rfl
@[simp] theorem Hw.modDev_freeCtr (f : Device → Device) (hw : Hw) : (hw.modDev f).freeCtr = hw.freeCtr := rfl
@[simp] theorem Hw.modDev_emitted (f : Device → Device) (hw : Hw) : (hw.modDev f).emitted = hw.emitted := rfl
@[simp] theorem Hw.modDev_due (f : Device → Device) (hw : Hw) : (hw.modDev f).due = hw.due := rfl
@[simp] theorem Hw.modSig_signet (f : Signet → Signet) (hw : Hw) : (hw.modSig f).dev.signet = f hw.dev.signet := rfl
@[simp] theorem Hw.modSig_ch (m : Ch) (f : Signet → Signet) (hw : Hw) : (hw.modSig f).ch m = hw.ch m := rfl
@[simp] theorem Hw.modSig_now (f : Signet → Signet) (hw : Hw) : (hw.modSig f).now = hw.now := rfl
@[simp] theorem Hw.modSig_freeCtr (f : Signet → Signet) (hw : Hw) : (hw.modSig f).freeCtr = hw.freeCtr := rfl
@[simp] theorem Hw.modSig_emitted (f : Signet → Signet) (hw : Hw) : (hw.modSig f).emitted = hw.emitted := rfl
@[simp] theorem Hw.modSig_due (f : Signet → Signet) (hw : Hw) : (hw.modSig f).due = hw.due := rfl
@[simp] theorem Hw.emit_ch (m : Ch) (e : Emission) (hw : Hw) : (hw.emit e).ch m = hw.ch m := rfl
@[simp] theorem Hw.emit_dev (e : Emission) (hw : Hw) : (hw.emit e).dev = hw.dev := rfl
@[simp] theorem Hw.emit_now (e : Emission) (hw : Hw) : (hw.emit e).now = hw.now := rfl
@[simp] theorem Hw.emit_emitted (e : Emission) (hw : Hw) : (hw.emit e).emitted = hw.emitted ++ [e] := rfl
@[simp] theorem Hw.emit_due (e : Emission) (hw : Hw) : (hw.emit e).due = hw.due := rfl
@[simp] theorem Hw.emit_freeCtr (e : Emission) (hw : Hw) : (hw.emit e).freeCtr = hw.freeCtr := rfl
@[simp] theorem Hw.freeCtr_ch (m : Ch) (k : Nat) (hw : Hw) : ({ hw with freeCtr := k } : Hw).ch m = hw.ch m := rfl
@[simp] theorem Hw.free_ch (m : Ch) (hw : Hw) : hw.free.2.ch m = hw.ch m := rfl
@[simp] theorem Hw.free_dev (hw : Hw) : hw.free.2.dev = hw.dev := rfl
@[simp] theorem Hw.free_now (hw : Hw) : hw.free.2.now = hw.now := rfl
@[simp] theorem Hw.free_emitted (hw : Hw) : hw.free.2.emitted = hw.emitted := rfl
@[simp] theorem Hw.free_due (hw : Hw) : hw.free.2.due = hw.due := rfl
@[simp] theorem Hw.advance_dev (dt : Nat) (hw : Hw) : (hw.advance dt).dev = hw.dev := rfl
@[simp] theorem Hw.advance_now (dt : Nat) (hw : Hw) : (hw.advance dt).now = hw.now + dt := rfl
@[simp] theorem Hw.advance_freeCtr (dt : Nat) (hw : Hw) : (hw.advance dt).freeCtr = hw.freeCtr := rfl
@[simp] theorem Hw.advance_due (dt : Nat) (hw : Hw) : (hw.advance dt).due = if dt = 0 then hw.due else [] := rfl
@[simp] theorem Hw.advance_emitted (dt : Nat) (hw : Hw) : (hw.advance dt).emitted = hw.emitted := rfl
@[simp] theorem Hw.advance_ch (dt : Nat) (m : Ch) (hw : Hw) : (hw.advance dt).ch m = (hw.ch m).advance dt := by
  match m with
  | 0 => rfl
  | 1 => rfl
  | 2 => rfl
  | 3 => rfl
@[simp] theorem Hw.modSig_porstN (f : Signet → Signet) (hw : Hw) : (hw.modSig f).dev.porstN = hw.dev.porstN := rfl
@[simp] theorem Hw.modSig_testMode (f : Signet → Signet) (hw : Hw) : (hw.modSig f).dev.testMode = hw.dev.testMode := rfl
@[simp] theorem Hw.modSig_porstAt (f : Signet → Signet) (hw : Hw) : (hw.modSig f).dev.porstAt = hw.dev.porstAt := rfl
@[simp] theorem Hw.modSig_fuses (f : Signet → Signet) (hw : Hw) : (hw.modSig f).dev.fuses = hw.dev.fuses := rfl
@[simp] theorem Hw.modSig_link (f : Signet → Signet) (hw : Hw) : (hw.modSig f).dev.link = hw.dev.link := rfl
@[simp] theorem Hw.modSig_faultLow (f : Signet → Signet) (hw : Hw) : (hw.modSig f).dev.faultLow = hw.dev.faultLow := rfl
@[simp] theorem Hw.modSig_faultCode (f : Signet → Signet) (hw : Hw) : (hw.modSig f).dev.faultCode = hw.dev.faultCode := rfl
@[simp] theorem Hw.modSig_deviceStop (f : Signet → Signet) (hw : Hw) : (hw.modSig f).dev.deviceStop = hw.dev.deviceStop := rfl
@[simp] theorem Hw.modSig_rails (f : Signet → Signet) (hw : Hw) : (hw.modSig f).dev.rails = hw.dev.rails := rfl
@[simp] theorem Hw.modSig_refclkOk (f : Signet → Signet) (hw : Hw) : (hw.modSig f).dev.refclkOk = hw.dev.refclkOk := rfl
@[simp] theorem Hw.modSig_marginClkOk (f : Signet → Signet) (hw : Hw) : (hw.modSig f).dev.marginClkOk = hw.dev.marginClkOk := rfl
@[simp] theorem Hw.modSig_ucieLock (f : Signet → Signet) (hw : Hw) : (hw.modSig f).dev.ucieLock = hw.dev.ucieLock := rfl
@[simp] theorem Hw.modSig_capDw (f : Signet → Signet) (hw : Hw) : (hw.modSig f).dev.capDw = hw.dev.capDw := rfl
@[simp] theorem Hw.modSig_power (f : Signet → Signet) (hw : Hw) : (hw.modSig f).dev.power = hw.dev.power := rfl
@[simp] theorem Hw.modSig_doubleRefresh (f : Signet → Signet) (hw : Hw) : (hw.modSig f).dev.doubleRefresh = hw.dev.doubleRefresh := rfl
@[simp] theorem Hw.modSig_overAt (f : Signet → Signet) (hw : Hw) : (hw.modSig f).dev.overAt = hw.dev.overAt := rfl

/-! ### bump -/

@[simp] theorem Channel.bump_st (x : Ctr) (n : Nat) (c : Channel) : (c.bump x n).st = c.st := rfl
@[simp] theorem Channel.bump_reason (x : Ctr) (n : Nat) (c : Channel) : (c.bump x n).reason = c.reason := rfl
@[simp] theorem Channel.bump_failSect (x : Ctr) (n : Nat) (c : Channel) : (c.bump x n).failSect = c.failSect := rfl
@[simp] theorem Channel.bump_slot (x : Ctr) (n : Nat) (c : Channel) : (c.bump x n).slot = c.slot := rfl
@[simp] theorem Channel.bump_resv (x : Ctr) (n : Nat) (c : Channel) : (c.bump x n).resv = c.resv := rfl
@[simp] theorem Channel.bump_startMark (x : Ctr) (n : Nat) (c : Channel) : (c.bump x n).startMark = c.startMark := rfl
@[simp] theorem Channel.bump_startUs (x : Ctr) (n : Nat) (c : Channel) : (c.bump x n).startUs = c.startUs := rfl
@[simp] theorem Channel.bump_pins (x : Ctr) (n : Nat) (c : Channel) : (c.bump x n).pins = c.pins := rfl
@[simp] theorem Channel.bump_pinFrom (x : Ctr) (n : Nat) (c : Channel) : (c.bump x n).pinFrom = c.pinFrom := rfl
@[simp] theorem Channel.bump_pinAt (x : Ctr) (n : Nat) (c : Channel) : (c.bump x n).pinAt = c.pinAt := rfl
@[simp] theorem Channel.bump_moved (x : Ctr) (n : Nat) (c : Channel) : (c.bump x n).moved = c.moved := rfl
@[simp] theorem Channel.bump_boot (x : Ctr) (n : Nat) (c : Channel) : (c.bump x n).boot = c.boot := rfl
@[simp] theorem Channel.bump_img (x : Ctr) (n : Nat) (c : Channel) : (c.bump x n).img = c.img := rfl
@[simp] theorem Channel.bump_nvm (x : Ctr) (n : Nat) (c : Channel) : (c.bump x n).nvm = c.nvm := rfl
@[simp] theorem Channel.bump_tb (x : Ctr) (n : Nat) (c : Channel) : (c.bump x n).tb = c.tb := rfl
@[simp] theorem Channel.bump_ts (x : Ctr) (n : Nat) (c : Channel) : (c.bump x n).ts = c.ts := rfl
@[simp] theorem Channel.bump_tick (x : Ctr) (n : Nat) (c : Channel) : (c.bump x n).tick = c.tick := rfl
@[simp] theorem Channel.bump_doubtP (x : Ctr) (n : Nat) (c : Channel) : (c.bump x n).doubtP = c.doubtP := rfl
@[simp] theorem Channel.bump_doubtIn (x : Ctr) (n : Nat) (c : Channel) : (c.bump x n).doubtIn = c.doubtIn := rfl
@[simp] theorem Channel.bump_causesP (x : Ctr) (n : Nat) (c : Channel) : (c.bump x n).causesP = c.causesP := rfl
@[simp] theorem Channel.bump_causesIn (x : Ctr) (n : Nat) (c : Channel) : (c.bump x n).causesIn = c.causesIn := rfl
@[simp] theorem Channel.bump_hbLast (x : Ctr) (n : Nat) (c : Channel) : (c.bump x n).hbLast = c.hbLast := rfl
@[simp] theorem Channel.bump_hbSinceReady (x : Ctr) (n : Nat) (c : Channel) : (c.bump x n).hbSinceReady = c.hbSinceReady := rfl
@[simp] theorem Channel.bump_duct (x : Ctr) (n : Nat) (c : Channel) : (c.bump x n).duct = c.duct := rfl
@[simp] theorem Channel.bump_front (x : Ctr) (n : Nat) (c : Channel) : (c.bump x n).front = c.front := rfl
@[simp] theorem Channel.bump_cal (x : Ctr) (n : Nat) (c : Channel) : (c.bump x n).cal = c.cal := rfl
@[simp] theorem Channel.bump_map (x : Ctr) (n : Nat) (c : Channel) : (c.bump x n).map = c.map := rfl
@[simp] theorem Channel.bump_scribe (x : Ctr) (n : Nat) (c : Channel) : (c.bump x n).scribe = c.scribe := rfl
@[simp] theorem Channel.bump_mrg (x : Ctr) (n : Nat) (c : Channel) : (c.bump x n).mrg = c.mrg := rfl
@[simp] theorem Channel.bump_env (x : Ctr) (n : Nat) (c : Channel) : (c.bump x n).env = c.env := rfl
@[simp] theorem Channel.bump_peer (x : Ctr) (n : Nat) (c : Channel) : (c.bump x n).peer = c.peer := rfl
@[simp] theorem Channel.bump_maint (x : Ctr) (n : Nat) (c : Channel) : (c.bump x n).maint = c.maint := rfl
@[simp] theorem Channel.bump_mon (x : Ctr) (n : Nat) (c : Channel) : (c.bump x n).mon = c.mon := rfl
@[simp] theorem Channel.bump_grd (x : Ctr) (n : Nat) (c : Channel) : (c.bump x n).grd = c.grd := rfl
@[simp] theorem Channel.bump_fenced (x : Ctr) (n : Nat) (c : Channel) : (c.bump x n).fenced = c.fenced := rfl
@[simp] theorem Channel.bump_stopPending (x : Ctr) (n : Nat) (c : Channel) : (c.bump x n).stopPending = c.stopPending := rfl
@[simp] theorem Channel.bump_hbm (x : Ctr) (n : Nat) (c : Channel) : (c.bump x n).hbm = c.hbm := rfl
@[simp] theorem Channel.bump_hbmPoison (x : Ctr) (n : Nat) (c : Channel) : (c.bump x n).hbmPoison = c.hbmPoison := rfl
@[simp] theorem Channel.bump_core (x : Ctr) (n : Nat) (c : Channel) : (c.bump x n).core = c.core := rfl
@[simp] theorem Channel.bump_rings (x : Ctr) (n : Nat) (c : Channel) : (c.bump x n).rings = c.rings := rfl
@[simp] theorem Channel.bump_ringsLoaded (x : Ctr) (n : Nat) (c : Channel) : (c.bump x n).ringsLoaded = c.ringsLoaded := rfl
@[simp] theorem Channel.bump_maintRing (x : Ctr) (n : Nat) (c : Channel) : (c.bump x n).maintRing = c.maintRing := rfl
@[simp] theorem Channel.bump_ctx (x : Ctr) (n : Nat) (c : Channel) : (c.bump x n).ctx = c.ctx := rfl
@[simp] theorem Channel.bump_ctxWait (x : Ctr) (n : Nat) (c : Channel) : (c.bump x n).ctxWait = c.ctxWait := rfl
@[simp] theorem Channel.bump_input (x : Ctr) (n : Nat) (c : Channel) : (c.bump x n).input = c.input := rfl
@[simp] theorem Channel.bump_writes (x : Ctr) (n : Nat) (c : Channel) : (c.bump x n).writes = c.writes := rfl
@[simp] theorem Channel.bump_nextWrite (x : Ctr) (n : Nat) (c : Channel) : (c.bump x n).nextWrite = c.nextWrite := rfl
@[simp] theorem Channel.bump_hairQ (x : Ctr) (n : Nat) (c : Channel) : (c.bump x n).hairQ = c.hairQ := rfl
@[simp] theorem Channel.bump_outq (x : Ctr) (n : Nat) (c : Channel) : (c.bump x n).outq = c.outq := rfl
@[simp] theorem Channel.bump_errq (x : Ctr) (n : Nat) (c : Channel) : (c.bump x n).errq = c.errq := rfl
@[simp] theorem Channel.bump_errNext (x : Ctr) (n : Nat) (c : Channel) : (c.bump x n).errNext = c.errNext := rfl
@[simp] theorem Channel.bump_errSinceKept (x : Ctr) (n : Nat) (c : Channel) : (c.bump x n).errSinceKept = c.errSinceKept := rfl
@[simp] theorem Channel.bump_regHeld (x : Ctr) (n : Nat) (c : Channel) : (c.bump x n).regHeld = c.regHeld := rfl
@[simp] theorem Channel.bump_ctrLat (x : Ctr) (n : Nat) (c : Channel) : (c.bump x n).ctrLat = c.ctrLat := rfl
@[simp] theorem Channel.bump_sticky (x : Ctr) (n : Nat) (c : Channel) : (c.bump x n).sticky = c.sticky := rfl
@[simp] theorem Channel.bump_power (x : Ctr) (n : Nat) (c : Channel) : (c.bump x n).power = c.power := rfl
@[simp] theorem Channel.bump_fresh (x : Ctr) (n : Nat) (c : Channel) : (c.bump x n).fresh = c.fresh := rfl
@[simp] theorem Channel.bump_shut (x : Ctr) (n : Nat) (c : Channel) : (c.bump x n).shut = c.shut := rfl

/-! ### stick -/

@[simp] theorem Channel.stick_st (x : Sticky) (c : Channel) : (c.stick x).st = c.st := rfl
@[simp] theorem Channel.stick_reason (x : Sticky) (c : Channel) : (c.stick x).reason = c.reason := rfl
@[simp] theorem Channel.stick_failSect (x : Sticky) (c : Channel) : (c.stick x).failSect = c.failSect := rfl
@[simp] theorem Channel.stick_slot (x : Sticky) (c : Channel) : (c.stick x).slot = c.slot := rfl
@[simp] theorem Channel.stick_resv (x : Sticky) (c : Channel) : (c.stick x).resv = c.resv := rfl
@[simp] theorem Channel.stick_startMark (x : Sticky) (c : Channel) : (c.stick x).startMark = c.startMark := rfl
@[simp] theorem Channel.stick_startUs (x : Sticky) (c : Channel) : (c.stick x).startUs = c.startUs := rfl
@[simp] theorem Channel.stick_pins (x : Sticky) (c : Channel) : (c.stick x).pins = c.pins := rfl
@[simp] theorem Channel.stick_pinFrom (x : Sticky) (c : Channel) : (c.stick x).pinFrom = c.pinFrom := rfl
@[simp] theorem Channel.stick_pinAt (x : Sticky) (c : Channel) : (c.stick x).pinAt = c.pinAt := rfl
@[simp] theorem Channel.stick_moved (x : Sticky) (c : Channel) : (c.stick x).moved = c.moved := rfl
@[simp] theorem Channel.stick_boot (x : Sticky) (c : Channel) : (c.stick x).boot = c.boot := rfl
@[simp] theorem Channel.stick_img (x : Sticky) (c : Channel) : (c.stick x).img = c.img := rfl
@[simp] theorem Channel.stick_nvm (x : Sticky) (c : Channel) : (c.stick x).nvm = c.nvm := rfl
@[simp] theorem Channel.stick_tb (x : Sticky) (c : Channel) : (c.stick x).tb = c.tb := rfl
@[simp] theorem Channel.stick_ts (x : Sticky) (c : Channel) : (c.stick x).ts = c.ts := rfl
@[simp] theorem Channel.stick_tick (x : Sticky) (c : Channel) : (c.stick x).tick = c.tick := rfl
@[simp] theorem Channel.stick_doubtP (x : Sticky) (c : Channel) : (c.stick x).doubtP = c.doubtP := rfl
@[simp] theorem Channel.stick_doubtIn (x : Sticky) (c : Channel) : (c.stick x).doubtIn = c.doubtIn := rfl
@[simp] theorem Channel.stick_causesP (x : Sticky) (c : Channel) : (c.stick x).causesP = c.causesP := rfl
@[simp] theorem Channel.stick_causesIn (x : Sticky) (c : Channel) : (c.stick x).causesIn = c.causesIn := rfl
@[simp] theorem Channel.stick_hbLast (x : Sticky) (c : Channel) : (c.stick x).hbLast = c.hbLast := rfl
@[simp] theorem Channel.stick_hbSinceReady (x : Sticky) (c : Channel) : (c.stick x).hbSinceReady = c.hbSinceReady := rfl
@[simp] theorem Channel.stick_duct (x : Sticky) (c : Channel) : (c.stick x).duct = c.duct := rfl
@[simp] theorem Channel.stick_front (x : Sticky) (c : Channel) : (c.stick x).front = c.front := rfl
@[simp] theorem Channel.stick_cal (x : Sticky) (c : Channel) : (c.stick x).cal = c.cal := rfl
@[simp] theorem Channel.stick_map (x : Sticky) (c : Channel) : (c.stick x).map = c.map := rfl
@[simp] theorem Channel.stick_scribe (x : Sticky) (c : Channel) : (c.stick x).scribe = c.scribe := rfl
@[simp] theorem Channel.stick_mrg (x : Sticky) (c : Channel) : (c.stick x).mrg = c.mrg := rfl
@[simp] theorem Channel.stick_env (x : Sticky) (c : Channel) : (c.stick x).env = c.env := rfl
@[simp] theorem Channel.stick_peer (x : Sticky) (c : Channel) : (c.stick x).peer = c.peer := rfl
@[simp] theorem Channel.stick_maint (x : Sticky) (c : Channel) : (c.stick x).maint = c.maint := rfl
@[simp] theorem Channel.stick_mon (x : Sticky) (c : Channel) : (c.stick x).mon = c.mon := rfl
@[simp] theorem Channel.stick_grd (x : Sticky) (c : Channel) : (c.stick x).grd = c.grd := rfl
@[simp] theorem Channel.stick_fenced (x : Sticky) (c : Channel) : (c.stick x).fenced = c.fenced := rfl
@[simp] theorem Channel.stick_stopPending (x : Sticky) (c : Channel) : (c.stick x).stopPending = c.stopPending := rfl
@[simp] theorem Channel.stick_hbm (x : Sticky) (c : Channel) : (c.stick x).hbm = c.hbm := rfl
@[simp] theorem Channel.stick_hbmPoison (x : Sticky) (c : Channel) : (c.stick x).hbmPoison = c.hbmPoison := rfl
@[simp] theorem Channel.stick_core (x : Sticky) (c : Channel) : (c.stick x).core = c.core := rfl
@[simp] theorem Channel.stick_rings (x : Sticky) (c : Channel) : (c.stick x).rings = c.rings := rfl
@[simp] theorem Channel.stick_ringsLoaded (x : Sticky) (c : Channel) : (c.stick x).ringsLoaded = c.ringsLoaded := rfl
@[simp] theorem Channel.stick_maintRing (x : Sticky) (c : Channel) : (c.stick x).maintRing = c.maintRing := rfl
@[simp] theorem Channel.stick_ctx (x : Sticky) (c : Channel) : (c.stick x).ctx = c.ctx := rfl
@[simp] theorem Channel.stick_ctxWait (x : Sticky) (c : Channel) : (c.stick x).ctxWait = c.ctxWait := rfl
@[simp] theorem Channel.stick_input (x : Sticky) (c : Channel) : (c.stick x).input = c.input := rfl
@[simp] theorem Channel.stick_writes (x : Sticky) (c : Channel) : (c.stick x).writes = c.writes := rfl
@[simp] theorem Channel.stick_nextWrite (x : Sticky) (c : Channel) : (c.stick x).nextWrite = c.nextWrite := rfl
@[simp] theorem Channel.stick_hairQ (x : Sticky) (c : Channel) : (c.stick x).hairQ = c.hairQ := rfl
@[simp] theorem Channel.stick_outq (x : Sticky) (c : Channel) : (c.stick x).outq = c.outq := rfl
@[simp] theorem Channel.stick_errq (x : Sticky) (c : Channel) : (c.stick x).errq = c.errq := rfl
@[simp] theorem Channel.stick_errNext (x : Sticky) (c : Channel) : (c.stick x).errNext = c.errNext := rfl
@[simp] theorem Channel.stick_errSinceKept (x : Sticky) (c : Channel) : (c.stick x).errSinceKept = c.errSinceKept := rfl
@[simp] theorem Channel.stick_regHeld (x : Sticky) (c : Channel) : (c.stick x).regHeld = c.regHeld := rfl
@[simp] theorem Channel.stick_ctr (x : Sticky) (c : Channel) : (c.stick x).ctr = c.ctr := rfl
@[simp] theorem Channel.stick_ctrLat (x : Sticky) (c : Channel) : (c.stick x).ctrLat = c.ctrLat := rfl
@[simp] theorem Channel.stick_power (x : Sticky) (c : Channel) : (c.stick x).power = c.power := rfl
@[simp] theorem Channel.stick_fresh (x : Sticky) (c : Channel) : (c.stick x).fresh = some x :: c.fresh := rfl
@[simp] theorem Channel.stick_shut (x : Sticky) (c : Channel) : (c.stick x).shut = c.shut := rfl

/-! ### unstick -/

/-! ### Pins -/

@[simp] theorem Channel.setPins_st (now : Nat) (q : Pins) (c : Channel) : (c.setPins now q).st = c.st := rfl
@[simp] theorem Channel.setPins_reason (now : Nat) (q : Pins) (c : Channel) : (c.setPins now q).reason = c.reason := rfl
@[simp] theorem Channel.setPins_failSect (now : Nat) (q : Pins) (c : Channel) : (c.setPins now q).failSect = c.failSect := rfl
@[simp] theorem Channel.setPins_slot (now : Nat) (q : Pins) (c : Channel) : (c.setPins now q).slot = c.slot := rfl
@[simp] theorem Channel.setPins_resv (now : Nat) (q : Pins) (c : Channel) : (c.setPins now q).resv = c.resv := rfl
@[simp] theorem Channel.setPins_startMark (now : Nat) (q : Pins) (c : Channel) : (c.setPins now q).startMark = c.startMark := rfl
@[simp] theorem Channel.setPins_startUs (now : Nat) (q : Pins) (c : Channel) : (c.setPins now q).startUs = c.startUs := rfl
@[simp] theorem Channel.setPins_moved (now : Nat) (q : Pins) (c : Channel) : (c.setPins now q).moved = c.moved := rfl
@[simp] theorem Channel.setPins_boot (now : Nat) (q : Pins) (c : Channel) : (c.setPins now q).boot = c.boot := rfl
@[simp] theorem Channel.setPins_img (now : Nat) (q : Pins) (c : Channel) : (c.setPins now q).img = c.img := rfl
@[simp] theorem Channel.setPins_nvm (now : Nat) (q : Pins) (c : Channel) : (c.setPins now q).nvm = c.nvm := rfl
@[simp] theorem Channel.setPins_tb (now : Nat) (q : Pins) (c : Channel) : (c.setPins now q).tb = c.tb := rfl
@[simp] theorem Channel.setPins_ts (now : Nat) (q : Pins) (c : Channel) : (c.setPins now q).ts = c.ts := rfl
@[simp] theorem Channel.setPins_tick (now : Nat) (q : Pins) (c : Channel) : (c.setPins now q).tick = c.tick := rfl
@[simp] theorem Channel.setPins_doubtP (now : Nat) (q : Pins) (c : Channel) : (c.setPins now q).doubtP = c.doubtP := rfl
@[simp] theorem Channel.setPins_doubtIn (now : Nat) (q : Pins) (c : Channel) : (c.setPins now q).doubtIn = c.doubtIn := rfl
@[simp] theorem Channel.setPins_causesP (now : Nat) (q : Pins) (c : Channel) : (c.setPins now q).causesP = c.causesP := rfl
@[simp] theorem Channel.setPins_causesIn (now : Nat) (q : Pins) (c : Channel) : (c.setPins now q).causesIn = c.causesIn := rfl
@[simp] theorem Channel.setPins_hbLast (now : Nat) (q : Pins) (c : Channel) : (c.setPins now q).hbLast = c.hbLast := rfl
@[simp] theorem Channel.setPins_hbSinceReady (now : Nat) (q : Pins) (c : Channel) : (c.setPins now q).hbSinceReady = c.hbSinceReady := rfl
@[simp] theorem Channel.setPins_duct (now : Nat) (q : Pins) (c : Channel) : (c.setPins now q).duct = c.duct := rfl
@[simp] theorem Channel.setPins_front (now : Nat) (q : Pins) (c : Channel) : (c.setPins now q).front = c.front := rfl
@[simp] theorem Channel.setPins_cal (now : Nat) (q : Pins) (c : Channel) : (c.setPins now q).cal = c.cal := rfl
@[simp] theorem Channel.setPins_map (now : Nat) (q : Pins) (c : Channel) : (c.setPins now q).map = c.map := rfl
@[simp] theorem Channel.setPins_scribe (now : Nat) (q : Pins) (c : Channel) : (c.setPins now q).scribe = c.scribe := rfl
@[simp] theorem Channel.setPins_mrg (now : Nat) (q : Pins) (c : Channel) : (c.setPins now q).mrg = c.mrg := rfl
@[simp] theorem Channel.setPins_env (now : Nat) (q : Pins) (c : Channel) : (c.setPins now q).env = c.env := rfl
@[simp] theorem Channel.setPins_peer (now : Nat) (q : Pins) (c : Channel) : (c.setPins now q).peer = c.peer := rfl
@[simp] theorem Channel.setPins_maint (now : Nat) (q : Pins) (c : Channel) : (c.setPins now q).maint = c.maint := rfl
@[simp] theorem Channel.setPins_mon (now : Nat) (q : Pins) (c : Channel) : (c.setPins now q).mon = c.mon := rfl
@[simp] theorem Channel.setPins_grd (now : Nat) (q : Pins) (c : Channel) : (c.setPins now q).grd = c.grd := rfl
@[simp] theorem Channel.setPins_fenced (now : Nat) (q : Pins) (c : Channel) : (c.setPins now q).fenced = c.fenced := rfl
@[simp] theorem Channel.setPins_stopPending (now : Nat) (q : Pins) (c : Channel) : (c.setPins now q).stopPending = c.stopPending := rfl
@[simp] theorem Channel.setPins_hbm (now : Nat) (q : Pins) (c : Channel) : (c.setPins now q).hbm = c.hbm := rfl
@[simp] theorem Channel.setPins_hbmPoison (now : Nat) (q : Pins) (c : Channel) : (c.setPins now q).hbmPoison = c.hbmPoison := rfl
@[simp] theorem Channel.setPins_core (now : Nat) (q : Pins) (c : Channel) : (c.setPins now q).core = c.core := rfl
@[simp] theorem Channel.setPins_rings (now : Nat) (q : Pins) (c : Channel) : (c.setPins now q).rings = c.rings := rfl
@[simp] theorem Channel.setPins_ringsLoaded (now : Nat) (q : Pins) (c : Channel) : (c.setPins now q).ringsLoaded = c.ringsLoaded := rfl
@[simp] theorem Channel.setPins_maintRing (now : Nat) (q : Pins) (c : Channel) : (c.setPins now q).maintRing = c.maintRing := rfl
@[simp] theorem Channel.setPins_ctx (now : Nat) (q : Pins) (c : Channel) : (c.setPins now q).ctx = c.ctx := rfl
@[simp] theorem Channel.setPins_ctxWait (now : Nat) (q : Pins) (c : Channel) : (c.setPins now q).ctxWait = c.ctxWait := rfl
@[simp] theorem Channel.setPins_input (now : Nat) (q : Pins) (c : Channel) : (c.setPins now q).input = c.input := rfl
@[simp] theorem Channel.setPins_writes (now : Nat) (q : Pins) (c : Channel) : (c.setPins now q).writes = c.writes := rfl
@[simp] theorem Channel.setPins_nextWrite (now : Nat) (q : Pins) (c : Channel) : (c.setPins now q).nextWrite = c.nextWrite := rfl
@[simp] theorem Channel.setPins_hairQ (now : Nat) (q : Pins) (c : Channel) : (c.setPins now q).hairQ = c.hairQ := rfl
@[simp] theorem Channel.setPins_outq (now : Nat) (q : Pins) (c : Channel) : (c.setPins now q).outq = c.outq := rfl
@[simp] theorem Channel.setPins_errq (now : Nat) (q : Pins) (c : Channel) : (c.setPins now q).errq = c.errq := rfl
@[simp] theorem Channel.setPins_errNext (now : Nat) (q : Pins) (c : Channel) : (c.setPins now q).errNext = c.errNext := rfl
@[simp] theorem Channel.setPins_errSinceKept (now : Nat) (q : Pins) (c : Channel) : (c.setPins now q).errSinceKept = c.errSinceKept := rfl
@[simp] theorem Channel.setPins_regHeld (now : Nat) (q : Pins) (c : Channel) : (c.setPins now q).regHeld = c.regHeld := rfl
@[simp] theorem Channel.setPins_ctr (now : Nat) (q : Pins) (c : Channel) : (c.setPins now q).ctr = c.ctr := rfl
@[simp] theorem Channel.setPins_ctrLat (now : Nat) (q : Pins) (c : Channel) : (c.setPins now q).ctrLat = c.ctrLat := rfl
@[simp] theorem Channel.setPins_power (now : Nat) (q : Pins) (c : Channel) : (c.setPins now q).power = c.power := rfl
@[simp] theorem Channel.setPins_fresh (now : Nat) (q : Pins) (c : Channel) : (c.setPins now q).fresh = c.fresh := rfl
@[simp] theorem Channel.setPins_shut (now : Nat) (q : Pins) (c : Channel) : (c.setPins now q).shut = c.shut := rfl
@[simp] theorem Channel.setPins_sticky (now : Nat) (q : Pins) (c : Channel) : (c.setPins now q).sticky = c.sticky := rfl
@[simp] theorem Channel.setPins_pins (now : Nat) (q : Pins) (c : Channel) : (c.setPins now q).pins = q := rfl
@[simp] theorem Channel.setPins_pinAt (now : Nat) (q : Pins) (c : Channel) : (c.setPins now q).pinAt = now := rfl

@[simp] theorem Channel.unstick_st (x : Sticky) (c : Channel) : (c.unstick x).st = c.st := rfl
@[simp] theorem Channel.unstick_reason (x : Sticky) (c : Channel) : (c.unstick x).reason = c.reason := rfl
@[simp] theorem Channel.unstick_failSect (x : Sticky) (c : Channel) : (c.unstick x).failSect = c.failSect := rfl
@[simp] theorem Channel.unstick_slot (x : Sticky) (c : Channel) : (c.unstick x).slot = c.slot := rfl
@[simp] theorem Channel.unstick_resv (x : Sticky) (c : Channel) : (c.unstick x).resv = c.resv := rfl
@[simp] theorem Channel.unstick_startMark (x : Sticky) (c : Channel) : (c.unstick x).startMark = c.startMark := rfl
@[simp] theorem Channel.unstick_startUs (x : Sticky) (c : Channel) : (c.unstick x).startUs = c.startUs := rfl
@[simp] theorem Channel.unstick_pins (x : Sticky) (c : Channel) : (c.unstick x).pins = c.pins := rfl
@[simp] theorem Channel.unstick_pinFrom (x : Sticky) (c : Channel) : (c.unstick x).pinFrom = c.pinFrom := rfl
@[simp] theorem Channel.unstick_pinAt (x : Sticky) (c : Channel) : (c.unstick x).pinAt = c.pinAt := rfl
@[simp] theorem Channel.unstick_moved (x : Sticky) (c : Channel) : (c.unstick x).moved = c.moved := rfl
@[simp] theorem Channel.unstick_boot (x : Sticky) (c : Channel) : (c.unstick x).boot = c.boot := rfl
@[simp] theorem Channel.unstick_img (x : Sticky) (c : Channel) : (c.unstick x).img = c.img := rfl
@[simp] theorem Channel.unstick_nvm (x : Sticky) (c : Channel) : (c.unstick x).nvm = c.nvm := rfl
@[simp] theorem Channel.unstick_tb (x : Sticky) (c : Channel) : (c.unstick x).tb = c.tb := rfl
@[simp] theorem Channel.unstick_ts (x : Sticky) (c : Channel) : (c.unstick x).ts = c.ts := rfl
@[simp] theorem Channel.unstick_tick (x : Sticky) (c : Channel) : (c.unstick x).tick = c.tick := rfl
@[simp] theorem Channel.unstick_doubtP (x : Sticky) (c : Channel) : (c.unstick x).doubtP = c.doubtP := rfl
@[simp] theorem Channel.unstick_doubtIn (x : Sticky) (c : Channel) : (c.unstick x).doubtIn = c.doubtIn := rfl
@[simp] theorem Channel.unstick_causesP (x : Sticky) (c : Channel) : (c.unstick x).causesP = c.causesP := rfl
@[simp] theorem Channel.unstick_causesIn (x : Sticky) (c : Channel) : (c.unstick x).causesIn = c.causesIn := rfl
@[simp] theorem Channel.unstick_hbLast (x : Sticky) (c : Channel) : (c.unstick x).hbLast = c.hbLast := rfl
@[simp] theorem Channel.unstick_hbSinceReady (x : Sticky) (c : Channel) : (c.unstick x).hbSinceReady = c.hbSinceReady := rfl
@[simp] theorem Channel.unstick_duct (x : Sticky) (c : Channel) : (c.unstick x).duct = c.duct := rfl
@[simp] theorem Channel.unstick_front (x : Sticky) (c : Channel) : (c.unstick x).front = c.front := rfl
@[simp] theorem Channel.unstick_cal (x : Sticky) (c : Channel) : (c.unstick x).cal = c.cal := rfl
@[simp] theorem Channel.unstick_map (x : Sticky) (c : Channel) : (c.unstick x).map = c.map := rfl
@[simp] theorem Channel.unstick_scribe (x : Sticky) (c : Channel) : (c.unstick x).scribe = c.scribe := rfl
@[simp] theorem Channel.unstick_mrg (x : Sticky) (c : Channel) : (c.unstick x).mrg = c.mrg := rfl
@[simp] theorem Channel.unstick_env (x : Sticky) (c : Channel) : (c.unstick x).env = c.env := rfl
@[simp] theorem Channel.unstick_peer (x : Sticky) (c : Channel) : (c.unstick x).peer = c.peer := rfl
@[simp] theorem Channel.unstick_maint (x : Sticky) (c : Channel) : (c.unstick x).maint = c.maint := rfl
@[simp] theorem Channel.unstick_mon (x : Sticky) (c : Channel) : (c.unstick x).mon = c.mon := rfl
@[simp] theorem Channel.unstick_grd (x : Sticky) (c : Channel) : (c.unstick x).grd = c.grd := rfl
@[simp] theorem Channel.unstick_fenced (x : Sticky) (c : Channel) : (c.unstick x).fenced = c.fenced := rfl
@[simp] theorem Channel.unstick_stopPending (x : Sticky) (c : Channel) : (c.unstick x).stopPending = c.stopPending := rfl
@[simp] theorem Channel.unstick_hbm (x : Sticky) (c : Channel) : (c.unstick x).hbm = c.hbm := rfl
@[simp] theorem Channel.unstick_hbmPoison (x : Sticky) (c : Channel) : (c.unstick x).hbmPoison = c.hbmPoison := rfl
@[simp] theorem Channel.unstick_core (x : Sticky) (c : Channel) : (c.unstick x).core = c.core := rfl
@[simp] theorem Channel.unstick_rings (x : Sticky) (c : Channel) : (c.unstick x).rings = c.rings := rfl
@[simp] theorem Channel.unstick_ringsLoaded (x : Sticky) (c : Channel) : (c.unstick x).ringsLoaded = c.ringsLoaded := rfl
@[simp] theorem Channel.unstick_maintRing (x : Sticky) (c : Channel) : (c.unstick x).maintRing = c.maintRing := rfl
@[simp] theorem Channel.unstick_ctx (x : Sticky) (c : Channel) : (c.unstick x).ctx = c.ctx := rfl
@[simp] theorem Channel.unstick_ctxWait (x : Sticky) (c : Channel) : (c.unstick x).ctxWait = c.ctxWait := rfl
@[simp] theorem Channel.unstick_input (x : Sticky) (c : Channel) : (c.unstick x).input = c.input := rfl
@[simp] theorem Channel.unstick_writes (x : Sticky) (c : Channel) : (c.unstick x).writes = c.writes := rfl
@[simp] theorem Channel.unstick_nextWrite (x : Sticky) (c : Channel) : (c.unstick x).nextWrite = c.nextWrite := rfl
@[simp] theorem Channel.unstick_hairQ (x : Sticky) (c : Channel) : (c.unstick x).hairQ = c.hairQ := rfl
@[simp] theorem Channel.unstick_outq (x : Sticky) (c : Channel) : (c.unstick x).outq = c.outq := rfl
@[simp] theorem Channel.unstick_errq (x : Sticky) (c : Channel) : (c.unstick x).errq = c.errq := rfl
@[simp] theorem Channel.unstick_errNext (x : Sticky) (c : Channel) : (c.unstick x).errNext = c.errNext := rfl
@[simp] theorem Channel.unstick_errSinceKept (x : Sticky) (c : Channel) : (c.unstick x).errSinceKept = c.errSinceKept := rfl
@[simp] theorem Channel.unstick_regHeld (x : Sticky) (c : Channel) : (c.unstick x).regHeld = c.regHeld := rfl
@[simp] theorem Channel.unstick_ctr (x : Sticky) (c : Channel) : (c.unstick x).ctr = c.ctr := rfl
@[simp] theorem Channel.unstick_ctrLat (x : Sticky) (c : Channel) : (c.unstick x).ctrLat = c.ctrLat := rfl
@[simp] theorem Channel.unstick_power (x : Sticky) (c : Channel) : (c.unstick x).power = c.power := rfl
@[simp] theorem Channel.unstick_fresh (x : Sticky) (c : Channel) : (c.unstick x).fresh = c.fresh := rfl
@[simp] theorem Channel.unstick_shut (x : Sticky) (c : Channel) : (c.unstick x).shut = c.shut := rfl

/-! ### doubt -/

@[simp] theorem Channel.doubt_st (d : Doubt) (c : Channel) : (c.doubt d).st = c.st := rfl
@[simp] theorem Channel.doubt_reason (d : Doubt) (c : Channel) : (c.doubt d).reason = c.reason := rfl
@[simp] theorem Channel.doubt_failSect (d : Doubt) (c : Channel) : (c.doubt d).failSect = c.failSect := rfl
@[simp] theorem Channel.doubt_slot (d : Doubt) (c : Channel) : (c.doubt d).slot = c.slot := rfl
@[simp] theorem Channel.doubt_resv (d : Doubt) (c : Channel) : (c.doubt d).resv = c.resv := rfl
@[simp] theorem Channel.doubt_startMark (d : Doubt) (c : Channel) : (c.doubt d).startMark = c.startMark := rfl
@[simp] theorem Channel.doubt_startUs (d : Doubt) (c : Channel) : (c.doubt d).startUs = c.startUs := rfl
@[simp] theorem Channel.doubt_pins (d : Doubt) (c : Channel) : (c.doubt d).pins = c.pins := rfl
@[simp] theorem Channel.doubt_pinFrom (d : Doubt) (c : Channel) : (c.doubt d).pinFrom = c.pinFrom := rfl
@[simp] theorem Channel.doubt_pinAt (d : Doubt) (c : Channel) : (c.doubt d).pinAt = c.pinAt := rfl
@[simp] theorem Channel.doubt_moved (d : Doubt) (c : Channel) : (c.doubt d).moved = c.moved := rfl
@[simp] theorem Channel.doubt_boot (d : Doubt) (c : Channel) : (c.doubt d).boot = c.boot := rfl
@[simp] theorem Channel.doubt_img (d : Doubt) (c : Channel) : (c.doubt d).img = c.img := rfl
@[simp] theorem Channel.doubt_nvm (d : Doubt) (c : Channel) : (c.doubt d).nvm = c.nvm := rfl
@[simp] theorem Channel.doubt_tb (d : Doubt) (c : Channel) : (c.doubt d).tb = c.tb := rfl
@[simp] theorem Channel.doubt_ts (d : Doubt) (c : Channel) : (c.doubt d).ts = c.ts := rfl
@[simp] theorem Channel.doubt_tick (d : Doubt) (c : Channel) : (c.doubt d).tick = c.tick := rfl
@[simp] theorem Channel.doubt_doubtIn (d : Doubt) (c : Channel) : (c.doubt d).doubtIn = c.doubtIn := rfl
@[simp] theorem Channel.doubt_causesP (d : Doubt) (c : Channel) : (c.doubt d).causesP = c.causesP := rfl
@[simp] theorem Channel.doubt_causesIn (d : Doubt) (c : Channel) : (c.doubt d).causesIn = c.causesIn := rfl
@[simp] theorem Channel.doubt_hbLast (d : Doubt) (c : Channel) : (c.doubt d).hbLast = c.hbLast := rfl
@[simp] theorem Channel.doubt_hbSinceReady (d : Doubt) (c : Channel) : (c.doubt d).hbSinceReady = c.hbSinceReady := rfl
@[simp] theorem Channel.doubt_duct (d : Doubt) (c : Channel) : (c.doubt d).duct = c.duct := rfl
@[simp] theorem Channel.doubt_front (d : Doubt) (c : Channel) : (c.doubt d).front = c.front := rfl
@[simp] theorem Channel.doubt_cal (d : Doubt) (c : Channel) : (c.doubt d).cal = c.cal := rfl
@[simp] theorem Channel.doubt_map (d : Doubt) (c : Channel) : (c.doubt d).map = c.map := rfl
@[simp] theorem Channel.doubt_scribe (d : Doubt) (c : Channel) : (c.doubt d).scribe = c.scribe := rfl
@[simp] theorem Channel.doubt_mrg (d : Doubt) (c : Channel) : (c.doubt d).mrg = c.mrg := rfl
@[simp] theorem Channel.doubt_env (d : Doubt) (c : Channel) : (c.doubt d).env = c.env := rfl
@[simp] theorem Channel.doubt_peer (d : Doubt) (c : Channel) : (c.doubt d).peer = c.peer := rfl
@[simp] theorem Channel.doubt_maint (d : Doubt) (c : Channel) : (c.doubt d).maint = c.maint := rfl
@[simp] theorem Channel.doubt_mon (d : Doubt) (c : Channel) : (c.doubt d).mon = c.mon := rfl
@[simp] theorem Channel.doubt_grd (d : Doubt) (c : Channel) : (c.doubt d).grd = c.grd := rfl
@[simp] theorem Channel.doubt_fenced (d : Doubt) (c : Channel) : (c.doubt d).fenced = c.fenced := rfl
@[simp] theorem Channel.doubt_stopPending (d : Doubt) (c : Channel) : (c.doubt d).stopPending = c.stopPending := rfl
@[simp] theorem Channel.doubt_hbm (d : Doubt) (c : Channel) : (c.doubt d).hbm = c.hbm := rfl
@[simp] theorem Channel.doubt_hbmPoison (d : Doubt) (c : Channel) : (c.doubt d).hbmPoison = c.hbmPoison := rfl
@[simp] theorem Channel.doubt_core (d : Doubt) (c : Channel) : (c.doubt d).core = c.core := rfl
@[simp] theorem Channel.doubt_rings (d : Doubt) (c : Channel) : (c.doubt d).rings = c.rings := rfl
@[simp] theorem Channel.doubt_ringsLoaded (d : Doubt) (c : Channel) : (c.doubt d).ringsLoaded = c.ringsLoaded := rfl
@[simp] theorem Channel.doubt_maintRing (d : Doubt) (c : Channel) : (c.doubt d).maintRing = c.maintRing := rfl
@[simp] theorem Channel.doubt_ctx (d : Doubt) (c : Channel) : (c.doubt d).ctx = c.ctx := rfl
@[simp] theorem Channel.doubt_ctxWait (d : Doubt) (c : Channel) : (c.doubt d).ctxWait = c.ctxWait := rfl
@[simp] theorem Channel.doubt_input (d : Doubt) (c : Channel) : (c.doubt d).input = c.input := rfl
@[simp] theorem Channel.doubt_writes (d : Doubt) (c : Channel) : (c.doubt d).writes = c.writes := rfl
@[simp] theorem Channel.doubt_nextWrite (d : Doubt) (c : Channel) : (c.doubt d).nextWrite = c.nextWrite := rfl
@[simp] theorem Channel.doubt_hairQ (d : Doubt) (c : Channel) : (c.doubt d).hairQ = c.hairQ := rfl
@[simp] theorem Channel.doubt_outq (d : Doubt) (c : Channel) : (c.doubt d).outq = c.outq := rfl
@[simp] theorem Channel.doubt_errq (d : Doubt) (c : Channel) : (c.doubt d).errq = c.errq := rfl
@[simp] theorem Channel.doubt_errNext (d : Doubt) (c : Channel) : (c.doubt d).errNext = c.errNext := rfl
@[simp] theorem Channel.doubt_errSinceKept (d : Doubt) (c : Channel) : (c.doubt d).errSinceKept = c.errSinceKept := rfl
@[simp] theorem Channel.doubt_regHeld (d : Doubt) (c : Channel) : (c.doubt d).regHeld = c.regHeld := rfl
@[simp] theorem Channel.doubt_ctr (d : Doubt) (c : Channel) : (c.doubt d).ctr = c.ctr := rfl
@[simp] theorem Channel.doubt_ctrLat (d : Doubt) (c : Channel) : (c.doubt d).ctrLat = c.ctrLat := rfl
@[simp] theorem Channel.doubt_sticky (d : Doubt) (c : Channel) : (c.doubt d).sticky = c.sticky := rfl
@[simp] theorem Channel.doubt_power (d : Doubt) (c : Channel) : (c.doubt d).power = c.power := rfl
@[simp] theorem Channel.doubt_fresh (d : Doubt) (c : Channel) : (c.doubt d).fresh = c.fresh := rfl
@[simp] theorem Channel.doubt_shut (d : Doubt) (c : Channel) : (c.doubt d).shut = c.shut := rfl

/-! ### doubtInput -/

@[simp] theorem Channel.doubtInput_st (d : Doubt) (c : Channel) : (c.doubtInput d).st = c.st := rfl
@[simp] theorem Channel.doubtInput_reason (d : Doubt) (c : Channel) : (c.doubtInput d).reason = c.reason := rfl
@[simp] theorem Channel.doubtInput_failSect (d : Doubt) (c : Channel) : (c.doubtInput d).failSect = c.failSect := rfl
@[simp] theorem Channel.doubtInput_slot (d : Doubt) (c : Channel) : (c.doubtInput d).slot = c.slot := rfl
@[simp] theorem Channel.doubtInput_resv (d : Doubt) (c : Channel) : (c.doubtInput d).resv = c.resv := rfl
@[simp] theorem Channel.doubtInput_startMark (d : Doubt) (c : Channel) : (c.doubtInput d).startMark = c.startMark := rfl
@[simp] theorem Channel.doubtInput_startUs (d : Doubt) (c : Channel) : (c.doubtInput d).startUs = c.startUs := rfl
@[simp] theorem Channel.doubtInput_pins (d : Doubt) (c : Channel) : (c.doubtInput d).pins = c.pins := rfl
@[simp] theorem Channel.doubtInput_pinFrom (d : Doubt) (c : Channel) : (c.doubtInput d).pinFrom = c.pinFrom := rfl
@[simp] theorem Channel.doubtInput_pinAt (d : Doubt) (c : Channel) : (c.doubtInput d).pinAt = c.pinAt := rfl
@[simp] theorem Channel.doubtInput_moved (d : Doubt) (c : Channel) : (c.doubtInput d).moved = c.moved := rfl
@[simp] theorem Channel.doubtInput_boot (d : Doubt) (c : Channel) : (c.doubtInput d).boot = c.boot := rfl
@[simp] theorem Channel.doubtInput_img (d : Doubt) (c : Channel) : (c.doubtInput d).img = c.img := rfl
@[simp] theorem Channel.doubtInput_nvm (d : Doubt) (c : Channel) : (c.doubtInput d).nvm = c.nvm := rfl
@[simp] theorem Channel.doubtInput_tb (d : Doubt) (c : Channel) : (c.doubtInput d).tb = c.tb := rfl
@[simp] theorem Channel.doubtInput_ts (d : Doubt) (c : Channel) : (c.doubtInput d).ts = c.ts := rfl
@[simp] theorem Channel.doubtInput_tick (d : Doubt) (c : Channel) : (c.doubtInput d).tick = c.tick := rfl
@[simp] theorem Channel.doubtInput_doubtP (d : Doubt) (c : Channel) : (c.doubtInput d).doubtP = c.doubtP := rfl
@[simp] theorem Channel.doubtInput_causesP (d : Doubt) (c : Channel) : (c.doubtInput d).causesP = c.causesP := rfl
@[simp] theorem Channel.doubtInput_causesIn (d : Doubt) (c : Channel) : (c.doubtInput d).causesIn = c.causesIn := rfl
@[simp] theorem Channel.doubtInput_hbLast (d : Doubt) (c : Channel) : (c.doubtInput d).hbLast = c.hbLast := rfl
@[simp] theorem Channel.doubtInput_hbSinceReady (d : Doubt) (c : Channel) : (c.doubtInput d).hbSinceReady = c.hbSinceReady := rfl
@[simp] theorem Channel.doubtInput_duct (d : Doubt) (c : Channel) : (c.doubtInput d).duct = c.duct := rfl
@[simp] theorem Channel.doubtInput_front (d : Doubt) (c : Channel) : (c.doubtInput d).front = c.front := rfl
@[simp] theorem Channel.doubtInput_cal (d : Doubt) (c : Channel) : (c.doubtInput d).cal = c.cal := rfl
@[simp] theorem Channel.doubtInput_map (d : Doubt) (c : Channel) : (c.doubtInput d).map = c.map := rfl
@[simp] theorem Channel.doubtInput_scribe (d : Doubt) (c : Channel) : (c.doubtInput d).scribe = c.scribe := rfl
@[simp] theorem Channel.doubtInput_mrg (d : Doubt) (c : Channel) : (c.doubtInput d).mrg = c.mrg := rfl
@[simp] theorem Channel.doubtInput_env (d : Doubt) (c : Channel) : (c.doubtInput d).env = c.env := rfl
@[simp] theorem Channel.doubtInput_peer (d : Doubt) (c : Channel) : (c.doubtInput d).peer = c.peer := rfl
@[simp] theorem Channel.doubtInput_maint (d : Doubt) (c : Channel) : (c.doubtInput d).maint = c.maint := rfl
@[simp] theorem Channel.doubtInput_mon (d : Doubt) (c : Channel) : (c.doubtInput d).mon = c.mon := rfl
@[simp] theorem Channel.doubtInput_grd (d : Doubt) (c : Channel) : (c.doubtInput d).grd = c.grd := rfl
@[simp] theorem Channel.doubtInput_fenced (d : Doubt) (c : Channel) : (c.doubtInput d).fenced = c.fenced := rfl
@[simp] theorem Channel.doubtInput_stopPending (d : Doubt) (c : Channel) : (c.doubtInput d).stopPending = c.stopPending := rfl
@[simp] theorem Channel.doubtInput_hbm (d : Doubt) (c : Channel) : (c.doubtInput d).hbm = c.hbm := rfl
@[simp] theorem Channel.doubtInput_hbmPoison (d : Doubt) (c : Channel) : (c.doubtInput d).hbmPoison = c.hbmPoison := rfl
@[simp] theorem Channel.doubtInput_core (d : Doubt) (c : Channel) : (c.doubtInput d).core = c.core := rfl
@[simp] theorem Channel.doubtInput_rings (d : Doubt) (c : Channel) : (c.doubtInput d).rings = c.rings := rfl
@[simp] theorem Channel.doubtInput_ringsLoaded (d : Doubt) (c : Channel) : (c.doubtInput d).ringsLoaded = c.ringsLoaded := rfl
@[simp] theorem Channel.doubtInput_maintRing (d : Doubt) (c : Channel) : (c.doubtInput d).maintRing = c.maintRing := rfl
@[simp] theorem Channel.doubtInput_ctx (d : Doubt) (c : Channel) : (c.doubtInput d).ctx = c.ctx := rfl
@[simp] theorem Channel.doubtInput_ctxWait (d : Doubt) (c : Channel) : (c.doubtInput d).ctxWait = c.ctxWait := rfl
@[simp] theorem Channel.doubtInput_input (d : Doubt) (c : Channel) : (c.doubtInput d).input = c.input := rfl
@[simp] theorem Channel.doubtInput_writes (d : Doubt) (c : Channel) : (c.doubtInput d).writes = c.writes := rfl
@[simp] theorem Channel.doubtInput_nextWrite (d : Doubt) (c : Channel) : (c.doubtInput d).nextWrite = c.nextWrite := rfl
@[simp] theorem Channel.doubtInput_hairQ (d : Doubt) (c : Channel) : (c.doubtInput d).hairQ = c.hairQ := rfl
@[simp] theorem Channel.doubtInput_outq (d : Doubt) (c : Channel) : (c.doubtInput d).outq = c.outq := rfl
@[simp] theorem Channel.doubtInput_errq (d : Doubt) (c : Channel) : (c.doubtInput d).errq = c.errq := rfl
@[simp] theorem Channel.doubtInput_errNext (d : Doubt) (c : Channel) : (c.doubtInput d).errNext = c.errNext := rfl
@[simp] theorem Channel.doubtInput_errSinceKept (d : Doubt) (c : Channel) : (c.doubtInput d).errSinceKept = c.errSinceKept := rfl
@[simp] theorem Channel.doubtInput_regHeld (d : Doubt) (c : Channel) : (c.doubtInput d).regHeld = c.regHeld := rfl
@[simp] theorem Channel.doubtInput_ctr (d : Doubt) (c : Channel) : (c.doubtInput d).ctr = c.ctr := rfl
@[simp] theorem Channel.doubtInput_ctrLat (d : Doubt) (c : Channel) : (c.doubtInput d).ctrLat = c.ctrLat := rfl
@[simp] theorem Channel.doubtInput_sticky (d : Doubt) (c : Channel) : (c.doubtInput d).sticky = c.sticky := rfl
@[simp] theorem Channel.doubtInput_power (d : Doubt) (c : Channel) : (c.doubtInput d).power = c.power := rfl
@[simp] theorem Channel.doubtInput_fresh (d : Doubt) (c : Channel) : (c.doubtInput d).fresh = c.fresh := rfl
@[simp] theorem Channel.doubtInput_shut (d : Doubt) (c : Channel) : (c.doubtInput d).shut = c.shut := rfl

/-! ### modCore -/

@[simp] theorem Channel.modCore_st (j : Nat) (f : CoreMem → CoreMem) (c : Channel) : (c.modCore j f).st = c.st := rfl
@[simp] theorem Channel.modCore_reason (j : Nat) (f : CoreMem → CoreMem) (c : Channel) : (c.modCore j f).reason = c.reason := rfl
@[simp] theorem Channel.modCore_failSect (j : Nat) (f : CoreMem → CoreMem) (c : Channel) : (c.modCore j f).failSect = c.failSect := rfl
@[simp] theorem Channel.modCore_slot (j : Nat) (f : CoreMem → CoreMem) (c : Channel) : (c.modCore j f).slot = c.slot := rfl
@[simp] theorem Channel.modCore_resv (j : Nat) (f : CoreMem → CoreMem) (c : Channel) : (c.modCore j f).resv = c.resv := rfl
@[simp] theorem Channel.modCore_startMark (j : Nat) (f : CoreMem → CoreMem) (c : Channel) : (c.modCore j f).startMark = c.startMark := rfl
@[simp] theorem Channel.modCore_startUs (j : Nat) (f : CoreMem → CoreMem) (c : Channel) : (c.modCore j f).startUs = c.startUs := rfl
@[simp] theorem Channel.modCore_pins (j : Nat) (f : CoreMem → CoreMem) (c : Channel) : (c.modCore j f).pins = c.pins := rfl
@[simp] theorem Channel.modCore_pinFrom (j : Nat) (f : CoreMem → CoreMem) (c : Channel) : (c.modCore j f).pinFrom = c.pinFrom := rfl
@[simp] theorem Channel.modCore_pinAt (j : Nat) (f : CoreMem → CoreMem) (c : Channel) : (c.modCore j f).pinAt = c.pinAt := rfl
@[simp] theorem Channel.modCore_moved (j : Nat) (f : CoreMem → CoreMem) (c : Channel) : (c.modCore j f).moved = c.moved := rfl
@[simp] theorem Channel.modCore_boot (j : Nat) (f : CoreMem → CoreMem) (c : Channel) : (c.modCore j f).boot = c.boot := rfl
@[simp] theorem Channel.modCore_img (j : Nat) (f : CoreMem → CoreMem) (c : Channel) : (c.modCore j f).img = c.img := rfl
@[simp] theorem Channel.modCore_nvm (j : Nat) (f : CoreMem → CoreMem) (c : Channel) : (c.modCore j f).nvm = c.nvm := rfl
@[simp] theorem Channel.modCore_tb (j : Nat) (f : CoreMem → CoreMem) (c : Channel) : (c.modCore j f).tb = c.tb := rfl
@[simp] theorem Channel.modCore_ts (j : Nat) (f : CoreMem → CoreMem) (c : Channel) : (c.modCore j f).ts = c.ts := rfl
@[simp] theorem Channel.modCore_tick (j : Nat) (f : CoreMem → CoreMem) (c : Channel) : (c.modCore j f).tick = c.tick := rfl
@[simp] theorem Channel.modCore_doubtP (j : Nat) (f : CoreMem → CoreMem) (c : Channel) : (c.modCore j f).doubtP = c.doubtP := rfl
@[simp] theorem Channel.modCore_doubtIn (j : Nat) (f : CoreMem → CoreMem) (c : Channel) : (c.modCore j f).doubtIn = c.doubtIn := rfl
@[simp] theorem Channel.modCore_causesP (j : Nat) (f : CoreMem → CoreMem) (c : Channel) : (c.modCore j f).causesP = c.causesP := rfl
@[simp] theorem Channel.modCore_causesIn (j : Nat) (f : CoreMem → CoreMem) (c : Channel) : (c.modCore j f).causesIn = c.causesIn := rfl
@[simp] theorem Channel.modCore_hbLast (j : Nat) (f : CoreMem → CoreMem) (c : Channel) : (c.modCore j f).hbLast = c.hbLast := rfl
@[simp] theorem Channel.modCore_hbSinceReady (j : Nat) (f : CoreMem → CoreMem) (c : Channel) : (c.modCore j f).hbSinceReady = c.hbSinceReady := rfl
@[simp] theorem Channel.modCore_duct (j : Nat) (f : CoreMem → CoreMem) (c : Channel) : (c.modCore j f).duct = c.duct := rfl
@[simp] theorem Channel.modCore_front (j : Nat) (f : CoreMem → CoreMem) (c : Channel) : (c.modCore j f).front = c.front := rfl
@[simp] theorem Channel.modCore_cal (j : Nat) (f : CoreMem → CoreMem) (c : Channel) : (c.modCore j f).cal = c.cal := rfl
@[simp] theorem Channel.modCore_map (j : Nat) (f : CoreMem → CoreMem) (c : Channel) : (c.modCore j f).map = c.map := rfl
@[simp] theorem Channel.modCore_scribe (j : Nat) (f : CoreMem → CoreMem) (c : Channel) : (c.modCore j f).scribe = c.scribe := rfl
@[simp] theorem Channel.modCore_mrg (j : Nat) (f : CoreMem → CoreMem) (c : Channel) : (c.modCore j f).mrg = c.mrg := rfl
@[simp] theorem Channel.modCore_env (j : Nat) (f : CoreMem → CoreMem) (c : Channel) : (c.modCore j f).env = c.env := rfl
@[simp] theorem Channel.modCore_peer (j : Nat) (f : CoreMem → CoreMem) (c : Channel) : (c.modCore j f).peer = c.peer := rfl
@[simp] theorem Channel.modCore_maint (j : Nat) (f : CoreMem → CoreMem) (c : Channel) : (c.modCore j f).maint = c.maint := rfl
@[simp] theorem Channel.modCore_mon (j : Nat) (f : CoreMem → CoreMem) (c : Channel) : (c.modCore j f).mon = c.mon := rfl
@[simp] theorem Channel.modCore_grd (j : Nat) (f : CoreMem → CoreMem) (c : Channel) : (c.modCore j f).grd = c.grd := rfl
@[simp] theorem Channel.modCore_fenced (j : Nat) (f : CoreMem → CoreMem) (c : Channel) : (c.modCore j f).fenced = c.fenced := rfl
@[simp] theorem Channel.modCore_stopPending (j : Nat) (f : CoreMem → CoreMem) (c : Channel) : (c.modCore j f).stopPending = c.stopPending := rfl
@[simp] theorem Channel.modCore_hbm (j : Nat) (f : CoreMem → CoreMem) (c : Channel) : (c.modCore j f).hbm = c.hbm := rfl
@[simp] theorem Channel.modCore_hbmPoison (j : Nat) (f : CoreMem → CoreMem) (c : Channel) : (c.modCore j f).hbmPoison = c.hbmPoison := rfl
@[simp] theorem Channel.modCore_rings (j : Nat) (f : CoreMem → CoreMem) (c : Channel) : (c.modCore j f).rings = c.rings := rfl
@[simp] theorem Channel.modCore_ringsLoaded (j : Nat) (f : CoreMem → CoreMem) (c : Channel) : (c.modCore j f).ringsLoaded = c.ringsLoaded := rfl
@[simp] theorem Channel.modCore_maintRing (j : Nat) (f : CoreMem → CoreMem) (c : Channel) : (c.modCore j f).maintRing = c.maintRing := rfl
@[simp] theorem Channel.modCore_ctx (j : Nat) (f : CoreMem → CoreMem) (c : Channel) : (c.modCore j f).ctx = c.ctx := rfl
@[simp] theorem Channel.modCore_ctxWait (j : Nat) (f : CoreMem → CoreMem) (c : Channel) : (c.modCore j f).ctxWait = c.ctxWait := rfl
@[simp] theorem Channel.modCore_input (j : Nat) (f : CoreMem → CoreMem) (c : Channel) : (c.modCore j f).input = c.input := rfl
@[simp] theorem Channel.modCore_writes (j : Nat) (f : CoreMem → CoreMem) (c : Channel) : (c.modCore j f).writes = c.writes := rfl
@[simp] theorem Channel.modCore_nextWrite (j : Nat) (f : CoreMem → CoreMem) (c : Channel) : (c.modCore j f).nextWrite = c.nextWrite := rfl
@[simp] theorem Channel.modCore_hairQ (j : Nat) (f : CoreMem → CoreMem) (c : Channel) : (c.modCore j f).hairQ = c.hairQ := rfl
@[simp] theorem Channel.modCore_outq (j : Nat) (f : CoreMem → CoreMem) (c : Channel) : (c.modCore j f).outq = c.outq := rfl
@[simp] theorem Channel.modCore_errq (j : Nat) (f : CoreMem → CoreMem) (c : Channel) : (c.modCore j f).errq = c.errq := rfl
@[simp] theorem Channel.modCore_errNext (j : Nat) (f : CoreMem → CoreMem) (c : Channel) : (c.modCore j f).errNext = c.errNext := rfl
@[simp] theorem Channel.modCore_errSinceKept (j : Nat) (f : CoreMem → CoreMem) (c : Channel) : (c.modCore j f).errSinceKept = c.errSinceKept := rfl
@[simp] theorem Channel.modCore_regHeld (j : Nat) (f : CoreMem → CoreMem) (c : Channel) : (c.modCore j f).regHeld = c.regHeld := rfl
@[simp] theorem Channel.modCore_ctr (j : Nat) (f : CoreMem → CoreMem) (c : Channel) : (c.modCore j f).ctr = c.ctr := rfl
@[simp] theorem Channel.modCore_ctrLat (j : Nat) (f : CoreMem → CoreMem) (c : Channel) : (c.modCore j f).ctrLat = c.ctrLat := rfl
@[simp] theorem Channel.modCore_sticky (j : Nat) (f : CoreMem → CoreMem) (c : Channel) : (c.modCore j f).sticky = c.sticky := rfl
@[simp] theorem Channel.modCore_power (j : Nat) (f : CoreMem → CoreMem) (c : Channel) : (c.modCore j f).power = c.power := rfl
@[simp] theorem Channel.modCore_fresh (j : Nat) (f : CoreMem → CoreMem) (c : Channel) : (c.modCore j f).fresh = c.fresh := rfl
@[simp] theorem Channel.modCore_shut (j : Nat) (f : CoreMem → CoreMem) (c : Channel) : (c.modCore j f).shut = c.shut := rfl

/-! ### advance -/

@[simp] theorem Channel.advance_st (dt : Nat) (c : Channel) : (c.advance dt).st = c.st := by
  unfold Channel.advance; split <;> rfl
@[simp] theorem Channel.advance_reason (dt : Nat) (c : Channel) : (c.advance dt).reason = c.reason := by
  unfold Channel.advance; split <;> rfl
@[simp] theorem Channel.advance_failSect (dt : Nat) (c : Channel) : (c.advance dt).failSect = c.failSect := by
  unfold Channel.advance; split <;> rfl
@[simp] theorem Channel.advance_slot (dt : Nat) (c : Channel) : (c.advance dt).slot = c.slot := by
  unfold Channel.advance; split <;> rfl
@[simp] theorem Channel.advance_resv (dt : Nat) (c : Channel) : (c.advance dt).resv = c.resv := by
  unfold Channel.advance; split <;> rfl
@[simp] theorem Channel.advance_startMark (dt : Nat) (c : Channel) : (c.advance dt).startMark = c.startMark := by
  unfold Channel.advance; split <;> rfl
@[simp] theorem Channel.advance_startUs (dt : Nat) (c : Channel) : (c.advance dt).startUs = c.startUs := by
  unfold Channel.advance; split <;> rfl
@[simp] theorem Channel.advance_pins (dt : Nat) (c : Channel) : (c.advance dt).pins = c.pins := by
  unfold Channel.advance; split <;> rfl
@[simp] theorem Channel.advance_pinFrom (dt : Nat) (c : Channel) : (c.advance dt).pinFrom = c.pinFrom := by
  unfold Channel.advance; split <;> rfl
@[simp] theorem Channel.advance_pinAt (dt : Nat) (c : Channel) : (c.advance dt).pinAt = c.pinAt := by
  unfold Channel.advance; split <;> rfl
@[simp] theorem Channel.advance_moved (dt : Nat) (c : Channel) : (c.advance dt).moved = c.moved := by
  unfold Channel.advance; split <;> rfl
@[simp] theorem Channel.advance_boot (dt : Nat) (c : Channel) : (c.advance dt).boot = c.boot := by
  unfold Channel.advance; split <;> rfl
@[simp] theorem Channel.advance_img (dt : Nat) (c : Channel) : (c.advance dt).img = c.img := by
  unfold Channel.advance; split <;> rfl
@[simp] theorem Channel.advance_nvm (dt : Nat) (c : Channel) : (c.advance dt).nvm = c.nvm := by
  unfold Channel.advance; split <;> rfl
@[simp] theorem Channel.advance_ts (dt : Nat) (c : Channel) : (c.advance dt).ts = c.ts := by
  unfold Channel.advance; split <;> rfl
@[simp] theorem Channel.advance_tick (dt : Nat) (c : Channel) : (c.advance dt).tick = c.tick := by
  unfold Channel.advance; split <;> rfl
@[simp] theorem Channel.advance_doubtP (dt : Nat) (c : Channel) : (c.advance dt).doubtP = c.doubtP := by
  unfold Channel.advance; split <;> rfl
@[simp] theorem Channel.advance_doubtIn (dt : Nat) (c : Channel) : (c.advance dt).doubtIn = c.doubtIn := by
  unfold Channel.advance; split <;> rfl
@[simp] theorem Channel.advance_causesP (dt : Nat) (c : Channel) : (c.advance dt).causesP = c.causesP := by
  unfold Channel.advance; split <;> rfl
@[simp] theorem Channel.advance_causesIn (dt : Nat) (c : Channel) : (c.advance dt).causesIn = c.causesIn := by
  unfold Channel.advance; split <;> rfl
@[simp] theorem Channel.advance_hbLast (dt : Nat) (c : Channel) : (c.advance dt).hbLast = c.hbLast := by
  unfold Channel.advance; split <;> rfl
@[simp] theorem Channel.advance_hbSinceReady (dt : Nat) (c : Channel) : (c.advance dt).hbSinceReady = c.hbSinceReady := by
  unfold Channel.advance; split <;> rfl
@[simp] theorem Channel.advance_duct (dt : Nat) (c : Channel) : (c.advance dt).duct = c.duct := by
  unfold Channel.advance; split <;> rfl
@[simp] theorem Channel.advance_front (dt : Nat) (c : Channel) : (c.advance dt).front = c.front := by
  unfold Channel.advance; split <;> rfl
@[simp] theorem Channel.advance_cal (dt : Nat) (c : Channel) : (c.advance dt).cal = c.cal := by
  unfold Channel.advance; split <;> rfl
@[simp] theorem Channel.advance_map (dt : Nat) (c : Channel) : (c.advance dt).map = c.map := by
  unfold Channel.advance; split <;> rfl
@[simp] theorem Channel.advance_scribe (dt : Nat) (c : Channel) : (c.advance dt).scribe = c.scribe := by
  unfold Channel.advance; split <;> rfl
@[simp] theorem Channel.advance_mrg (dt : Nat) (c : Channel) : (c.advance dt).mrg = c.mrg := by
  unfold Channel.advance; split <;> rfl
@[simp] theorem Channel.advance_env (dt : Nat) (c : Channel) : (c.advance dt).env = c.env := by
  unfold Channel.advance; split <;> rfl
@[simp] theorem Channel.advance_peer (dt : Nat) (c : Channel) : (c.advance dt).peer = c.peer := by
  unfold Channel.advance; split <;> rfl
@[simp] theorem Channel.advance_maint (dt : Nat) (c : Channel) : (c.advance dt).maint = c.maint := by
  unfold Channel.advance; split <;> rfl
@[simp] theorem Channel.advance_mon (dt : Nat) (c : Channel) : (c.advance dt).mon = c.mon := by
  unfold Channel.advance; split <;> rfl
@[simp] theorem Channel.advance_grd (dt : Nat) (c : Channel) : (c.advance dt).grd = c.grd := by
  unfold Channel.advance; split <;> rfl
@[simp] theorem Channel.advance_fenced (dt : Nat) (c : Channel) : (c.advance dt).fenced = c.fenced := by
  unfold Channel.advance; split <;> rfl
@[simp] theorem Channel.advance_stopPending (dt : Nat) (c : Channel) : (c.advance dt).stopPending = c.stopPending := by
  unfold Channel.advance; split <;> rfl
@[simp] theorem Channel.advance_hbm (dt : Nat) (c : Channel) : (c.advance dt).hbm = c.hbm := by
  unfold Channel.advance; split <;> rfl
@[simp] theorem Channel.advance_hbmPoison (dt : Nat) (c : Channel) : (c.advance dt).hbmPoison = c.hbmPoison := by
  unfold Channel.advance; split <;> rfl
@[simp] theorem Channel.advance_core (dt : Nat) (c : Channel) : (c.advance dt).core = c.core := by
  unfold Channel.advance; split <;> rfl
@[simp] theorem Channel.advance_rings (dt : Nat) (c : Channel) : (c.advance dt).rings = c.rings := by
  unfold Channel.advance; split <;> rfl
@[simp] theorem Channel.advance_ringsLoaded (dt : Nat) (c : Channel) : (c.advance dt).ringsLoaded = c.ringsLoaded := by
  unfold Channel.advance; split <;> rfl
@[simp] theorem Channel.advance_maintRing (dt : Nat) (c : Channel) : (c.advance dt).maintRing = c.maintRing := by
  unfold Channel.advance; split <;> rfl
@[simp] theorem Channel.advance_ctx (dt : Nat) (c : Channel) : (c.advance dt).ctx = c.ctx := by
  unfold Channel.advance; split <;> rfl
@[simp] theorem Channel.advance_ctxWait (dt : Nat) (c : Channel) : (c.advance dt).ctxWait = c.ctxWait := by
  unfold Channel.advance; split <;> rfl
@[simp] theorem Channel.advance_input (dt : Nat) (c : Channel) : (c.advance dt).input = c.input := by
  unfold Channel.advance; split <;> rfl
@[simp] theorem Channel.advance_writes (dt : Nat) (c : Channel) : (c.advance dt).writes = c.writes := by
  unfold Channel.advance; split <;> rfl
@[simp] theorem Channel.advance_nextWrite (dt : Nat) (c : Channel) : (c.advance dt).nextWrite = c.nextWrite := by
  unfold Channel.advance; split <;> rfl
@[simp] theorem Channel.advance_hairQ (dt : Nat) (c : Channel) : (c.advance dt).hairQ = c.hairQ := by
  unfold Channel.advance; split <;> rfl
@[simp] theorem Channel.advance_outq (dt : Nat) (c : Channel) : (c.advance dt).outq = c.outq := by
  unfold Channel.advance; split <;> rfl
@[simp] theorem Channel.advance_errq (dt : Nat) (c : Channel) : (c.advance dt).errq = c.errq := by
  unfold Channel.advance; split <;> rfl
@[simp] theorem Channel.advance_errNext (dt : Nat) (c : Channel) : (c.advance dt).errNext = c.errNext := by
  unfold Channel.advance; split <;> rfl
@[simp] theorem Channel.advance_errSinceKept (dt : Nat) (c : Channel) : (c.advance dt).errSinceKept = c.errSinceKept := by
  unfold Channel.advance; split <;> rfl
@[simp] theorem Channel.advance_regHeld (dt : Nat) (c : Channel) : (c.advance dt).regHeld = c.regHeld := by
  unfold Channel.advance; split <;> rfl
@[simp] theorem Channel.advance_ctr (dt : Nat) (c : Channel) : (c.advance dt).ctr = c.ctr := by
  unfold Channel.advance; split <;> rfl
@[simp] theorem Channel.advance_ctrLat (dt : Nat) (c : Channel) : (c.advance dt).ctrLat = c.ctrLat := by
  unfold Channel.advance; split <;> rfl
@[simp] theorem Channel.advance_sticky (dt : Nat) (c : Channel) : (c.advance dt).sticky = c.sticky := by
  unfold Channel.advance; split <;> rfl
@[simp] theorem Channel.advance_power (dt : Nat) (c : Channel) : (c.advance dt).power = c.power := by
  unfold Channel.advance; split <;> rfl
@[simp] theorem Channel.advance_fresh (dt : Nat) (c : Channel) : (c.advance dt).fresh = c.freshAfter dt := by
  unfold Channel.advance; split <;> rfl
@[simp] theorem Channel.advance_shut (dt : Nat) (c : Channel) : (c.advance dt).shut = c.shutAfter dt := by
  unfold Channel.advance; split <;> rfl

/-- What `putErr` may change, and nothing else. -/
theorem Channel.putErr_form (r : ErrRec) (c : Channel) :
    ∃ q n k ctr st, c.putErr r = { c with errq := q, errNext := n, errSinceKept := k, ctr := ctr, sticky := st, fresh := some r.severity.summary :: c.fresh } := by
  unfold Channel.putErr
  dsimp only
  split
  · exact ⟨_, _, _, _, _, rfl⟩
  · split
    · exact ⟨_, _, _, _, _, rfl⟩
    · split
      · exact ⟨_, _, _, _, _, rfl⟩
      · exact ⟨_, _, _, _, _, rfl⟩

/-! ### putErr -/

@[simp] theorem Channel.putErr_st (r : ErrRec) (c : Channel) : (c.putErr r).st = c.st := by
  obtain ⟨_, _, _, _, _, h⟩ := c.putErr_form r; rw [h]
@[simp] theorem Channel.putErr_reason (r : ErrRec) (c : Channel) : (c.putErr r).reason = c.reason := by
  obtain ⟨_, _, _, _, _, h⟩ := c.putErr_form r; rw [h]
@[simp] theorem Channel.putErr_failSect (r : ErrRec) (c : Channel) : (c.putErr r).failSect = c.failSect := by
  obtain ⟨_, _, _, _, _, h⟩ := c.putErr_form r; rw [h]
@[simp] theorem Channel.putErr_slot (r : ErrRec) (c : Channel) : (c.putErr r).slot = c.slot := by
  obtain ⟨_, _, _, _, _, h⟩ := c.putErr_form r; rw [h]
@[simp] theorem Channel.putErr_resv (r : ErrRec) (c : Channel) : (c.putErr r).resv = c.resv := by
  obtain ⟨_, _, _, _, _, h⟩ := c.putErr_form r; rw [h]
@[simp] theorem Channel.putErr_startMark (r : ErrRec) (c : Channel) : (c.putErr r).startMark = c.startMark := by
  obtain ⟨_, _, _, _, _, h⟩ := c.putErr_form r; rw [h]
@[simp] theorem Channel.putErr_startUs (r : ErrRec) (c : Channel) : (c.putErr r).startUs = c.startUs := by
  obtain ⟨_, _, _, _, _, h⟩ := c.putErr_form r; rw [h]
@[simp] theorem Channel.putErr_pins (r : ErrRec) (c : Channel) : (c.putErr r).pins = c.pins := by
  obtain ⟨_, _, _, _, _, h⟩ := c.putErr_form r; rw [h]
@[simp] theorem Channel.putErr_pinFrom (r : ErrRec) (c : Channel) : (c.putErr r).pinFrom = c.pinFrom := by
  obtain ⟨_, _, _, _, _, h⟩ := c.putErr_form r; rw [h]
@[simp] theorem Channel.putErr_pinAt (r : ErrRec) (c : Channel) : (c.putErr r).pinAt = c.pinAt := by
  obtain ⟨_, _, _, _, _, h⟩ := c.putErr_form r; rw [h]
@[simp] theorem Channel.putErr_moved (r : ErrRec) (c : Channel) : (c.putErr r).moved = c.moved := by
  obtain ⟨_, _, _, _, _, h⟩ := c.putErr_form r; rw [h]
@[simp] theorem Channel.putErr_boot (r : ErrRec) (c : Channel) : (c.putErr r).boot = c.boot := by
  obtain ⟨_, _, _, _, _, h⟩ := c.putErr_form r; rw [h]
@[simp] theorem Channel.putErr_img (r : ErrRec) (c : Channel) : (c.putErr r).img = c.img := by
  obtain ⟨_, _, _, _, _, h⟩ := c.putErr_form r; rw [h]
@[simp] theorem Channel.putErr_nvm (r : ErrRec) (c : Channel) : (c.putErr r).nvm = c.nvm := by
  obtain ⟨_, _, _, _, _, h⟩ := c.putErr_form r; rw [h]
@[simp] theorem Channel.putErr_tb (r : ErrRec) (c : Channel) : (c.putErr r).tb = c.tb := by
  obtain ⟨_, _, _, _, _, h⟩ := c.putErr_form r; rw [h]
@[simp] theorem Channel.putErr_ts (r : ErrRec) (c : Channel) : (c.putErr r).ts = c.ts := by
  obtain ⟨_, _, _, _, _, h⟩ := c.putErr_form r; rw [h]
@[simp] theorem Channel.putErr_tick (r : ErrRec) (c : Channel) : (c.putErr r).tick = c.tick := by
  obtain ⟨_, _, _, _, _, h⟩ := c.putErr_form r; rw [h]
@[simp] theorem Channel.putErr_doubtP (r : ErrRec) (c : Channel) : (c.putErr r).doubtP = c.doubtP := by
  obtain ⟨_, _, _, _, _, h⟩ := c.putErr_form r; rw [h]
@[simp] theorem Channel.putErr_doubtIn (r : ErrRec) (c : Channel) : (c.putErr r).doubtIn = c.doubtIn := by
  obtain ⟨_, _, _, _, _, h⟩ := c.putErr_form r; rw [h]
@[simp] theorem Channel.putErr_causesP (r : ErrRec) (c : Channel) : (c.putErr r).causesP = c.causesP := by
  obtain ⟨_, _, _, _, _, h⟩ := c.putErr_form r; rw [h]
@[simp] theorem Channel.putErr_causesIn (r : ErrRec) (c : Channel) : (c.putErr r).causesIn = c.causesIn := by
  obtain ⟨_, _, _, _, _, h⟩ := c.putErr_form r; rw [h]
@[simp] theorem Channel.putErr_hbLast (r : ErrRec) (c : Channel) : (c.putErr r).hbLast = c.hbLast := by
  obtain ⟨_, _, _, _, _, h⟩ := c.putErr_form r; rw [h]
@[simp] theorem Channel.putErr_hbSinceReady (r : ErrRec) (c : Channel) : (c.putErr r).hbSinceReady = c.hbSinceReady := by
  obtain ⟨_, _, _, _, _, h⟩ := c.putErr_form r; rw [h]
@[simp] theorem Channel.putErr_duct (r : ErrRec) (c : Channel) : (c.putErr r).duct = c.duct := by
  obtain ⟨_, _, _, _, _, h⟩ := c.putErr_form r; rw [h]
@[simp] theorem Channel.putErr_front (r : ErrRec) (c : Channel) : (c.putErr r).front = c.front := by
  obtain ⟨_, _, _, _, _, h⟩ := c.putErr_form r; rw [h]
@[simp] theorem Channel.putErr_cal (r : ErrRec) (c : Channel) : (c.putErr r).cal = c.cal := by
  obtain ⟨_, _, _, _, _, h⟩ := c.putErr_form r; rw [h]
@[simp] theorem Channel.putErr_map (r : ErrRec) (c : Channel) : (c.putErr r).map = c.map := by
  obtain ⟨_, _, _, _, _, h⟩ := c.putErr_form r; rw [h]
@[simp] theorem Channel.putErr_scribe (r : ErrRec) (c : Channel) : (c.putErr r).scribe = c.scribe := by
  obtain ⟨_, _, _, _, _, h⟩ := c.putErr_form r; rw [h]
@[simp] theorem Channel.putErr_mrg (r : ErrRec) (c : Channel) : (c.putErr r).mrg = c.mrg := by
  obtain ⟨_, _, _, _, _, h⟩ := c.putErr_form r; rw [h]
@[simp] theorem Channel.putErr_env (r : ErrRec) (c : Channel) : (c.putErr r).env = c.env := by
  obtain ⟨_, _, _, _, _, h⟩ := c.putErr_form r; rw [h]
@[simp] theorem Channel.putErr_peer (r : ErrRec) (c : Channel) : (c.putErr r).peer = c.peer := by
  obtain ⟨_, _, _, _, _, h⟩ := c.putErr_form r; rw [h]
@[simp] theorem Channel.putErr_maint (r : ErrRec) (c : Channel) : (c.putErr r).maint = c.maint := by
  obtain ⟨_, _, _, _, _, h⟩ := c.putErr_form r; rw [h]
@[simp] theorem Channel.putErr_mon (r : ErrRec) (c : Channel) : (c.putErr r).mon = c.mon := by
  obtain ⟨_, _, _, _, _, h⟩ := c.putErr_form r; rw [h]
@[simp] theorem Channel.putErr_grd (r : ErrRec) (c : Channel) : (c.putErr r).grd = c.grd := by
  obtain ⟨_, _, _, _, _, h⟩ := c.putErr_form r; rw [h]
@[simp] theorem Channel.putErr_fenced (r : ErrRec) (c : Channel) : (c.putErr r).fenced = c.fenced := by
  obtain ⟨_, _, _, _, _, h⟩ := c.putErr_form r; rw [h]
@[simp] theorem Channel.putErr_stopPending (r : ErrRec) (c : Channel) : (c.putErr r).stopPending = c.stopPending := by
  obtain ⟨_, _, _, _, _, h⟩ := c.putErr_form r; rw [h]
@[simp] theorem Channel.putErr_hbm (r : ErrRec) (c : Channel) : (c.putErr r).hbm = c.hbm := by
  obtain ⟨_, _, _, _, _, h⟩ := c.putErr_form r; rw [h]
@[simp] theorem Channel.putErr_hbmPoison (r : ErrRec) (c : Channel) : (c.putErr r).hbmPoison = c.hbmPoison := by
  obtain ⟨_, _, _, _, _, h⟩ := c.putErr_form r; rw [h]
@[simp] theorem Channel.putErr_core (r : ErrRec) (c : Channel) : (c.putErr r).core = c.core := by
  obtain ⟨_, _, _, _, _, h⟩ := c.putErr_form r; rw [h]
@[simp] theorem Channel.putErr_rings (r : ErrRec) (c : Channel) : (c.putErr r).rings = c.rings := by
  obtain ⟨_, _, _, _, _, h⟩ := c.putErr_form r; rw [h]
@[simp] theorem Channel.putErr_ringsLoaded (r : ErrRec) (c : Channel) : (c.putErr r).ringsLoaded = c.ringsLoaded := by
  obtain ⟨_, _, _, _, _, h⟩ := c.putErr_form r; rw [h]
@[simp] theorem Channel.putErr_maintRing (r : ErrRec) (c : Channel) : (c.putErr r).maintRing = c.maintRing := by
  obtain ⟨_, _, _, _, _, h⟩ := c.putErr_form r; rw [h]
@[simp] theorem Channel.putErr_ctx (r : ErrRec) (c : Channel) : (c.putErr r).ctx = c.ctx := by
  obtain ⟨_, _, _, _, _, h⟩ := c.putErr_form r; rw [h]
@[simp] theorem Channel.putErr_ctxWait (r : ErrRec) (c : Channel) : (c.putErr r).ctxWait = c.ctxWait := by
  obtain ⟨_, _, _, _, _, h⟩ := c.putErr_form r; rw [h]
@[simp] theorem Channel.putErr_input (r : ErrRec) (c : Channel) : (c.putErr r).input = c.input := by
  obtain ⟨_, _, _, _, _, h⟩ := c.putErr_form r; rw [h]
@[simp] theorem Channel.putErr_writes (r : ErrRec) (c : Channel) : (c.putErr r).writes = c.writes := by
  obtain ⟨_, _, _, _, _, h⟩ := c.putErr_form r; rw [h]
@[simp] theorem Channel.putErr_nextWrite (r : ErrRec) (c : Channel) : (c.putErr r).nextWrite = c.nextWrite := by
  obtain ⟨_, _, _, _, _, h⟩ := c.putErr_form r; rw [h]
@[simp] theorem Channel.putErr_hairQ (r : ErrRec) (c : Channel) : (c.putErr r).hairQ = c.hairQ := by
  obtain ⟨_, _, _, _, _, h⟩ := c.putErr_form r; rw [h]
@[simp] theorem Channel.putErr_outq (r : ErrRec) (c : Channel) : (c.putErr r).outq = c.outq := by
  obtain ⟨_, _, _, _, _, h⟩ := c.putErr_form r; rw [h]
@[simp] theorem Channel.putErr_regHeld (r : ErrRec) (c : Channel) : (c.putErr r).regHeld = c.regHeld := by
  obtain ⟨_, _, _, _, _, h⟩ := c.putErr_form r; rw [h]
@[simp] theorem Channel.putErr_ctrLat (r : ErrRec) (c : Channel) : (c.putErr r).ctrLat = c.ctrLat := by
  obtain ⟨_, _, _, _, _, h⟩ := c.putErr_form r; rw [h]
@[simp] theorem Channel.putErr_power (r : ErrRec) (c : Channel) : (c.putErr r).power = c.power := by
  obtain ⟨_, _, _, _, _, h⟩ := c.putErr_form r; rw [h]
@[simp] theorem Channel.putErr_fresh (r : ErrRec) (c : Channel) : (c.putErr r).fresh = some r.severity.summary :: c.fresh := by
  obtain ⟨_, _, _, _, _, h⟩ := c.putErr_form r; rw [h]
@[simp] theorem Channel.putErr_shut (r : ErrRec) (c : Channel) : (c.putErr r).shut = c.shut := by
  obtain ⟨_, _, _, _, _, h⟩ := c.putErr_form r; rw [h]

end Sys2Proof.Machine
end

