-- ==== Sys2Proof/Laws/Ops.lean ====
section
/-! SUPPORT. What each shared operation can do, said once: memories keep their canonical form and read back what was written,
records and packets touch one channel and the Signet's log, a change of state changes what R345, R485 and R422 name. -/
namespace Sys2Proof.Machine

/-! ### Memories -/

namespace Cells

/-- Every address of `m` is at least `a`. -/
def above (a : Nat) (m : Cells) : Prop := ∀ c ∈ m, a ≤ c.1
/-- Every address of `m` is below `a`. -/
def below (a : Nat) (m : Cells) : Prop := ∀ c ∈ m, c.1 < a

theorem wf_tail {d : Byte} {c : Host.Cell} {m : Cells} (h : wf d (c :: m) = true) : wf d m = true := by
  cases m with
  | nil => rfl
  | cons c' cs => simp [wf] at h; exact h.2
theorem wf_head {d : Byte} {c : Host.Cell} {m : Cells} (h : wf d (c :: m) = true) : c.2 ≠ d := by
  cases m with
  | nil => simpa [wf] using h
  | cons c' cs => simp [wf] at h; exact h.1.1
theorem wf_above {d : Byte} {c : Host.Cell} {m : Cells} (h : wf d (c :: m) = true) : above (c.1 + 1) m := by
  induction m generalizing c with
  | nil => intro x hx; cases hx
  | cons c' cs ih =>
    have hlt : c.1 < c'.1 := by simp [wf] at h; exact h.1.2
    intro x hx
    rcases List.mem_cons.mp hx with rfl | hx
    · exact hlt
    · have := ih (wf_tail h) x hx; omega
/-- Canonical lists by their head. -/
theorem wf_cons {d : Byte} {c : Host.Cell} {m : Cells} : wf d (c :: m) = true ↔ c.2 ≠ d ∧ above (c.1 + 1) m ∧ wf d m = true := by
  constructor
  · intro h; exact ⟨wf_head h, wf_above h, wf_tail h⟩
  · rintro ⟨h1, h2, h3⟩
    cases m with
    | nil => simpa [wf] using h1
    | cons c' cs =>
      have := h2 c' (by simp)
      simp [wf, h1, h3]; omega

theorem wf_append {d : Byte} {a : Nat} {l r : Cells} (hl : wf d l = true) (hr : wf d r = true) (h1 : below a l) (h2 : above a r) :
    wf d (l ++ r) = true := by
  induction l with
  | nil => simpa using hr
  | cons c cs ih =>
    rw [List.cons_append, wf_cons]
    obtain ⟨hh, ha, ht⟩ := wf_cons.mp hl
    refine ⟨hh, ?_, ih ht fun x hx => h1 x (List.mem_cons_of_mem _ hx)⟩
    intro x hx
    rcases List.mem_append.mp hx with hx | hx
    · exact ha x hx
    · have := h2 x hx; have := h1 c (by simp); omega

theorem wf_takeWhile {d : Byte} (p : Host.Cell → Bool) {m : Cells} (h : wf d m = true) : wf d (m.takeWhile p) = true := by
  induction m with
  | nil => rfl
  | cons c cs ih =>
    obtain ⟨hh, ha, ht⟩ := wf_cons.mp h
    rw [List.takeWhile_cons]
    split
    · exact wf_cons.mpr ⟨hh, fun x hx => ha x (List.takeWhile_sublist p |>.subset hx), ih ht⟩
    · rfl
theorem wf_dropWhile {d : Byte} (p : Host.Cell → Bool) {m : Cells} (h : wf d m = true) : wf d (m.dropWhile p) = true := by
  induction m with
  | nil => rfl
  | cons c cs ih =>
    rw [List.dropWhile_cons]
    split
    · exact ih (wf_tail h)
    · exact h
theorem below_takeWhile (a : Nat) (m : Cells) : below a (m.takeWhile (·.1 < a)) := by
  induction m with
  | nil => intro x hx; cases hx
  | cons c cs ih =>
    intro x hx
    rw [List.takeWhile_cons] at hx
    split at hx
    · rename_i hc
      rcases List.mem_cons.mp hx with rfl | hx
      · simpa using hc
      · exact ih x hx
    · cases hx
theorem above_dropWhile {d : Byte} (a : Nat) {m : Cells} (h : wf d m = true) : above a (m.dropWhile (·.1 < a)) := by
  induction m with
  | nil => intro x hx; cases hx
  | cons c cs ih =>
    intro x hx
    rw [List.dropWhile_cons] at hx
    split at hx
    · exact ih (wf_tail h) x hx
    · rename_i hc
      have hc : a ≤ c.1 := by simpa using hc
      rcases List.mem_cons.mp hx with rfl | hx
      · exact hc
      · have := wf_above h x hx; omega
theorem above_ofBytes (d : Byte) (a : Nat) (bs : List Byte) : above a (ofBytes d a bs) := by
  induction bs generalizing a with
  | nil => intro x hx; cases hx
  | cons b bs ih =>
    intro x hx
    simp only [ofBytes] at hx
    split at hx
    · have := ih (a + 1) x hx; omega
    · rcases List.mem_cons.mp hx with rfl | hx
      · exact Nat.le_refl _
      · have := ih (a + 1) x hx; omega
theorem below_ofBytes (d : Byte) (a : Nat) (bs : List Byte) : below (a + bs.length) (ofBytes d a bs) := by
  induction bs generalizing a with
  | nil => intro x hx; cases hx
  | cons b bs ih =>
    intro x hx
    simp only [ofBytes] at hx
    simp only [List.length_cons]
    split at hx
    · have := ih (a + 1) x hx; omega
    · rcases List.mem_cons.mp hx with rfl | hx
      · show a < _; omega
      · have := ih (a + 1) x hx; omega
theorem wf_ofBytes (d : Byte) (a : Nat) (bs : List Byte) : wf d (ofBytes d a bs) = true := by
  induction bs generalizing a with
  | nil => rfl
  | cons b bs ih =>
    simp only [ofBytes]
    split
    · exact ih _
    · rename_i hb
      exact wf_cons.mpr ⟨by simpa using hb, above_ofBytes d (a + 1) bs, ih _⟩

/-- A store keeps the canonical form. -/
theorem wf_write {d : Byte} {m : Cells} (h : wf d m = true) (a : Nat) (bs : List Byte) : wf d (write d m a bs) = true := by
  unfold write
  rw [List.append_assoc]
  refine wf_append (a := a) (wf_takeWhile _ h) (wf_append (a := a + bs.length) (wf_ofBytes d a bs) (wf_dropWhile _ h) (below_ofBytes d a bs)
    (above_dropWhile _ h)) (below_takeWhile a m) ?_
  intro x hx
  rcases List.mem_append.mp hx with hx | hx
  · exact above_ofBytes d a bs x hx
  · have := above_dropWhile (a + bs.length) h x hx; omega
/-- So do stores in a row. -/
theorem wf_foldl {d : Byte} {α : Type} {a : α → Nat} {b : α → List Byte} {m : Cells} (l : List α) (h : wf d m = true) :
    wf d (l.foldl (fun m x => write d m (a x) (b x)) m) = true := by
  induction l generalizing m with
  | nil => exact h
  | cons x l ih => exact ih (wf_write h _ _)
/-- So does clearing a range. -/
theorem wf_clear {d : Byte} {m : Cells} (h : wf d m = true) (a n : Nat) : wf d (clear m a n) = true := by
  unfold clear
  refine wf_append (a := a) (wf_takeWhile _ h) (wf_dropWhile _ h) (below_takeWhile a m) ?_
  intro x hx
  have := above_dropWhile (a + n) h x hx; omega

end Cells

/-! ### What touches one channel only -/

/-- `b` differs from `a` in channel `m`, in the Signet's log and in the free-value counter at most. -/
structure OnlyCh (m : Ch) (a b : Hw) : Prop where
  ch : ∀ n, n ≠ m → b.ch n = a.ch n
  dev : b.dev = { a.dev with signet := { a.dev.signet with log := b.dev.signet.log } }
  now : b.now = a.now
  emitted : b.emitted = a.emitted
  due : b.due = a.due

namespace OnlyCh
theorem refl (m : Ch) (a : Hw) : OnlyCh m a a := ⟨fun _ _ => rfl, rfl, rfl, rfl, rfl⟩
theorem trans {m : Ch} {a b c : Hw} (h : OnlyCh m a b) (k : OnlyCh m b c) : OnlyCh m a c := by
  refine ⟨fun n hn => (k.ch n hn).trans (h.ch n hn), ?_, k.now.trans h.now, k.emitted.trans h.emitted, k.due.trans h.due⟩
  rw [k.dev, h.dev]
theorem setCh (m : Ch) (c : Channel) (a : Hw) : OnlyCh m a (a.setCh m c) := ⟨fun _ h => Hw.ch_setCh_ne h c a, by simp, by simp, by simp, by simp⟩
theorem modCh (m : Ch) (f : Channel → Channel) (a : Hw) : OnlyCh m a (a.modCh m f) := setCh m _ a
theorem free (m : Ch) (a : Hw) : OnlyCh m a a.free.2 := ⟨fun _ _ => rfl, rfl, rfl, rfl, rfl⟩
theorem fuses {m : Ch} {a b : Hw} (h : OnlyCh m a b) : b.dev.fuses = a.dev.fuses := by rw [h.dev]
theorem raise (m : Ch) (sev : Severity) (code init : Nat) (d0 d1 : Option Nat) (a : Hw) : OnlyCh m a (a.raise m sev code init d0 d1) :=
  ⟨fun n h => by simp [Hw.raise, Hw.ch_modCh_ne h], by simp [Hw.raise, Hw.modSig, Hw.modDev], by simp [Hw.raise], by simp [Hw.raise], by simp [Hw.raise]⟩
theorem raiseIn (m : Ch) (sev : Severity) (code init : Nat) (d0 d1 : Option Nat) (a : Hw) : OnlyCh m a (a.raiseIn m sev code init d0 d1) :=
  ⟨fun n h => by simp [Hw.raiseIn, Hw.ch_modCh_ne h], by simp [Hw.raiseIn, Hw.modSig, Hw.modDev], by simp [Hw.raiseIn], by simp [Hw.raiseIn], by simp [Hw.raiseIn]⟩
theorem deltaLost (m : Ch) (t k n : Nat) (a : Hw) : OnlyCh m a (a.deltaLost m t k n) := by
  unfold Hw.deltaLost
  dsimp only
  split
  · exact modCh _ _ _
  · exact (modCh _ _ _).trans (raise _ _ _ _ _ _ _)
theorem displaced (m : Ch) (b : OutBody) (a : Hw) : OnlyCh m a (a.displaced m b) := by
  unfold Hw.displaced
  split
  · exact deltaLost _ _ _ _ _
  · exact refl _ _
theorem outFull (m : Ch) (a : Hw) : OnlyCh m a (a.outFull m) := (modCh _ _ _).trans (raise _ _ _ _ _ _ _)
theorem outPush (m : Ch) (p : OutPkt) (a : Hw) : OnlyCh m a (a.outPush m p) := by
  unfold Hw.outPush
  dsimp only
  split
  · split
    · exact modCh _ _ _
    · exact (modCh _ _ _).trans (outFull _ _)
  · split
    · exact modCh _ _ _
    · split
      · exact ((modCh _ _ _).trans (outFull _ _)).trans (displaced _ _ _)
      · split
        · exact modCh _ _ _
        · exact (outFull _ _).trans (displaced _ _ _)
theorem statusChange (m : Ch) (a : Hw) : OnlyCh m a (a.statusChange m) := by
  unfold Hw.statusChange
  dsimp only
  split
  · exact outPush _ _ _
  · exact refl _ _
theorem enter (m : Ch) (st : ChState) (r : Nat) (a : Hw) : OnlyCh m a (a.enter m st r) := (modCh _ _ _).trans (statusChange _ _)
/-- The records that work has raised, in order. -/
theorem recs {m : Ch} (l : List (Severity × Nat × Nat × Option Nat × Option Nat)) (a : Hw) :
    OnlyCh m a (l.foldr (fun r h => h.raise m r.1 r.2.1 r.2.2.1 r.2.2.2.1 r.2.2.2.2) a) := by
  induction l with
  | nil => exact refl _ _
  | cons r l ih => exact ih.trans (raise _ _ _ _ _ _ _)
/-- A step that touches one channel only, repeated. -/
theorem foldl {α : Type} {m : Ch} {f : Hw → α → Hw} (hf : ∀ h x, OnlyCh m h (f h x)) (l : List α) (a : Hw) : OnlyCh m a (l.foldl f a) := by
  induction l generalizing a with
  | nil => exact refl _ _
  | cons x l ih => exact (hf a x).trans (ih _)
theorem blocked (m : Ch) (init addr : Nat) (a : Hw) : OnlyCh m a (a.blocked m init addr) := (modCh _ _ _).trans (raise _ _ _ _ _ _ _)
theorem fenceHit (m : Ch) (u addr : Nat) (a : Hw) : OnlyCh m a (a.fenceHit m u addr) := (blocked _ _ _ _).trans (modCh _ _ _)
theorem fence (m : Ch) (u : Nat) (a : Hw) : OnlyCh m a (a.fence m u) := by
  unfold Hw.fence
  split
  · exact refl _ _
  · dsimp only
    split
    · exact ((modCh m _ a).trans (foldl (fun h x => fenceHit m u x h) _ _)).trans (enter _ _ _ _)
    · exact (modCh m _ a).trans (foldl (fun h x => fenceHit m u x h) _ _)
theorem marginFault (m : Ch) (a : Hw) : OnlyCh m a (a.marginFault m) := (modCh _ _ _).trans (raise _ _ _ _ _ _ _)
theorem scribeFault (m : Ch) (a : Hw) : OnlyCh m a (a.scribeFault m) := raise _ _ _ _ _ _ _
/-- A blocked transaction is the channel's own affair. -/
theorem fwBlock (m : Ch) (u addr : Nat) (a : Hw) : OnlyCh m a (a.fwBlock m u addr) := by
  unfold Hw.fwBlock
  split
  · exact fenceHit _ _ _ _
  · dsimp only
    split
    · exact (blocked _ _ _ _).trans (fence _ _ _)
    · split
      · exact (blocked _ _ _ _).trans (scribeFault _ _)
      · exact (blocked _ _ _ _).trans (marginFault _ _)
/-- A stroke's work reaches no other channel. -/
theorem runKWith (m : Ch) (idx u : Nat) (stray : List FwObs) (k : K Unit) (f : Sx → Channel → Channel) (a : Hw) :
    OnlyCh m a (a.runKWith m idx u stray k f) := by
  unfold Hw.runKWith
  dsimp only
  refine ((OnlyCh.trans ⟨fun n h => (Hw.freeCtr_ch _ _ _).trans (Hw.ch_setCh_ne h _ _), by simp, by simp, by simp, by simp⟩ (recs _ _)).trans
    (foldl (fun h (b : Nat × Nat) => fwBlock m b.1 b.2 h) _ _)).trans (modCh _ _ _)
theorem runK (m : Ch) (idx u : Nat) (k : K Unit) (a : Hw) : OnlyCh m a (a.runK m idx u k) := runKWith _ _ _ _ _ _ _
end OnlyCh

/-! ### W1C bits and ring 0 of MAINT (R10, R499) -/

/-- A written 1 changes no field but the sticky bits. -/
theorem Channel.w1c_eq (x : Sticky) (c : Channel) : c.w1c x = { c with sticky := (c.w1c x).sticky } := by
  unfold Channel.w1c
  split <;> rfl
/-- An event of the same cycle keeps its bit. -/
theorem Channel.w1c_of_fresh {x : Sticky} {c : Channel} (h : c.fresh.contains (some x) = true) : c.w1c x = c := if_pos h
theorem Channel.w1c_of_not_fresh {x : Sticky} {c : Channel} (h : c.fresh.contains (some x) = false) : c.w1c x = c.unstick x :=
  if_neg (by rw [h]; exact Bool.false_ne_true)
/-- What ring 0 counted in MAINT goes on in the image's rings; no other field changes. -/
theorem Channel.ring0Counts_eq (c : Channel) : c.ring0Counts = { c with rings := c.ring0Counts.rings } := by
  unfold Channel.ring0Counts
  split <;> rfl

end Sys2Proof.Machine
end

