-- ==== Sys2Proof/Laws/Frames.lean ====
section
/-! SUPPORT. Records, packets and changes of state, field by field: what each leaves as it was; what dropped commands leave. -/
namespace Sys2Proof.Machine

/-- `b` is `a` with its queues, counters, sticky bits, those set in this ns and the note of lost DELTA entries changed at most. -/
def Queued (a b : Channel) : Prop :=
  ∃ o q n k ctr st fr l, b = { a with outq := o, errq := q, errNext := n, errSinceKept := k, ctr := ctr, sticky := st, fresh := fr,
                                      map := { a.map with lostSaid := l } }

namespace Queued
theorem refl (a : Channel) : Queued a a := ⟨_, _, _, _, _, _, _, _, rfl⟩
theorem trans {a b c : Channel} (h : Queued a b) (k : Queued b c) : Queued a c := by
  obtain ⟨_, _, _, _, _, _, _, _, rfl⟩ := h
  obtain ⟨_, _, _, _, _, _, _, _, rfl⟩ := k
  exact ⟨_, _, _, _, _, _, _, _, rfl⟩
theorem bump (x : Ctr) (n : Nat) (a : Channel) : Queued a (a.bump x n) := ⟨_, _, _, _, _, _, _, _, rfl⟩
theorem outq (o : List OutPkt) (a : Channel) : Queued a { a with outq := o } := ⟨_, _, _, _, _, _, _, _, rfl⟩
theorem putErr (r : ErrRec) (a : Channel) : Queued a (a.putErr r) := by
  obtain ⟨_, _, _, _, _, h⟩ := a.putErr_form r
  rw [h]; exact ⟨_, _, _, _, _, _, _, _, rfl⟩
theorem raise (m : Ch) (sev : Severity) (code init : Nat) (d0 d1 : Option Nat) (hw : Hw) :
    Queued (hw.ch m) ((hw.raise m sev code init d0 d1).ch m) := by
  simp only [Hw.raise, Hw.modSig_ch, Hw.ch_modCh_same]
  exact putErr _ _
theorem raiseIn (m : Ch) (sev : Severity) (code init : Nat) (d0 d1 : Option Nat) (hw : Hw) :
    Queued (hw.ch m) ((hw.raiseIn m sev code init d0 d1).ch m) := by
  simp only [Hw.raiseIn, Hw.modSig_ch, Hw.ch_modCh_same]
  exact putErr _ _
theorem unsend (b : OutBody) (a : Channel) : Queued a (a.unsend b) := by
  unfold Channel.unsend
  split
  · exact ⟨_, _, _, _, _, _, _, _, rfl⟩
  · exact refl a
theorem outFull (m : Ch) (hw : Hw) : Queued (hw.ch m) ((hw.outFull m).ch m) := by
  unfold Hw.outFull
  refine trans ?_ (raise _ _ _ _ _ _ _)
  rw [Hw.ch_modCh_same]; exact bump _ _ _
theorem deltaLost (m : Ch) (t k n : Nat) (hw : Hw) : Queued (hw.ch m) ((hw.deltaLost m t k n).ch m) := by
  unfold Hw.deltaLost
  dsimp only
  split
  · rw [Hw.ch_modCh_same]; exact ⟨_, _, _, _, _, _, _, _, rfl⟩
  · refine trans ?_ (raise _ _ _ _ _ _ _)
    rw [Hw.ch_modCh_same]; exact ⟨_, _, _, _, _, _, _, _, rfl⟩
theorem displaced (m : Ch) (b : OutBody) (hw : Hw) : Queued (hw.ch m) ((hw.displaced m b).ch m) := by
  unfold Hw.displaced
  split
  · exact deltaLost _ _ _ _ _
  · exact refl _
theorem outPush (m : Ch) (p : OutPkt) (hw : Hw) : Queued (hw.ch m) ((hw.outPush m p).ch m) := by
  unfold Hw.outPush
  dsimp only
  split
  · split
    · rw [Hw.ch_modCh_same]; exact outq _ _
    · refine trans ?_ (outFull _ _)
      rw [Hw.ch_modCh_same]; exact outq _ _
  · split
    · rw [Hw.ch_modCh_same]; exact outq _ _
    · split
      · refine trans (trans ?_ (outFull _ _)) (displaced _ _ _)
        rw [Hw.ch_modCh_same]; exact outq _ _
      · split
        · rw [Hw.ch_modCh_same]
          exact trans (trans (trans (outq _ _) (unsend _ _)) (bump _ _ _)) (outq _ _)
        · exact trans (outFull _ _) (displaced _ _ _)
theorem statusChange (m : Ch) (hw : Hw) : Queued (hw.ch m) ((hw.statusChange m).ch m) := by
  unfold Hw.statusChange
  dsimp only
  split
  · exact outPush _ _ _
  · exact refl _
theorem formErr (a : Channel) : Queued a a.formErr := by
  unfold Channel.formErr
  dsimp only
  split
  · exact refl a
  · exact ⟨_, _, _, _, _, _, _, _, rfl⟩
end Queued

/-- What `enter` sets before the STATUS packet. -/
theorem Hw.enter_form (m : Ch) (st : ChState) (r : Nat) (hw : Hw) :
    ∃ p rs mt mr tk du pe sh, Queued { hw.ch m with
      st := st, reason := BitVec.ofNat 8 r, pins := p, pinFrom := if (hw.ch m).pinAt = hw.now then (hw.ch m).pinFrom else (hw.ch m).pins,
      pinAt := hw.now, moved := (match st.rank with | some r => some (hw.now, r) | none => (hw.ch m).moved), resv := rs, maint := mt, maintRing := mr, tick := tk, duct := du, peer := pe, shut := sh }
      ((hw.enter m st r).ch m) ∧
      p = (match st with | .run | .margin | .fenced => (hw.ch m).pins | _ => Pins.stopOnly) ∧
      rs = (match st with | .ready | .run | .margin => (hw.ch m).resv | _ => none) ∧
      tk = (if st.ticks then (hw.ch m).tick else { (hw.ch m).tick with ticking := false }) ∧
      du = (match st with | .run | .margin => (hw.ch m).duct | _ => { (hw.ch m).duct with point := 0, changing := none, raised := false }) ∧
      pe = (match st with
        | .ready | .run | .margin => (hw.ch m).peer
        | _ => { (hw.ch m).peer with winOpen := [], lag := [], grace := none }) ∧
      sh = (match st with | .ready | .run | .margin => (hw.ch m).shut | _ => (hw.ch m).peer.winOpen ++ (hw.ch m).shut) ∧
      mt = (if st == .maint then (hw.ch m).maint else none) ∧ mr = (if st == .maint || !(hw.ch m).ringsLoaded then (hw.ch m).maintRing else none) := by
  refine ⟨_, _, _, _, _, _, _, _, ?_, rfl, rfl, rfl, rfl, rfl, rfl, rfl, rfl⟩
  unfold Hw.enter
  refine Queued.trans ?_ (Queued.statusChange _ _)
  rw [Hw.ch_modCh_same]
  exact Queued.refl _

/-! ### raise -/

@[simp] theorem Hw.raise_st (m : Ch) (sev : Severity) (code init : Nat) (d0 d1 : Option Nat) (hw : Hw) : ((hw.raise m sev code init d0 d1).ch m).st = (hw.ch m).st := by
  obtain ⟨_, _, _, _, _, _, _, _, h⟩ := Queued.raise m sev code init d0 d1 hw; rw [h]
@[simp] theorem Hw.raise_reason (m : Ch) (sev : Severity) (code init : Nat) (d0 d1 : Option Nat) (hw : Hw) : ((hw.raise m sev code init d0 d1).ch m).reason = (hw.ch m).reason := by
  obtain ⟨_, _, _, _, _, _, _, _, h⟩ := Queued.raise m sev code init d0 d1 hw; rw [h]
@[simp] theorem Hw.raise_failSect (m : Ch) (sev : Severity) (code init : Nat) (d0 d1 : Option Nat) (hw : Hw) : ((hw.raise m sev code init d0 d1).ch m).failSect = (hw.ch m).failSect := by
  obtain ⟨_, _, _, _, _, _, _, _, h⟩ := Queued.raise m sev code init d0 d1 hw; rw [h]
@[simp] theorem Hw.raise_slot (m : Ch) (sev : Severity) (code init : Nat) (d0 d1 : Option Nat) (hw : Hw) : ((hw.raise m sev code init d0 d1).ch m).slot = (hw.ch m).slot := by
  obtain ⟨_, _, _, _, _, _, _, _, h⟩ := Queued.raise m sev code init d0 d1 hw; rw [h]
@[simp] theorem Hw.raise_resv (m : Ch) (sev : Severity) (code init : Nat) (d0 d1 : Option Nat) (hw : Hw) : ((hw.raise m sev code init d0 d1).ch m).resv = (hw.ch m).resv := by
  obtain ⟨_, _, _, _, _, _, _, _, h⟩ := Queued.raise m sev code init d0 d1 hw; rw [h]
@[simp] theorem Hw.raise_startMark (m : Ch) (sev : Severity) (code init : Nat) (d0 d1 : Option Nat) (hw : Hw) : ((hw.raise m sev code init d0 d1).ch m).startMark = (hw.ch m).startMark := by
  obtain ⟨_, _, _, _, _, _, _, _, h⟩ := Queued.raise m sev code init d0 d1 hw; rw [h]
@[simp] theorem Hw.raise_startUs (m : Ch) (sev : Severity) (code init : Nat) (d0 d1 : Option Nat) (hw : Hw) : ((hw.raise m sev code init d0 d1).ch m).startUs = (hw.ch m).startUs := by
  obtain ⟨_, _, _, _, _, _, _, _, h⟩ := Queued.raise m sev code init d0 d1 hw; rw [h]
@[simp] theorem Hw.raise_pins (m : Ch) (sev : Severity) (code init : Nat) (d0 d1 : Option Nat) (hw : Hw) : ((hw.raise m sev code init d0 d1).ch m).pins = (hw.ch m).pins := by
  obtain ⟨_, _, _, _, _, _, _, _, h⟩ := Queued.raise m sev code init d0 d1 hw; rw [h]
@[simp] theorem Hw.raise_pinFrom (m : Ch) (sev : Severity) (code init : Nat) (d0 d1 : Option Nat) (hw : Hw) : ((hw.raise m sev code init d0 d1).ch m).pinFrom = (hw.ch m).pinFrom := by
  obtain ⟨_, _, _, _, _, _, _, _, h⟩ := Queued.raise m sev code init d0 d1 hw; rw [h]
@[simp] theorem Hw.raise_pinAt (m : Ch) (sev : Severity) (code init : Nat) (d0 d1 : Option Nat) (hw : Hw) : ((hw.raise m sev code init d0 d1).ch m).pinAt = (hw.ch m).pinAt := by
  obtain ⟨_, _, _, _, _, _, _, _, h⟩ := Queued.raise m sev code init d0 d1 hw; rw [h]
@[simp] theorem Hw.raise_moved (m : Ch) (sev : Severity) (code init : Nat) (d0 d1 : Option Nat) (hw : Hw) : ((hw.raise m sev code init d0 d1).ch m).moved = (hw.ch m).moved := by
  obtain ⟨_, _, _, _, _, _, _, _, h⟩ := Queued.raise m sev code init d0 d1 hw; rw [h]
@[simp] theorem Hw.raise_boot (m : Ch) (sev : Severity) (code init : Nat) (d0 d1 : Option Nat) (hw : Hw) : ((hw.raise m sev code init d0 d1).ch m).boot = (hw.ch m).boot := by
  obtain ⟨_, _, _, _, _, _, _, _, h⟩ := Queued.raise m sev code init d0 d1 hw; rw [h]
@[simp] theorem Hw.raise_img (m : Ch) (sev : Severity) (code init : Nat) (d0 d1 : Option Nat) (hw : Hw) : ((hw.raise m sev code init d0 d1).ch m).img = (hw.ch m).img := by
  obtain ⟨_, _, _, _, _, _, _, _, h⟩ := Queued.raise m sev code init d0 d1 hw; rw [h]
@[simp] theorem Hw.raise_nvm (m : Ch) (sev : Severity) (code init : Nat) (d0 d1 : Option Nat) (hw : Hw) : ((hw.raise m sev code init d0 d1).ch m).nvm = (hw.ch m).nvm := by
  obtain ⟨_, _, _, _, _, _, _, _, h⟩ := Queued.raise m sev code init d0 d1 hw; rw [h]
@[simp] theorem Hw.raise_tb (m : Ch) (sev : Severity) (code init : Nat) (d0 d1 : Option Nat) (hw : Hw) : ((hw.raise m sev code init d0 d1).ch m).tb = (hw.ch m).tb := by
  obtain ⟨_, _, _, _, _, _, _, _, h⟩ := Queued.raise m sev code init d0 d1 hw; rw [h]
@[simp] theorem Hw.raise_ts (m : Ch) (sev : Severity) (code init : Nat) (d0 d1 : Option Nat) (hw : Hw) : ((hw.raise m sev code init d0 d1).ch m).ts = (hw.ch m).ts := by
  obtain ⟨_, _, _, _, _, _, _, _, h⟩ := Queued.raise m sev code init d0 d1 hw; rw [h]
@[simp] theorem Hw.raise_tick (m : Ch) (sev : Severity) (code init : Nat) (d0 d1 : Option Nat) (hw : Hw) : ((hw.raise m sev code init d0 d1).ch m).tick = (hw.ch m).tick := by
  obtain ⟨_, _, _, _, _, _, _, _, h⟩ := Queued.raise m sev code init d0 d1 hw; rw [h]
@[simp] theorem Hw.raise_doubtP (m : Ch) (sev : Severity) (code init : Nat) (d0 d1 : Option Nat) (hw : Hw) : ((hw.raise m sev code init d0 d1).ch m).doubtP = (hw.ch m).doubtP := by
  obtain ⟨_, _, _, _, _, _, _, _, h⟩ := Queued.raise m sev code init d0 d1 hw; rw [h]
@[simp] theorem Hw.raise_doubtIn (m : Ch) (sev : Severity) (code init : Nat) (d0 d1 : Option Nat) (hw : Hw) : ((hw.raise m sev code init d0 d1).ch m).doubtIn = (hw.ch m).doubtIn := by
  obtain ⟨_, _, _, _, _, _, _, _, h⟩ := Queued.raise m sev code init d0 d1 hw; rw [h]
@[simp] theorem Hw.raise_causesP (m : Ch) (sev : Severity) (code init : Nat) (d0 d1 : Option Nat) (hw : Hw) : ((hw.raise m sev code init d0 d1).ch m).causesP = (hw.ch m).causesP := by
  obtain ⟨_, _, _, _, _, _, _, _, h⟩ := Queued.raise m sev code init d0 d1 hw; rw [h]
@[simp] theorem Hw.raise_causesIn (m : Ch) (sev : Severity) (code init : Nat) (d0 d1 : Option Nat) (hw : Hw) : ((hw.raise m sev code init d0 d1).ch m).causesIn = (hw.ch m).causesIn := by
  obtain ⟨_, _, _, _, _, _, _, _, h⟩ := Queued.raise m sev code init d0 d1 hw; rw [h]
@[simp] theorem Hw.raise_hbLast (m : Ch) (sev : Severity) (code init : Nat) (d0 d1 : Option Nat) (hw : Hw) : ((hw.raise m sev code init d0 d1).ch m).hbLast = (hw.ch m).hbLast := by
  obtain ⟨_, _, _, _, _, _, _, _, h⟩ := Queued.raise m sev code init d0 d1 hw; rw [h]
@[simp] theorem Hw.raise_hbSinceReady (m : Ch) (sev : Severity) (code init : Nat) (d0 d1 : Option Nat) (hw : Hw) : ((hw.raise m sev code init d0 d1).ch m).hbSinceReady = (hw.ch m).hbSinceReady := by
  obtain ⟨_, _, _, _, _, _, _, _, h⟩ := Queued.raise m sev code init d0 d1 hw; rw [h]
@[simp] theorem Hw.raise_duct (m : Ch) (sev : Severity) (code init : Nat) (d0 d1 : Option Nat) (hw : Hw) : ((hw.raise m sev code init d0 d1).ch m).duct = (hw.ch m).duct := by
  obtain ⟨_, _, _, _, _, _, _, _, h⟩ := Queued.raise m sev code init d0 d1 hw; rw [h]
@[simp] theorem Hw.raise_front (m : Ch) (sev : Severity) (code init : Nat) (d0 d1 : Option Nat) (hw : Hw) : ((hw.raise m sev code init d0 d1).ch m).front = (hw.ch m).front := by
  obtain ⟨_, _, _, _, _, _, _, _, h⟩ := Queued.raise m sev code init d0 d1 hw; rw [h]
@[simp] theorem Hw.raise_cal (m : Ch) (sev : Severity) (code init : Nat) (d0 d1 : Option Nat) (hw : Hw) : ((hw.raise m sev code init d0 d1).ch m).cal = (hw.ch m).cal := by
  obtain ⟨_, _, _, _, _, _, _, _, h⟩ := Queued.raise m sev code init d0 d1 hw; rw [h]
@[simp] theorem Hw.raise_scribe (m : Ch) (sev : Severity) (code init : Nat) (d0 d1 : Option Nat) (hw : Hw) : ((hw.raise m sev code init d0 d1).ch m).scribe = (hw.ch m).scribe := by
  obtain ⟨_, _, _, _, _, _, _, _, h⟩ := Queued.raise m sev code init d0 d1 hw; rw [h]
@[simp] theorem Hw.raise_mrg (m : Ch) (sev : Severity) (code init : Nat) (d0 d1 : Option Nat) (hw : Hw) : ((hw.raise m sev code init d0 d1).ch m).mrg = (hw.ch m).mrg := by
  obtain ⟨_, _, _, _, _, _, _, _, h⟩ := Queued.raise m sev code init d0 d1 hw; rw [h]
@[simp] theorem Hw.raise_env (m : Ch) (sev : Severity) (code init : Nat) (d0 d1 : Option Nat) (hw : Hw) : ((hw.raise m sev code init d0 d1).ch m).env = (hw.ch m).env := by
  obtain ⟨_, _, _, _, _, _, _, _, h⟩ := Queued.raise m sev code init d0 d1 hw; rw [h]
@[simp] theorem Hw.raise_peer (m : Ch) (sev : Severity) (code init : Nat) (d0 d1 : Option Nat) (hw : Hw) : ((hw.raise m sev code init d0 d1).ch m).peer = (hw.ch m).peer := by
  obtain ⟨_, _, _, _, _, _, _, _, h⟩ := Queued.raise m sev code init d0 d1 hw; rw [h]
@[simp] theorem Hw.raise_maint (m : Ch) (sev : Severity) (code init : Nat) (d0 d1 : Option Nat) (hw : Hw) : ((hw.raise m sev code init d0 d1).ch m).maint = (hw.ch m).maint := by
  obtain ⟨_, _, _, _, _, _, _, _, h⟩ := Queued.raise m sev code init d0 d1 hw; rw [h]
@[simp] theorem Hw.raise_mon (m : Ch) (sev : Severity) (code init : Nat) (d0 d1 : Option Nat) (hw : Hw) : ((hw.raise m sev code init d0 d1).ch m).mon = (hw.ch m).mon := by
  obtain ⟨_, _, _, _, _, _, _, _, h⟩ := Queued.raise m sev code init d0 d1 hw; rw [h]
@[simp] theorem Hw.raise_grd (m : Ch) (sev : Severity) (code init : Nat) (d0 d1 : Option Nat) (hw : Hw) : ((hw.raise m sev code init d0 d1).ch m).grd = (hw.ch m).grd := by
  obtain ⟨_, _, _, _, _, _, _, _, h⟩ := Queued.raise m sev code init d0 d1 hw; rw [h]
@[simp] theorem Hw.raise_fenced (m : Ch) (sev : Severity) (code init : Nat) (d0 d1 : Option Nat) (hw : Hw) : ((hw.raise m sev code init d0 d1).ch m).fenced = (hw.ch m).fenced := by
  obtain ⟨_, _, _, _, _, _, _, _, h⟩ := Queued.raise m sev code init d0 d1 hw; rw [h]
@[simp] theorem Hw.raise_stopPending (m : Ch) (sev : Severity) (code init : Nat) (d0 d1 : Option Nat) (hw : Hw) : ((hw.raise m sev code init d0 d1).ch m).stopPending = (hw.ch m).stopPending := by
  obtain ⟨_, _, _, _, _, _, _, _, h⟩ := Queued.raise m sev code init d0 d1 hw; rw [h]
@[simp] theorem Hw.raise_hbm (m : Ch) (sev : Severity) (code init : Nat) (d0 d1 : Option Nat) (hw : Hw) : ((hw.raise m sev code init d0 d1).ch m).hbm = (hw.ch m).hbm := by
  obtain ⟨_, _, _, _, _, _, _, _, h⟩ := Queued.raise m sev code init d0 d1 hw; rw [h]
@[simp] theorem Hw.raise_hbmPoison (m : Ch) (sev : Severity) (code init : Nat) (d0 d1 : Option Nat) (hw : Hw) : ((hw.raise m sev code init d0 d1).ch m).hbmPoison = (hw.ch m).hbmPoison := by
  obtain ⟨_, _, _, _, _, _, _, _, h⟩ := Queued.raise m sev code init d0 d1 hw; rw [h]
@[simp] theorem Hw.raise_core (m : Ch) (sev : Severity) (code init : Nat) (d0 d1 : Option Nat) (hw : Hw) : ((hw.raise m sev code init d0 d1).ch m).core = (hw.ch m).core := by
  obtain ⟨_, _, _, _, _, _, _, _, h⟩ := Queued.raise m sev code init d0 d1 hw; rw [h]
@[simp] theorem Hw.raise_rings (m : Ch) (sev : Severity) (code init : Nat) (d0 d1 : Option Nat) (hw : Hw) : ((hw.raise m sev code init d0 d1).ch m).rings = (hw.ch m).rings := by
  obtain ⟨_, _, _, _, _, _, _, _, h⟩ := Queued.raise m sev code init d0 d1 hw; rw [h]
@[simp] theorem Hw.raise_ringsLoaded (m : Ch) (sev : Severity) (code init : Nat) (d0 d1 : Option Nat) (hw : Hw) : ((hw.raise m sev code init d0 d1).ch m).ringsLoaded = (hw.ch m).ringsLoaded := by
  obtain ⟨_, _, _, _, _, _, _, _, h⟩ := Queued.raise m sev code init d0 d1 hw; rw [h]
@[simp] theorem Hw.raise_maintRing (m : Ch) (sev : Severity) (code init : Nat) (d0 d1 : Option Nat) (hw : Hw) : ((hw.raise m sev code init d0 d1).ch m).maintRing = (hw.ch m).maintRing := by
  obtain ⟨_, _, _, _, _, _, _, _, h⟩ := Queued.raise m sev code init d0 d1 hw; rw [h]
@[simp] theorem Hw.raise_shut (m : Ch) (sev : Severity) (code init : Nat) (d0 d1 : Option Nat) (hw : Hw) : ((hw.raise m sev code init d0 d1).ch m).shut = (hw.ch m).shut := by
  obtain ⟨_, _, _, _, _, _, _, _, h⟩ := Queued.raise m sev code init d0 d1 hw; rw [h]
@[simp] theorem Hw.raise_ctx (m : Ch) (sev : Severity) (code init : Nat) (d0 d1 : Option Nat) (hw : Hw) : ((hw.raise m sev code init d0 d1).ch m).ctx = (hw.ch m).ctx := by
  obtain ⟨_, _, _, _, _, _, _, _, h⟩ := Queued.raise m sev code init d0 d1 hw; rw [h]
@[simp] theorem Hw.raise_ctxWait (m : Ch) (sev : Severity) (code init : Nat) (d0 d1 : Option Nat) (hw : Hw) : ((hw.raise m sev code init d0 d1).ch m).ctxWait = (hw.ch m).ctxWait := by
  obtain ⟨_, _, _, _, _, _, _, _, h⟩ := Queued.raise m sev code init d0 d1 hw; rw [h]
@[simp] theorem Hw.raise_input (m : Ch) (sev : Severity) (code init : Nat) (d0 d1 : Option Nat) (hw : Hw) : ((hw.raise m sev code init d0 d1).ch m).input = (hw.ch m).input := by
  obtain ⟨_, _, _, _, _, _, _, _, h⟩ := Queued.raise m sev code init d0 d1 hw; rw [h]
@[simp] theorem Hw.raise_writes (m : Ch) (sev : Severity) (code init : Nat) (d0 d1 : Option Nat) (hw : Hw) : ((hw.raise m sev code init d0 d1).ch m).writes = (hw.ch m).writes := by
  obtain ⟨_, _, _, _, _, _, _, _, h⟩ := Queued.raise m sev code init d0 d1 hw; rw [h]
@[simp] theorem Hw.raise_nextWrite (m : Ch) (sev : Severity) (code init : Nat) (d0 d1 : Option Nat) (hw : Hw) : ((hw.raise m sev code init d0 d1).ch m).nextWrite = (hw.ch m).nextWrite := by
  obtain ⟨_, _, _, _, _, _, _, _, h⟩ := Queued.raise m sev code init d0 d1 hw; rw [h]
@[simp] theorem Hw.raise_hairQ (m : Ch) (sev : Severity) (code init : Nat) (d0 d1 : Option Nat) (hw : Hw) : ((hw.raise m sev code init d0 d1).ch m).hairQ = (hw.ch m).hairQ := by
  obtain ⟨_, _, _, _, _, _, _, _, h⟩ := Queued.raise m sev code init d0 d1 hw; rw [h]
@[simp] theorem Hw.raise_regHeld (m : Ch) (sev : Severity) (code init : Nat) (d0 d1 : Option Nat) (hw : Hw) : ((hw.raise m sev code init d0 d1).ch m).regHeld = (hw.ch m).regHeld := by
  obtain ⟨_, _, _, _, _, _, _, _, h⟩ := Queued.raise m sev code init d0 d1 hw; rw [h]
@[simp] theorem Hw.raise_ctrLat (m : Ch) (sev : Severity) (code init : Nat) (d0 d1 : Option Nat) (hw : Hw) : ((hw.raise m sev code init d0 d1).ch m).ctrLat = (hw.ch m).ctrLat := by
  obtain ⟨_, _, _, _, _, _, _, _, h⟩ := Queued.raise m sev code init d0 d1 hw; rw [h]
@[simp] theorem Hw.raise_power (m : Ch) (sev : Severity) (code init : Nat) (d0 d1 : Option Nat) (hw : Hw) : ((hw.raise m sev code init d0 d1).ch m).power = (hw.ch m).power := by
  obtain ⟨_, _, _, _, _, _, _, _, h⟩ := Queued.raise m sev code init d0 d1 hw; rw [h]
/-! ### raiseIn -/

@[simp] theorem Hw.raiseIn_st (m : Ch) (sev : Severity) (code init : Nat) (d0 d1 : Option Nat) (hw : Hw) : ((hw.raiseIn m sev code init d0 d1).ch m).st = (hw.ch m).st := by
  obtain ⟨_, _, _, _, _, _, _, _, h⟩ := Queued.raiseIn m sev code init d0 d1 hw; rw [h]
@[simp] theorem Hw.raiseIn_reason (m : Ch) (sev : Severity) (code init : Nat) (d0 d1 : Option Nat) (hw : Hw) : ((hw.raiseIn m sev code init d0 d1).ch m).reason = (hw.ch m).reason := by
  obtain ⟨_, _, _, _, _, _, _, _, h⟩ := Queued.raiseIn m sev code init d0 d1 hw; rw [h]
@[simp] theorem Hw.raiseIn_failSect (m : Ch) (sev : Severity) (code init : Nat) (d0 d1 : Option Nat) (hw : Hw) : ((hw.raiseIn m sev code init d0 d1).ch m).failSect = (hw.ch m).failSect := by
  obtain ⟨_, _, _, _, _, _, _, _, h⟩ := Queued.raiseIn m sev code init d0 d1 hw; rw [h]
@[simp] theorem Hw.raiseIn_slot (m : Ch) (sev : Severity) (code init : Nat) (d0 d1 : Option Nat) (hw : Hw) : ((hw.raiseIn m sev code init d0 d1).ch m).slot = (hw.ch m).slot := by
  obtain ⟨_, _, _, _, _, _, _, _, h⟩ := Queued.raiseIn m sev code init d0 d1 hw; rw [h]
@[simp] theorem Hw.raiseIn_resv (m : Ch) (sev : Severity) (code init : Nat) (d0 d1 : Option Nat) (hw : Hw) : ((hw.raiseIn m sev code init d0 d1).ch m).resv = (hw.ch m).resv := by
  obtain ⟨_, _, _, _, _, _, _, _, h⟩ := Queued.raiseIn m sev code init d0 d1 hw; rw [h]
@[simp] theorem Hw.raiseIn_startMark (m : Ch) (sev : Severity) (code init : Nat) (d0 d1 : Option Nat) (hw : Hw) : ((hw.raiseIn m sev code init d0 d1).ch m).startMark = (hw.ch m).startMark := by
  obtain ⟨_, _, _, _, _, _, _, _, h⟩ := Queued.raiseIn m sev code init d0 d1 hw; rw [h]
@[simp] theorem Hw.raiseIn_startUs (m : Ch) (sev : Severity) (code init : Nat) (d0 d1 : Option Nat) (hw : Hw) : ((hw.raiseIn m sev code init d0 d1).ch m).startUs = (hw.ch m).startUs := by
  obtain ⟨_, _, _, _, _, _, _, _, h⟩ := Queued.raiseIn m sev code init d0 d1 hw; rw [h]
@[simp] theorem Hw.raiseIn_pins (m : Ch) (sev : Severity) (code init : Nat) (d0 d1 : Option Nat) (hw : Hw) : ((hw.raiseIn m sev code init d0 d1).ch m).pins = (hw.ch m).pins := by
  obtain ⟨_, _, _, _, _, _, _, _, h⟩ := Queued.raiseIn m sev code init d0 d1 hw; rw [h]
@[simp] theorem Hw.raiseIn_pinFrom (m : Ch) (sev : Severity) (code init : Nat) (d0 d1 : Option Nat) (hw : Hw) : ((hw.raiseIn m sev code init d0 d1).ch m).pinFrom = (hw.ch m).pinFrom := by
  obtain ⟨_, _, _, _, _, _, _, _, h⟩ := Queued.raiseIn m sev code init d0 d1 hw; rw [h]
@[simp] theorem Hw.raiseIn_pinAt (m : Ch) (sev : Severity) (code init : Nat) (d0 d1 : Option Nat) (hw : Hw) : ((hw.raiseIn m sev code init d0 d1).ch m).pinAt = (hw.ch m).pinAt := by
  obtain ⟨_, _, _, _, _, _, _, _, h⟩ := Queued.raiseIn m sev code init d0 d1 hw; rw [h]
@[simp] theorem Hw.raiseIn_moved (m : Ch) (sev : Severity) (code init : Nat) (d0 d1 : Option Nat) (hw : Hw) : ((hw.raiseIn m sev code init d0 d1).ch m).moved = (hw.ch m).moved := by
  obtain ⟨_, _, _, _, _, _, _, _, h⟩ := Queued.raiseIn m sev code init d0 d1 hw; rw [h]
@[simp] theorem Hw.raiseIn_boot (m : Ch) (sev : Severity) (code init : Nat) (d0 d1 : Option Nat) (hw : Hw) : ((hw.raiseIn m sev code init d0 d1).ch m).boot = (hw.ch m).boot := by
  obtain ⟨_, _, _, _, _, _, _, _, h⟩ := Queued.raiseIn m sev code init d0 d1 hw; rw [h]
@[simp] theorem Hw.raiseIn_img (m : Ch) (sev : Severity) (code init : Nat) (d0 d1 : Option Nat) (hw : Hw) : ((hw.raiseIn m sev code init d0 d1).ch m).img = (hw.ch m).img := by
  obtain ⟨_, _, _, _, _, _, _, _, h⟩ := Queued.raiseIn m sev code init d0 d1 hw; rw [h]
@[simp] theorem Hw.raiseIn_nvm (m : Ch) (sev : Severity) (code init : Nat) (d0 d1 : Option Nat) (hw : Hw) : ((hw.raiseIn m sev code init d0 d1).ch m).nvm = (hw.ch m).nvm := by
  obtain ⟨_, _, _, _, _, _, _, _, h⟩ := Queued.raiseIn m sev code init d0 d1 hw; rw [h]
@[simp] theorem Hw.raiseIn_tb (m : Ch) (sev : Severity) (code init : Nat) (d0 d1 : Option Nat) (hw : Hw) : ((hw.raiseIn m sev code init d0 d1).ch m).tb = (hw.ch m).tb := by
  obtain ⟨_, _, _, _, _, _, _, _, h⟩ := Queued.raiseIn m sev code init d0 d1 hw; rw [h]
@[simp] theorem Hw.raiseIn_ts (m : Ch) (sev : Severity) (code init : Nat) (d0 d1 : Option Nat) (hw : Hw) : ((hw.raiseIn m sev code init d0 d1).ch m).ts = (hw.ch m).ts := by
  obtain ⟨_, _, _, _, _, _, _, _, h⟩ := Queued.raiseIn m sev code init d0 d1 hw; rw [h]
@[simp] theorem Hw.raiseIn_tick (m : Ch) (sev : Severity) (code init : Nat) (d0 d1 : Option Nat) (hw : Hw) : ((hw.raiseIn m sev code init d0 d1).ch m).tick = (hw.ch m).tick := by
  obtain ⟨_, _, _, _, _, _, _, _, h⟩ := Queued.raiseIn m sev code init d0 d1 hw; rw [h]
@[simp] theorem Hw.raiseIn_doubtP (m : Ch) (sev : Severity) (code init : Nat) (d0 d1 : Option Nat) (hw : Hw) : ((hw.raiseIn m sev code init d0 d1).ch m).doubtP = (hw.ch m).doubtP := by
  obtain ⟨_, _, _, _, _, _, _, _, h⟩ := Queued.raiseIn m sev code init d0 d1 hw; rw [h]
@[simp] theorem Hw.raiseIn_doubtIn (m : Ch) (sev : Severity) (code init : Nat) (d0 d1 : Option Nat) (hw : Hw) : ((hw.raiseIn m sev code init d0 d1).ch m).doubtIn = (hw.ch m).doubtIn := by
  obtain ⟨_, _, _, _, _, _, _, _, h⟩ := Queued.raiseIn m sev code init d0 d1 hw; rw [h]
@[simp] theorem Hw.raiseIn_causesP (m : Ch) (sev : Severity) (code init : Nat) (d0 d1 : Option Nat) (hw : Hw) : ((hw.raiseIn m sev code init d0 d1).ch m).causesP = (hw.ch m).causesP := by
  obtain ⟨_, _, _, _, _, _, _, _, h⟩ := Queued.raiseIn m sev code init d0 d1 hw; rw [h]
@[simp] theorem Hw.raiseIn_causesIn (m : Ch) (sev : Severity) (code init : Nat) (d0 d1 : Option Nat) (hw : Hw) : ((hw.raiseIn m sev code init d0 d1).ch m).causesIn = (hw.ch m).causesIn := by
  obtain ⟨_, _, _, _, _, _, _, _, h⟩ := Queued.raiseIn m sev code init d0 d1 hw; rw [h]
@[simp] theorem Hw.raiseIn_hbLast (m : Ch) (sev : Severity) (code init : Nat) (d0 d1 : Option Nat) (hw : Hw) : ((hw.raiseIn m sev code init d0 d1).ch m).hbLast = (hw.ch m).hbLast := by
  obtain ⟨_, _, _, _, _, _, _, _, h⟩ := Queued.raiseIn m sev code init d0 d1 hw; rw [h]
@[simp] theorem Hw.raiseIn_hbSinceReady (m : Ch) (sev : Severity) (code init : Nat) (d0 d1 : Option Nat) (hw : Hw) : ((hw.raiseIn m sev code init d0 d1).ch m).hbSinceReady = (hw.ch m).hbSinceReady := by
  obtain ⟨_, _, _, _, _, _, _, _, h⟩ := Queued.raiseIn m sev code init d0 d1 hw; rw [h]
@[simp] theorem Hw.raiseIn_duct (m : Ch) (sev : Severity) (code init : Nat) (d0 d1 : Option Nat) (hw : Hw) : ((hw.raiseIn m sev code init d0 d1).ch m).duct = (hw.ch m).duct := by
  obtain ⟨_, _, _, _, _, _, _, _, h⟩ := Queued.raiseIn m sev code init d0 d1 hw; rw [h]
@[simp] theorem Hw.raiseIn_front (m : Ch) (sev : Severity) (code init : Nat) (d0 d1 : Option Nat) (hw : Hw) : ((hw.raiseIn m sev code init d0 d1).ch m).front = (hw.ch m).front := by
  obtain ⟨_, _, _, _, _, _, _, _, h⟩ := Queued.raiseIn m sev code init d0 d1 hw; rw [h]
@[simp] theorem Hw.raiseIn_cal (m : Ch) (sev : Severity) (code init : Nat) (d0 d1 : Option Nat) (hw : Hw) : ((hw.raiseIn m sev code init d0 d1).ch m).cal = (hw.ch m).cal := by
  obtain ⟨_, _, _, _, _, _, _, _, h⟩ := Queued.raiseIn m sev code init d0 d1 hw; rw [h]
@[simp] theorem Hw.raiseIn_scribe (m : Ch) (sev : Severity) (code init : Nat) (d0 d1 : Option Nat) (hw : Hw) : ((hw.raiseIn m sev code init d0 d1).ch m).scribe = (hw.ch m).scribe := by
  obtain ⟨_, _, _, _, _, _, _, _, h⟩ := Queued.raiseIn m sev code init d0 d1 hw; rw [h]
@[simp] theorem Hw.raiseIn_mrg (m : Ch) (sev : Severity) (code init : Nat) (d0 d1 : Option Nat) (hw : Hw) : ((hw.raiseIn m sev code init d0 d1).ch m).mrg = (hw.ch m).mrg := by
  obtain ⟨_, _, _, _, _, _, _, _, h⟩ := Queued.raiseIn m sev code init d0 d1 hw; rw [h]
@[simp] theorem Hw.raiseIn_env (m : Ch) (sev : Severity) (code init : Nat) (d0 d1 : Option Nat) (hw : Hw) : ((hw.raiseIn m sev code init d0 d1).ch m).env = (hw.ch m).env := by
  obtain ⟨_, _, _, _, _, _, _, _, h⟩ := Queued.raiseIn m sev code init d0 d1 hw; rw [h]
@[simp] theorem Hw.raiseIn_peer (m : Ch) (sev : Severity) (code init : Nat) (d0 d1 : Option Nat) (hw : Hw) : ((hw.raiseIn m sev code init d0 d1).ch m).peer = (hw.ch m).peer := by
  obtain ⟨_, _, _, _, _, _, _, _, h⟩ := Queued.raiseIn m sev code init d0 d1 hw; rw [h]
@[simp] theorem Hw.raiseIn_maint (m : Ch) (sev : Severity) (code init : Nat) (d0 d1 : Option Nat) (hw : Hw) : ((hw.raiseIn m sev code init d0 d1).ch m).maint = (hw.ch m).maint := by
  obtain ⟨_, _, _, _, _, _, _, _, h⟩ := Queued.raiseIn m sev code init d0 d1 hw; rw [h]
@[simp] theorem Hw.raiseIn_mon (m : Ch) (sev : Severity) (code init : Nat) (d0 d1 : Option Nat) (hw : Hw) : ((hw.raiseIn m sev code init d0 d1).ch m).mon = (hw.ch m).mon := by
  obtain ⟨_, _, _, _, _, _, _, _, h⟩ := Queued.raiseIn m sev code init d0 d1 hw; rw [h]
@[simp] theorem Hw.raiseIn_grd (m : Ch) (sev : Severity) (code init : Nat) (d0 d1 : Option Nat) (hw : Hw) : ((hw.raiseIn m sev code init d0 d1).ch m).grd = (hw.ch m).grd := by
  obtain ⟨_, _, _, _, _, _, _, _, h⟩ := Queued.raiseIn m sev code init d0 d1 hw; rw [h]
@[simp] theorem Hw.raiseIn_fenced (m : Ch) (sev : Severity) (code init : Nat) (d0 d1 : Option Nat) (hw : Hw) : ((hw.raiseIn m sev code init d0 d1).ch m).fenced = (hw.ch m).fenced := by
  obtain ⟨_, _, _, _, _, _, _, _, h⟩ := Queued.raiseIn m sev code init d0 d1 hw; rw [h]
@[simp] theorem Hw.raiseIn_stopPending (m : Ch) (sev : Severity) (code init : Nat) (d0 d1 : Option Nat) (hw : Hw) : ((hw.raiseIn m sev code init d0 d1).ch m).stopPending = (hw.ch m).stopPending := by
  obtain ⟨_, _, _, _, _, _, _, _, h⟩ := Queued.raiseIn m sev code init d0 d1 hw; rw [h]
@[simp] theorem Hw.raiseIn_hbm (m : Ch) (sev : Severity) (code init : Nat) (d0 d1 : Option Nat) (hw : Hw) : ((hw.raiseIn m sev code init d0 d1).ch m).hbm = (hw.ch m).hbm := by
  obtain ⟨_, _, _, _, _, _, _, _, h⟩ := Queued.raiseIn m sev code init d0 d1 hw; rw [h]
@[simp] theorem Hw.raiseIn_hbmPoison (m : Ch) (sev : Severity) (code init : Nat) (d0 d1 : Option Nat) (hw : Hw) : ((hw.raiseIn m sev code init d0 d1).ch m).hbmPoison = (hw.ch m).hbmPoison := by
  obtain ⟨_, _, _, _, _, _, _, _, h⟩ := Queued.raiseIn m sev code init d0 d1 hw; rw [h]
@[simp] theorem Hw.raiseIn_core (m : Ch) (sev : Severity) (code init : Nat) (d0 d1 : Option Nat) (hw : Hw) : ((hw.raiseIn m sev code init d0 d1).ch m).core = (hw.ch m).core := by
  obtain ⟨_, _, _, _, _, _, _, _, h⟩ := Queued.raiseIn m sev code init d0 d1 hw; rw [h]
@[simp] theorem Hw.raiseIn_rings (m : Ch) (sev : Severity) (code init : Nat) (d0 d1 : Option Nat) (hw : Hw) : ((hw.raiseIn m sev code init d0 d1).ch m).rings = (hw.ch m).rings := by
  obtain ⟨_, _, _, _, _, _, _, _, h⟩ := Queued.raiseIn m sev code init d0 d1 hw; rw [h]
@[simp] theorem Hw.raiseIn_ringsLoaded (m : Ch) (sev : Severity) (code init : Nat) (d0 d1 : Option Nat) (hw : Hw) : ((hw.raiseIn m sev code init d0 d1).ch m).ringsLoaded = (hw.ch m).ringsLoaded := by
  obtain ⟨_, _, _, _, _, _, _, _, h⟩ := Queued.raiseIn m sev code init d0 d1 hw; rw [h]
@[simp] theorem Hw.raiseIn_maintRing (m : Ch) (sev : Severity) (code init : Nat) (d0 d1 : Option Nat) (hw : Hw) : ((hw.raiseIn m sev code init d0 d1).ch m).maintRing = (hw.ch m).maintRing := by
  obtain ⟨_, _, _, _, _, _, _, _, h⟩ := Queued.raiseIn m sev code init d0 d1 hw; rw [h]
@[simp] theorem Hw.raiseIn_shut (m : Ch) (sev : Severity) (code init : Nat) (d0 d1 : Option Nat) (hw : Hw) : ((hw.raiseIn m sev code init d0 d1).ch m).shut = (hw.ch m).shut := by
  obtain ⟨_, _, _, _, _, _, _, _, h⟩ := Queued.raiseIn m sev code init d0 d1 hw; rw [h]
@[simp] theorem Hw.raiseIn_ctx (m : Ch) (sev : Severity) (code init : Nat) (d0 d1 : Option Nat) (hw : Hw) : ((hw.raiseIn m sev code init d0 d1).ch m).ctx = (hw.ch m).ctx := by
  obtain ⟨_, _, _, _, _, _, _, _, h⟩ := Queued.raiseIn m sev code init d0 d1 hw; rw [h]
@[simp] theorem Hw.raiseIn_ctxWait (m : Ch) (sev : Severity) (code init : Nat) (d0 d1 : Option Nat) (hw : Hw) : ((hw.raiseIn m sev code init d0 d1).ch m).ctxWait = (hw.ch m).ctxWait := by
  obtain ⟨_, _, _, _, _, _, _, _, h⟩ := Queued.raiseIn m sev code init d0 d1 hw; rw [h]
@[simp] theorem Hw.raiseIn_input (m : Ch) (sev : Severity) (code init : Nat) (d0 d1 : Option Nat) (hw : Hw) : ((hw.raiseIn m sev code init d0 d1).ch m).input = (hw.ch m).input := by
  obtain ⟨_, _, _, _, _, _, _, _, h⟩ := Queued.raiseIn m sev code init d0 d1 hw; rw [h]
@[simp] theorem Hw.raiseIn_writes (m : Ch) (sev : Severity) (code init : Nat) (d0 d1 : Option Nat) (hw : Hw) : ((hw.raiseIn m sev code init d0 d1).ch m).writes = (hw.ch m).writes := by
  obtain ⟨_, _, _, _, _, _, _, _, h⟩ := Queued.raiseIn m sev code init d0 d1 hw; rw [h]
@[simp] theorem Hw.raiseIn_nextWrite (m : Ch) (sev : Severity) (code init : Nat) (d0 d1 : Option Nat) (hw : Hw) : ((hw.raiseIn m sev code init d0 d1).ch m).nextWrite = (hw.ch m).nextWrite := by
  obtain ⟨_, _, _, _, _, _, _, _, h⟩ := Queued.raiseIn m sev code init d0 d1 hw; rw [h]
@[simp] theorem Hw.raiseIn_hairQ (m : Ch) (sev : Severity) (code init : Nat) (d0 d1 : Option Nat) (hw : Hw) : ((hw.raiseIn m sev code init d0 d1).ch m).hairQ = (hw.ch m).hairQ := by
  obtain ⟨_, _, _, _, _, _, _, _, h⟩ := Queued.raiseIn m sev code init d0 d1 hw; rw [h]
@[simp] theorem Hw.raiseIn_regHeld (m : Ch) (sev : Severity) (code init : Nat) (d0 d1 : Option Nat) (hw : Hw) : ((hw.raiseIn m sev code init d0 d1).ch m).regHeld = (hw.ch m).regHeld := by
  obtain ⟨_, _, _, _, _, _, _, _, h⟩ := Queued.raiseIn m sev code init d0 d1 hw; rw [h]
@[simp] theorem Hw.raiseIn_ctrLat (m : Ch) (sev : Severity) (code init : Nat) (d0 d1 : Option Nat) (hw : Hw) : ((hw.raiseIn m sev code init d0 d1).ch m).ctrLat = (hw.ch m).ctrLat := by
  obtain ⟨_, _, _, _, _, _, _, _, h⟩ := Queued.raiseIn m sev code init d0 d1 hw; rw [h]
@[simp] theorem Hw.raiseIn_power (m : Ch) (sev : Severity) (code init : Nat) (d0 d1 : Option Nat) (hw : Hw) : ((hw.raiseIn m sev code init d0 d1).ch m).power = (hw.ch m).power := by
  obtain ⟨_, _, _, _, _, _, _, _, h⟩ := Queued.raiseIn m sev code init d0 d1 hw; rw [h]
/-! ### outPush -/

@[simp] theorem Hw.outPush_st (m : Ch) (p : OutPkt) (hw : Hw) : ((hw.outPush m p).ch m).st = (hw.ch m).st := by
  obtain ⟨_, _, _, _, _, _, _, _, h⟩ := Queued.outPush m p hw; rw [h]
@[simp] theorem Hw.outPush_reason (m : Ch) (p : OutPkt) (hw : Hw) : ((hw.outPush m p).ch m).reason = (hw.ch m).reason := by
  obtain ⟨_, _, _, _, _, _, _, _, h⟩ := Queued.outPush m p hw; rw [h]
@[simp] theorem Hw.outPush_failSect (m : Ch) (p : OutPkt) (hw : Hw) : ((hw.outPush m p).ch m).failSect = (hw.ch m).failSect := by
  obtain ⟨_, _, _, _, _, _, _, _, h⟩ := Queued.outPush m p hw; rw [h]
@[simp] theorem Hw.outPush_slot (m : Ch) (p : OutPkt) (hw : Hw) : ((hw.outPush m p).ch m).slot = (hw.ch m).slot := by
  obtain ⟨_, _, _, _, _, _, _, _, h⟩ := Queued.outPush m p hw; rw [h]
@[simp] theorem Hw.outPush_resv (m : Ch) (p : OutPkt) (hw : Hw) : ((hw.outPush m p).ch m).resv = (hw.ch m).resv := by
  obtain ⟨_, _, _, _, _, _, _, _, h⟩ := Queued.outPush m p hw; rw [h]
@[simp] theorem Hw.outPush_startMark (m : Ch) (p : OutPkt) (hw : Hw) : ((hw.outPush m p).ch m).startMark = (hw.ch m).startMark := by
  obtain ⟨_, _, _, _, _, _, _, _, h⟩ := Queued.outPush m p hw; rw [h]
@[simp] theorem Hw.outPush_startUs (m : Ch) (p : OutPkt) (hw : Hw) : ((hw.outPush m p).ch m).startUs = (hw.ch m).startUs := by
  obtain ⟨_, _, _, _, _, _, _, _, h⟩ := Queued.outPush m p hw; rw [h]
@[simp] theorem Hw.outPush_pins (m : Ch) (p : OutPkt) (hw : Hw) : ((hw.outPush m p).ch m).pins = (hw.ch m).pins := by
  obtain ⟨_, _, _, _, _, _, _, _, h⟩ := Queued.outPush m p hw; rw [h]
@[simp] theorem Hw.outPush_pinFrom (m : Ch) (p : OutPkt) (hw : Hw) : ((hw.outPush m p).ch m).pinFrom = (hw.ch m).pinFrom := by
  obtain ⟨_, _, _, _, _, _, _, _, h⟩ := Queued.outPush m p hw; rw [h]
@[simp] theorem Hw.outPush_pinAt (m : Ch) (p : OutPkt) (hw : Hw) : ((hw.outPush m p).ch m).pinAt = (hw.ch m).pinAt := by
  obtain ⟨_, _, _, _, _, _, _, _, h⟩ := Queued.outPush m p hw; rw [h]
@[simp] theorem Hw.outPush_moved (m : Ch) (p : OutPkt) (hw : Hw) : ((hw.outPush m p).ch m).moved = (hw.ch m).moved := by
  obtain ⟨_, _, _, _, _, _, _, _, h⟩ := Queued.outPush m p hw; rw [h]
@[simp] theorem Hw.outPush_boot (m : Ch) (p : OutPkt) (hw : Hw) : ((hw.outPush m p).ch m).boot = (hw.ch m).boot := by
  obtain ⟨_, _, _, _, _, _, _, _, h⟩ := Queued.outPush m p hw; rw [h]
@[simp] theorem Hw.outPush_img (m : Ch) (p : OutPkt) (hw : Hw) : ((hw.outPush m p).ch m).img = (hw.ch m).img := by
  obtain ⟨_, _, _, _, _, _, _, _, h⟩ := Queued.outPush m p hw; rw [h]
@[simp] theorem Hw.outPush_nvm (m : Ch) (p : OutPkt) (hw : Hw) : ((hw.outPush m p).ch m).nvm = (hw.ch m).nvm := by
  obtain ⟨_, _, _, _, _, _, _, _, h⟩ := Queued.outPush m p hw; rw [h]
@[simp] theorem Hw.outPush_tb (m : Ch) (p : OutPkt) (hw : Hw) : ((hw.outPush m p).ch m).tb = (hw.ch m).tb := by
  obtain ⟨_, _, _, _, _, _, _, _, h⟩ := Queued.outPush m p hw; rw [h]
@[simp] theorem Hw.outPush_ts (m : Ch) (p : OutPkt) (hw : Hw) : ((hw.outPush m p).ch m).ts = (hw.ch m).ts := by
  obtain ⟨_, _, _, _, _, _, _, _, h⟩ := Queued.outPush m p hw; rw [h]
@[simp] theorem Hw.outPush_tick (m : Ch) (p : OutPkt) (hw : Hw) : ((hw.outPush m p).ch m).tick = (hw.ch m).tick := by
  obtain ⟨_, _, _, _, _, _, _, _, h⟩ := Queued.outPush m p hw; rw [h]
@[simp] theorem Hw.outPush_doubtP (m : Ch) (p : OutPkt) (hw : Hw) : ((hw.outPush m p).ch m).doubtP = (hw.ch m).doubtP := by
  obtain ⟨_, _, _, _, _, _, _, _, h⟩ := Queued.outPush m p hw; rw [h]
@[simp] theorem Hw.outPush_doubtIn (m : Ch) (p : OutPkt) (hw : Hw) : ((hw.outPush m p).ch m).doubtIn = (hw.ch m).doubtIn := by
  obtain ⟨_, _, _, _, _, _, _, _, h⟩ := Queued.outPush m p hw; rw [h]
@[simp] theorem Hw.outPush_causesP (m : Ch) (p : OutPkt) (hw : Hw) : ((hw.outPush m p).ch m).causesP = (hw.ch m).causesP := by
  obtain ⟨_, _, _, _, _, _, _, _, h⟩ := Queued.outPush m p hw; rw [h]
@[simp] theorem Hw.outPush_causesIn (m : Ch) (p : OutPkt) (hw : Hw) : ((hw.outPush m p).ch m).causesIn = (hw.ch m).causesIn := by
  obtain ⟨_, _, _, _, _, _, _, _, h⟩ := Queued.outPush m p hw; rw [h]
@[simp] theorem Hw.outPush_hbLast (m : Ch) (p : OutPkt) (hw : Hw) : ((hw.outPush m p).ch m).hbLast = (hw.ch m).hbLast := by
  obtain ⟨_, _, _, _, _, _, _, _, h⟩ := Queued.outPush m p hw; rw [h]
@[simp] theorem Hw.outPush_hbSinceReady (m : Ch) (p : OutPkt) (hw : Hw) : ((hw.outPush m p).ch m).hbSinceReady = (hw.ch m).hbSinceReady := by
  obtain ⟨_, _, _, _, _, _, _, _, h⟩ := Queued.outPush m p hw; rw [h]
@[simp] theorem Hw.outPush_duct (m : Ch) (p : OutPkt) (hw : Hw) : ((hw.outPush m p).ch m).duct = (hw.ch m).duct := by
  obtain ⟨_, _, _, _, _, _, _, _, h⟩ := Queued.outPush m p hw; rw [h]
@[simp] theorem Hw.outPush_front (m : Ch) (p : OutPkt) (hw : Hw) : ((hw.outPush m p).ch m).front = (hw.ch m).front := by
  obtain ⟨_, _, _, _, _, _, _, _, h⟩ := Queued.outPush m p hw; rw [h]
@[simp] theorem Hw.outPush_cal (m : Ch) (p : OutPkt) (hw : Hw) : ((hw.outPush m p).ch m).cal = (hw.ch m).cal := by
  obtain ⟨_, _, _, _, _, _, _, _, h⟩ := Queued.outPush m p hw; rw [h]
@[simp] theorem Hw.outPush_scribe (m : Ch) (p : OutPkt) (hw : Hw) : ((hw.outPush m p).ch m).scribe = (hw.ch m).scribe := by
  obtain ⟨_, _, _, _, _, _, _, _, h⟩ := Queued.outPush m p hw; rw [h]
@[simp] theorem Hw.outPush_mrg (m : Ch) (p : OutPkt) (hw : Hw) : ((hw.outPush m p).ch m).mrg = (hw.ch m).mrg := by
  obtain ⟨_, _, _, _, _, _, _, _, h⟩ := Queued.outPush m p hw; rw [h]
@[simp] theorem Hw.outPush_env (m : Ch) (p : OutPkt) (hw : Hw) : ((hw.outPush m p).ch m).env = (hw.ch m).env := by
  obtain ⟨_, _, _, _, _, _, _, _, h⟩ := Queued.outPush m p hw; rw [h]
@[simp] theorem Hw.outPush_peer (m : Ch) (p : OutPkt) (hw : Hw) : ((hw.outPush m p).ch m).peer = (hw.ch m).peer := by
  obtain ⟨_, _, _, _, _, _, _, _, h⟩ := Queued.outPush m p hw; rw [h]
@[simp] theorem Hw.outPush_maint (m : Ch) (p : OutPkt) (hw : Hw) : ((hw.outPush m p).ch m).maint = (hw.ch m).maint := by
  obtain ⟨_, _, _, _, _, _, _, _, h⟩ := Queued.outPush m p hw; rw [h]
@[simp] theorem Hw.outPush_mon (m : Ch) (p : OutPkt) (hw : Hw) : ((hw.outPush m p).ch m).mon = (hw.ch m).mon := by
  obtain ⟨_, _, _, _, _, _, _, _, h⟩ := Queued.outPush m p hw; rw [h]
@[simp] theorem Hw.outPush_grd (m : Ch) (p : OutPkt) (hw : Hw) : ((hw.outPush m p).ch m).grd = (hw.ch m).grd := by
  obtain ⟨_, _, _, _, _, _, _, _, h⟩ := Queued.outPush m p hw; rw [h]
@[simp] theorem Hw.outPush_fenced (m : Ch) (p : OutPkt) (hw : Hw) : ((hw.outPush m p).ch m).fenced = (hw.ch m).fenced := by
  obtain ⟨_, _, _, _, _, _, _, _, h⟩ := Queued.outPush m p hw; rw [h]
@[simp] theorem Hw.outPush_stopPending (m : Ch) (p : OutPkt) (hw : Hw) : ((hw.outPush m p).ch m).stopPending = (hw.ch m).stopPending := by
  obtain ⟨_, _, _, _, _, _, _, _, h⟩ := Queued.outPush m p hw; rw [h]
@[simp] theorem Hw.outPush_hbm (m : Ch) (p : OutPkt) (hw : Hw) : ((hw.outPush m p).ch m).hbm = (hw.ch m).hbm := by
  obtain ⟨_, _, _, _, _, _, _, _, h⟩ := Queued.outPush m p hw; rw [h]
@[simp] theorem Hw.outPush_hbmPoison (m : Ch) (p : OutPkt) (hw : Hw) : ((hw.outPush m p).ch m).hbmPoison = (hw.ch m).hbmPoison := by
  obtain ⟨_, _, _, _, _, _, _, _, h⟩ := Queued.outPush m p hw; rw [h]
@[simp] theorem Hw.outPush_core (m : Ch) (p : OutPkt) (hw : Hw) : ((hw.outPush m p).ch m).core = (hw.ch m).core := by
  obtain ⟨_, _, _, _, _, _, _, _, h⟩ := Queued.outPush m p hw; rw [h]
@[simp] theorem Hw.outPush_rings (m : Ch) (p : OutPkt) (hw : Hw) : ((hw.outPush m p).ch m).rings = (hw.ch m).rings := by
  obtain ⟨_, _, _, _, _, _, _, _, h⟩ := Queued.outPush m p hw; rw [h]
@[simp] theorem Hw.outPush_ringsLoaded (m : Ch) (p : OutPkt) (hw : Hw) : ((hw.outPush m p).ch m).ringsLoaded = (hw.ch m).ringsLoaded := by
  obtain ⟨_, _, _, _, _, _, _, _, h⟩ := Queued.outPush m p hw; rw [h]
@[simp] theorem Hw.outPush_maintRing (m : Ch) (p : OutPkt) (hw : Hw) : ((hw.outPush m p).ch m).maintRing = (hw.ch m).maintRing := by
  obtain ⟨_, _, _, _, _, _, _, _, h⟩ := Queued.outPush m p hw; rw [h]
@[simp] theorem Hw.outPush_shut (m : Ch) (p : OutPkt) (hw : Hw) : ((hw.outPush m p).ch m).shut = (hw.ch m).shut := by
  obtain ⟨_, _, _, _, _, _, _, _, h⟩ := Queued.outPush m p hw; rw [h]
@[simp] theorem Hw.outPush_ctx (m : Ch) (p : OutPkt) (hw : Hw) : ((hw.outPush m p).ch m).ctx = (hw.ch m).ctx := by
  obtain ⟨_, _, _, _, _, _, _, _, h⟩ := Queued.outPush m p hw; rw [h]
@[simp] theorem Hw.outPush_ctxWait (m : Ch) (p : OutPkt) (hw : Hw) : ((hw.outPush m p).ch m).ctxWait = (hw.ch m).ctxWait := by
  obtain ⟨_, _, _, _, _, _, _, _, h⟩ := Queued.outPush m p hw; rw [h]
@[simp] theorem Hw.outPush_input (m : Ch) (p : OutPkt) (hw : Hw) : ((hw.outPush m p).ch m).input = (hw.ch m).input := by
  obtain ⟨_, _, _, _, _, _, _, _, h⟩ := Queued.outPush m p hw; rw [h]
@[simp] theorem Hw.outPush_writes (m : Ch) (p : OutPkt) (hw : Hw) : ((hw.outPush m p).ch m).writes = (hw.ch m).writes := by
  obtain ⟨_, _, _, _, _, _, _, _, h⟩ := Queued.outPush m p hw; rw [h]
@[simp] theorem Hw.outPush_nextWrite (m : Ch) (p : OutPkt) (hw : Hw) : ((hw.outPush m p).ch m).nextWrite = (hw.ch m).nextWrite := by
  obtain ⟨_, _, _, _, _, _, _, _, h⟩ := Queued.outPush m p hw; rw [h]
@[simp] theorem Hw.outPush_hairQ (m : Ch) (p : OutPkt) (hw : Hw) : ((hw.outPush m p).ch m).hairQ = (hw.ch m).hairQ := by
  obtain ⟨_, _, _, _, _, _, _, _, h⟩ := Queued.outPush m p hw; rw [h]
@[simp] theorem Hw.outPush_regHeld (m : Ch) (p : OutPkt) (hw : Hw) : ((hw.outPush m p).ch m).regHeld = (hw.ch m).regHeld := by
  obtain ⟨_, _, _, _, _, _, _, _, h⟩ := Queued.outPush m p hw; rw [h]
@[simp] theorem Hw.outPush_ctrLat (m : Ch) (p : OutPkt) (hw : Hw) : ((hw.outPush m p).ch m).ctrLat = (hw.ch m).ctrLat := by
  obtain ⟨_, _, _, _, _, _, _, _, h⟩ := Queued.outPush m p hw; rw [h]
@[simp] theorem Hw.outPush_power (m : Ch) (p : OutPkt) (hw : Hw) : ((hw.outPush m p).ch m).power = (hw.ch m).power := by
  obtain ⟨_, _, _, _, _, _, _, _, h⟩ := Queued.outPush m p hw; rw [h]
/-! ### enter -/

@[simp] theorem Hw.enter_failSect (m : Ch) (st : ChState) (r : Nat) (hw : Hw) : ((hw.enter m st r).ch m).failSect = (hw.ch m).failSect := by
  obtain ⟨_, _, _, _, _, _, _, _, ⟨_, _, _, _, _, _, _, _, h⟩, _⟩ := hw.enter_form m st r; rw [h]
@[simp] theorem Hw.enter_slot (m : Ch) (st : ChState) (r : Nat) (hw : Hw) : ((hw.enter m st r).ch m).slot = (hw.ch m).slot := by
  obtain ⟨_, _, _, _, _, _, _, _, ⟨_, _, _, _, _, _, _, _, h⟩, _⟩ := hw.enter_form m st r; rw [h]
@[simp] theorem Hw.enter_startMark (m : Ch) (st : ChState) (r : Nat) (hw : Hw) : ((hw.enter m st r).ch m).startMark = (hw.ch m).startMark := by
  obtain ⟨_, _, _, _, _, _, _, _, ⟨_, _, _, _, _, _, _, _, h⟩, _⟩ := hw.enter_form m st r; rw [h]
@[simp] theorem Hw.enter_startUs (m : Ch) (st : ChState) (r : Nat) (hw : Hw) : ((hw.enter m st r).ch m).startUs = (hw.ch m).startUs := by
  obtain ⟨_, _, _, _, _, _, _, _, ⟨_, _, _, _, _, _, _, _, h⟩, _⟩ := hw.enter_form m st r; rw [h]
@[simp] theorem Hw.enter_boot (m : Ch) (st : ChState) (r : Nat) (hw : Hw) : ((hw.enter m st r).ch m).boot = (hw.ch m).boot := by
  obtain ⟨_, _, _, _, _, _, _, _, ⟨_, _, _, _, _, _, _, _, h⟩, _⟩ := hw.enter_form m st r; rw [h]
@[simp] theorem Hw.enter_img (m : Ch) (st : ChState) (r : Nat) (hw : Hw) : ((hw.enter m st r).ch m).img = (hw.ch m).img := by
  obtain ⟨_, _, _, _, _, _, _, _, ⟨_, _, _, _, _, _, _, _, h⟩, _⟩ := hw.enter_form m st r; rw [h]
@[simp] theorem Hw.enter_nvm (m : Ch) (st : ChState) (r : Nat) (hw : Hw) : ((hw.enter m st r).ch m).nvm = (hw.ch m).nvm := by
  obtain ⟨_, _, _, _, _, _, _, _, ⟨_, _, _, _, _, _, _, _, h⟩, _⟩ := hw.enter_form m st r; rw [h]
@[simp] theorem Hw.enter_tb (m : Ch) (st : ChState) (r : Nat) (hw : Hw) : ((hw.enter m st r).ch m).tb = (hw.ch m).tb := by
  obtain ⟨_, _, _, _, _, _, _, _, ⟨_, _, _, _, _, _, _, _, h⟩, _⟩ := hw.enter_form m st r; rw [h]
@[simp] theorem Hw.enter_ts (m : Ch) (st : ChState) (r : Nat) (hw : Hw) : ((hw.enter m st r).ch m).ts = (hw.ch m).ts := by
  obtain ⟨_, _, _, _, _, _, _, _, ⟨_, _, _, _, _, _, _, _, h⟩, _⟩ := hw.enter_form m st r; rw [h]
@[simp] theorem Hw.enter_doubtP (m : Ch) (st : ChState) (r : Nat) (hw : Hw) : ((hw.enter m st r).ch m).doubtP = (hw.ch m).doubtP := by
  obtain ⟨_, _, _, _, _, _, _, _, ⟨_, _, _, _, _, _, _, _, h⟩, _⟩ := hw.enter_form m st r; rw [h]
@[simp] theorem Hw.enter_doubtIn (m : Ch) (st : ChState) (r : Nat) (hw : Hw) : ((hw.enter m st r).ch m).doubtIn = (hw.ch m).doubtIn := by
  obtain ⟨_, _, _, _, _, _, _, _, ⟨_, _, _, _, _, _, _, _, h⟩, _⟩ := hw.enter_form m st r; rw [h]
@[simp] theorem Hw.enter_causesP (m : Ch) (st : ChState) (r : Nat) (hw : Hw) : ((hw.enter m st r).ch m).causesP = (hw.ch m).causesP := by
  obtain ⟨_, _, _, _, _, _, _, _, ⟨_, _, _, _, _, _, _, _, h⟩, _⟩ := hw.enter_form m st r; rw [h]
@[simp] theorem Hw.enter_causesIn (m : Ch) (st : ChState) (r : Nat) (hw : Hw) : ((hw.enter m st r).ch m).causesIn = (hw.ch m).causesIn := by
  obtain ⟨_, _, _, _, _, _, _, _, ⟨_, _, _, _, _, _, _, _, h⟩, _⟩ := hw.enter_form m st r; rw [h]
@[simp] theorem Hw.enter_hbLast (m : Ch) (st : ChState) (r : Nat) (hw : Hw) : ((hw.enter m st r).ch m).hbLast = (hw.ch m).hbLast := by
  obtain ⟨_, _, _, _, _, _, _, _, ⟨_, _, _, _, _, _, _, _, h⟩, _⟩ := hw.enter_form m st r; rw [h]
@[simp] theorem Hw.enter_hbSinceReady (m : Ch) (st : ChState) (r : Nat) (hw : Hw) : ((hw.enter m st r).ch m).hbSinceReady = (hw.ch m).hbSinceReady := by
  obtain ⟨_, _, _, _, _, _, _, _, ⟨_, _, _, _, _, _, _, _, h⟩, _⟩ := hw.enter_form m st r; rw [h]
@[simp] theorem Hw.enter_front (m : Ch) (st : ChState) (r : Nat) (hw : Hw) : ((hw.enter m st r).ch m).front = (hw.ch m).front := by
  obtain ⟨_, _, _, _, _, _, _, _, ⟨_, _, _, _, _, _, _, _, h⟩, _⟩ := hw.enter_form m st r; rw [h]
@[simp] theorem Hw.enter_cal (m : Ch) (st : ChState) (r : Nat) (hw : Hw) : ((hw.enter m st r).ch m).cal = (hw.ch m).cal := by
  obtain ⟨_, _, _, _, _, _, _, _, ⟨_, _, _, _, _, _, _, _, h⟩, _⟩ := hw.enter_form m st r; rw [h]
@[simp] theorem Hw.enter_scribe (m : Ch) (st : ChState) (r : Nat) (hw : Hw) : ((hw.enter m st r).ch m).scribe = (hw.ch m).scribe := by
  obtain ⟨_, _, _, _, _, _, _, _, ⟨_, _, _, _, _, _, _, _, h⟩, _⟩ := hw.enter_form m st r; rw [h]
@[simp] theorem Hw.enter_mrg (m : Ch) (st : ChState) (r : Nat) (hw : Hw) : ((hw.enter m st r).ch m).mrg = (hw.ch m).mrg := by
  obtain ⟨_, _, _, _, _, _, _, _, ⟨_, _, _, _, _, _, _, _, h⟩, _⟩ := hw.enter_form m st r; rw [h]
@[simp] theorem Hw.enter_env (m : Ch) (st : ChState) (r : Nat) (hw : Hw) : ((hw.enter m st r).ch m).env = (hw.ch m).env := by
  obtain ⟨_, _, _, _, _, _, _, _, ⟨_, _, _, _, _, _, _, _, h⟩, _⟩ := hw.enter_form m st r; rw [h]
@[simp] theorem Hw.enter_mon (m : Ch) (st : ChState) (r : Nat) (hw : Hw) : ((hw.enter m st r).ch m).mon = (hw.ch m).mon := by
  obtain ⟨_, _, _, _, _, _, _, _, ⟨_, _, _, _, _, _, _, _, h⟩, _⟩ := hw.enter_form m st r; rw [h]
@[simp] theorem Hw.enter_grd (m : Ch) (st : ChState) (r : Nat) (hw : Hw) : ((hw.enter m st r).ch m).grd = (hw.ch m).grd := by
  obtain ⟨_, _, _, _, _, _, _, _, ⟨_, _, _, _, _, _, _, _, h⟩, _⟩ := hw.enter_form m st r; rw [h]
@[simp] theorem Hw.enter_fenced (m : Ch) (st : ChState) (r : Nat) (hw : Hw) : ((hw.enter m st r).ch m).fenced = (hw.ch m).fenced := by
  obtain ⟨_, _, _, _, _, _, _, _, ⟨_, _, _, _, _, _, _, _, h⟩, _⟩ := hw.enter_form m st r; rw [h]
@[simp] theorem Hw.enter_stopPending (m : Ch) (st : ChState) (r : Nat) (hw : Hw) : ((hw.enter m st r).ch m).stopPending = (hw.ch m).stopPending := by
  obtain ⟨_, _, _, _, _, _, _, _, ⟨_, _, _, _, _, _, _, _, h⟩, _⟩ := hw.enter_form m st r; rw [h]
@[simp] theorem Hw.enter_hbm (m : Ch) (st : ChState) (r : Nat) (hw : Hw) : ((hw.enter m st r).ch m).hbm = (hw.ch m).hbm := by
  obtain ⟨_, _, _, _, _, _, _, _, ⟨_, _, _, _, _, _, _, _, h⟩, _⟩ := hw.enter_form m st r; rw [h]
@[simp] theorem Hw.enter_hbmPoison (m : Ch) (st : ChState) (r : Nat) (hw : Hw) : ((hw.enter m st r).ch m).hbmPoison = (hw.ch m).hbmPoison := by
  obtain ⟨_, _, _, _, _, _, _, _, ⟨_, _, _, _, _, _, _, _, h⟩, _⟩ := hw.enter_form m st r; rw [h]
@[simp] theorem Hw.enter_core (m : Ch) (st : ChState) (r : Nat) (hw : Hw) : ((hw.enter m st r).ch m).core = (hw.ch m).core := by
  obtain ⟨_, _, _, _, _, _, _, _, ⟨_, _, _, _, _, _, _, _, h⟩, _⟩ := hw.enter_form m st r; rw [h]
@[simp] theorem Hw.enter_rings (m : Ch) (st : ChState) (r : Nat) (hw : Hw) : ((hw.enter m st r).ch m).rings = (hw.ch m).rings := by
  obtain ⟨_, _, _, _, _, _, _, _, ⟨_, _, _, _, _, _, _, _, h⟩, _⟩ := hw.enter_form m st r; rw [h]
@[simp] theorem Hw.enter_ringsLoaded (m : Ch) (st : ChState) (r : Nat) (hw : Hw) : ((hw.enter m st r).ch m).ringsLoaded = (hw.ch m).ringsLoaded := by
  obtain ⟨_, _, _, _, _, _, _, _, ⟨_, _, _, _, _, _, _, _, h⟩, _⟩ := hw.enter_form m st r; rw [h]
@[simp] theorem Hw.enter_ctx (m : Ch) (st : ChState) (r : Nat) (hw : Hw) : ((hw.enter m st r).ch m).ctx = (hw.ch m).ctx := by
  obtain ⟨_, _, _, _, _, _, _, _, ⟨_, _, _, _, _, _, _, _, h⟩, _⟩ := hw.enter_form m st r; rw [h]
@[simp] theorem Hw.enter_ctxWait (m : Ch) (st : ChState) (r : Nat) (hw : Hw) : ((hw.enter m st r).ch m).ctxWait = (hw.ch m).ctxWait := by
  obtain ⟨_, _, _, _, _, _, _, _, ⟨_, _, _, _, _, _, _, _, h⟩, _⟩ := hw.enter_form m st r; rw [h]
@[simp] theorem Hw.enter_input (m : Ch) (st : ChState) (r : Nat) (hw : Hw) : ((hw.enter m st r).ch m).input = (hw.ch m).input := by
  obtain ⟨_, _, _, _, _, _, _, _, ⟨_, _, _, _, _, _, _, _, h⟩, _⟩ := hw.enter_form m st r; rw [h]
@[simp] theorem Hw.enter_writes (m : Ch) (st : ChState) (r : Nat) (hw : Hw) : ((hw.enter m st r).ch m).writes = (hw.ch m).writes := by
  obtain ⟨_, _, _, _, _, _, _, _, ⟨_, _, _, _, _, _, _, _, h⟩, _⟩ := hw.enter_form m st r; rw [h]
@[simp] theorem Hw.enter_nextWrite (m : Ch) (st : ChState) (r : Nat) (hw : Hw) : ((hw.enter m st r).ch m).nextWrite = (hw.ch m).nextWrite := by
  obtain ⟨_, _, _, _, _, _, _, _, ⟨_, _, _, _, _, _, _, _, h⟩, _⟩ := hw.enter_form m st r; rw [h]
@[simp] theorem Hw.enter_hairQ (m : Ch) (st : ChState) (r : Nat) (hw : Hw) : ((hw.enter m st r).ch m).hairQ = (hw.ch m).hairQ := by
  obtain ⟨_, _, _, _, _, _, _, _, ⟨_, _, _, _, _, _, _, _, h⟩, _⟩ := hw.enter_form m st r; rw [h]
@[simp] theorem Hw.enter_regHeld (m : Ch) (st : ChState) (r : Nat) (hw : Hw) : ((hw.enter m st r).ch m).regHeld = (hw.ch m).regHeld := by
  obtain ⟨_, _, _, _, _, _, _, _, ⟨_, _, _, _, _, _, _, _, h⟩, _⟩ := hw.enter_form m st r; rw [h]
@[simp] theorem Hw.enter_ctrLat (m : Ch) (st : ChState) (r : Nat) (hw : Hw) : ((hw.enter m st r).ch m).ctrLat = (hw.ch m).ctrLat := by
  obtain ⟨_, _, _, _, _, _, _, _, ⟨_, _, _, _, _, _, _, _, h⟩, _⟩ := hw.enter_form m st r; rw [h]
@[simp] theorem Hw.enter_power (m : Ch) (st : ChState) (r : Nat) (hw : Hw) : ((hw.enter m st r).ch m).power = (hw.ch m).power := by
  obtain ⟨_, _, _, _, _, _, _, _, ⟨_, _, _, _, _, _, _, _, h⟩, _⟩ := hw.enter_form m st r; rw [h]
@[simp] theorem Hw.enter_st (m : Ch) (st : ChState) (r : Nat) (hw : Hw) : ((hw.enter m st r).ch m).st = st := by
  obtain ⟨_, _, _, _, _, _, _, _, ⟨_, _, _, _, _, _, _, _, h⟩, _⟩ := hw.enter_form m st r; rw [h]
@[simp] theorem Hw.enter_reason (m : Ch) (st : ChState) (r : Nat) (hw : Hw) : ((hw.enter m st r).ch m).reason = BitVec.ofNat 8 r := by
  obtain ⟨_, _, _, _, _, _, _, _, ⟨_, _, _, _, _, _, _, _, h⟩, _⟩ := hw.enter_form m st r; rw [h]
@[simp] theorem Hw.enter_pins (m : Ch) (st : ChState) (r : Nat) (hw : Hw) : ((hw.enter m st r).ch m).pins =
    (match st with | .run | .margin | .fenced => (hw.ch m).pins | _ => Pins.stopOnly) := by
  obtain ⟨_, _, _, _, _, _, _, _, ⟨_, _, _, _, _, _, _, _, h⟩, h1, h2, h3, h4, h5, h6, h7, h8⟩ := hw.enter_form m st r; rw [h]; assumption
@[simp] theorem Hw.enter_pinFrom (m : Ch) (st : ChState) (r : Nat) (hw : Hw) : ((hw.enter m st r).ch m).pinFrom =
    (if (hw.ch m).pinAt = hw.now then (hw.ch m).pinFrom else (hw.ch m).pins) := by
  obtain ⟨_, _, _, _, _, _, _, _, ⟨_, _, _, _, _, _, _, _, h⟩, _⟩ := hw.enter_form m st r; rw [h]
@[simp] theorem Hw.enter_pinAt (m : Ch) (st : ChState) (r : Nat) (hw : Hw) : ((hw.enter m st r).ch m).pinAt = hw.now := by
  obtain ⟨_, _, _, _, _, _, _, _, ⟨_, _, _, _, _, _, _, _, h⟩, _⟩ := hw.enter_form m st r; rw [h]
@[simp] theorem Hw.enter_moved (m : Ch) (st : ChState) (r : Nat) (hw : Hw) : ((hw.enter m st r).ch m).moved =
    (match st.rank with | some r => some (hw.now, r) | none => (hw.ch m).moved) := by
  obtain ⟨_, _, _, _, _, _, _, _, ⟨_, _, _, _, _, _, _, _, h⟩, _⟩ := hw.enter_form m st r; rw [h]
@[simp] theorem Hw.enter_resv (m : Ch) (st : ChState) (r : Nat) (hw : Hw) : ((hw.enter m st r).ch m).resv =
    (match st with | .ready | .run | .margin => (hw.ch m).resv | _ => none) := by
  obtain ⟨_, _, _, _, _, _, _, _, ⟨_, _, _, _, _, _, _, _, h⟩, h1, h2, h3, h4, h5, h6, h7, h8⟩ := hw.enter_form m st r; rw [h]; assumption
@[simp] theorem Hw.enter_tick (m : Ch) (st : ChState) (r : Nat) (hw : Hw) : ((hw.enter m st r).ch m).tick =
    (if st.ticks then (hw.ch m).tick else { (hw.ch m).tick with ticking := false }) := by
  obtain ⟨_, _, _, _, _, _, _, _, ⟨_, _, _, _, _, _, _, _, h⟩, h1, h2, h3, h4, h5, h6, h7, h8⟩ := hw.enter_form m st r; rw [h]; assumption
@[simp] theorem Hw.enter_duct (m : Ch) (st : ChState) (r : Nat) (hw : Hw) : ((hw.enter m st r).ch m).duct =
    (match st with | .run | .margin => (hw.ch m).duct | _ => { (hw.ch m).duct with point := 0, changing := none, raised := false }) := by
  obtain ⟨_, _, _, _, _, _, _, _, ⟨_, _, _, _, _, _, _, _, h⟩, h1, h2, h3, h4, h5, h6, h7, h8⟩ := hw.enter_form m st r; rw [h]; assumption
@[simp] theorem Hw.enter_peer (m : Ch) (st : ChState) (r : Nat) (hw : Hw) : ((hw.enter m st r).ch m).peer =
    (match st with
      | .ready | .run | .margin => (hw.ch m).peer
      | _ => { (hw.ch m).peer with winOpen := [], lag := [], grace := none }) := by
  obtain ⟨_, _, _, _, _, _, _, _, ⟨_, _, _, _, _, _, _, _, h⟩, h1, h2, h3, h4, h5, h6, h7, h8⟩ := hw.enter_form m st r; rw [h]; assumption
@[simp] theorem Hw.enter_maint (m : Ch) (st : ChState) (r : Nat) (hw : Hw) : ((hw.enter m st r).ch m).maint =
    (if st == .maint then (hw.ch m).maint else none) := by
  obtain ⟨_, _, _, _, _, _, _, _, ⟨_, _, _, _, _, _, _, _, h⟩, h1, h2, h3, h4, h5, h6, h7, h8⟩ := hw.enter_form m st r; rw [h]; assumption
@[simp] theorem Hw.enter_maintRing (m : Ch) (st : ChState) (r : Nat) (hw : Hw) : ((hw.enter m st r).ch m).maintRing =
    (if st == .maint || !(hw.ch m).ringsLoaded then (hw.ch m).maintRing else none) := by
  obtain ⟨_, _, _, _, _, _, _, _, ⟨_, _, _, _, _, _, _, _, h⟩, h1, h2, h3, h4, h5, h6, h7, h8⟩ := hw.enter_form m st r; rw [h]; assumption
@[simp] theorem Hw.enter_shut (m : Ch) (st : ChState) (r : Nat) (hw : Hw) : ((hw.enter m st r).ch m).shut =
    (match st with | .ready | .run | .margin => (hw.ch m).shut | _ => (hw.ch m).peer.winOpen ++ (hw.ch m).shut) := by
  obtain ⟨_, _, _, _, _, _, _, _, ⟨_, _, _, _, _, _, _, _, h⟩, h1, h2, h3, h4, h5, h6, h7, h8⟩ := hw.enter_form m st r; rw [h]; assumption

/-! ### Elsewhere: other channels, the device, time -/

theorem Hw.raise_ne {m n : Ch} (hn : n ≠ m) (sev : Severity) (code init : Nat) (d0 d1 : Option Nat) (hw : Hw) : (hw.raise m sev code init d0 d1).ch n = hw.ch n := (OnlyCh.raise m sev code init d0 d1 hw).ch n hn
@[simp] theorem Hw.raise_now (m : Ch) (sev : Severity) (code init : Nat) (d0 d1 : Option Nat) (hw : Hw) : (hw.raise m sev code init d0 d1).now = hw.now := (OnlyCh.raise m sev code init d0 d1 hw).now
@[simp] theorem Hw.raise_emitted (m : Ch) (sev : Severity) (code init : Nat) (d0 d1 : Option Nat) (hw : Hw) : (hw.raise m sev code init d0 d1).emitted = hw.emitted := (OnlyCh.raise m sev code init d0 d1 hw).emitted
@[simp] theorem Hw.raise_due (m : Ch) (sev : Severity) (code init : Nat) (d0 d1 : Option Nat) (hw : Hw) : (hw.raise m sev code init d0 d1).due = hw.due := (OnlyCh.raise m sev code init d0 d1 hw).due
@[simp] theorem Hw.raise_dev_porstN (m : Ch) (sev : Severity) (code init : Nat) (d0 d1 : Option Nat) (hw : Hw) : (hw.raise m sev code init d0 d1).dev.porstN = hw.dev.porstN := by rw [(OnlyCh.raise m sev code init d0 d1 hw).dev]
@[simp] theorem Hw.raise_dev_testMode (m : Ch) (sev : Severity) (code init : Nat) (d0 d1 : Option Nat) (hw : Hw) : (hw.raise m sev code init d0 d1).dev.testMode = hw.dev.testMode := by rw [(OnlyCh.raise m sev code init d0 d1 hw).dev]
@[simp] theorem Hw.raise_dev_porstAt (m : Ch) (sev : Severity) (code init : Nat) (d0 d1 : Option Nat) (hw : Hw) : (hw.raise m sev code init d0 d1).dev.porstAt = hw.dev.porstAt := by rw [(OnlyCh.raise m sev code init d0 d1 hw).dev]
@[simp] theorem Hw.raise_dev_fuses (m : Ch) (sev : Severity) (code init : Nat) (d0 d1 : Option Nat) (hw : Hw) : (hw.raise m sev code init d0 d1).dev.fuses = hw.dev.fuses := by rw [(OnlyCh.raise m sev code init d0 d1 hw).dev]
@[simp] theorem Hw.raise_dev_link (m : Ch) (sev : Severity) (code init : Nat) (d0 d1 : Option Nat) (hw : Hw) : (hw.raise m sev code init d0 d1).dev.link = hw.dev.link := by rw [(OnlyCh.raise m sev code init d0 d1 hw).dev]
@[simp] theorem Hw.raise_dev_faultLow (m : Ch) (sev : Severity) (code init : Nat) (d0 d1 : Option Nat) (hw : Hw) : (hw.raise m sev code init d0 d1).dev.faultLow = hw.dev.faultLow := by rw [(OnlyCh.raise m sev code init d0 d1 hw).dev]
@[simp] theorem Hw.raise_dev_faultCode (m : Ch) (sev : Severity) (code init : Nat) (d0 d1 : Option Nat) (hw : Hw) : (hw.raise m sev code init d0 d1).dev.faultCode = hw.dev.faultCode := by rw [(OnlyCh.raise m sev code init d0 d1 hw).dev]
@[simp] theorem Hw.raise_dev_deviceStop (m : Ch) (sev : Severity) (code init : Nat) (d0 d1 : Option Nat) (hw : Hw) : (hw.raise m sev code init d0 d1).dev.deviceStop = hw.dev.deviceStop := by rw [(OnlyCh.raise m sev code init d0 d1 hw).dev]
@[simp] theorem Hw.raise_dev_rails (m : Ch) (sev : Severity) (code init : Nat) (d0 d1 : Option Nat) (hw : Hw) : (hw.raise m sev code init d0 d1).dev.rails = hw.dev.rails := by rw [(OnlyCh.raise m sev code init d0 d1 hw).dev]
@[simp] theorem Hw.raise_dev_refclkOk (m : Ch) (sev : Severity) (code init : Nat) (d0 d1 : Option Nat) (hw : Hw) : (hw.raise m sev code init d0 d1).dev.refclkOk = hw.dev.refclkOk := by rw [(OnlyCh.raise m sev code init d0 d1 hw).dev]
@[simp] theorem Hw.raise_dev_marginClkOk (m : Ch) (sev : Severity) (code init : Nat) (d0 d1 : Option Nat) (hw : Hw) : (hw.raise m sev code init d0 d1).dev.marginClkOk = hw.dev.marginClkOk := by rw [(OnlyCh.raise m sev code init d0 d1 hw).dev]
@[simp] theorem Hw.raise_dev_ucieLock (m : Ch) (sev : Severity) (code init : Nat) (d0 d1 : Option Nat) (hw : Hw) : (hw.raise m sev code init d0 d1).dev.ucieLock = hw.dev.ucieLock := by rw [(OnlyCh.raise m sev code init d0 d1 hw).dev]
@[simp] theorem Hw.raise_dev_capDw (m : Ch) (sev : Severity) (code init : Nat) (d0 d1 : Option Nat) (hw : Hw) : (hw.raise m sev code init d0 d1).dev.capDw = hw.dev.capDw := by rw [(OnlyCh.raise m sev code init d0 d1 hw).dev]
@[simp] theorem Hw.raise_dev_power (m : Ch) (sev : Severity) (code init : Nat) (d0 d1 : Option Nat) (hw : Hw) : (hw.raise m sev code init d0 d1).dev.power = hw.dev.power := by rw [(OnlyCh.raise m sev code init d0 d1 hw).dev]
@[simp] theorem Hw.raise_dev_doubleRefresh (m : Ch) (sev : Severity) (code init : Nat) (d0 d1 : Option Nat) (hw : Hw) : (hw.raise m sev code init d0 d1).dev.doubleRefresh = hw.dev.doubleRefresh := by rw [(OnlyCh.raise m sev code init d0 d1 hw).dev]
@[simp] theorem Hw.raise_dev_overAt (m : Ch) (sev : Severity) (code init : Nat) (d0 d1 : Option Nat) (hw : Hw) : (hw.raise m sev code init d0 d1).dev.overAt = hw.dev.overAt := by rw [(OnlyCh.raise m sev code init d0 d1 hw).dev]
@[simp] theorem Hw.raise_signet_ready (m : Ch) (sev : Severity) (code init : Nat) (d0 d1 : Option Nat) (hw : Hw) : (hw.raise m sev code init d0 d1).dev.signet.ready = hw.dev.signet.ready := by rw [(OnlyCh.raise m sev code init d0 d1 hw).dev]
@[simp] theorem Hw.raise_signet_fusesRead (m : Ch) (sev : Severity) (code init : Nat) (d0 d1 : Option Nat) (hw : Hw) : (hw.raise m sev code init d0 d1).dev.signet.fusesRead = hw.dev.signet.fusesRead := by rw [(OnlyCh.raise m sev code init d0 d1 hw).dev]
@[simp] theorem Hw.raise_signet_queue (m : Ch) (sev : Severity) (code init : Nat) (d0 d1 : Option Nat) (hw : Hw) : (hw.raise m sev code init d0 d1).dev.signet.queue = hw.dev.signet.queue := by rw [(OnlyCh.raise m sev code init d0 d1 hw).dev]
@[simp] theorem Hw.raise_signet_sessions (m : Ch) (sev : Severity) (code init : Nat) (d0 d1 : Option Nat) (hw : Hw) : (hw.raise m sev code init d0 d1).dev.signet.sessions = hw.dev.signet.sessions := by rw [(OnlyCh.raise m sev code init d0 d1 hw).dev]
@[simp] theorem Hw.raise_signet_sessionCtr (m : Ch) (sev : Severity) (code init : Nat) (d0 d1 : Option Nat) (hw : Hw) : (hw.raise m sev code init d0 d1).dev.signet.sessionCtr = hw.dev.signet.sessionCtr := by rw [(OnlyCh.raise m sev code init d0 d1 hw).dev]
@[simp] theorem Hw.raise_signet_mgCounter (m : Ch) (sev : Severity) (code init : Nat) (d0 d1 : Option Nat) (hw : Hw) : (hw.raise m sev code init d0 d1).dev.signet.mgCounter = hw.dev.signet.mgCounter := by rw [(OnlyCh.raise m sev code init d0 d1 hw).dev]
@[simp] theorem Hw.raise_signet_logDevice (m : Ch) (sev : Severity) (code init : Nat) (d0 d1 : Option Nat) (hw : Hw) : (hw.raise m sev code init d0 d1).dev.signet.logDevice = hw.dev.signet.logDevice := by rw [(OnlyCh.raise m sev code init d0 d1 hw).dev]
@[simp] theorem Hw.raise_signet_lastRefused (m : Ch) (sev : Severity) (code init : Nat) (d0 d1 : Option Nat) (hw : Hw) : (hw.raise m sev code init d0 d1).dev.signet.lastRefused = hw.dev.signet.lastRefused := by rw [(OnlyCh.raise m sev code init d0 d1 hw).dev]
@[simp] theorem Hw.raise_signet_fresh (m : Ch) (sev : Severity) (code init : Nat) (d0 d1 : Option Nat) (hw : Hw) : (hw.raise m sev code init d0 d1).dev.signet.fresh = hw.dev.signet.fresh := by rw [(OnlyCh.raise m sev code init d0 d1 hw).dev]
theorem Hw.raiseIn_ne {m n : Ch} (hn : n ≠ m) (sev : Severity) (code init : Nat) (d0 d1 : Option Nat) (hw : Hw) : (hw.raiseIn m sev code init d0 d1).ch n = hw.ch n := (OnlyCh.raiseIn m sev code init d0 d1 hw).ch n hn
@[simp] theorem Hw.raiseIn_now (m : Ch) (sev : Severity) (code init : Nat) (d0 d1 : Option Nat) (hw : Hw) : (hw.raiseIn m sev code init d0 d1).now = hw.now := (OnlyCh.raiseIn m sev code init d0 d1 hw).now
@[simp] theorem Hw.raiseIn_emitted (m : Ch) (sev : Severity) (code init : Nat) (d0 d1 : Option Nat) (hw : Hw) : (hw.raiseIn m sev code init d0 d1).emitted = hw.emitted := (OnlyCh.raiseIn m sev code init d0 d1 hw).emitted
@[simp] theorem Hw.raiseIn_due (m : Ch) (sev : Severity) (code init : Nat) (d0 d1 : Option Nat) (hw : Hw) : (hw.raiseIn m sev code init d0 d1).due = hw.due := (OnlyCh.raiseIn m sev code init d0 d1 hw).due
@[simp] theorem Hw.raiseIn_dev_porstN (m : Ch) (sev : Severity) (code init : Nat) (d0 d1 : Option Nat) (hw : Hw) : (hw.raiseIn m sev code init d0 d1).dev.porstN = hw.dev.porstN := by rw [(OnlyCh.raiseIn m sev code init d0 d1 hw).dev]
@[simp] theorem Hw.raiseIn_dev_testMode (m : Ch) (sev : Severity) (code init : Nat) (d0 d1 : Option Nat) (hw : Hw) : (hw.raiseIn m sev code init d0 d1).dev.testMode = hw.dev.testMode := by rw [(OnlyCh.raiseIn m sev code init d0 d1 hw).dev]
@[simp] theorem Hw.raiseIn_dev_porstAt (m : Ch) (sev : Severity) (code init : Nat) (d0 d1 : Option Nat) (hw : Hw) : (hw.raiseIn m sev code init d0 d1).dev.porstAt = hw.dev.porstAt := by rw [(OnlyCh.raiseIn m sev code init d0 d1 hw).dev]
@[simp] theorem Hw.raiseIn_dev_fuses (m : Ch) (sev : Severity) (code init : Nat) (d0 d1 : Option Nat) (hw : Hw) : (hw.raiseIn m sev code init d0 d1).dev.fuses = hw.dev.fuses := by rw [(OnlyCh.raiseIn m sev code init d0 d1 hw).dev]
@[simp] theorem Hw.raiseIn_dev_link (m : Ch) (sev : Severity) (code init : Nat) (d0 d1 : Option Nat) (hw : Hw) : (hw.raiseIn m sev code init d0 d1).dev.link = hw.dev.link := by rw [(OnlyCh.raiseIn m sev code init d0 d1 hw).dev]
@[simp] theorem Hw.raiseIn_dev_faultLow (m : Ch) (sev : Severity) (code init : Nat) (d0 d1 : Option Nat) (hw : Hw) : (hw.raiseIn m sev code init d0 d1).dev.faultLow = hw.dev.faultLow := by rw [(OnlyCh.raiseIn m sev code init d0 d1 hw).dev]
@[simp] theorem Hw.raiseIn_dev_faultCode (m : Ch) (sev : Severity) (code init : Nat) (d0 d1 : Option Nat) (hw : Hw) : (hw.raiseIn m sev code init d0 d1).dev.faultCode = hw.dev.faultCode := by rw [(OnlyCh.raiseIn m sev code init d0 d1 hw).dev]
@[simp] theorem Hw.raiseIn_dev_deviceStop (m : Ch) (sev : Severity) (code init : Nat) (d0 d1 : Option Nat) (hw : Hw) : (hw.raiseIn m sev code init d0 d1).dev.deviceStop = hw.dev.deviceStop := by rw [(OnlyCh.raiseIn m sev code init d0 d1 hw).dev]
@[simp] theorem Hw.raiseIn_dev_rails (m : Ch) (sev : Severity) (code init : Nat) (d0 d1 : Option Nat) (hw : Hw) : (hw.raiseIn m sev code init d0 d1).dev.rails = hw.dev.rails := by rw [(OnlyCh.raiseIn m sev code init d0 d1 hw).dev]
@[simp] theorem Hw.raiseIn_dev_refclkOk (m : Ch) (sev : Severity) (code init : Nat) (d0 d1 : Option Nat) (hw : Hw) : (hw.raiseIn m sev code init d0 d1).dev.refclkOk = hw.dev.refclkOk := by rw [(OnlyCh.raiseIn m sev code init d0 d1 hw).dev]
@[simp] theorem Hw.raiseIn_dev_marginClkOk (m : Ch) (sev : Severity) (code init : Nat) (d0 d1 : Option Nat) (hw : Hw) : (hw.raiseIn m sev code init d0 d1).dev.marginClkOk = hw.dev.marginClkOk := by rw [(OnlyCh.raiseIn m sev code init d0 d1 hw).dev]
@[simp] theorem Hw.raiseIn_dev_ucieLock (m : Ch) (sev : Severity) (code init : Nat) (d0 d1 : Option Nat) (hw : Hw) : (hw.raiseIn m sev code init d0 d1).dev.ucieLock = hw.dev.ucieLock := by rw [(OnlyCh.raiseIn m sev code init d0 d1 hw).dev]
@[simp] theorem Hw.raiseIn_dev_capDw (m : Ch) (sev : Severity) (code init : Nat) (d0 d1 : Option Nat) (hw : Hw) : (hw.raiseIn m sev code init d0 d1).dev.capDw = hw.dev.capDw := by rw [(OnlyCh.raiseIn m sev code init d0 d1 hw).dev]
@[simp] theorem Hw.raiseIn_dev_power (m : Ch) (sev : Severity) (code init : Nat) (d0 d1 : Option Nat) (hw : Hw) : (hw.raiseIn m sev code init d0 d1).dev.power = hw.dev.power := by rw [(OnlyCh.raiseIn m sev code init d0 d1 hw).dev]
@[simp] theorem Hw.raiseIn_dev_doubleRefresh (m : Ch) (sev : Severity) (code init : Nat) (d0 d1 : Option Nat) (hw : Hw) : (hw.raiseIn m sev code init d0 d1).dev.doubleRefresh = hw.dev.doubleRefresh := by rw [(OnlyCh.raiseIn m sev code init d0 d1 hw).dev]
@[simp] theorem Hw.raiseIn_dev_overAt (m : Ch) (sev : Severity) (code init : Nat) (d0 d1 : Option Nat) (hw : Hw) : (hw.raiseIn m sev code init d0 d1).dev.overAt = hw.dev.overAt := by rw [(OnlyCh.raiseIn m sev code init d0 d1 hw).dev]
@[simp] theorem Hw.raiseIn_signet_ready (m : Ch) (sev : Severity) (code init : Nat) (d0 d1 : Option Nat) (hw : Hw) : (hw.raiseIn m sev code init d0 d1).dev.signet.ready = hw.dev.signet.ready := by rw [(OnlyCh.raiseIn m sev code init d0 d1 hw).dev]
@[simp] theorem Hw.raiseIn_signet_fusesRead (m : Ch) (sev : Severity) (code init : Nat) (d0 d1 : Option Nat) (hw : Hw) : (hw.raiseIn m sev code init d0 d1).dev.signet.fusesRead = hw.dev.signet.fusesRead := by rw [(OnlyCh.raiseIn m sev code init d0 d1 hw).dev]
@[simp] theorem Hw.raiseIn_signet_queue (m : Ch) (sev : Severity) (code init : Nat) (d0 d1 : Option Nat) (hw : Hw) : (hw.raiseIn m sev code init d0 d1).dev.signet.queue = hw.dev.signet.queue := by rw [(OnlyCh.raiseIn m sev code init d0 d1 hw).dev]
@[simp] theorem Hw.raiseIn_signet_sessions (m : Ch) (sev : Severity) (code init : Nat) (d0 d1 : Option Nat) (hw : Hw) : (hw.raiseIn m sev code init d0 d1).dev.signet.sessions = hw.dev.signet.sessions := by rw [(OnlyCh.raiseIn m sev code init d0 d1 hw).dev]
@[simp] theorem Hw.raiseIn_signet_sessionCtr (m : Ch) (sev : Severity) (code init : Nat) (d0 d1 : Option Nat) (hw : Hw) : (hw.raiseIn m sev code init d0 d1).dev.signet.sessionCtr = hw.dev.signet.sessionCtr := by rw [(OnlyCh.raiseIn m sev code init d0 d1 hw).dev]
@[simp] theorem Hw.raiseIn_signet_mgCounter (m : Ch) (sev : Severity) (code init : Nat) (d0 d1 : Option Nat) (hw : Hw) : (hw.raiseIn m sev code init d0 d1).dev.signet.mgCounter = hw.dev.signet.mgCounter := by rw [(OnlyCh.raiseIn m sev code init d0 d1 hw).dev]
@[simp] theorem Hw.raiseIn_signet_logDevice (m : Ch) (sev : Severity) (code init : Nat) (d0 d1 : Option Nat) (hw : Hw) : (hw.raiseIn m sev code init d0 d1).dev.signet.logDevice = hw.dev.signet.logDevice := by rw [(OnlyCh.raiseIn m sev code init d0 d1 hw).dev]
@[simp] theorem Hw.raiseIn_signet_lastRefused (m : Ch) (sev : Severity) (code init : Nat) (d0 d1 : Option Nat) (hw : Hw) : (hw.raiseIn m sev code init d0 d1).dev.signet.lastRefused = hw.dev.signet.lastRefused := by rw [(OnlyCh.raiseIn m sev code init d0 d1 hw).dev]
@[simp] theorem Hw.raiseIn_signet_fresh (m : Ch) (sev : Severity) (code init : Nat) (d0 d1 : Option Nat) (hw : Hw) : (hw.raiseIn m sev code init d0 d1).dev.signet.fresh = hw.dev.signet.fresh := by rw [(OnlyCh.raiseIn m sev code init d0 d1 hw).dev]
theorem Hw.outPush_ne {m n : Ch} (hn : n ≠ m) (p : OutPkt) (hw : Hw) : (hw.outPush m p).ch n = hw.ch n := (OnlyCh.outPush m p hw).ch n hn
@[simp] theorem Hw.outPush_now (m : Ch) (p : OutPkt) (hw : Hw) : (hw.outPush m p).now = hw.now := (OnlyCh.outPush m p hw).now
@[simp] theorem Hw.outPush_emitted (m : Ch) (p : OutPkt) (hw : Hw) : (hw.outPush m p).emitted = hw.emitted := (OnlyCh.outPush m p hw).emitted
@[simp] theorem Hw.outPush_due (m : Ch) (p : OutPkt) (hw : Hw) : (hw.outPush m p).due = hw.due := (OnlyCh.outPush m p hw).due
@[simp] theorem Hw.outPush_dev_porstN (m : Ch) (p : OutPkt) (hw : Hw) : (hw.outPush m p).dev.porstN = hw.dev.porstN := by rw [(OnlyCh.outPush m p hw).dev]
@[simp] theorem Hw.outPush_dev_testMode (m : Ch) (p : OutPkt) (hw : Hw) : (hw.outPush m p).dev.testMode = hw.dev.testMode := by rw [(OnlyCh.outPush m p hw).dev]
@[simp] theorem Hw.outPush_dev_porstAt (m : Ch) (p : OutPkt) (hw : Hw) : (hw.outPush m p).dev.porstAt = hw.dev.porstAt := by rw [(OnlyCh.outPush m p hw).dev]
@[simp] theorem Hw.outPush_dev_fuses (m : Ch) (p : OutPkt) (hw : Hw) : (hw.outPush m p).dev.fuses = hw.dev.fuses := by rw [(OnlyCh.outPush m p hw).dev]
@[simp] theorem Hw.outPush_dev_link (m : Ch) (p : OutPkt) (hw : Hw) : (hw.outPush m p).dev.link = hw.dev.link := by rw [(OnlyCh.outPush m p hw).dev]
@[simp] theorem Hw.outPush_dev_faultLow (m : Ch) (p : OutPkt) (hw : Hw) : (hw.outPush m p).dev.faultLow = hw.dev.faultLow := by rw [(OnlyCh.outPush m p hw).dev]
@[simp] theorem Hw.outPush_dev_faultCode (m : Ch) (p : OutPkt) (hw : Hw) : (hw.outPush m p).dev.faultCode = hw.dev.faultCode := by rw [(OnlyCh.outPush m p hw).dev]
@[simp] theorem Hw.outPush_dev_deviceStop (m : Ch) (p : OutPkt) (hw : Hw) : (hw.outPush m p).dev.deviceStop = hw.dev.deviceStop := by rw [(OnlyCh.outPush m p hw).dev]
@[simp] theorem Hw.outPush_dev_rails (m : Ch) (p : OutPkt) (hw : Hw) : (hw.outPush m p).dev.rails = hw.dev.rails := by rw [(OnlyCh.outPush m p hw).dev]
@[simp] theorem Hw.outPush_dev_refclkOk (m : Ch) (p : OutPkt) (hw : Hw) : (hw.outPush m p).dev.refclkOk = hw.dev.refclkOk := by rw [(OnlyCh.outPush m p hw).dev]
@[simp] theorem Hw.outPush_dev_marginClkOk (m : Ch) (p : OutPkt) (hw : Hw) : (hw.outPush m p).dev.marginClkOk = hw.dev.marginClkOk := by rw [(OnlyCh.outPush m p hw).dev]
@[simp] theorem Hw.outPush_dev_ucieLock (m : Ch) (p : OutPkt) (hw : Hw) : (hw.outPush m p).dev.ucieLock = hw.dev.ucieLock := by rw [(OnlyCh.outPush m p hw).dev]
@[simp] theorem Hw.outPush_dev_capDw (m : Ch) (p : OutPkt) (hw : Hw) : (hw.outPush m p).dev.capDw = hw.dev.capDw := by rw [(OnlyCh.outPush m p hw).dev]
@[simp] theorem Hw.outPush_dev_power (m : Ch) (p : OutPkt) (hw : Hw) : (hw.outPush m p).dev.power = hw.dev.power := by rw [(OnlyCh.outPush m p hw).dev]
@[simp] theorem Hw.outPush_dev_doubleRefresh (m : Ch) (p : OutPkt) (hw : Hw) : (hw.outPush m p).dev.doubleRefresh = hw.dev.doubleRefresh := by rw [(OnlyCh.outPush m p hw).dev]
@[simp] theorem Hw.outPush_dev_overAt (m : Ch) (p : OutPkt) (hw : Hw) : (hw.outPush m p).dev.overAt = hw.dev.overAt := by rw [(OnlyCh.outPush m p hw).dev]
@[simp] theorem Hw.outPush_signet_ready (m : Ch) (p : OutPkt) (hw : Hw) : (hw.outPush m p).dev.signet.ready = hw.dev.signet.ready := by rw [(OnlyCh.outPush m p hw).dev]
@[simp] theorem Hw.outPush_signet_fusesRead (m : Ch) (p : OutPkt) (hw : Hw) : (hw.outPush m p).dev.signet.fusesRead = hw.dev.signet.fusesRead := by rw [(OnlyCh.outPush m p hw).dev]
@[simp] theorem Hw.outPush_signet_queue (m : Ch) (p : OutPkt) (hw : Hw) : (hw.outPush m p).dev.signet.queue = hw.dev.signet.queue := by rw [(OnlyCh.outPush m p hw).dev]
@[simp] theorem Hw.outPush_signet_sessions (m : Ch) (p : OutPkt) (hw : Hw) : (hw.outPush m p).dev.signet.sessions = hw.dev.signet.sessions := by rw [(OnlyCh.outPush m p hw).dev]
@[simp] theorem Hw.outPush_signet_sessionCtr (m : Ch) (p : OutPkt) (hw : Hw) : (hw.outPush m p).dev.signet.sessionCtr = hw.dev.signet.sessionCtr := by rw [(OnlyCh.outPush m p hw).dev]
@[simp] theorem Hw.outPush_signet_mgCounter (m : Ch) (p : OutPkt) (hw : Hw) : (hw.outPush m p).dev.signet.mgCounter = hw.dev.signet.mgCounter := by rw [(OnlyCh.outPush m p hw).dev]
@[simp] theorem Hw.outPush_signet_logDevice (m : Ch) (p : OutPkt) (hw : Hw) : (hw.outPush m p).dev.signet.logDevice = hw.dev.signet.logDevice := by rw [(OnlyCh.outPush m p hw).dev]
@[simp] theorem Hw.outPush_signet_lastRefused (m : Ch) (p : OutPkt) (hw : Hw) : (hw.outPush m p).dev.signet.lastRefused = hw.dev.signet.lastRefused := by rw [(OnlyCh.outPush m p hw).dev]
@[simp] theorem Hw.outPush_signet_fresh (m : Ch) (p : OutPkt) (hw : Hw) : (hw.outPush m p).dev.signet.fresh = hw.dev.signet.fresh := by rw [(OnlyCh.outPush m p hw).dev]
theorem Hw.enter_ne {m n : Ch} (hn : n ≠ m) (st : ChState) (r : Nat) (hw : Hw) : (hw.enter m st r).ch n = hw.ch n := (OnlyCh.enter m st r hw).ch n hn
@[simp] theorem Hw.enter_now (m : Ch) (st : ChState) (r : Nat) (hw : Hw) : (hw.enter m st r).now = hw.now := (OnlyCh.enter m st r hw).now
@[simp] theorem Hw.enter_emitted (m : Ch) (st : ChState) (r : Nat) (hw : Hw) : (hw.enter m st r).emitted = hw.emitted := (OnlyCh.enter m st r hw).emitted
@[simp] theorem Hw.enter_due (m : Ch) (st : ChState) (r : Nat) (hw : Hw) : (hw.enter m st r).due = hw.due := (OnlyCh.enter m st r hw).due
@[simp] theorem Hw.enter_dev_porstN (m : Ch) (st : ChState) (r : Nat) (hw : Hw) : (hw.enter m st r).dev.porstN = hw.dev.porstN := by rw [(OnlyCh.enter m st r hw).dev]
@[simp] theorem Hw.enter_dev_testMode (m : Ch) (st : ChState) (r : Nat) (hw : Hw) : (hw.enter m st r).dev.testMode = hw.dev.testMode := by rw [(OnlyCh.enter m st r hw).dev]
@[simp] theorem Hw.enter_dev_porstAt (m : Ch) (st : ChState) (r : Nat) (hw : Hw) : (hw.enter m st r).dev.porstAt = hw.dev.porstAt := by rw [(OnlyCh.enter m st r hw).dev]
@[simp] theorem Hw.enter_dev_fuses (m : Ch) (st : ChState) (r : Nat) (hw : Hw) : (hw.enter m st r).dev.fuses = hw.dev.fuses := by rw [(OnlyCh.enter m st r hw).dev]
@[simp] theorem Hw.enter_dev_link (m : Ch) (st : ChState) (r : Nat) (hw : Hw) : (hw.enter m st r).dev.link = hw.dev.link := by rw [(OnlyCh.enter m st r hw).dev]
@[simp] theorem Hw.enter_dev_faultLow (m : Ch) (st : ChState) (r : Nat) (hw : Hw) : (hw.enter m st r).dev.faultLow = hw.dev.faultLow := by rw [(OnlyCh.enter m st r hw).dev]
@[simp] theorem Hw.enter_dev_faultCode (m : Ch) (st : ChState) (r : Nat) (hw : Hw) : (hw.enter m st r).dev.faultCode = hw.dev.faultCode := by rw [(OnlyCh.enter m st r hw).dev]
@[simp] theorem Hw.enter_dev_deviceStop (m : Ch) (st : ChState) (r : Nat) (hw : Hw) : (hw.enter m st r).dev.deviceStop = hw.dev.deviceStop := by rw [(OnlyCh.enter m st r hw).dev]
@[simp] theorem Hw.enter_dev_rails (m : Ch) (st : ChState) (r : Nat) (hw : Hw) : (hw.enter m st r).dev.rails = hw.dev.rails := by rw [(OnlyCh.enter m st r hw).dev]
@[simp] theorem Hw.enter_dev_refclkOk (m : Ch) (st : ChState) (r : Nat) (hw : Hw) : (hw.enter m st r).dev.refclkOk = hw.dev.refclkOk := by rw [(OnlyCh.enter m st r hw).dev]
@[simp] theorem Hw.enter_dev_marginClkOk (m : Ch) (st : ChState) (r : Nat) (hw : Hw) : (hw.enter m st r).dev.marginClkOk = hw.dev.marginClkOk := by rw [(OnlyCh.enter m st r hw).dev]
@[simp] theorem Hw.enter_dev_ucieLock (m : Ch) (st : ChState) (r : Nat) (hw : Hw) : (hw.enter m st r).dev.ucieLock = hw.dev.ucieLock := by rw [(OnlyCh.enter m st r hw).dev]
@[simp] theorem Hw.enter_dev_capDw (m : Ch) (st : ChState) (r : Nat) (hw : Hw) : (hw.enter m st r).dev.capDw = hw.dev.capDw := by rw [(OnlyCh.enter m st r hw).dev]
@[simp] theorem Hw.enter_dev_power (m : Ch) (st : ChState) (r : Nat) (hw : Hw) : (hw.enter m st r).dev.power = hw.dev.power := by rw [(OnlyCh.enter m st r hw).dev]
@[simp] theorem Hw.enter_dev_doubleRefresh (m : Ch) (st : ChState) (r : Nat) (hw : Hw) : (hw.enter m st r).dev.doubleRefresh = hw.dev.doubleRefresh := by rw [(OnlyCh.enter m st r hw).dev]
@[simp] theorem Hw.enter_dev_overAt (m : Ch) (st : ChState) (r : Nat) (hw : Hw) : (hw.enter m st r).dev.overAt = hw.dev.overAt := by rw [(OnlyCh.enter m st r hw).dev]
@[simp] theorem Hw.enter_signet_ready (m : Ch) (st : ChState) (r : Nat) (hw : Hw) : (hw.enter m st r).dev.signet.ready = hw.dev.signet.ready := by rw [(OnlyCh.enter m st r hw).dev]
@[simp] theorem Hw.enter_signet_fusesRead (m : Ch) (st : ChState) (r : Nat) (hw : Hw) : (hw.enter m st r).dev.signet.fusesRead = hw.dev.signet.fusesRead := by rw [(OnlyCh.enter m st r hw).dev]
@[simp] theorem Hw.enter_signet_queue (m : Ch) (st : ChState) (r : Nat) (hw : Hw) : (hw.enter m st r).dev.signet.queue = hw.dev.signet.queue := by rw [(OnlyCh.enter m st r hw).dev]
@[simp] theorem Hw.enter_signet_sessions (m : Ch) (st : ChState) (r : Nat) (hw : Hw) : (hw.enter m st r).dev.signet.sessions = hw.dev.signet.sessions := by rw [(OnlyCh.enter m st r hw).dev]
@[simp] theorem Hw.enter_signet_sessionCtr (m : Ch) (st : ChState) (r : Nat) (hw : Hw) : (hw.enter m st r).dev.signet.sessionCtr = hw.dev.signet.sessionCtr := by rw [(OnlyCh.enter m st r hw).dev]
@[simp] theorem Hw.enter_signet_mgCounter (m : Ch) (st : ChState) (r : Nat) (hw : Hw) : (hw.enter m st r).dev.signet.mgCounter = hw.dev.signet.mgCounter := by rw [(OnlyCh.enter m st r hw).dev]
@[simp] theorem Hw.enter_signet_logDevice (m : Ch) (st : ChState) (r : Nat) (hw : Hw) : (hw.enter m st r).dev.signet.logDevice = hw.dev.signet.logDevice := by rw [(OnlyCh.enter m st r hw).dev]
@[simp] theorem Hw.enter_signet_lastRefused (m : Ch) (st : ChState) (r : Nat) (hw : Hw) : (hw.enter m st r).dev.signet.lastRefused = hw.dev.signet.lastRefused := by rw [(OnlyCh.enter m st r hw).dev]
@[simp] theorem Hw.enter_signet_fresh (m : Ch) (st : ChState) (r : Nat) (hw : Hw) : (hw.enter m st r).dev.signet.fresh = hw.dev.signet.fresh := by rw [(OnlyCh.enter m st r hw).dev]
theorem Hw.runK_ne {m n : Ch} (hn : n ≠ m) (idx u : Nat) (k : K Unit) (hw : Hw) : (hw.runK m idx u k).ch n = hw.ch n := (OnlyCh.runK m idx u k hw).ch n hn
@[simp] theorem Hw.runK_now (m : Ch) (idx u : Nat) (k : K Unit) (hw : Hw) : (hw.runK m idx u k).now = hw.now := (OnlyCh.runK m idx u k hw).now
@[simp] theorem Hw.runK_emitted (m : Ch) (idx u : Nat) (k : K Unit) (hw : Hw) : (hw.runK m idx u k).emitted = hw.emitted := (OnlyCh.runK m idx u k hw).emitted
@[simp] theorem Hw.runK_due (m : Ch) (idx u : Nat) (k : K Unit) (hw : Hw) : (hw.runK m idx u k).due = hw.due := (OnlyCh.runK m idx u k hw).due
@[simp] theorem Hw.runK_dev_porstN (m : Ch) (idx u : Nat) (k : K Unit) (hw : Hw) : (hw.runK m idx u k).dev.porstN = hw.dev.porstN := by rw [(OnlyCh.runK m idx u k hw).dev]
@[simp] theorem Hw.runK_dev_testMode (m : Ch) (idx u : Nat) (k : K Unit) (hw : Hw) : (hw.runK m idx u k).dev.testMode = hw.dev.testMode := by rw [(OnlyCh.runK m idx u k hw).dev]
@[simp] theorem Hw.runK_dev_porstAt (m : Ch) (idx u : Nat) (k : K Unit) (hw : Hw) : (hw.runK m idx u k).dev.porstAt = hw.dev.porstAt := by rw [(OnlyCh.runK m idx u k hw).dev]
@[simp] theorem Hw.runK_dev_fuses (m : Ch) (idx u : Nat) (k : K Unit) (hw : Hw) : (hw.runK m idx u k).dev.fuses = hw.dev.fuses := by rw [(OnlyCh.runK m idx u k hw).dev]
@[simp] theorem Hw.runK_dev_link (m : Ch) (idx u : Nat) (k : K Unit) (hw : Hw) : (hw.runK m idx u k).dev.link = hw.dev.link := by rw [(OnlyCh.runK m idx u k hw).dev]
@[simp] theorem Hw.runK_dev_faultLow (m : Ch) (idx u : Nat) (k : K Unit) (hw : Hw) : (hw.runK m idx u k).dev.faultLow = hw.dev.faultLow := by rw [(OnlyCh.runK m idx u k hw).dev]
@[simp] theorem Hw.runK_dev_faultCode (m : Ch) (idx u : Nat) (k : K Unit) (hw : Hw) : (hw.runK m idx u k).dev.faultCode = hw.dev.faultCode := by rw [(OnlyCh.runK m idx u k hw).dev]
@[simp] theorem Hw.runK_dev_deviceStop (m : Ch) (idx u : Nat) (k : K Unit) (hw : Hw) : (hw.runK m idx u k).dev.deviceStop = hw.dev.deviceStop := by rw [(OnlyCh.runK m idx u k hw).dev]
@[simp] theorem Hw.runK_dev_rails (m : Ch) (idx u : Nat) (k : K Unit) (hw : Hw) : (hw.runK m idx u k).dev.rails = hw.dev.rails := by rw [(OnlyCh.runK m idx u k hw).dev]
@[simp] theorem Hw.runK_dev_refclkOk (m : Ch) (idx u : Nat) (k : K Unit) (hw : Hw) : (hw.runK m idx u k).dev.refclkOk = hw.dev.refclkOk := by rw [(OnlyCh.runK m idx u k hw).dev]
@[simp] theorem Hw.runK_dev_marginClkOk (m : Ch) (idx u : Nat) (k : K Unit) (hw : Hw) : (hw.runK m idx u k).dev.marginClkOk = hw.dev.marginClkOk := by rw [(OnlyCh.runK m idx u k hw).dev]
@[simp] theorem Hw.runK_dev_ucieLock (m : Ch) (idx u : Nat) (k : K Unit) (hw : Hw) : (hw.runK m idx u k).dev.ucieLock = hw.dev.ucieLock := by rw [(OnlyCh.runK m idx u k hw).dev]
@[simp] theorem Hw.runK_dev_capDw (m : Ch) (idx u : Nat) (k : K Unit) (hw : Hw) : (hw.runK m idx u k).dev.capDw = hw.dev.capDw := by rw [(OnlyCh.runK m idx u k hw).dev]
@[simp] theorem Hw.runK_dev_power (m : Ch) (idx u : Nat) (k : K Unit) (hw : Hw) : (hw.runK m idx u k).dev.power = hw.dev.power := by rw [(OnlyCh.runK m idx u k hw).dev]
@[simp] theorem Hw.runK_dev_doubleRefresh (m : Ch) (idx u : Nat) (k : K Unit) (hw : Hw) : (hw.runK m idx u k).dev.doubleRefresh = hw.dev.doubleRefresh := by rw [(OnlyCh.runK m idx u k hw).dev]
@[simp] theorem Hw.runK_dev_overAt (m : Ch) (idx u : Nat) (k : K Unit) (hw : Hw) : (hw.runK m idx u k).dev.overAt = hw.dev.overAt := by rw [(OnlyCh.runK m idx u k hw).dev]
@[simp] theorem Hw.runK_signet_ready (m : Ch) (idx u : Nat) (k : K Unit) (hw : Hw) : (hw.runK m idx u k).dev.signet.ready = hw.dev.signet.ready := by rw [(OnlyCh.runK m idx u k hw).dev]
@[simp] theorem Hw.runK_signet_fusesRead (m : Ch) (idx u : Nat) (k : K Unit) (hw : Hw) : (hw.runK m idx u k).dev.signet.fusesRead = hw.dev.signet.fusesRead := by rw [(OnlyCh.runK m idx u k hw).dev]
@[simp] theorem Hw.runK_signet_queue (m : Ch) (idx u : Nat) (k : K Unit) (hw : Hw) : (hw.runK m idx u k).dev.signet.queue = hw.dev.signet.queue := by rw [(OnlyCh.runK m idx u k hw).dev]
@[simp] theorem Hw.runK_signet_sessions (m : Ch) (idx u : Nat) (k : K Unit) (hw : Hw) : (hw.runK m idx u k).dev.signet.sessions = hw.dev.signet.sessions := by rw [(OnlyCh.runK m idx u k hw).dev]
@[simp] theorem Hw.runK_signet_sessionCtr (m : Ch) (idx u : Nat) (k : K Unit) (hw : Hw) : (hw.runK m idx u k).dev.signet.sessionCtr = hw.dev.signet.sessionCtr := by rw [(OnlyCh.runK m idx u k hw).dev]
@[simp] theorem Hw.runK_signet_mgCounter (m : Ch) (idx u : Nat) (k : K Unit) (hw : Hw) : (hw.runK m idx u k).dev.signet.mgCounter = hw.dev.signet.mgCounter := by rw [(OnlyCh.runK m idx u k hw).dev]
@[simp] theorem Hw.runK_signet_logDevice (m : Ch) (idx u : Nat) (k : K Unit) (hw : Hw) : (hw.runK m idx u k).dev.signet.logDevice = hw.dev.signet.logDevice := by rw [(OnlyCh.runK m idx u k hw).dev]
@[simp] theorem Hw.runK_signet_lastRefused (m : Ch) (idx u : Nat) (k : K Unit) (hw : Hw) : (hw.runK m idx u k).dev.signet.lastRefused = hw.dev.signet.lastRefused := by rw [(OnlyCh.runK m idx u k hw).dev]
@[simp] theorem Hw.runK_signet_fresh (m : Ch) (idx u : Nat) (k : K Unit) (hw : Hw) : (hw.runK m idx u k).dev.signet.fresh = hw.dev.signet.fresh := by rw [(OnlyCh.runK m idx u k hw).dev]

/-! ### Records of the device -/

theorem Queued.putDev (r : Channel → ErrRec) (a : Channel) : Queued a (a.putDev r) := by
  unfold Channel.putDev
  split
  · exact refl a
  · exact refl a
  · exact refl a
  · exact putErr _ _
/-- An update of every channel in turn. -/
theorem Hw.eachCh_local {f : Ch → Hw → Hw} {g : Ch → Channel → Channel} (h : ∀ m hw, f m hw = hw.modCh m (g m)) (hw : Hw) :
    (∀ n, (hw.eachCh f).ch n = g n (hw.ch n)) ∧ (hw.eachCh f).dev = hw.dev ∧ (hw.eachCh f).now = hw.now ∧
      (hw.eachCh f).emitted = hw.emitted ∧ (hw.eachCh f).freeCtr = hw.freeCtr ∧ (hw.eachCh f).due = hw.due := by
  simp only [Hw.eachCh, chans, List.foldl_cons, List.foldl_nil, h]
  refine ⟨fun n => ?_, by simp, by simp, by simp, by simp, by simp⟩
  match n with
  | 0 => simp [Hw.ch_modCh]
  | 1 => simp [Hw.ch_modCh]
  | 2 => simp [Hw.ch_modCh]
  | 3 => simp [Hw.ch_modCh]
/-- What a device record does, once. -/
theorem Hw.raiseDev_eq (sev : Severity) (code init : Nat) (d0 d1 : Option Nat) (hw : Hw) :
    (∀ n, (hw.raiseDev sev code init d0 d1).ch n = (hw.ch n).putDev fun c => mkRec c none sev code init d0 d1) ∧
    (hw.raiseDev sev code init d0 d1).dev = { hw.dev with signet := { hw.dev.signet with
      logDevice := (hw.raiseDev sev code init d0 d1).dev.signet.logDevice } } ∧
    (hw.raiseDev sev code init d0 d1).now = hw.now ∧ (hw.raiseDev sev code init d0 d1).emitted = hw.emitted ∧
    (hw.raiseDev sev code init d0 d1).due = hw.due := by
  have h := Hw.eachCh_local (f := fun m => Hw.modCh m (Channel.putDev fun c => mkRec c none sev code init d0 d1)) (fun _ _ => rfl) hw
  obtain ⟨h1, h2, h3, h4, _, h5⟩ := h
  unfold Hw.raiseDev
  refine ⟨fun n => ?_, ?_, ?_, ?_, ?_⟩
  · rw [Hw.modSig_ch]; exact h1 n
  · simp only [Hw.modSig, Hw.modDev, h2]
  · rw [Hw.modSig_now]; exact h3
  · rw [Hw.modSig_emitted]; exact h4
  · rw [Hw.modSig_due]; exact h5
theorem Queued.raiseDev (m : Ch) (sev : Severity) (code init : Nat) (d0 d1 : Option Nat) (hw : Hw) :
    Queued (hw.ch m) ((hw.raiseDev sev code init d0 d1).ch m) := by
  rw [(hw.raiseDev_eq sev code init d0 d1).1]; exact putDev _ _
@[simp] theorem Hw.raiseDev_st (m : Ch) (sev : Severity) (code init : Nat) (d0 d1 : Option Nat) (hw : Hw) : ((hw.raiseDev sev code init d0 d1).ch m).st = (hw.ch m).st := by
  obtain ⟨_, _, _, _, _, _, _, _, h⟩ := Queued.raiseDev m sev code init d0 d1 hw; rw [h]
@[simp] theorem Hw.raiseDev_reason (m : Ch) (sev : Severity) (code init : Nat) (d0 d1 : Option Nat) (hw : Hw) : ((hw.raiseDev sev code init d0 d1).ch m).reason = (hw.ch m).reason := by
  obtain ⟨_, _, _, _, _, _, _, _, h⟩ := Queued.raiseDev m sev code init d0 d1 hw; rw [h]
@[simp] theorem Hw.raiseDev_failSect (m : Ch) (sev : Severity) (code init : Nat) (d0 d1 : Option Nat) (hw : Hw) : ((hw.raiseDev sev code init d0 d1).ch m).failSect = (hw.ch m).failSect := by
  obtain ⟨_, _, _, _, _, _, _, _, h⟩ := Queued.raiseDev m sev code init d0 d1 hw; rw [h]
@[simp] theorem Hw.raiseDev_slot (m : Ch) (sev : Severity) (code init : Nat) (d0 d1 : Option Nat) (hw : Hw) : ((hw.raiseDev sev code init d0 d1).ch m).slot = (hw.ch m).slot := by
  obtain ⟨_, _, _, _, _, _, _, _, h⟩ := Queued.raiseDev m sev code init d0 d1 hw; rw [h]
@[simp] theorem Hw.raiseDev_resv (m : Ch) (sev : Severity) (code init : Nat) (d0 d1 : Option Nat) (hw : Hw) : ((hw.raiseDev sev code init d0 d1).ch m).resv = (hw.ch m).resv := by
  obtain ⟨_, _, _, _, _, _, _, _, h⟩ := Queued.raiseDev m sev code init d0 d1 hw; rw [h]
@[simp] theorem Hw.raiseDev_startMark (m : Ch) (sev : Severity) (code init : Nat) (d0 d1 : Option Nat) (hw : Hw) : ((hw.raiseDev sev code init d0 d1).ch m).startMark = (hw.ch m).startMark := by
  obtain ⟨_, _, _, _, _, _, _, _, h⟩ := Queued.raiseDev m sev code init d0 d1 hw; rw [h]
@[simp] theorem Hw.raiseDev_startUs (m : Ch) (sev : Severity) (code init : Nat) (d0 d1 : Option Nat) (hw : Hw) : ((hw.raiseDev sev code init d0 d1).ch m).startUs = (hw.ch m).startUs := by
  obtain ⟨_, _, _, _, _, _, _, _, h⟩ := Queued.raiseDev m sev code init d0 d1 hw; rw [h]
@[simp] theorem Hw.raiseDev_pins (m : Ch) (sev : Severity) (code init : Nat) (d0 d1 : Option Nat) (hw : Hw) : ((hw.raiseDev sev code init d0 d1).ch m).pins = (hw.ch m).pins := by
  obtain ⟨_, _, _, _, _, _, _, _, h⟩ := Queued.raiseDev m sev code init d0 d1 hw; rw [h]
@[simp] theorem Hw.raiseDev_pinFrom (m : Ch) (sev : Severity) (code init : Nat) (d0 d1 : Option Nat) (hw : Hw) : ((hw.raiseDev sev code init d0 d1).ch m).pinFrom = (hw.ch m).pinFrom := by
  obtain ⟨_, _, _, _, _, _, _, _, h⟩ := Queued.raiseDev m sev code init d0 d1 hw; rw [h]
@[simp] theorem Hw.raiseDev_pinAt (m : Ch) (sev : Severity) (code init : Nat) (d0 d1 : Option Nat) (hw : Hw) : ((hw.raiseDev sev code init d0 d1).ch m).pinAt = (hw.ch m).pinAt := by
  obtain ⟨_, _, _, _, _, _, _, _, h⟩ := Queued.raiseDev m sev code init d0 d1 hw; rw [h]
@[simp] theorem Hw.raiseDev_moved (m : Ch) (sev : Severity) (code init : Nat) (d0 d1 : Option Nat) (hw : Hw) : ((hw.raiseDev sev code init d0 d1).ch m).moved = (hw.ch m).moved := by
  obtain ⟨_, _, _, _, _, _, _, _, h⟩ := Queued.raiseDev m sev code init d0 d1 hw; rw [h]
@[simp] theorem Hw.raiseDev_boot (m : Ch) (sev : Severity) (code init : Nat) (d0 d1 : Option Nat) (hw : Hw) : ((hw.raiseDev sev code init d0 d1).ch m).boot = (hw.ch m).boot := by
  obtain ⟨_, _, _, _, _, _, _, _, h⟩ := Queued.raiseDev m sev code init d0 d1 hw; rw [h]
@[simp] theorem Hw.raiseDev_img (m : Ch) (sev : Severity) (code init : Nat) (d0 d1 : Option Nat) (hw : Hw) : ((hw.raiseDev sev code init d0 d1).ch m).img = (hw.ch m).img := by
  obtain ⟨_, _, _, _, _, _, _, _, h⟩ := Queued.raiseDev m sev code init d0 d1 hw; rw [h]
@[simp] theorem Hw.raiseDev_nvm (m : Ch) (sev : Severity) (code init : Nat) (d0 d1 : Option Nat) (hw : Hw) : ((hw.raiseDev sev code init d0 d1).ch m).nvm = (hw.ch m).nvm := by
  obtain ⟨_, _, _, _, _, _, _, _, h⟩ := Queued.raiseDev m sev code init d0 d1 hw; rw [h]
@[simp] theorem Hw.raiseDev_tb (m : Ch) (sev : Severity) (code init : Nat) (d0 d1 : Option Nat) (hw : Hw) : ((hw.raiseDev sev code init d0 d1).ch m).tb = (hw.ch m).tb := by
  obtain ⟨_, _, _, _, _, _, _, _, h⟩ := Queued.raiseDev m sev code init d0 d1 hw; rw [h]
@[simp] theorem Hw.raiseDev_ts (m : Ch) (sev : Severity) (code init : Nat) (d0 d1 : Option Nat) (hw : Hw) : ((hw.raiseDev sev code init d0 d1).ch m).ts = (hw.ch m).ts := by
  obtain ⟨_, _, _, _, _, _, _, _, h⟩ := Queued.raiseDev m sev code init d0 d1 hw; rw [h]
@[simp] theorem Hw.raiseDev_tick (m : Ch) (sev : Severity) (code init : Nat) (d0 d1 : Option Nat) (hw : Hw) : ((hw.raiseDev sev code init d0 d1).ch m).tick = (hw.ch m).tick := by
  obtain ⟨_, _, _, _, _, _, _, _, h⟩ := Queued.raiseDev m sev code init d0 d1 hw; rw [h]
@[simp] theorem Hw.raiseDev_doubtP (m : Ch) (sev : Severity) (code init : Nat) (d0 d1 : Option Nat) (hw : Hw) : ((hw.raiseDev sev code init d0 d1).ch m).doubtP = (hw.ch m).doubtP := by
  obtain ⟨_, _, _, _, _, _, _, _, h⟩ := Queued.raiseDev m sev code init d0 d1 hw; rw [h]
@[simp] theorem Hw.raiseDev_doubtIn (m : Ch) (sev : Severity) (code init : Nat) (d0 d1 : Option Nat) (hw : Hw) : ((hw.raiseDev sev code init d0 d1).ch m).doubtIn = (hw.ch m).doubtIn := by
  obtain ⟨_, _, _, _, _, _, _, _, h⟩ := Queued.raiseDev m sev code init d0 d1 hw; rw [h]
@[simp] theorem Hw.raiseDev_causesP (m : Ch) (sev : Severity) (code init : Nat) (d0 d1 : Option Nat) (hw : Hw) : ((hw.raiseDev sev code init d0 d1).ch m).causesP = (hw.ch m).causesP := by
  obtain ⟨_, _, _, _, _, _, _, _, h⟩ := Queued.raiseDev m sev code init d0 d1 hw; rw [h]
@[simp] theorem Hw.raiseDev_causesIn (m : Ch) (sev : Severity) (code init : Nat) (d0 d1 : Option Nat) (hw : Hw) : ((hw.raiseDev sev code init d0 d1).ch m).causesIn = (hw.ch m).causesIn := by
  obtain ⟨_, _, _, _, _, _, _, _, h⟩ := Queued.raiseDev m sev code init d0 d1 hw; rw [h]
@[simp] theorem Hw.raiseDev_hbLast (m : Ch) (sev : Severity) (code init : Nat) (d0 d1 : Option Nat) (hw : Hw) : ((hw.raiseDev sev code init d0 d1).ch m).hbLast = (hw.ch m).hbLast := by
  obtain ⟨_, _, _, _, _, _, _, _, h⟩ := Queued.raiseDev m sev code init d0 d1 hw; rw [h]
@[simp] theorem Hw.raiseDev_hbSinceReady (m : Ch) (sev : Severity) (code init : Nat) (d0 d1 : Option Nat) (hw : Hw) : ((hw.raiseDev sev code init d0 d1).ch m).hbSinceReady = (hw.ch m).hbSinceReady := by
  obtain ⟨_, _, _, _, _, _, _, _, h⟩ := Queued.raiseDev m sev code init d0 d1 hw; rw [h]
@[simp] theorem Hw.raiseDev_duct (m : Ch) (sev : Severity) (code init : Nat) (d0 d1 : Option Nat) (hw : Hw) : ((hw.raiseDev sev code init d0 d1).ch m).duct = (hw.ch m).duct := by
  obtain ⟨_, _, _, _, _, _, _, _, h⟩ := Queued.raiseDev m sev code init d0 d1 hw; rw [h]
@[simp] theorem Hw.raiseDev_front (m : Ch) (sev : Severity) (code init : Nat) (d0 d1 : Option Nat) (hw : Hw) : ((hw.raiseDev sev code init d0 d1).ch m).front = (hw.ch m).front := by
  obtain ⟨_, _, _, _, _, _, _, _, h⟩ := Queued.raiseDev m sev code init d0 d1 hw; rw [h]
@[simp] theorem Hw.raiseDev_cal (m : Ch) (sev : Severity) (code init : Nat) (d0 d1 : Option Nat) (hw : Hw) : ((hw.raiseDev sev code init d0 d1).ch m).cal = (hw.ch m).cal := by
  obtain ⟨_, _, _, _, _, _, _, _, h⟩ := Queued.raiseDev m sev code init d0 d1 hw; rw [h]
@[simp] theorem Hw.raiseDev_scribe (m : Ch) (sev : Severity) (code init : Nat) (d0 d1 : Option Nat) (hw : Hw) : ((hw.raiseDev sev code init d0 d1).ch m).scribe = (hw.ch m).scribe := by
  obtain ⟨_, _, _, _, _, _, _, _, h⟩ := Queued.raiseDev m sev code init d0 d1 hw; rw [h]
@[simp] theorem Hw.raiseDev_mrg (m : Ch) (sev : Severity) (code init : Nat) (d0 d1 : Option Nat) (hw : Hw) : ((hw.raiseDev sev code init d0 d1).ch m).mrg = (hw.ch m).mrg := by
  obtain ⟨_, _, _, _, _, _, _, _, h⟩ := Queued.raiseDev m sev code init d0 d1 hw; rw [h]
@[simp] theorem Hw.raiseDev_env (m : Ch) (sev : Severity) (code init : Nat) (d0 d1 : Option Nat) (hw : Hw) : ((hw.raiseDev sev code init d0 d1).ch m).env = (hw.ch m).env := by
  obtain ⟨_, _, _, _, _, _, _, _, h⟩ := Queued.raiseDev m sev code init d0 d1 hw; rw [h]
@[simp] theorem Hw.raiseDev_peer (m : Ch) (sev : Severity) (code init : Nat) (d0 d1 : Option Nat) (hw : Hw) : ((hw.raiseDev sev code init d0 d1).ch m).peer = (hw.ch m).peer := by
  obtain ⟨_, _, _, _, _, _, _, _, h⟩ := Queued.raiseDev m sev code init d0 d1 hw; rw [h]
@[simp] theorem Hw.raiseDev_maint (m : Ch) (sev : Severity) (code init : Nat) (d0 d1 : Option Nat) (hw : Hw) : ((hw.raiseDev sev code init d0 d1).ch m).maint = (hw.ch m).maint := by
  obtain ⟨_, _, _, _, _, _, _, _, h⟩ := Queued.raiseDev m sev code init d0 d1 hw; rw [h]
@[simp] theorem Hw.raiseDev_mon (m : Ch) (sev : Severity) (code init : Nat) (d0 d1 : Option Nat) (hw : Hw) : ((hw.raiseDev sev code init d0 d1).ch m).mon = (hw.ch m).mon := by
  obtain ⟨_, _, _, _, _, _, _, _, h⟩ := Queued.raiseDev m sev code init d0 d1 hw; rw [h]
@[simp] theorem Hw.raiseDev_grd (m : Ch) (sev : Severity) (code init : Nat) (d0 d1 : Option Nat) (hw : Hw) : ((hw.raiseDev sev code init d0 d1).ch m).grd = (hw.ch m).grd := by
  obtain ⟨_, _, _, _, _, _, _, _, h⟩ := Queued.raiseDev m sev code init d0 d1 hw; rw [h]
@[simp] theorem Hw.raiseDev_fenced (m : Ch) (sev : Severity) (code init : Nat) (d0 d1 : Option Nat) (hw : Hw) : ((hw.raiseDev sev code init d0 d1).ch m).fenced = (hw.ch m).fenced := by
  obtain ⟨_, _, _, _, _, _, _, _, h⟩ := Queued.raiseDev m sev code init d0 d1 hw; rw [h]
@[simp] theorem Hw.raiseDev_stopPending (m : Ch) (sev : Severity) (code init : Nat) (d0 d1 : Option Nat) (hw : Hw) : ((hw.raiseDev sev code init d0 d1).ch m).stopPending = (hw.ch m).stopPending := by
  obtain ⟨_, _, _, _, _, _, _, _, h⟩ := Queued.raiseDev m sev code init d0 d1 hw; rw [h]
@[simp] theorem Hw.raiseDev_hbm (m : Ch) (sev : Severity) (code init : Nat) (d0 d1 : Option Nat) (hw : Hw) : ((hw.raiseDev sev code init d0 d1).ch m).hbm = (hw.ch m).hbm := by
  obtain ⟨_, _, _, _, _, _, _, _, h⟩ := Queued.raiseDev m sev code init d0 d1 hw; rw [h]
@[simp] theorem Hw.raiseDev_hbmPoison (m : Ch) (sev : Severity) (code init : Nat) (d0 d1 : Option Nat) (hw : Hw) : ((hw.raiseDev sev code init d0 d1).ch m).hbmPoison = (hw.ch m).hbmPoison := by
  obtain ⟨_, _, _, _, _, _, _, _, h⟩ := Queued.raiseDev m sev code init d0 d1 hw; rw [h]
@[simp] theorem Hw.raiseDev_core (m : Ch) (sev : Severity) (code init : Nat) (d0 d1 : Option Nat) (hw : Hw) : ((hw.raiseDev sev code init d0 d1).ch m).core = (hw.ch m).core := by
  obtain ⟨_, _, _, _, _, _, _, _, h⟩ := Queued.raiseDev m sev code init d0 d1 hw; rw [h]
@[simp] theorem Hw.raiseDev_rings (m : Ch) (sev : Severity) (code init : Nat) (d0 d1 : Option Nat) (hw : Hw) : ((hw.raiseDev sev code init d0 d1).ch m).rings = (hw.ch m).rings := by
  obtain ⟨_, _, _, _, _, _, _, _, h⟩ := Queued.raiseDev m sev code init d0 d1 hw; rw [h]
@[simp] theorem Hw.raiseDev_ringsLoaded (m : Ch) (sev : Severity) (code init : Nat) (d0 d1 : Option Nat) (hw : Hw) : ((hw.raiseDev sev code init d0 d1).ch m).ringsLoaded = (hw.ch m).ringsLoaded := by
  obtain ⟨_, _, _, _, _, _, _, _, h⟩ := Queued.raiseDev m sev code init d0 d1 hw; rw [h]
@[simp] theorem Hw.raiseDev_maintRing (m : Ch) (sev : Severity) (code init : Nat) (d0 d1 : Option Nat) (hw : Hw) : ((hw.raiseDev sev code init d0 d1).ch m).maintRing = (hw.ch m).maintRing := by
  obtain ⟨_, _, _, _, _, _, _, _, h⟩ := Queued.raiseDev m sev code init d0 d1 hw; rw [h]
@[simp] theorem Hw.raiseDev_shut (m : Ch) (sev : Severity) (code init : Nat) (d0 d1 : Option Nat) (hw : Hw) : ((hw.raiseDev sev code init d0 d1).ch m).shut = (hw.ch m).shut := by
  obtain ⟨_, _, _, _, _, _, _, _, h⟩ := Queued.raiseDev m sev code init d0 d1 hw; rw [h]
@[simp] theorem Hw.raiseDev_ctx (m : Ch) (sev : Severity) (code init : Nat) (d0 d1 : Option Nat) (hw : Hw) : ((hw.raiseDev sev code init d0 d1).ch m).ctx = (hw.ch m).ctx := by
  obtain ⟨_, _, _, _, _, _, _, _, h⟩ := Queued.raiseDev m sev code init d0 d1 hw; rw [h]
@[simp] theorem Hw.raiseDev_ctxWait (m : Ch) (sev : Severity) (code init : Nat) (d0 d1 : Option Nat) (hw : Hw) : ((hw.raiseDev sev code init d0 d1).ch m).ctxWait = (hw.ch m).ctxWait := by
  obtain ⟨_, _, _, _, _, _, _, _, h⟩ := Queued.raiseDev m sev code init d0 d1 hw; rw [h]
@[simp] theorem Hw.raiseDev_input (m : Ch) (sev : Severity) (code init : Nat) (d0 d1 : Option Nat) (hw : Hw) : ((hw.raiseDev sev code init d0 d1).ch m).input = (hw.ch m).input := by
  obtain ⟨_, _, _, _, _, _, _, _, h⟩ := Queued.raiseDev m sev code init d0 d1 hw; rw [h]
@[simp] theorem Hw.raiseDev_writes (m : Ch) (sev : Severity) (code init : Nat) (d0 d1 : Option Nat) (hw : Hw) : ((hw.raiseDev sev code init d0 d1).ch m).writes = (hw.ch m).writes := by
  obtain ⟨_, _, _, _, _, _, _, _, h⟩ := Queued.raiseDev m sev code init d0 d1 hw; rw [h]
@[simp] theorem Hw.raiseDev_nextWrite (m : Ch) (sev : Severity) (code init : Nat) (d0 d1 : Option Nat) (hw : Hw) : ((hw.raiseDev sev code init d0 d1).ch m).nextWrite = (hw.ch m).nextWrite := by
  obtain ⟨_, _, _, _, _, _, _, _, h⟩ := Queued.raiseDev m sev code init d0 d1 hw; rw [h]
@[simp] theorem Hw.raiseDev_hairQ (m : Ch) (sev : Severity) (code init : Nat) (d0 d1 : Option Nat) (hw : Hw) : ((hw.raiseDev sev code init d0 d1).ch m).hairQ = (hw.ch m).hairQ := by
  obtain ⟨_, _, _, _, _, _, _, _, h⟩ := Queued.raiseDev m sev code init d0 d1 hw; rw [h]
@[simp] theorem Hw.raiseDev_regHeld (m : Ch) (sev : Severity) (code init : Nat) (d0 d1 : Option Nat) (hw : Hw) : ((hw.raiseDev sev code init d0 d1).ch m).regHeld = (hw.ch m).regHeld := by
  obtain ⟨_, _, _, _, _, _, _, _, h⟩ := Queued.raiseDev m sev code init d0 d1 hw; rw [h]
@[simp] theorem Hw.raiseDev_ctrLat (m : Ch) (sev : Severity) (code init : Nat) (d0 d1 : Option Nat) (hw : Hw) : ((hw.raiseDev sev code init d0 d1).ch m).ctrLat = (hw.ch m).ctrLat := by
  obtain ⟨_, _, _, _, _, _, _, _, h⟩ := Queued.raiseDev m sev code init d0 d1 hw; rw [h]
@[simp] theorem Hw.raiseDev_power (m : Ch) (sev : Severity) (code init : Nat) (d0 d1 : Option Nat) (hw : Hw) : ((hw.raiseDev sev code init d0 d1).ch m).power = (hw.ch m).power := by
  obtain ⟨_, _, _, _, _, _, _, _, h⟩ := Queued.raiseDev m sev code init d0 d1 hw; rw [h]
@[simp] theorem Hw.raiseDev_now (sev : Severity) (code init : Nat) (d0 d1 : Option Nat) (hw : Hw) : (hw.raiseDev sev code init d0 d1).now = hw.now := (hw.raiseDev_eq sev code init d0 d1).2.2.1
@[simp] theorem Hw.raiseDev_emitted (sev : Severity) (code init : Nat) (d0 d1 : Option Nat) (hw : Hw) : (hw.raiseDev sev code init d0 d1).emitted = hw.emitted := (hw.raiseDev_eq sev code init d0 d1).2.2.2.1
@[simp] theorem Hw.raiseDev_due (sev : Severity) (code init : Nat) (d0 d1 : Option Nat) (hw : Hw) : (hw.raiseDev sev code init d0 d1).due = hw.due := (hw.raiseDev_eq sev code init d0 d1).2.2.2.2
@[simp] theorem Hw.raiseDev_dev_porstN (sev : Severity) (code init : Nat) (d0 d1 : Option Nat) (hw : Hw) : (hw.raiseDev sev code init d0 d1).dev.porstN = hw.dev.porstN := by rw [(hw.raiseDev_eq sev code init d0 d1).2.1]
@[simp] theorem Hw.raiseDev_dev_testMode (sev : Severity) (code init : Nat) (d0 d1 : Option Nat) (hw : Hw) : (hw.raiseDev sev code init d0 d1).dev.testMode = hw.dev.testMode := by rw [(hw.raiseDev_eq sev code init d0 d1).2.1]
@[simp] theorem Hw.raiseDev_dev_porstAt (sev : Severity) (code init : Nat) (d0 d1 : Option Nat) (hw : Hw) : (hw.raiseDev sev code init d0 d1).dev.porstAt = hw.dev.porstAt := by rw [(hw.raiseDev_eq sev code init d0 d1).2.1]
@[simp] theorem Hw.raiseDev_dev_fuses (sev : Severity) (code init : Nat) (d0 d1 : Option Nat) (hw : Hw) : (hw.raiseDev sev code init d0 d1).dev.fuses = hw.dev.fuses := by rw [(hw.raiseDev_eq sev code init d0 d1).2.1]
@[simp] theorem Hw.raiseDev_dev_link (sev : Severity) (code init : Nat) (d0 d1 : Option Nat) (hw : Hw) : (hw.raiseDev sev code init d0 d1).dev.link = hw.dev.link := by rw [(hw.raiseDev_eq sev code init d0 d1).2.1]
@[simp] theorem Hw.raiseDev_dev_faultLow (sev : Severity) (code init : Nat) (d0 d1 : Option Nat) (hw : Hw) : (hw.raiseDev sev code init d0 d1).dev.faultLow = hw.dev.faultLow := by rw [(hw.raiseDev_eq sev code init d0 d1).2.1]
@[simp] theorem Hw.raiseDev_dev_faultCode (sev : Severity) (code init : Nat) (d0 d1 : Option Nat) (hw : Hw) : (hw.raiseDev sev code init d0 d1).dev.faultCode = hw.dev.faultCode := by rw [(hw.raiseDev_eq sev code init d0 d1).2.1]
@[simp] theorem Hw.raiseDev_dev_deviceStop (sev : Severity) (code init : Nat) (d0 d1 : Option Nat) (hw : Hw) : (hw.raiseDev sev code init d0 d1).dev.deviceStop = hw.dev.deviceStop := by rw [(hw.raiseDev_eq sev code init d0 d1).2.1]
@[simp] theorem Hw.raiseDev_dev_rails (sev : Severity) (code init : Nat) (d0 d1 : Option Nat) (hw : Hw) : (hw.raiseDev sev code init d0 d1).dev.rails = hw.dev.rails := by rw [(hw.raiseDev_eq sev code init d0 d1).2.1]
@[simp] theorem Hw.raiseDev_dev_refclkOk (sev : Severity) (code init : Nat) (d0 d1 : Option Nat) (hw : Hw) : (hw.raiseDev sev code init d0 d1).dev.refclkOk = hw.dev.refclkOk := by rw [(hw.raiseDev_eq sev code init d0 d1).2.1]
@[simp] theorem Hw.raiseDev_dev_marginClkOk (sev : Severity) (code init : Nat) (d0 d1 : Option Nat) (hw : Hw) : (hw.raiseDev sev code init d0 d1).dev.marginClkOk = hw.dev.marginClkOk := by rw [(hw.raiseDev_eq sev code init d0 d1).2.1]
@[simp] theorem Hw.raiseDev_dev_ucieLock (sev : Severity) (code init : Nat) (d0 d1 : Option Nat) (hw : Hw) : (hw.raiseDev sev code init d0 d1).dev.ucieLock = hw.dev.ucieLock := by rw [(hw.raiseDev_eq sev code init d0 d1).2.1]
@[simp] theorem Hw.raiseDev_dev_capDw (sev : Severity) (code init : Nat) (d0 d1 : Option Nat) (hw : Hw) : (hw.raiseDev sev code init d0 d1).dev.capDw = hw.dev.capDw := by rw [(hw.raiseDev_eq sev code init d0 d1).2.1]
@[simp] theorem Hw.raiseDev_dev_power (sev : Severity) (code init : Nat) (d0 d1 : Option Nat) (hw : Hw) : (hw.raiseDev sev code init d0 d1).dev.power = hw.dev.power := by rw [(hw.raiseDev_eq sev code init d0 d1).2.1]
@[simp] theorem Hw.raiseDev_dev_doubleRefresh (sev : Severity) (code init : Nat) (d0 d1 : Option Nat) (hw : Hw) : (hw.raiseDev sev code init d0 d1).dev.doubleRefresh = hw.dev.doubleRefresh := by rw [(hw.raiseDev_eq sev code init d0 d1).2.1]
@[simp] theorem Hw.raiseDev_dev_overAt (sev : Severity) (code init : Nat) (d0 d1 : Option Nat) (hw : Hw) : (hw.raiseDev sev code init d0 d1).dev.overAt = hw.dev.overAt := by rw [(hw.raiseDev_eq sev code init d0 d1).2.1]
@[simp] theorem Hw.raiseDev_signet_ready (sev : Severity) (code init : Nat) (d0 d1 : Option Nat) (hw : Hw) : (hw.raiseDev sev code init d0 d1).dev.signet.ready = hw.dev.signet.ready := by rw [(hw.raiseDev_eq sev code init d0 d1).2.1]
@[simp] theorem Hw.raiseDev_signet_fusesRead (sev : Severity) (code init : Nat) (d0 d1 : Option Nat) (hw : Hw) : (hw.raiseDev sev code init d0 d1).dev.signet.fusesRead = hw.dev.signet.fusesRead := by rw [(hw.raiseDev_eq sev code init d0 d1).2.1]
@[simp] theorem Hw.raiseDev_signet_queue (sev : Severity) (code init : Nat) (d0 d1 : Option Nat) (hw : Hw) : (hw.raiseDev sev code init d0 d1).dev.signet.queue = hw.dev.signet.queue := by rw [(hw.raiseDev_eq sev code init d0 d1).2.1]
@[simp] theorem Hw.raiseDev_signet_sessions (sev : Severity) (code init : Nat) (d0 d1 : Option Nat) (hw : Hw) : (hw.raiseDev sev code init d0 d1).dev.signet.sessions = hw.dev.signet.sessions := by rw [(hw.raiseDev_eq sev code init d0 d1).2.1]
@[simp] theorem Hw.raiseDev_signet_sessionCtr (sev : Severity) (code init : Nat) (d0 d1 : Option Nat) (hw : Hw) : (hw.raiseDev sev code init d0 d1).dev.signet.sessionCtr = hw.dev.signet.sessionCtr := by rw [(hw.raiseDev_eq sev code init d0 d1).2.1]
@[simp] theorem Hw.raiseDev_signet_mgCounter (sev : Severity) (code init : Nat) (d0 d1 : Option Nat) (hw : Hw) : (hw.raiseDev sev code init d0 d1).dev.signet.mgCounter = hw.dev.signet.mgCounter := by rw [(hw.raiseDev_eq sev code init d0 d1).2.1]
@[simp] theorem Hw.raiseDev_signet_log (sev : Severity) (code init : Nat) (d0 d1 : Option Nat) (hw : Hw) : (hw.raiseDev sev code init d0 d1).dev.signet.log = hw.dev.signet.log := by rw [(hw.raiseDev_eq sev code init d0 d1).2.1]
@[simp] theorem Hw.raiseDev_signet_lastRefused (sev : Severity) (code init : Nat) (d0 d1 : Option Nat) (hw : Hw) : (hw.raiseDev sev code init d0 d1).dev.signet.lastRefused = hw.dev.signet.lastRefused := by rw [(hw.raiseDev_eq sev code init d0 d1).2.1]
@[simp] theorem Hw.raiseDev_signet_fresh (sev : Severity) (code init : Nat) (d0 d1 : Option Nat) (hw : Hw) : (hw.raiseDev sev code init d0 d1).dev.signet.fresh = hw.dev.signet.fresh := by rw [(hw.raiseDev_eq sev code init d0 d1).2.1]

/-! ### What a transition of the same cycle drops (R463) -/

/-- `b` is `a` but for a refused command's device record (R452): every channel up to its queue, and of the Signet the device log and the time
of the last MGMT_REFUSED. -/
structure Refused (a b : Hw) : Prop where
  ch : ∀ n, Queued (a.ch n) (b.ch n)
  dev : b.dev = { a.dev with signet := { a.dev.signet with logDevice := b.dev.signet.logDevice, lastRefused := b.dev.signet.lastRefused } }
  now : b.now = a.now
  emitted : b.emitted = a.emitted
  due : b.due = a.due
theorem Refused.refl (a : Hw) : Refused a a := ⟨fun _ => .refl _, rfl, rfl, rfl, rfl⟩
theorem Refused.trans {a b c : Hw} (h : Refused a b) (k : Refused b c) : Refused a c := by
  refine ⟨fun n => (h.ch n).trans (k.ch n), ?_, k.now.trans h.now, k.emitted.trans h.emitted, k.due.trans h.due⟩
  rw [k.dev, h.dev]
/-- What MGMT_REFUSED does. -/
theorem Hw.mgmtRefused_does (command status : Nat) (a : Hw) : Refused a (a.mgmtRefused command status) := by
  have said : Refused a ((a.modSig fun s => { s with lastRefused := some a.now }).raiseDev .note 0xD3 initMgmt (some command) (some status)) := by
    have h := (a.modSig fun s => { s with lastRefused := some a.now }).raiseDev_eq .note 0xD3 initMgmt (some command) (some status)
    refine ⟨fun n => ?_, ?_, h.2.2.1, h.2.2.2.1, h.2.2.2.2⟩
    · rw [h.1]; exact Queued.putDev _ _
    · rw [h.2.1]; rfl
  unfold Hw.mgmtRefused
  dsimp only
  split <;> split <;> first | exact said | exact .refl a
theorem Hw.mgmtRefused_foldl_does (l : List Due) (a : Hw) : Refused a (l.foldl (fun h d => h.mgmtRefused d.command 5) a) := by
  induction l generalizing a with
  | nil => exact .refl a
  | cons d l ih => exact (a.mgmtRefused_does _ _).trans (ih _)
/-- What dropping can do: responses already given turn to STATUS 5, each in its place, the dropped commands leave the list, and MGMT_REFUSED
is raised. -/
theorem Hw.dropDue_does (m : Ch) (r : Nat) (a : Hw) :
    ∃ e : List Emission, e.length = a.emitted.length ∧
      Refused { a with emitted := e, due := a.due.filter fun d => !(d.below m r) } (a.dropDue m r) := by
  refine ⟨_, ?_, Hw.mgmtRefused_foldl_does _ _⟩
  split <;> simp
@[simp] theorem Hw.dropDue_now (m : Ch) (r : Nat) (a : Hw) : (a.dropDue m r).now = a.now := by
  obtain ⟨_, _, h⟩ := a.dropDue_does m r; exact h.now
/-- What is left is not dropped again. -/
theorem Hw.dropDue_due (m : Ch) (r : Nat) (a : Hw) : (a.dropDue m r).due = a.due.filter fun d => !(d.below m r) := by
  obtain ⟨_, _, h⟩ := a.dropDue_does m r; exact h.due
/-- A dropped response keeps its place. -/
@[simp] theorem Hw.dropDue_emitted_length (m : Ch) (r : Nat) (a : Hw) : (a.dropDue m r).emitted.length = a.emitted.length := by
  obtain ⟨e, l, h⟩ := a.dropDue_does m r; rw [h.emitted]; exact l
theorem Hw.dropDue_queued (m n : Ch) (r : Nat) (a : Hw) : Queued (a.ch n) ((a.dropDue m r).ch n) := by
  obtain ⟨_, _, h⟩ := a.dropDue_does m r; exact h.ch n
theorem Hw.dropDue_dev (m : Ch) (r : Nat) (a : Hw) : (a.dropDue m r).dev = { a.dev with signet := { a.dev.signet with
    logDevice := (a.dropDue m r).dev.signet.logDevice, lastRefused := (a.dropDue m r).dev.signet.lastRefused } } := by
  obtain ⟨_, _, h⟩ := a.dropDue_does m r; exact h.dev
/-- Where no such command is in the list nothing is dropped. -/
theorem Hw.dropDue_of_none {m : Ch} {r : Nat} {a : Hw} (h : ∀ d ∈ a.due, d.below m r = false) : a.dropDue m r = a := by
  unfold Hw.dropDue
  dsimp only
  rw [List.filter_eq_nil_iff.mpr (fun d hd => by simp [h d hd]), List.filter_eq_self.mpr (fun d hd => by simp [h d hd])]
  rfl
theorem Hw.revertDue_of_none {m : Ch} {r : Nat} {a : Hw} (h : ∀ d ∈ a.due, d.below m r = false) : a.revertDue m r = a := by
  unfold Hw.revertDue
  rw [List.find?_eq_none.mpr (fun d hd => by simp [h d hd])]
theorem Hw.undoDue_of_none {m : Ch} {r : Nat} {a : Hw} (h : ∀ d ∈ a.due, d.below m r = false) : a.undoDue m r = a := by
  unfold Hw.undoDue
  rw [Hw.revertDue_of_none h, Hw.dropDue_of_none h]
/-- What going back can do: nothing, or the channel is as it was before a command of the list. -/
theorem Hw.revertDue_cases (m : Ch) (r : Nat) (a : Hw) :
    a.revertDue m r = a ∨ ∃ d ∈ a.due, d.below m r = true ∧ a.revertDue m r = a.setCh m d.was := by
  unfold Hw.revertDue
  split
  · rename_i d h
    exact .inr ⟨d, List.mem_of_find?_eq_some h, List.find?_some h, rfl⟩
  · exact .inl rfl
theorem Hw.revertDue_ch_ne {m n : Ch} (h : n ≠ m) (r : Nat) (a : Hw) : (a.revertDue m r).ch n = a.ch n := by
  rcases a.revertDue_cases m r with e | ⟨d, _, _, e⟩ <;> rw [e]
  exact Hw.ch_setCh_ne h _ _
@[simp] theorem Hw.revertDue_dev (m : Ch) (r : Nat) (a : Hw) : (a.revertDue m r).dev = a.dev := by
  rcases a.revertDue_cases m r with e | ⟨d, _, _, e⟩ <;> rw [e]
  simp
@[simp] theorem Hw.revertDue_now (m : Ch) (r : Nat) (a : Hw) : (a.revertDue m r).now = a.now := by
  rcases a.revertDue_cases m r with e | ⟨d, _, _, e⟩ <;> rw [e]
  simp
@[simp] theorem Hw.revertDue_emitted (m : Ch) (r : Nat) (a : Hw) : (a.revertDue m r).emitted = a.emitted := by
  rcases a.revertDue_cases m r with e | ⟨d, _, _, e⟩ <;> rw [e]
  simp
@[simp] theorem Hw.revertDue_due (m : Ch) (r : Nat) (a : Hw) : (a.revertDue m r).due = a.due := by
  rcases a.revertDue_cases m r with e | ⟨d, _, _, e⟩ <;> rw [e]
  simp
theorem Hw.undoDue_queued {m n : Ch} (h : n ≠ m) (r : Nat) (a : Hw) : Queued (a.ch n) ((a.undoDue m r).ch n) := by
  have := (a.revertDue m r).dropDue_queued m n r
  rwa [Hw.revertDue_ch_ne h] at this
@[simp] theorem Hw.undoDue_now (m : Ch) (r : Nat) (a : Hw) : (a.undoDue m r).now = a.now := by simp [Hw.undoDue]
@[simp] theorem Hw.undoDue_emitted_length (m : Ch) (r : Nat) (a : Hw) : (a.undoDue m r).emitted.length = a.emitted.length := by simp [Hw.undoDue]
theorem Hw.undoDue_due (m : Ch) (r : Nat) (a : Hw) : (a.undoDue m r).due = a.due.filter fun d => !(d.below m r) := by
  rw [Hw.undoDue, Hw.dropDue_due, Hw.revertDue_due]
/-- Without a command in the list that it drops, a transition of the device undoes nothing. -/
theorem Hw.undoAll_of_none {r : Nat} {a : Hw} (h : ∀ m, ∀ d ∈ a.due, d.below m r = false) : a.undoAll r = a := by
  simp only [Hw.undoAll, Hw.eachCh, chans, List.foldl_cons, List.foldl_nil, Hw.revertDue_of_none (h _), Hw.dropDue_of_none (h _)]
@[simp] theorem Hw.addDue_ch (m n : Ch) (x r : Nat) (c : Channel) (a : Hw) : (a.addDue m x r c).ch n = a.ch n := rfl
@[simp] theorem Hw.addDue_dev (m : Ch) (x r : Nat) (c : Channel) (a : Hw) : (a.addDue m x r c).dev = a.dev := rfl
@[simp] theorem Hw.addDue_now (m : Ch) (x r : Nat) (c : Channel) (a : Hw) : (a.addDue m x r c).now = a.now := rfl
@[simp] theorem Hw.addDue_emitted (m : Ch) (x r : Nat) (c : Channel) (a : Hw) : (a.addDue m x r c).emitted = a.emitted := rfl

/-! ### Reads of the descriptor view (R499, R501) -/

/-- Only the count of HBM reads of a channel can change. -/
theorem Hw.viewReads_does (ps : List Place) (a : Hw) :
    (∀ n, (a.viewReads ps).ch n = a.ch n ∨ ∃ k, (a.viewReads ps).ch n = (a.ch n).bump .perfHbmRd k) ∧ (a.viewReads ps).dev = a.dev ∧
      (a.viewReads ps).now = a.now ∧ (a.viewReads ps).emitted = a.emitted ∧ (a.viewReads ps).due = a.due := by
  have one : ∀ (m : Ch) (h : Hw) (g : Channel → Nat),
      (if g (h.ch m) == 0 then h else h.modCh m (Channel.bump .perfHbmRd (64 * g (h.ch m)))) =
        h.modCh m fun c => if g c == 0 then c else c.bump .perfHbmRd (64 * g c) := by
    intro m h g
    by_cases e : g (h.ch m) = 0
    · simp only [e, beq_self_eq_true, if_true, Hw.modCh]
      match m with
      | 0 => rfl
      | 1 => rfl
      | 2 => rfl
      | 3 => rfl
    · have e' : (g (h.ch m) == 0) = false := by simpa using e
      simp only [e', Hw.modCh]
      simp
  have h := Hw.eachCh_local
    (f := fun m h =>
      let n := ((h.ch m).uncachedIn (ps.filterMap fun p => match p with
        | .channel x off => if x == m then some off else none
        | _ => none)).length
      if n == 0 then h else h.modCh m (Channel.bump .perfHbmRd (64 * n)))
    (g := fun m c =>
      let n := (c.uncachedIn (ps.filterMap fun p => match p with
        | .channel x off => if x == m then some off else none
        | _ => none)).length
      if n == 0 then c else c.bump .perfHbmRd (64 * n))
    (fun m h => one m h fun c => (c.uncachedIn (ps.filterMap fun p => match p with
        | .channel x off => if x == m then some off else none
        | _ => none)).length) a
  obtain ⟨h1, h2, h3, h4, _, h5⟩ := h
  refine ⟨fun n => ?_, h2, h3, h4, h5⟩
  have := h1 n
  dsimp only at this
  split at this
  · exact .inl this
  · exact .inr ⟨_, this⟩

end Sys2Proof.Machine
end

