-- ==== Sys2Proof/Laws/Work.lean ====
section
/-! SUPPORT. What a stroke's work can do to its channel: one lemma per kernel. Work leaves the channel's shell alone (everything but
memories, counters, sticky bits and the frame's own results) and keeps the memories in canonical form. -/
namespace Sys2Proof.Machine

/-! ### The shell -/

/-- The channel with what work may write made empty. -/
def Channel.shell (c : Channel) : Channel :=
  { c with
    ctr := [], sticky := [], fresh := [], doubtP := 0, causesP := 0, grd := .reset, front := .reset, rings := [], hbm := [], hbmPoison := [], core := []
    map := .reset, scribe := .reset, mrg := .reset, outq := [], hairQ := [], errq := [], errNext := 0, errSinceKept := 0
    duct := { c.duct with verdict := none, blankDone := [], main := none, result := none }
    peer := { c.peer with block := 0, east := .reset, west := .reset } }

/-- `b` is `a` with work done on it. -/
structure Worked (a b : Channel) : Prop where
  shell : b.shell = a.shell
  wf : a.memWf = true → b.memWf = true

namespace Worked
theorem refl (a : Channel) : Worked a a := ⟨rfl, id⟩
theorem trans {a b c : Channel} (h : Worked a b) (k : Worked b c) : Worked a c := ⟨k.shell.trans h.shell, fun w => k.wf (h.wf w)⟩
/-- An update outside the shell and the memories. -/
theorem of {a b : Channel} (h : b.shell = a.shell) (h1 : b.hbm = a.hbm) (h2 : b.core = a.core) (h3 : b.nvm = a.nvm) : Worked a b :=
  ⟨h, fun w => by simpa [Channel.memWf, h1, h2, h3] using w⟩
theorem bump (x : Ctr) (n : Nat) (a : Channel) : Worked a (a.bump x n) := of rfl rfl rfl rfl
theorem stick (x : Sticky) (a : Channel) : Worked a (a.stick x) := of rfl rfl rfl rfl
theorem doubt (d : Doubt) (a : Channel) : Worked a (a.doubt d) := of rfl rfl rfl rfl
theorem putErr (r : ErrRec) (a : Channel) : Worked a (a.putErr r) := by
  obtain ⟨_, _, _, _, _, h⟩ := a.putErr_form r
  rw [h]; exact of rfl rfl rfl rfl
theorem raise (m : Ch) (sev : Severity) (code init : Nat) (d0 d1 : Option Nat) (hw : Hw) :
    Worked (hw.ch m) ((hw.raise m sev code init d0 d1).ch m) := by
  simp only [Hw.raise, Hw.modSig_ch, Hw.ch_modCh_same]
  exact putErr _ _
end Worked

theorem all_modAt {α : Type} {p : α → Bool} {f : α → α} {l : List α} (h : l.all p = true) (hf : ∀ x, p x = true → p (f x) = true) (j : Nat) :
    (modAt l j f).all p = true := by
  unfold modAt
  split
  · rename_i a ha
    rw [List.all_eq_true] at h ⊢
    intro x hx
    rcases List.mem_or_eq_of_mem_set hx with hx | rfl
    · exact h x hx
    · exact hf a (h a (List.mem_of_getElem? ha))
  · exact h
/-- An update of one core's memories that keeps its Inkwell canonical. -/
theorem Worked.modCore {f : CoreMem → CoreMem} (hf : ∀ k, k.wf = true → (f k).wf = true) (j : Nat) (a : Channel) : Worked a (a.modCore j f) := by
  refine ⟨rfl, fun w => ?_⟩
  simp only [Channel.memWf, Bool.and_eq_true] at w ⊢
  exact ⟨⟨w.1.1, all_modAt w.1.2 hf j⟩, w.2⟩
theorem Worked.invalidate (b n : Nat) (keep : Option Nat) (a : Channel) : Worked a (a.invalidate b n keep) := by
  refine ⟨rfl, fun w => ?_⟩
  simp only [Channel.memWf, Bool.and_eq_true] at w ⊢
  refine ⟨⟨w.1.1, ?_⟩, w.2⟩
  have h := w.1.2
  rw [List.all_eq_true] at h ⊢
  intro k hk
  simp only [Channel.invalidate, List.mem_map] at hk
  obtain ⟨⟨k', j⟩, hm, rfl⟩ := hk
  have := h k' (List.fst_mem_of_mem_zipIdx hm)
  dsimp only
  split
  · exact this
  · exact this
theorem Worked.storeHbm (x : Nat) (bs : List Byte) (keep : Option Nat) (a : Channel) : Worked a (a.storeHbm x bs keep) := by
  unfold Channel.storeHbm
  split
  · exact Worked.refl a
  · refine ⟨rfl, fun w => ?_⟩
    have h := (Worked.invalidate x bs.length keep a).wf w
    simp only [Channel.memWf, Bool.and_eq_true] at w h ⊢
    exact ⟨⟨Cells.wf_write w.1.1 _ _, h.1.2⟩, h.2⟩

/-! ### Work -/

/-- Work `k` leaves its channel's number and stroke alone, and its channel worked on. -/
def K.Keeps {α : Type} (k : K α) : Prop := ∀ s : Sx, (k s).2.m = s.m ∧ (k s).2.idx = s.idx ∧ Worked s.c (k s).2.c

theorem K.keeps_bind {α β : Type} {x : K α} {f : α → K β} (hx : K.Keeps x) (hf : ∀ a, K.Keeps (f a)) : K.Keeps (x >>= f) := by
  intro s
  obtain ⟨h1, h2, h3⟩ := hx s
  obtain ⟨k1, k2, k3⟩ := hf (x s).1 (x s).2
  exact ⟨k1.trans h1, k2.trans h2, h3.trans k3⟩
theorem K.keeps_pure {α : Type} (a : α) : K.Keeps (pure a : K α) := fun _ => ⟨rfl, rfl, Worked.refl _⟩
theorem K.keeps_get : K.Keeps (get : K Sx) := fun _ => ⟨rfl, rfl, Worked.refl _⟩
theorem K.chan_keeps : K.Keeps K.chan := fun _ => ⟨rfl, rfl, Worked.refl _⟩
theorem K.err_keeps (sev : Severity) (code init : Nat) (d0 d1 : Option Nat) : K.Keeps (K.err sev code init d0 d1) :=
  fun _ => ⟨rfl, rfl, Worked.refl _⟩
theorem K.mod_keeps {f : Channel → Channel} (h : ∀ c, Worked c (f c)) : K.Keeps (K.mod f) := fun s => ⟨rfl, rfl, h s.c⟩
theorem K.modify_keeps {f : Sx → Sx} (h : ∀ s, (f s).m = s.m ∧ (f s).idx = s.idx ∧ (f s).c = s.c) : K.Keeps (modify f : K Unit) := by
  intro s
  obtain ⟨h1, h2, h3⟩ := h s
  refine ⟨h1, h2, ?_⟩
  show Worked s.c (f s).c
  rw [h3]; exact Worked.refl _
theorem K.keeps_map {α β : Type} {f : α → β} {x : K α} (hx : K.Keeps x) : K.Keeps (f <$> x) := fun s => hx s
theorem K.keeps_ite {α : Type} {p : Prop} [Decidable p] {x y : K α} (hx : K.Keeps x) (hy : K.Keeps y) : K.Keeps (if p then x else y) := by
  split
  · exact hx
  · exact hy
theorem K.keeps_forIn {α β : Type} {f : α → β → K (ForInStep β)} (hf : ∀ a b, K.Keeps (f a b)) (l : List α) (b : β) :
    K.Keeps (forIn l b f) := by
  induction l generalizing b with
  | nil => rw [List.forIn_nil]; exact K.keeps_pure b
  | cons a l ih =>
    rw [List.forIn_cons]
    refine K.keeps_bind (hf a b) fun r => ?_
    cases r with
    | done b => exact K.keeps_pure b
    | yield b => exact ih b
theorem K.keeps_forM_mem {α : Type} {f : α → K PUnit} {l : List α} (hf : ∀ a ∈ l, K.Keeps (f a)) : K.Keeps (l.forM f) := by
  induction l with
  | nil => exact K.keeps_pure _
  | cons a l ih => exact K.keeps_bind (hf a (by simp)) fun _ => ih fun x hx => hf x (by simp [hx])
theorem K.keeps_forM {α : Type} {f : α → K PUnit} (hf : ∀ a, K.Keeps (f a)) (l : List α) : K.Keeps (l.forM f) := by
  induction l with
  | nil => exact K.keeps_pure _
  | cons a l ih => exact K.keeps_bind (hf a) fun _ => ih
theorem K.keeps_mapM {α β : Type} {f : α → K β} (hf : ∀ a, K.Keeps (f a)) (l : List α) : K.Keeps (l.mapM f) := by
  induction l with
  | nil => exact K.keeps_pure _
  | cons a l ih =>
    rw [List.mapM_cons]
    exact K.keeps_bind (hf a) fun _ => K.keeps_bind ih fun _ => K.keeps_pure _
theorem K.keeps_foldlM {α β : Type} {f : β → α → K β} (hf : ∀ b a, K.Keeps (f b a)) (l : List α) (b : β) : K.Keeps (l.foldlM f b) := by
  induction l generalizing b with
  | nil => exact K.keeps_pure _
  | cons a l ih =>
    rw [List.foldlM_cons]
    exact K.keeps_bind (hf b a) fun _ => ih _
theorem K.bump_keeps (x : Ctr) (n : Nat) : K.Keeps (K.bump x n) := by
  unfold K.bump
  exact K.keeps_ite (K.keeps_pure _) (K.mod_keeps fun c => .bump x n c)
theorem K.free_keeps : K.Keeps K.free :=
  K.keeps_bind K.keeps_get fun _ => K.keeps_bind (K.modify_keeps fun _ => ⟨rfl, rfl, rfl⟩) fun _ => K.keeps_pure _
theorem K.shuffle_keeps {α : Type} (l : List α) : K.Keeps (K.shuffle l) :=
  K.keeps_bind K.keeps_get fun _ => K.keeps_bind (K.modify_keeps fun _ => ⟨rfl, rfl, rfl⟩) fun _ => K.keeps_pure _

/-! ### The kernels -/

theorem Worked.formErr (a : Channel) : Worked a a.formErr := by
  unfold Channel.formErr
  dsimp only
  split
  · exact refl a
  · exact of rfl rfl rfl rfl
theorem Worked.feedTail (a : Channel) : Worked a a.feedTail := by
  unfold Channel.feedTail
  split
  · split
    · exact of rfl rfl rfl rfl
    · exact refl a
  · exact refl a
theorem Worked.tailRequest (t f p : Nat) (a : Channel) : Worked a (a.tailRequest t f p) := by
  unfold Channel.tailRequest
  dsimp only
  split
  · exact refl a
  · refine Worked.trans ?_ (feedTail _)
    exact of rfl rfl rfl rfl
theorem K.act_keeps (u : Nat) : K.Keeps (K.act u) := by
  unfold K.act
  repeat' first
    | with_reducible exact K.keeps_pure _
    | ((with_reducible refine K.modify_keeps ?_); intro _; exact ⟨rfl, rfl, rfl⟩)
    | with_reducible refine K.keeps_bind ?_ fun _ => ?_
    | split
    | dsimp only
theorem K.permit_keeps (u addr : Nat) (hbm : Bool) : K.Keeps (K.permit u addr hbm) := by
  unfold K.permit
  repeat' first
    | with_reducible exact K.keeps_pure _
    | with_reducible exact K.keeps_get
    | ((with_reducible refine K.modify_keeps ?_); intro _; exact ⟨rfl, rfl, rfl⟩)
    | with_reducible refine K.keeps_bind ?_ fun _ => ?_
    | split
    | dsimp only
theorem K.unitAt_keeps (j : Nat) : K.Keeps (K.unitAt j) := by
  unfold K.unitAt
  repeat' first
    | with_reducible exact K.keeps_pure _
    | with_reducible exact K.keeps_get
    | with_reducible refine K.keeps_bind ?_ fun _ => ?_
    | split
    | dsimp only
theorem K.eccUe_keeps (st : Storage) (core g : Nat) : K.Keeps (K.eccUe st core g) := by
  unfold K.eccUe
  repeat' first
    | with_reducible exact K.keeps_pure _
    | with_reducible exact K.keeps_get
    | ((with_reducible refine K.modify_keeps ?_); intro _; exact ⟨rfl, rfl, rfl⟩)
    | with_reducible apply K.err_keeps
    | with_reducible refine K.keeps_bind ?_ fun _ => ?_
    | ((with_reducible refine K.mod_keeps ?_); intro c; first
        | exact .of rfl rfl rfl rfl)
    | split
    | dsimp only
theorem K.poisoned_keeps (mem a n : Nat) : K.Keeps (K.poisoned mem a n) := by
  unfold K.poisoned
  repeat' first
    | with_reducible exact K.keeps_pure _
    | with_reducible exact K.keeps_get
    | ((with_reducible refine K.modify_keeps ?_); intro _; exact ⟨rfl, rfl, rfl⟩)
    | with_reducible refine K.keeps_bind ?_ fun _ => ?_
    | split
    | dsimp only
theorem K.spoil_keeps (mem a : Nat) (bs : List Byte) (gs : List (Nat × Bool)) : K.Keeps (K.spoil mem a bs gs) := by
  unfold K.spoil
  repeat' first
    | with_reducible exact K.keeps_pure _
    | with_reducible apply K.poisoned_keeps
    | with_reducible refine K.keeps_bind ?_ fun _ => ?_
    | split
    | dsimp only
theorem K.blockedRead_keeps (st : Storage) (mem core a n : Nat) : K.Keeps (K.blockedRead st mem core a n) := by
  unfold K.blockedRead
  repeat' first
    | with_reducible exact K.keeps_pure _
    | with_reducible apply K.eccUe_keeps
    | with_reducible apply K.poisoned_keeps
    | with_reducible refine K.keeps_bind ?_ fun _ => ?_
    | with_reducible refine K.keeps_forM (fun _ => ?_) _
    | split
    | dsimp only
theorem K.keepOld_keeps (mem u : Nat) (gs : List Nat) : K.Keeps (K.keepOld mem u gs) := by
  unfold K.keepOld
  repeat' first
    | with_reducible exact K.keeps_pure _
    | ((with_reducible refine K.modify_keeps ?_); intro _; exact ⟨rfl, rfl, rfl⟩)
    | with_reducible refine K.keeps_bind ?_ fun _ => ?_
    | split
    | dsimp only
theorem K.readInkP_keeps (j a n : Nat) : K.Keeps (K.readInkP j a n) := by
  unfold K.readInkP
  repeat' first
    | with_reducible exact K.keeps_pure _
    | with_reducible apply K.chan_keeps
    | with_reducible apply K.permit_keeps
    | with_reducible apply K.unitAt_keeps
    | with_reducible apply K.eccUe_keeps
    | with_reducible apply K.spoil_keeps
    | with_reducible apply K.blockedRead_keeps
    | with_reducible refine K.keeps_bind ?_ fun _ => ?_
    | with_reducible refine K.keeps_forIn (fun _ _ => ?_) _ _
    | ((with_reducible refine K.mod_keeps ?_); intro c; first
        | exact .of rfl rfl rfl rfl)
    | split
    | dsimp only
theorem K.readInk_keeps (j a n : Nat) : K.Keeps (K.readInk j a n) := by
  unfold K.readInk
  repeat' first
    | with_reducible exact K.keeps_pure _
    | with_reducible apply K.chan_keeps
    | with_reducible apply K.readInkP_keeps
    | with_reducible refine K.keeps_bind ?_ fun _ => ?_
    | split
    | dsimp only
theorem K.late_keeps (j a : Nat) : K.Keeps (K.late j a) := by
  unfold K.late
  repeat' first
    | with_reducible exact K.keeps_pure _
    | with_reducible exact K.keeps_get
    | with_reducible apply K.err_keeps
    | with_reducible apply K.unitAt_keeps
    | with_reducible refine K.keeps_bind ?_ fun _ => ?_
    | ((with_reducible refine K.mod_keeps ?_); intro c; first
        | exact .of rfl rfl rfl rfl
        | exact .modCore (by exact fun _ h => h) _ _
        | exact .modCore (by exact fun _ h => Cells.wf_write h _ _) _ _
        | exact .storeHbm _ _ _ _
        | exact .invalidate _ _ _ _
        | (split <;> exact .of rfl rfl rfl rfl))
    | split
    | dsimp only
theorem K.storeInk_keeps (j a : Nat) (bs : List Byte) (bad : Bool) : K.Keeps (K.storeInk j a bs bad) := by
  unfold K.storeInk
  repeat' first
    | with_reducible exact K.keeps_pure _
    | with_reducible refine K.keeps_bind ?_ fun _ => ?_
    | ((with_reducible refine K.mod_keeps ?_); intro c; first
        | exact .of rfl rfl rfl rfl
        | exact .modCore (by exact fun _ h => h) _ _
        | exact .modCore (by exact fun _ h => Cells.wf_write h _ _) _ _
        | exact .storeHbm _ _ _ _
        | exact .invalidate _ _ _ _
        | (split <;> exact .of rfl rfl rfl rfl))
    | split
    | dsimp only
theorem K.writeInkP_keeps (j a : Nat) (bs : List Byte) (bad : Bool) : K.Keeps (K.writeInkP j a bs bad) := by
  unfold K.writeInkP
  repeat' first
    | with_reducible exact K.keeps_pure _
    | with_reducible apply K.chan_keeps
    | with_reducible apply K.permit_keeps
    | with_reducible apply K.unitAt_keeps
    | with_reducible apply K.keepOld_keeps
    | with_reducible apply K.late_keeps
    | with_reducible apply K.storeInk_keeps
    | with_reducible refine K.keeps_bind ?_ fun _ => ?_
    | with_reducible refine K.keeps_forIn (fun _ _ => ?_) _ _
    | split
    | dsimp only
theorem K.writeInk_keeps (j a : Nat) (bs : List Byte) : K.Keeps (K.writeInk j a bs) := K.writeInkP_keeps j a bs false
theorem K.poisonInk_keeps (j g : Nat) : K.Keeps (K.poisonInk j g) := by
  unfold K.poisonInk
  repeat' first
    | with_reducible exact K.keeps_pure _
    | with_reducible apply K.chan_keeps
    | with_reducible apply K.permit_keeps
    | with_reducible apply K.late_keeps
    | with_reducible apply K.unitAt_keeps
    | with_reducible apply K.keepOld_keeps
    | with_reducible refine K.keeps_bind ?_ fun _ => ?_
    | ((with_reducible refine K.mod_keeps ?_); intro c; first
        | exact .of rfl rfl rfl rfl
        | exact .modCore (by exact fun _ h => h) _ _
        | exact .modCore (by exact fun _ h => Cells.wf_write h _ _) _ _
        | exact .storeHbm _ _ _ _
        | exact .invalidate _ _ _ _
        | (split <;> exact .of rfl rfl rfl rfl))
    | split
    | dsimp only
theorem K.flushLine_keeps (j : Nat) (l : BlotterLine) : K.Keeps (K.flushLine j l) := by
  unfold K.flushLine
  repeat' first
    | with_reducible exact K.keeps_pure _
    | with_reducible apply K.chan_keeps
    | with_reducible apply K.permit_keeps
    | with_reducible apply K.unitAt_keeps
    | with_reducible apply K.keepOld_keeps
    | with_reducible apply K.late_keeps
    | with_reducible refine K.keeps_bind ?_ fun _ => ?_
    | ((with_reducible refine K.mod_keeps ?_); intro c; first
        | exact .of rfl rfl rfl rfl
        | exact .modCore (by exact fun _ h => Cells.wf_foldl _ h) _ _)
    | split
    | dsimp only
theorem K.blotStore_keeps (j g : Nat) (cells : List Host.Cell) : K.Keeps (K.blotStore j g cells) := by
  unfold K.blotStore
  repeat' first
    | with_reducible exact K.keeps_pure _
    | with_reducible apply K.chan_keeps
    | with_reducible apply K.writeInk_keeps
    | with_reducible apply K.flushLine_keeps
    | with_reducible refine K.keeps_bind ?_ fun _ => ?_
    | ((with_reducible refine K.mod_keeps ?_); intro c; first
        | exact .of rfl rfl rfl rfl
        | exact .modCore (by exact fun _ h => h) _ _
        | exact .modCore (by exact fun _ h => Cells.wf_write h _ _) _ _
        | exact .storeHbm _ _ _ _
        | exact .invalidate _ _ _ _
        | (split <;> exact .of rfl rfl rfl rfl))
    | split
    | dsimp only
theorem K.nibStoreInk_keeps (j a : Nat) (bs : List Byte) : K.Keeps (K.nibStoreInk j a bs) := by
  unfold K.nibStoreInk
  repeat' first
    | with_reducible exact K.keeps_pure _
    | with_reducible apply K.blotStore_keeps
    | with_reducible refine K.keeps_bind ?_ fun _ => ?_
    | with_reducible refine K.keeps_forM (fun _ => ?_) _
    | split
    | dsimp only
theorem K.flushBlotter_keeps (j : Nat) : K.Keeps (K.flushBlotter j) := by
  unfold K.flushBlotter
  repeat' first
    | with_reducible exact K.keeps_pure _
    | with_reducible apply K.chan_keeps
    | with_reducible apply K.flushLine_keeps
    | with_reducible refine K.keeps_bind ?_ fun _ => ?_
    | with_reducible refine K.keeps_forM (fun _ => ?_) _
    | ((with_reducible refine K.mod_keeps ?_); intro c; first
        | exact .of rfl rfl rfl rfl
        | exact .modCore (by exact fun _ h => h) _ _
        | exact .modCore (by exact fun _ h => Cells.wf_write h _ _) _ _
        | exact .storeHbm _ _ _ _
        | exact .invalidate _ _ _ _
        | (split <;> exact .of rfl rfl rfl rfl))
    | split
    | dsimp only
theorem K.poisonHbm_keeps (u : Nat) (gs : List Nat) : K.Keeps (K.poisonHbm u gs) := by
  unfold K.poisonHbm
  repeat' first
    | with_reducible exact K.keeps_pure _
    | with_reducible apply K.keepOld_keeps
    | with_reducible refine K.keeps_bind ?_ fun _ => ?_
    | ((with_reducible refine K.mod_keeps ?_); intro c; first
        | exact .of rfl rfl rfl rfl
        | exact .modCore (by exact fun _ h => h) _ _
        | exact .modCore (by exact fun _ h => Cells.wf_write h _ _) _ _
        | exact .storeHbm _ _ _ _
        | exact .invalidate _ _ _ _
        | (split <;> exact .of rfl rfl rfl rfl))
    | split
    | dsimp only
theorem K.rsvRequest_keeps (j line : Nat) (s0 s1 wr : Bool) (tag : Nat) (gather : Bool) (ahead : Option Nat) : K.Keeps (K.rsvRequest j line s0 s1 wr tag gather ahead) := by
  unfold K.rsvRequest
  repeat' first
    | with_reducible exact K.keeps_pure _
    | ((with_reducible refine K.modify_keeps ?_); intro _; exact ⟨rfl, rfl, rfl⟩)
    | with_reducible apply K.chan_keeps
    | with_reducible apply K.bump_keeps
    | with_reducible apply K.poisonHbm_keeps
    | with_reducible refine K.keeps_bind ?_ fun _ => ?_
    | ((with_reducible refine K.mod_keeps ?_); intro c; first
        | exact .of rfl rfl rfl rfl
        | exact .modCore (by exact fun _ h => h) _ _
        | exact .modCore (by exact fun _ h => Cells.wf_write h _ _) _ _
        | exact .storeHbm _ _ _ _
        | exact .invalidate _ _ _ _
        | (split <;> exact .of rfl rfl rfl rfl))
    | split
    | dsimp only
theorem K.rsvFlush_keeps (j : Nat) : K.Keeps (K.rsvFlush j) := by
  unfold K.rsvFlush
  repeat' first
    | with_reducible exact K.keeps_pure _
    | ((with_reducible refine K.modify_keeps ?_); intro _; exact ⟨rfl, rfl, rfl⟩)
    | with_reducible apply K.chan_keeps
    | with_reducible apply K.bump_keeps
    | with_reducible apply K.poisonHbm_keeps
    | with_reducible refine K.keeps_bind ?_ fun _ => ?_
    | with_reducible refine K.keeps_forIn (fun _ _ => ?_) _ _
    | ((with_reducible refine K.mod_keeps ?_); intro c; first
        | exact .of rfl rfl rfl rfl
        | exact .modCore (by exact fun _ h => h) _ _
        | exact .modCore (by exact fun _ h => Cells.wf_write h _ _) _ _
        | exact .storeHbm _ _ _ _
        | exact .invalidate _ _ _ _
        | (split <;> exact .of rfl rfl rfl rfl))
    | split
    | dsimp only
theorem K.readHbmP_keeps (a n : Nat) : K.Keeps (K.readHbmP a n) := by
  unfold K.readHbmP
  repeat' first
    | with_reducible exact K.keeps_pure _
    | with_reducible apply K.bump_keeps
    | with_reducible exact K.keeps_get
    | with_reducible apply K.chan_keeps
    | with_reducible apply K.permit_keeps
    | with_reducible apply K.eccUe_keeps
    | with_reducible apply K.spoil_keeps
    | with_reducible apply K.blockedRead_keeps
    | with_reducible refine K.keeps_bind ?_ fun _ => ?_
    | with_reducible refine K.keeps_forIn (fun _ _ => ?_) _ _
    | split
    | dsimp only
theorem K.readHbm_keeps (a n : Nat) : K.Keeps (K.readHbm a n) := by
  unfold K.readHbm
  repeat' first
    | with_reducible exact K.keeps_pure _
    | with_reducible apply K.bump_keeps
    | with_reducible apply K.readHbmP_keeps
    | with_reducible refine K.keeps_bind ?_ fun _ => ?_
    | split
    | dsimp only
theorem K.writeHbmP_keeps (a : Nat) (bs : List Byte) (bad : Bool) : K.Keeps (K.writeHbmP a bs bad) := by
  unfold K.writeHbmP
  repeat' first
    | with_reducible exact K.keeps_pure _
    | with_reducible exact K.keeps_get
    | with_reducible apply K.bump_keeps
    | with_reducible apply K.permit_keeps
    | with_reducible apply K.keepOld_keeps
    | with_reducible refine K.keeps_bind ?_ fun _ => ?_
    | ((with_reducible refine K.mod_keeps ?_); intro c; first
        | exact .of rfl rfl rfl rfl
        | exact .modCore (by exact fun _ h => h) _ _
        | exact .modCore (by exact fun _ h => Cells.wf_write h _ _) _ _
        | exact .storeHbm _ _ _ _
        | exact .invalidate _ _ _ _
        | (split <;> exact .of rfl rfl rfl rfl))
    | split
    | dsimp only
theorem K.writeHbm_keeps (a : Nat) (bs : List Byte) : K.Keeps (K.writeHbm a bs) := K.writeHbmP_keeps a bs false
theorem K.rsvAll_keeps (j : Nat) (gather : Bool) (reqs : List (Nat × Bool × Bool × Bool)) (ahead : List Nat) : K.Keeps (K.rsvAll j gather reqs ahead) := by
  unfold K.rsvAll
  repeat' first
    | with_reducible exact K.keeps_pure _
    | with_reducible apply K.chan_keeps
    | with_reducible apply K.shuffle_keeps
    | with_reducible apply K.rsvRequest_keeps
    | with_reducible refine K.keeps_bind ?_ fun _ => ?_
    | with_reducible refine K.keeps_forIn (fun _ _ => ?_) _ _
    | split
    | dsimp only
theorem K.peekHbm_keeps (j a n : Nat) : K.Keeps (K.peekHbm j a n) := by
  unfold K.peekHbm
  repeat' first
    | with_reducible exact K.keeps_pure _
    | with_reducible apply K.chan_keeps
    | with_reducible apply K.eccUe_keeps
    | with_reducible apply K.spoil_keeps
    | with_reducible refine K.keeps_bind ?_ fun _ => ?_
    | with_reducible refine K.keeps_forIn (fun _ _ => ?_) _ _
    | split
    | dsimp only
theorem K.pokeHbm_keeps (j a : Nat) (bs : List Byte) : K.Keeps (K.pokeHbm j a bs) := by
  unfold K.pokeHbm
  repeat' first
    | with_reducible exact K.keeps_pure _
    | with_reducible apply K.unitAt_keeps
    | with_reducible apply K.keepOld_keeps
    | with_reducible refine K.keeps_bind ?_ fun _ => ?_
    | ((with_reducible refine K.mod_keeps ?_); intro c; first
        | exact .of rfl rfl rfl rfl
        | exact .modCore (by exact fun _ h => h) _ _
        | exact .modCore (by exact fun _ h => Cells.wf_write h _ _) _ _
        | exact .storeHbm _ _ _ _
        | exact .invalidate _ _ _ _
        | (split <;> exact .of rfl rfl rfl rfl))
    | split
    | dsimp only
theorem K.nibReadAhead_keeps (j a n : Nat) (gather : Bool) (ahead : List Nat) : K.Keeps (K.nibReadAhead j a n gather ahead) := by
  unfold K.nibReadAhead
  repeat' first
    | with_reducible exact K.keeps_pure _
    | with_reducible apply K.permit_keeps
    | with_reducible apply K.unitAt_keeps
    | with_reducible apply K.blockedRead_keeps
    | with_reducible apply K.rsvAll_keeps
    | with_reducible apply K.peekHbm_keeps
    | with_reducible refine K.keeps_bind ?_ fun _ => ?_
    | split
    | dsimp only
theorem K.nibReadHbm_keeps (j a n : Nat) : K.Keeps (K.nibReadHbm j a n) := by
  unfold K.nibReadHbm
  repeat' first
    | with_reducible exact K.keeps_pure _
    | with_reducible apply K.nibReadAhead_keeps
    | with_reducible refine K.keeps_bind ?_ fun _ => ?_
    | split
    | dsimp only
theorem K.gatherHbm_keeps (j a n : Nat) (ahead : List Nat) : K.Keeps (K.gatherHbm j a n ahead) := by
  unfold K.gatherHbm
  repeat' first
    | with_reducible exact K.keeps_pure _
    | with_reducible apply K.chan_keeps
    | with_reducible apply K.act_keeps
    | with_reducible apply K.readHbm_keeps
    | with_reducible apply K.nibReadAhead_keeps
    | ((with_reducible refine K.mod_keeps ?_); intro c; first
        | exact .of rfl rfl rfl rfl
        | exact .modCore (by exact fun _ h => h) _ _)
    | with_reducible refine K.keeps_bind ?_ fun _ => ?_
    | split
    | dsimp only
theorem K.nibWriteHbm_keeps (j a : Nat) (bs : List Byte) : K.Keeps (K.nibWriteHbm j a bs) := by
  unfold K.nibWriteHbm
  repeat' first
    | with_reducible exact K.keeps_pure _
    | with_reducible apply K.permit_keeps
    | with_reducible apply K.unitAt_keeps
    | with_reducible apply K.rsvAll_keeps
    | with_reducible apply K.pokeHbm_keeps
    | with_reducible refine K.keeps_bind ?_ fun _ => ?_
    | split
    | dsimp only
theorem K.owners_keeps (cores : List Nat) : K.Keeps (K.owners cores) := by
  unfold K.owners
  repeat' first
    | with_reducible exact K.keeps_pure _
    | with_reducible apply K.free_keeps
    | with_reducible refine K.keeps_bind ?_ fun _ => ?_
    | split
    | dsimp only
theorem K.readLines_keeps (own : Nat → Nat) (a n : Nat) : K.Keeps (K.readLines own a n) := by
  unfold K.readLines
  repeat' first
    | with_reducible exact K.keeps_pure _
    | with_reducible apply K.nibReadHbm_keeps
    | with_reducible refine K.keeps_bind ?_ fun _ => ?_
    | with_reducible refine K.keeps_foldlM (fun _ _ => ?_) _ _
    | split
    | dsimp only
theorem K.writeLines_keeps (own : Nat → Nat) (a : Nat) (bs : List Byte) : K.Keeps (K.writeLines own a bs) := by
  unfold K.writeLines
  repeat' first
    | with_reducible exact K.keeps_pure _
    | with_reducible apply K.nibWriteHbm_keeps
    | with_reducible refine K.keeps_bind ?_ fun _ => ?_
    | with_reducible refine K.keeps_forM (fun _ => ?_) _
    | split
    | dsimp only
theorem K.regionCut_keeps (region : Nat) : K.Keeps (K.regionCut region) := by
  unfold K.regionCut
  repeat' first
    | with_reducible exact K.keeps_pure _
    | with_reducible exact K.keeps_get
    | ((with_reducible refine K.modify_keeps ?_); intro _; exact ⟨rfl, rfl, rfl⟩)
    | with_reducible apply K.err_keeps
    | with_reducible refine K.keeps_bind ?_ fun _ => ?_
    | ((with_reducible refine K.mod_keeps ?_); intro c; first
        | exact .of rfl rfl rfl rfl)
    | split
    | dsimp only
theorem K.cutTo_keeps (region a n : Nat) : K.Keeps (K.cutTo region a n) := by
  unfold K.cutTo
  repeat' first
    | with_reducible exact K.keeps_pure _
    | with_reducible apply K.chan_keeps
    | with_reducible apply K.regionCut_keeps
    | with_reducible refine K.keeps_bind ?_ fun _ => ?_
    | split
    | dsimp only
theorem K.heldWithin_keeps (b a n : Nat) : K.Keeps (K.heldWithin b a n) := by
  unfold K.heldWithin
  repeat' first
    | with_reducible exact K.keeps_pure _
    | with_reducible apply K.chan_keeps
    | with_reducible apply K.free_keeps
    | with_reducible apply K.regionCut_keeps
    | with_reducible apply K.cutTo_keeps
    | with_reducible refine K.keeps_bind ?_ fun _ => ?_
    | split
    | dsimp only
theorem K.heldTo_keeps (b a n : Nat) : K.Keeps (K.heldTo b a n) := by
  unfold K.heldTo
  repeat' first
    | with_reducible exact K.keeps_pure _
    | with_reducible apply K.heldWithin_keeps
    | with_reducible refine K.keeps_bind ?_ fun _ => ?_
theorem K.within_keeps (region a n : Nat) : K.Keeps (K.within region a n) := by
  unfold K.within
  repeat' first
    | with_reducible exact K.keeps_pure _
    | with_reducible apply K.cutTo_keeps
    | with_reducible refine K.keeps_bind ?_ fun _ => ?_
    | split
    | dsimp only
theorem K.putHeld_keeps (b j a : Nat) (bs : List Byte) : K.Keeps (K.putHeld b j a bs) := by
  unfold K.putHeld
  repeat' first
    | with_reducible exact K.keeps_pure _
    | with_reducible apply K.nibWriteHbm_keeps
    | with_reducible apply K.heldWithin_keeps
    | with_reducible refine K.keeps_bind ?_ fun _ => ?_
theorem K.putLines_keeps (own : Nat → Nat) (b a : Nat) (bs : List Byte) : K.Keeps (K.putLines own b a bs) := by
  unfold K.putLines
  exact K.keeps_bind (K.heldWithin_keeps _ _ _) fun _ => K.writeLines_keeps _ _ _
theorem K.cutRead_keeps {get : Nat → K (List Byte)} (h : ∀ k, K.Keeps (get k)) (a n k : Nat) : K.Keeps (K.cutRead a n k get) := by
  unfold K.cutRead
  repeat' first
    | with_reducible exact K.keeps_pure _
    | with_reducible apply h
    | with_reducible apply K.poisoned_keeps
    | with_reducible refine K.keeps_bind ?_ fun _ => ?_
    | split
theorem K.heldRead_keeps {get : Nat → K (List Byte)} (h : ∀ k, K.Keeps (get k)) (b a n : Nat) : K.Keeps (K.heldRead b a n get) := by
  unfold K.heldRead
  exact K.keeps_bind (K.heldWithin_keeps _ _ _) fun _ => K.cutRead_keeps h _ _ _
theorem K.spillWithin_keeps (b a n : Nat) : K.Keeps (K.spillWithin b a n) := by
  unfold K.spillWithin
  repeat' first
    | with_reducible exact K.keeps_pure _
    | with_reducible apply K.chan_keeps
    | with_reducible apply K.cutTo_keeps
    | with_reducible refine K.keeps_bind ?_ fun _ => ?_
    | split
theorem K.overflow_keeps (x : Cause) : K.Keeps (K.overflow x) := by
  unfold K.overflow
  repeat' first
    | with_reducible exact K.keeps_pure _
    | with_reducible exact K.keeps_get
    | with_reducible apply K.err_keeps
    | with_reducible refine K.keeps_bind ?_ fun _ => ?_
    | ((with_reducible refine K.mod_keeps ?_); intro c; first
        | exact .of rfl rfl rfl rfl)
    | split
    | dsimp only
theorem K.blankFail_keeps (ring kind value : Nat) : K.Keeps (K.blankFail ring kind value) := by
  unfold K.blankFail
  repeat' first
    | with_reducible exact K.keeps_pure _
    | with_reducible exact K.keeps_get
    | with_reducible apply K.err_keeps
    | with_reducible refine K.keeps_bind ?_ fun _ => ?_
    | ((with_reducible refine K.mod_keeps ?_); intro c; first
        | exact .of rfl rfl rfl rfl)
    | split
    | dsimp only
theorem K.blankPacket_keeps (ring : Nat) (tag : Word) : K.Keeps (K.blankPacket ring tag) := by
  unfold K.blankPacket
  repeat' first
    | with_reducible exact K.keeps_pure _
    | with_reducible apply K.chan_keeps
    | with_reducible apply K.blankFail_keeps
    | with_reducible refine K.keeps_bind ?_ fun _ => ?_
    | ((with_reducible refine K.mod_keeps ?_); intro c; first
        | exact .of rfl rfl rfl rfl)
    | split
    | dsimp only
theorem K.blankPair_keeps (ring : Nat) (got : List Byte) (expect : Word → Word → List Byte) : K.Keeps (K.blankPair ring got expect) := by
  unfold K.blankPair
  repeat' first
    | with_reducible exact K.keeps_pure _
    | with_reducible apply K.chan_keeps
    | with_reducible apply K.blankFail_keeps
    | with_reducible refine K.keeps_bind ?_ fun _ => ?_
    | ((with_reducible refine K.mod_keeps ?_); intro c; first
        | exact .of rfl rfl rfl rfl)
    | split
    | dsimp only
theorem K.blankPixel_keeps (ring per w mask : Nat) (got : Nat) : K.Keeps (K.blankPixel ring per w mask got) := by
  unfold K.blankPixel
  repeat' first
    | with_reducible exact K.keeps_pure _
    | with_reducible apply K.chan_keeps
    | with_reducible apply K.blankFail_keeps
    | with_reducible refine K.keeps_bind ?_ fun _ => ?_
    | ((with_reducible refine K.mod_keeps ?_); intro c; first
        | exact .of rfl rfl rfl rfl)
    | split
    | dsimp only
theorem K.blankEnd_keeps (ring need : Nat) (rows : Bool) : K.Keeps (K.blankEnd ring need rows) := by
  unfold K.blankEnd
  repeat' first
    | with_reducible exact K.keeps_pure _
    | with_reducible apply K.chan_keeps
    | with_reducible apply K.blankFail_keeps
    | with_reducible refine K.keeps_bind ?_ fun _ => ?_
    | ((with_reducible refine K.mod_keeps ?_); intro c; first
        | exact .of rfl rfl rfl rfl)
    | split
    | dsimp only
theorem K.inputSegs_keeps (read : Nat → Nat → K (List Byte)) (kind : Nat) (hread : ∀ a n, K.Keeps (read a n)) : K.Keeps (K.inputSegs read kind) := by
  unfold K.inputSegs
  repeat' first
    | with_reducible exact K.keeps_pure _
    | with_reducible apply hread
    | with_reducible apply K.chan_keeps
    | with_reducible refine K.keeps_bind ?_ fun _ => ?_
    | with_reducible refine K.keeps_forIn (fun _ _ => ?_) _ _
    | split
    | dsimp only
theorem K.mapEntry_keeps (own : Nat → Nat) (f : Front) (arrival v : Nat) : K.Keeps (K.mapEntry own f arrival v) := by
  unfold K.mapEntry
  repeat' first
    | with_reducible exact K.keeps_pure _
    | with_reducible apply K.chan_keeps
    | with_reducible apply K.writeLines_keeps
    | with_reducible apply K.within_keeps
    | with_reducible refine K.keeps_bind ?_ fun _ => ?_
    | split
    | dsimp only
theorem K.dropMark_keeps (own : Nat → Nat) (f : Front) (arrival cause : Nat) : K.Keeps (K.dropMark own f arrival cause) := by
  unfold K.dropMark
  repeat' first
    | with_reducible exact K.keeps_pure _
    | with_reducible apply K.mapEntry_keeps
    | with_reducible refine K.keeps_bind ?_ fun _ => ?_
    | split
    | dsimp only
theorem K.voxRecord_keeps (own : Nat → Nat) (f : Front) (sg : Segment) (check : Bool) (pose : PoseM) (v : Vox) (r : List Byte) : K.Keeps (K.voxRecord own f sg check pose v r) := by
  unfold K.voxRecord
  repeat' first
    | with_reducible exact K.keeps_pure _
    | with_reducible apply K.bump_keeps
    | with_reducible apply K.overflow_keeps
    | with_reducible apply K.blankPair_keeps
    | with_reducible apply K.dropMark_keeps
    | with_reducible refine K.keeps_bind ?_ fun _ => ?_
    | split
    | dsimp only
theorem K.voxelise_keeps (cores : List Nat) : K.Keeps (K.voxelise cores) := by
  unfold K.voxelise
  repeat' first
    | with_reducible exact K.keeps_pure _
    | with_reducible apply K.chan_keeps
    | with_reducible apply K.owners_keeps
    | with_reducible apply K.readLines_keeps
    | with_reducible apply K.blankPacket_keeps
    | with_reducible apply K.blankEnd_keeps
    | with_reducible apply K.inputSegs_keeps
    | with_reducible apply K.voxRecord_keeps
    | with_reducible refine K.keeps_bind ?_ fun _ => ?_
    | with_reducible refine K.keeps_forIn (fun _ _ => ?_) _ _
    | ((with_reducible refine K.mod_keeps ?_); intro c; first
        | exact .of rfl rfl rfl rfl)
    | split
    | dsimp only
theorem K.cellClear_keeps (f : Front) : K.Keeps (K.cellClear f) := by
  unfold K.cellClear
  repeat' first
    | with_reducible exact K.keeps_pure _
    | ((with_reducible refine K.modify_keeps ?_); intro _; exact ⟨rfl, rfl, rfl⟩)
    | with_reducible apply K.chan_keeps
    | with_reducible apply K.rsvFlush_keeps
    | with_reducible apply K.nibWriteHbm_keeps
    | with_reducible exact K.keeps_get
    | with_reducible refine K.keeps_bind ?_ fun _ => ?_
    | with_reducible refine K.keeps_forIn (fun _ _ => ?_) _ _
    | ((with_reducible refine K.mod_keeps ?_); intro c; first
        | exact .of rfl rfl rfl rfl
        | exact .modCore (by exact fun _ h => h) _ _
        | exact .modCore (by exact fun _ h => Cells.wf_write h _ _) _ _
        | exact .storeHbm _ _ _ _
        | exact .invalidate _ _ _ _
        | (split <;> exact .of rfl rfl rfl rfl))
    | split
    | dsimp only
theorem K.cellProbe_keeps (q base e key home : Nat) (n i : Nat) (ls : List Nat) : K.Keeps (K.cellProbe q base e key home n i ls) := by
  induction n generalizing i ls with
  | zero =>
    unfold K.cellProbe
    repeat' first
      | with_reducible exact K.keeps_pure _
      | with_reducible apply K.permit_keeps
      | with_reducible apply K.unitAt_keeps
      | with_reducible apply K.blockedRead_keeps
      | with_reducible apply K.peekHbm_keeps
      | with_reducible refine K.keeps_bind ?_ fun _ => ?_
      | split
      | dsimp only
  | succ n ih =>
    unfold K.cellProbe
    repeat' first
      | with_reducible exact K.keeps_pure _
      | with_reducible apply ih
      | with_reducible apply K.permit_keeps
      | with_reducible apply K.unitAt_keeps
      | with_reducible apply K.blockedRead_keeps
      | with_reducible apply K.peekHbm_keeps
      | with_reducible refine K.keeps_bind ?_ fun _ => ?_
      | split
      | dsimp only
theorem K.insertPoint_keeps (own : Nat → Nat) (f : Front) (e : Nat) (s : Ins) (p : VoxPt) : K.Keeps (K.insertPoint own f e s p) := by
  unfold K.insertPoint
  repeat' first
    | with_reducible exact K.keeps_pure _
    | with_reducible apply K.bump_keeps
    | with_reducible apply K.permit_keeps
    | with_reducible apply K.unitAt_keeps
    | with_reducible apply K.pokeHbm_keeps
    | with_reducible apply K.overflow_keeps
    | with_reducible apply K.mapEntry_keeps
    | with_reducible apply K.dropMark_keeps
    | with_reducible apply K.cellProbe_keeps
    | with_reducible refine K.keeps_bind ?_ fun _ => ?_
    | split
    | dsimp only
theorem K.insertWaves_keeps (own : Nat → Nat) (f : Front) (e : Nat) (n : Nat) (s : Ins) (pts : List VoxPt) : K.Keeps (K.insertWaves own f e n s pts) := by
  induction n generalizing s pts with
  | zero =>
    unfold K.insertWaves
    repeat' first
      | with_reducible exact K.keeps_pure _
      | with_reducible exact K.keeps_get
      | with_reducible apply K.bump_keeps
      | with_reducible apply K.rsvAll_keeps
      | with_reducible apply K.overflow_keeps
      | with_reducible apply K.dropMark_keeps
      | with_reducible apply K.insertPoint_keeps
      | with_reducible refine K.keeps_bind ?_ fun _ => ?_
      | with_reducible refine K.keeps_forIn (fun _ _ => ?_) _ _
      | split
      | dsimp only
  | succ n ih =>
    unfold K.insertWaves
    repeat' first
      | with_reducible exact K.keeps_pure _
      | with_reducible exact K.keeps_get
      | with_reducible apply ih
      | with_reducible apply K.bump_keeps
      | with_reducible apply K.rsvAll_keeps
      | with_reducible apply K.overflow_keeps
      | with_reducible apply K.dropMark_keeps
      | with_reducible apply K.insertPoint_keeps
      | with_reducible refine K.keeps_bind ?_ fun _ => ?_
      | with_reducible refine K.keeps_forIn (fun _ _ => ?_) _ _
      | split
      | dsimp only
theorem K.cellInsert_keeps (cores : List Nat) : K.Keeps (K.cellInsert cores) := by
  unfold K.cellInsert
  repeat' first
    | with_reducible exact K.keeps_pure _
    | with_reducible apply K.chan_keeps
    | with_reducible apply K.shuffle_keeps
    | with_reducible apply K.owners_keeps
    | with_reducible apply K.cellClear_keeps
    | with_reducible apply K.insertWaves_keeps
    | with_reducible exact K.keeps_get
    | with_reducible refine K.keeps_bind ?_ fun _ => ?_
    | ((with_reducible refine K.mod_keeps ?_); intro c; first
        | exact .of rfl rfl rfl rfl)
    | split
    | dsimp only
theorem K.writeKeylist_keeps (own : Nat → Nat) (f : Front) (set : Nat) (ks : List Nat) : K.Keeps (K.writeKeylist own f set ks) := by
  unfold K.writeKeylist
  repeat' first
    | with_reducible exact K.keeps_pure _
    | with_reducible apply K.writeLines_keeps
    | with_reducible refine K.keeps_bind ?_ fun _ => ?_
    | ((with_reducible refine K.mod_keeps ?_); intro c; first
        | exact .of rfl rfl rfl rfl)
    | split
    | dsimp only
theorem K.readKeys_keeps (own : Nat → Nat) (f : Front) (set first n : Nat) : K.Keeps (K.readKeys own f set first n) := by
  unfold K.readKeys
  repeat' first
    | with_reducible exact K.keeps_pure _
    | with_reducible apply K.readLines_keeps
    | with_reducible refine K.keeps_bind ?_ fun _ => ?_
    | split
    | dsimp only
theorem K.cellOrder_keeps (cores : List Nat) : K.Keeps (K.cellOrder cores) := by
  unfold K.cellOrder
  repeat' first
    | with_reducible exact K.keeps_pure _
    | with_reducible apply K.chan_keeps
    | with_reducible apply K.owners_keeps
    | with_reducible apply K.mapEntry_keeps
    | with_reducible apply K.writeKeylist_keeps
    | with_reducible refine K.keeps_bind ?_ fun _ => ?_
    | with_reducible refine K.keeps_forIn (fun _ _ => ?_) _ _
    | ((with_reducible refine K.mod_keeps ?_); intro c; first
        | exact .of rfl rfl rfl rfl)
    | split
    | dsimp only
theorem K.pointPool_keeps (cores : List Nat) : K.Keeps (K.pointPool cores) := by
  unfold K.pointPool
  repeat' first
    | with_reducible exact K.keeps_pure _
    | with_reducible apply K.chan_keeps
    | with_reducible apply K.owners_keeps
    | with_reducible apply K.writeLines_keeps
    | with_reducible apply K.readKeys_keeps
    | with_reducible refine K.keeps_bind ?_ fun _ => ?_
    | with_reducible refine K.keeps_forIn (fun _ _ => ?_) _ _
    | split
    | dsimp only
theorem K.coarsen_keeps (set : Nat) (cores : List Nat) : K.Keeps (K.coarsen set cores) := by
  unfold K.coarsen
  repeat' first
    | with_reducible exact K.keeps_pure _
    | with_reducible apply K.chan_keeps
    | with_reducible apply K.bump_keeps
    | with_reducible apply K.owners_keeps
    | with_reducible apply K.overflow_keeps
    | with_reducible apply K.writeKeylist_keeps
    | with_reducible apply K.readKeys_keeps
    | with_reducible refine K.keeps_bind ?_ fun _ => ?_
    | split
    | dsimp only
theorem K.ruleBuild_keeps (ruling : Nat) (cs : List Nat) : K.Keeps (K.ruleBuild ruling cs) := by
  unfold K.ruleBuild
  repeat' first
    | with_reducible exact K.keeps_pure _
    | with_reducible apply K.chan_keeps
    | with_reducible apply K.nibStoreInk_keeps
    | with_reducible apply K.nibWriteHbm_keeps
    | with_reducible apply K.spillWithin_keeps
    | with_reducible apply K.owners_keeps
    | with_reducible apply K.readKeys_keeps
    | with_reducible refine K.keeps_bind ?_ fun _ => ?_
    | with_reducible refine K.keeps_forIn (fun _ _ => ?_) _ _
    | split
    | dsimp only
theorem K.nibRead_keeps (own : Nat → Nat) (a : NibArgs) (cores : List Nat) (addr n : Nat) : K.Keeps (K.nibRead own a cores addr n) := by
  unfold K.nibRead
  repeat' first
    | with_reducible exact K.keeps_pure _
    | with_reducible apply K.readInk_keeps
    | with_reducible exact K.heldRead_keeps (fun _ => K.readLines_keeps _ _ _) _ _ _
    | with_reducible refine K.keeps_bind ?_ fun _ => ?_
    | split
    | dsimp only
theorem K.nibWrite_keeps (own : Nat → Nat) (a : NibArgs) (cores : List Nat) (addr : Nat) (bs : List Byte) : K.Keeps (K.nibWrite own a cores addr bs) := by
  unfold K.nibWrite
  repeat' first
    | with_reducible exact K.keeps_pure _
    | with_reducible apply K.nibStoreInk_keeps
    | with_reducible apply K.putLines_keeps
    | with_reducible refine K.keeps_bind ?_ fun _ => ?_
    | split
    | dsimp only
theorem K.segReduceKernel_keeps (channels : Nat) (a : NibArgs) (cores : List Nat) : K.Keeps (K.segReduceKernel channels a cores) := by
  unfold K.segReduceKernel
  repeat' first
    | with_reducible exact K.keeps_pure _
    | with_reducible apply K.owners_keeps
    | with_reducible apply K.nibRead_keeps
    | with_reducible apply K.nibWrite_keeps
    | with_reducible refine K.keeps_bind ?_ fun _ => ?_
    | split
    | dsimp only
theorem K.columnPool_keeps (a : NibArgs) (cores : List Nat) : K.Keeps (K.columnPool a cores) := by
  unfold K.columnPool
  repeat' first
    | with_reducible exact K.keeps_pure _
    | with_reducible apply K.putLines_keeps
    | with_reducible apply K.chan_keeps
    | with_reducible apply K.bump_keeps
    | with_reducible apply K.nibStoreInk_keeps
    | with_reducible apply K.owners_keeps
    | with_reducible apply K.readLines_keeps
    | with_reducible apply K.readKeys_keeps
    | with_reducible refine K.keeps_bind ?_ fun _ => ?_
    | with_reducible refine K.keeps_forIn (fun _ _ => ?_) _ _
    | split
    | dsimp only
theorem K.radixKernel_keeps (a : NibArgs) (cores : List Nat) : K.Keeps (K.radixKernel a cores) := by
  unfold K.radixKernel
  repeat' first
    | with_reducible exact K.keeps_pure _
    | with_reducible apply K.owners_keeps
    | with_reducible apply K.nibRead_keeps
    | with_reducible apply K.nibWrite_keeps
    | with_reducible refine K.keeps_bind ?_ fun _ => ?_
    | split
    | dsimp only
theorem K.viewBuild_keeps (cores : List Nat) : K.Keeps (K.viewBuild cores) := by
  unfold K.viewBuild
  repeat' first
    | with_reducible exact K.keeps_pure _
    | with_reducible apply K.chan_keeps
    | with_reducible apply K.owners_keeps
    | with_reducible apply K.writeLines_keeps
    | with_reducible refine K.keeps_bind ?_ fun _ => ?_
    | with_reducible refine K.keeps_forIn (fun _ _ => ?_) _ _
    | split
    | dsimp only
theorem K.readTile_keeps (j fmt rows : Nat) (sp24 : Bool) (a k : Nat) (used : Nat → Bool) : K.Keeps (K.readTile j fmt rows sp24 a k used) := by
  unfold K.readTile
  repeat' first
    | with_reducible exact K.keeps_pure _
    | with_reducible apply K.readInk_keeps
    | with_reducible refine K.keeps_bind ?_ fun _ => ?_
    | split
    | dsimp only
theorem K.commitWr_keeps (j : Nat) (o : Out) (w : Wr) : K.Keeps (K.commitWr j o w) := by
  unfold K.commitWr
  repeat' first
    | with_reducible exact K.keeps_pure _
    | with_reducible apply K.chan_keeps
    | with_reducible apply K.readInk_keeps
    | with_reducible apply K.writeInk_keeps
    | with_reducible apply K.poisonInk_keeps
    | with_reducible apply K.writeInkP_keeps
    | with_reducible refine K.keeps_bind ?_ fun _ => ?_
    | split
    | dsimp only
theorem K.drainOne_keeps (j p : Nat) (o : Out) : K.Keeps (K.drainOne j p o) := by
  unfold K.drainOne
  repeat' first
    | with_reducible exact K.keeps_pure _
    | with_reducible apply K.free_keeps
    | with_reducible apply K.commitWr_keeps
    | with_reducible refine K.keeps_bind ?_ fun _ => ?_
    | split
    | dsimp only
theorem K.drainN_keeps (j p : Nat) (n : Nat) (o : Out) : K.Keeps (K.drainN j p n o) := by
  induction n generalizing o with
  | zero =>
    unfold K.drainN
    repeat' first
      | with_reducible exact K.keeps_pure _
      | with_reducible apply K.drainOne_keeps
      | with_reducible refine K.keeps_bind ?_ fun _ => ?_
      | split
      | dsimp only
  | succ n ih =>
    unfold K.drainN
    repeat' first
      | with_reducible exact K.keeps_pure _
      | with_reducible apply ih
      | with_reducible apply K.drainOne_keeps
      | with_reducible refine K.keeps_bind ?_ fun _ => ?_
      | split
      | dsimp only
theorem K.drainUpTo_keeps (j p : Nat) (o : Out) : K.Keeps (K.drainUpTo j p o) := by
  unfold K.drainUpTo
  repeat' first
    | with_reducible exact K.keeps_pure _
    | with_reducible apply K.drainN_keeps
    | with_reducible refine K.keeps_bind ?_ fun _ => ?_
    | split
    | dsimp only
theorem K.drainAll_keeps (j : Nat) (o : Out) : K.Keeps (K.drainAll j o) := by
  unfold K.drainAll
  repeat' first
    | with_reducible exact K.keeps_pure _
    | with_reducible apply K.drainN_keeps
    | with_reducible refine K.keeps_bind ?_ fun _ => ?_
    | split
    | dsimp only
theorem K.drainSome_keeps (j : Nat) (o : Out) : K.Keeps (K.drainSome j o) := by
  unfold K.drainSome
  repeat' first
    | with_reducible exact K.keeps_pure _
    | with_reducible apply K.free_keeps
    | with_reducible apply K.drainN_keeps
    | with_reducible refine K.keeps_bind ?_ fun _ => ?_
    | split
    | dsimp only
theorem K.arrayEvents_keeps (sat nonfin : Nat) : K.Keeps (K.arrayEvents sat nonfin) := by
  unfold K.arrayEvents
  repeat' first
    | with_reducible exact K.keeps_pure _
    | with_reducible exact K.keeps_get
    | with_reducible apply K.err_keeps
    | with_reducible apply K.bump_keeps
    | with_reducible apply K.free_keeps
    | with_reducible refine K.keeps_bind ?_ fun _ => ?_
    | ((with_reducible refine K.mod_keeps ?_); intro c; first
        | exact .of rfl rfl rfl rfl)
    | split
    | dsimp only
theorem K.passLoad_keeps (j : Nat) (h : ArrayHdr) (p : MPass) (s : MatSt) : K.Keeps (K.passLoad j h p s) := by
  unfold K.passLoad
  repeat' first
    | with_reducible exact K.keeps_pure _
    | with_reducible apply K.readTile_keeps
    | with_reducible apply K.drainSome_keeps
    | with_reducible refine K.keeps_bind ?_ fun _ => ?_
    | split
    | dsimp only
theorem K.passVector_keeps (j a v : Nat) (h : ArrayHdr) (p : MPass) (i : Nat) (s : MatSt) : K.Keeps (K.passVector j a v h p i s) := by
  unfold K.passVector
  repeat' first
    | with_reducible exact K.keeps_pure _
    | with_reducible apply K.readInk_keeps
    | with_reducible apply K.drainUpTo_keeps
    | with_reducible apply K.drainSome_keeps
    | with_reducible refine K.keeps_bind ?_ fun _ => ?_
    | split
    | dsimp only
theorem K.wsGo_keeps (j : Nat) (h : ArrayHdr) (n : Nat) (rs : List PassRun) (s : MatSt) : K.Keeps (K.wsGo j h n rs s) := by
  induction n generalizing rs s with
  | zero =>
    unfold K.wsGo
    repeat' first
      | with_reducible exact K.keeps_pure _
      | with_reducible apply K.free_keeps
      | with_reducible apply K.passLoad_keeps
      | with_reducible apply K.passVector_keeps
      | with_reducible refine K.keeps_bind ?_ fun _ => ?_
      | split
      | dsimp only
  | succ n ih =>
    unfold K.wsGo
    repeat' first
      | with_reducible exact K.keeps_pure _
      | with_reducible apply ih
      | with_reducible apply K.free_keeps
      | with_reducible apply K.passLoad_keeps
      | with_reducible apply K.passVector_keeps
      | with_reducible refine K.keeps_bind ?_ fun _ => ?_
      | split
      | dsimp only
theorem K.passesWs_keeps (j arrays : Nat) (h : ArrayHdr) (ps : List MPass) (s : MatSt) : K.Keeps (K.passesWs j arrays h ps s) := by
  unfold K.passesWs
  repeat' first
    | with_reducible exact K.keeps_pure _
    | with_reducible apply K.wsGo_keeps
    | with_reducible refine K.keeps_bind ?_ fun _ => ?_
    | split
    | dsimp only
theorem K.passOs_keeps (j arrays : Nat) (h : ArrayHdr) (p : MPass) (i : Nat) (s : MatSt) : K.Keeps (K.passOs j arrays h p i s) := by
  unfold K.passOs
  repeat' first
    | with_reducible exact K.keeps_pure _
    | with_reducible apply K.readInk_keeps
    | with_reducible apply K.drainUpTo_keeps
    | with_reducible apply K.drainSome_keeps
    | with_reducible refine K.keeps_bind ?_ fun _ => ?_
    | with_reducible refine K.keeps_forIn (fun _ _ => ?_) _ _
    | split
    | dsimp only
theorem K.matmul_keeps (parm : List Byte) (cores : Nat) : K.Keeps (K.matmul parm cores) := by
  unfold K.matmul
  repeat' first
    | with_reducible exact K.keeps_pure _
    | with_reducible exact K.keeps_get
    | with_reducible apply K.bump_keeps
    | with_reducible apply K.drainAll_keeps
    | with_reducible apply K.arrayEvents_keeps
    | with_reducible apply K.passesWs_keeps
    | with_reducible apply K.passOs_keeps
    | with_reducible refine K.keeps_bind ?_ fun _ => ?_
    | with_reducible refine K.keeps_forIn (fun _ _ => ?_) _ _
    | split
    | dsimp only
theorem K.func_keeps (opc : Nat) (w : Word) : K.Keeps (K.func opc w) := by
  unfold K.func
  repeat' first
    | with_reducible exact K.keeps_pure _
    | with_reducible exact K.keeps_get
    | ((with_reducible refine K.modify_keeps ?_); intro _; exact ⟨rfl, rfl, rfl⟩)
    | with_reducible refine K.keeps_bind ?_ fun _ => ?_
    | split
    | dsimp only
theorem K.near_keeps (k : Nat) (neg : Bool) (f : Frac) : K.Keeps (K.near k neg f) := by
  unfold K.near
  repeat' first
    | with_reducible exact K.keeps_pure _
    | with_reducible exact K.keeps_get
    | ((with_reducible refine K.modify_keeps ?_); intro _; exact ⟨rfl, rfl, rfl⟩)
    | with_reducible refine K.keeps_bind ?_ fun _ => ?_
    | split
    | dsimp only
theorem K.layerNorm_keeps (eps : Word) (row : List Word) : K.Keeps (K.layerNorm eps row) := by
  unfold K.layerNorm
  repeat' first
    | with_reducible exact K.keeps_pure _
    | with_reducible apply K.free_keeps
    | with_reducible apply K.near_keeps
    | with_reducible refine K.keeps_bind ?_ fun _ => ?_
    | with_reducible refine K.keeps_mapM (fun _ => ?_) _
    | split
    | dsimp only
theorem K.vecEntry_keeps (j : Nat) (v : VEntry) : K.Keeps (K.vecEntry j v) := by
  unfold K.vecEntry
  repeat' first
    | with_reducible exact K.keeps_pure _
    | with_reducible apply K.free_keeps
    | with_reducible apply K.readInk_keeps
    | with_reducible apply K.writeInk_keeps
    | with_reducible apply K.func_keeps
    | with_reducible apply K.layerNorm_keeps
    | with_reducible refine K.keeps_bind ?_ fun _ => ?_
    | with_reducible refine K.keeps_mapM (fun _ => ?_) _
    | split
    | dsimp only
theorem K.vector_keeps (parm : List Byte) (cores : Nat) : K.Keeps (K.vector parm cores) := by
  unfold K.vector
  repeat' first
    | with_reducible exact K.keeps_pure _
    | with_reducible apply K.vecEntry_keeps
    | with_reducible refine K.keeps_bind ?_ fun _ => ?_
    | with_reducible refine K.keeps_forIn (fun _ _ => ?_) _ _
    | ((with_reducible refine K.mod_keeps ?_); intro c; first
        | exact .of rfl rfl rfl rfl)
    | split
    | dsimp only
theorem K.readBlock_keeps (j fmt k kb cin row : Nat) : K.Keeps (K.readBlock j fmt k kb cin row) := by
  unfold K.readBlock
  repeat' first
    | with_reducible exact K.keeps_pure _
    | with_reducible apply K.readInk_keeps
    | with_reducible refine K.keeps_bind ?_ fun _ => ?_
    | split
    | dsimp only
theorem K.startChunks_keeps (n : Nat) (qs : List (List Nat)) (l : List (Nat × Nat)) : K.Keeps (K.startChunks n qs l) := by
  induction n generalizing qs l with
  | zero =>
    unfold K.startChunks
    repeat' first
      | with_reducible exact K.keeps_pure _
      | with_reducible apply K.free_keeps
      | with_reducible refine K.keeps_bind ?_ fun _ => ?_
      | split
      | dsimp only
  | succ n ih =>
    unfold K.startChunks
    repeat' first
      | with_reducible exact K.keeps_pure _
      | with_reducible apply ih
      | with_reducible apply K.free_keeps
      | with_reducible refine K.keeps_bind ?_ fun _ => ?_
      | split
      | dsimp only
theorem K.deal_keeps (arrays q : Nat) : K.Keeps (K.deal arrays q) := by
  unfold K.deal
  repeat' first
    | with_reducible exact K.keeps_pure _
    | with_reducible apply K.startChunks_keeps
    | with_reducible refine K.keeps_bind ?_ fun _ => ?_
    | split
    | dsimp only
theorem K.inChunks_keeps {α σ : Type} (total : Nat) (items : List (Nat × α)) (f : Nat → α → σ → K σ) (s : σ) (hf : ∀ a x s, K.Keeps (f a x s)) : K.Keeps (K.inChunks total items f s) := by
  unfold K.inChunks
  repeat' first
    | with_reducible exact K.keeps_pure _
    | with_reducible exact K.keeps_get
    | with_reducible apply hf
    | with_reducible apply K.deal_keeps
    | with_reducible refine K.keeps_bind ?_ fun _ => ?_
    | with_reducible refine K.keeps_foldlM (fun _ _ => ?_) _ _
    | split
    | dsimp only
theorem K.partRead_keeps (j : Nat) (p : RulingPart) (off n : Nat) : K.Keeps (K.partRead j p off n) := by
  unfold K.partRead
  repeat' first
    | with_reducible exact K.keeps_pure _
    | with_reducible apply K.readInk_keeps
    | with_reducible apply K.spillWithin_keeps
    | with_reducible exact K.cutRead_keeps (fun _ => K.readHbm_keeps _ _) _ _ _
    | with_reducible refine K.keeps_bind ?_ fun _ => ?_
    | split
    | dsimp only
theorem K.bisect_keeps (j : Nat) (p : RulingPart) (base cell n lo hi : Nat) : K.Keeps (K.bisect j p base cell n lo hi) := by
  induction n generalizing lo hi with
  | zero => exact K.keeps_pure _
  | succ n ih =>
    unfold K.bisect
    repeat' first
      | with_reducible exact K.keeps_pure _
      | with_reducible apply ih
      | with_reducible apply K.partRead_keeps
      | with_reducible refine K.keeps_bind ?_ fun _ => ?_
      | split
      | dsimp only
theorem K.pairRead_keeps (j : Nat) (p : RulingPart) (off n : Nat) : K.Keeps (K.pairRead j p off n) := by
  unfold K.pairRead
  repeat' first
    | with_reducible exact K.keeps_pure _
    | with_reducible apply K.partRead_keeps
    | with_reducible refine K.keeps_bind ?_ fun _ => ?_
theorem K.sparseSlice_keeps (j : Nat) (p : RulingPart) (s : RulShape) (h : SparseHdr) (w : SpWin) (tap : Nat) : K.Keeps (K.sparseSlice j p s h w tap) := by
  unfold K.sparseSlice
  repeat' first
    | with_reducible exact K.keeps_pure _
    | with_reducible apply K.bisect_keeps
    | with_reducible apply K.pairRead_keeps
    | with_reducible apply K.partRead_keeps
    | with_reducible refine K.keeps_bind ?_ fun _ => ?_
    | split
    | dsimp only
theorem K.zeroSweep_keeps (j : Nat) (o : Out) (rows : List (Nat × Nat)) : K.Keeps (K.zeroSweep j o rows) := by
  unfold K.zeroSweep
  repeat' first
    | with_reducible exact K.keeps_pure _
    | with_reducible apply K.writeInk_keeps
    | with_reducible refine K.keeps_bind ?_ fun _ => ?_
    | with_reducible refine K.keeps_forIn (fun _ _ => ?_) _ _
    | ((with_reducible refine K.mod_keeps ?_); intro c; first
        | exact .of rfl rfl rfl rfl
        | exact .modCore (by exact fun _ h => h) _ _
        | exact .modCore (by exact fun _ h => Cells.wf_write h _ _) _ _
        | exact .storeHbm _ _ _ _
        | exact .invalidate _ _ _ _
        | (split <;> exact .of rfl rfl rfl rfl))
    | split
    | dsimp only
theorem K.passQueue_keeps {α : Type} (i total : Nat) (items : List (Nat × α)) : K.Keeps (K.passQueue i total items) := by
  unfold K.passQueue
  repeat' first
    | with_reducible exact K.keeps_pure _
    | with_reducible exact K.keeps_get
    | with_reducible apply K.deal_keeps
    | with_reducible refine K.keeps_bind ?_ fun _ => ?_
theorem K.slotGo_keeps {α σ : Type} {load : Nat → σ → K σ} {item : Nat → Nat → α → σ → K σ} (hl : ∀ i s, K.Keeps (load i s))
    (hi : ∀ i a x s, K.Keeps (item i a x s)) (n : Nat) (qs : List (SlotQueue α)) (nl : Nat) (s : σ) : K.Keeps (K.slotGo load item n qs nl s) := by
  induction n generalizing qs nl s with
  | zero => unfold K.slotGo; exact K.keeps_pure _
  | succ n ih =>
    unfold K.slotGo
    repeat' first
      | with_reducible exact K.keeps_pure _
      | with_reducible apply ih
      | with_reducible apply hl
      | with_reducible apply hi
      | with_reducible apply K.free_keeps
      | with_reducible refine K.keeps_bind ?_ fun _ => ?_
      | split
      | dsimp only
theorem K.runSlots_keeps {α σ : Type} {load : Nat → σ → K σ} {item : Nat → Nat → α → σ → K σ} (hl : ∀ i s, K.Keeps (load i s))
    (hi : ∀ i a x s, K.Keeps (item i a x s)) (ps : List (Nat × SlotQueue α)) (s : σ) : K.Keeps (K.runSlots load item ps s) :=
  K.slotGo_keeps hl hi _ _ _ _
theorem K.sparseLoad_keeps (j : Nat) (h : ArrayHdr) (sh : SparseHdr) (p : CPass) (st : SpSt) : K.Keeps (K.sparseLoad j h sh p st) := by
  unfold K.sparseLoad
  repeat' first
    | with_reducible exact K.keeps_pure _
    | with_reducible apply K.drainSome_keeps
    | with_reducible apply K.readTile_keeps
    | with_reducible refine K.keeps_bind ?_ fun _ => ?_
    | split
    | dsimp only
theorem K.sparsePair_keeps (j : Nat) (h : ArrayHdr) (sh : SparseHdr) (w : SpWin) (pass : Nat) (p : CPass) (a : Nat) (x : Nat × Nat × Nat) (st : SpSt) : K.Keeps (K.sparsePair j h sh w pass p a x st) := by
  unfold K.sparsePair
  repeat' first
    | with_reducible exact K.keeps_pure _
    | with_reducible apply K.drainSome_keeps
    | with_reducible apply K.readBlock_keeps
    | with_reducible refine K.keeps_bind ?_ fun _ => ?_
    | split
    | dsimp only
theorem K.sparseStreams_keeps (j : Nat) (part : RulingPart) (s : RulShape) (sh : SparseHdr) (w : SpWin) (ps : List (CPass × Nat)) : K.Keeps (K.sparseStreams j part s sh w ps) := by
  unfold K.sparseStreams
  repeat' first
    | with_reducible exact K.keeps_pure _
    | with_reducible apply K.sparseSlice_keeps
    | with_reducible apply K.passQueue_keeps
    | with_reducible refine K.keeps_bind ?_ fun _ => ?_
    | with_reducible refine K.keeps_foldlM (fun _ _ => ?_) _ _
    | split
    | dsimp only
theorem K.sparseCore_keeps (parm : List Byte) (j n idx : Nat) : K.Keeps (K.sparseCore parm j n idx) := by
  unfold K.sparseCore
  repeat' first
    | with_reducible exact K.keeps_pure _
    | with_reducible apply K.chan_keeps
    | with_reducible apply K.bump_keeps
    | with_reducible apply K.writeInk_keeps
    | with_reducible apply K.overflow_keeps
    | with_reducible apply K.drainAll_keeps
    | with_reducible apply K.sparseStreams_keeps
    | with_reducible apply K.zeroSweep_keeps
    | with_reducible refine K.runSlots_keeps (fun _ _ => K.sparseLoad_keeps ..) (fun _ _ _ _ => K.sparsePair_keeps ..) _ _
    | with_reducible refine K.keeps_bind ?_ fun _ => ?_
    | with_reducible refine K.keeps_forIn (fun _ _ => ?_) _ _
    | ((with_reducible refine K.mod_keeps ?_); intro c; first
        | exact .of rfl rfl rfl rfl)
    | split
    | dsimp only
theorem K.sparse_keeps (parm : List Byte) (cores : Nat) : K.Keeps (K.sparse parm cores) := by
  unfold K.sparse
  repeat' first
    | with_reducible exact K.keeps_pure _
    | with_reducible apply K.arrayEvents_keeps
    | with_reducible apply K.sparseCore_keeps
    | with_reducible refine K.keeps_bind ?_ fun _ => ?_
    | with_reducible refine K.keeps_forIn (fun _ _ => ?_) _ _
    | split
    | dsimp only
theorem K.denseLoad_keeps (j : Nat) (h : ArrayHdr) (d : DenseHdr) (p : CPass) (st : DnSt) : K.Keeps (K.denseLoad j h d p st) := by
  unfold K.denseLoad
  repeat' first
    | with_reducible exact K.keeps_pure _
    | with_reducible apply K.drainSome_keeps
    | with_reducible apply K.readTile_keeps
    | with_reducible refine K.keeps_bind ?_ fun _ => ?_
    | split
    | dsimp only
theorem K.densePixel_keeps (j : Nat) (h : ArrayHdr) (d : DenseHdr) (pass : Nat) (p : CPass) (a : Nat) (x : (Nat × Nat) × Nat × Nat) (st : DnSt) : K.Keeps (K.densePixel j h d pass p a x st) := by
  unfold K.densePixel
  repeat' first
    | with_reducible exact K.keeps_pure _
    | with_reducible apply K.drainSome_keeps
    | with_reducible apply K.readBlock_keeps
    | with_reducible refine K.keeps_bind ?_ fun _ => ?_
    | split
    | dsimp only
theorem K.denseCore_keeps (parm : List Byte) (j : Nat) : K.Keeps (K.denseCore parm j) := by
  unfold K.denseCore
  repeat' first
    | with_reducible exact K.keeps_pure _
    | with_reducible apply K.bump_keeps
    | with_reducible apply K.passQueue_keeps
    | with_reducible apply K.drainAll_keeps
    | with_reducible refine K.runSlots_keeps (fun _ _ => K.denseLoad_keeps ..) (fun _ _ _ _ => K.densePixel_keeps ..) _ _
    | with_reducible apply K.zeroSweep_keeps
    | with_reducible refine K.keeps_bind ?_ fun _ => ?_
    | with_reducible refine K.keeps_foldlM (fun _ _ => ?_) _ _
    | split
    | dsimp only
theorem K.resamplePixel_keeps (j fmt : Nat) (d : DenseHdr) (y x : Nat) : K.Keeps (K.resamplePixel j fmt d y x) := by
  unfold K.resamplePixel
  repeat' first
    | with_reducible exact K.keeps_pure _
    | with_reducible apply K.readInk_keeps
    | with_reducible refine K.keeps_bind ?_ fun _ => ?_
    | with_reducible refine K.keeps_mapM (fun _ => ?_) _
    | split
    | dsimp only
theorem K.liftStream_keeps (j fmt cin : Nat) (n a : Nat) (acc : List (Nat × Nat × List Word)) : K.Keeps (K.liftStream j fmt cin n a acc) := by
  induction n generalizing a acc with
  | zero =>
    unfold K.liftStream
    repeat' first
      | with_reducible exact K.keeps_pure _
      | with_reducible apply K.readInk_keeps
      | with_reducible refine K.keeps_bind ?_ fun _ => ?_
      | with_reducible refine K.keeps_mapM (fun _ => ?_) _
      | split
      | dsimp only
  | succ n ih =>
    unfold K.liftStream
    repeat' first
      | with_reducible exact K.keeps_pure _
      | with_reducible apply ih
      | with_reducible apply K.readInk_keeps
      | with_reducible refine K.keeps_bind ?_ fun _ => ?_
      | with_reducible refine K.keeps_mapM (fun _ => ?_) _
      | split
      | dsimp only
theorem K.resampleCore_keeps (parm : List Byte) (j : Nat) : K.Keeps (K.resampleCore parm j) := by
  unfold K.resampleCore
  repeat' first
    | with_reducible exact K.keeps_pure _
    | intro _ _ _
    | with_reducible apply K.readInk_keeps
    | with_reducible apply K.writeInk_keeps
    | with_reducible apply K.drainAll_keeps
    | with_reducible apply K.drainSome_keeps
    | with_reducible apply K.inChunks_keeps
    | with_reducible apply K.zeroSweep_keeps
    | with_reducible apply K.resamplePixel_keeps
    | with_reducible apply K.liftStream_keeps
    | with_reducible refine K.keeps_bind ?_ fun _ => ?_
    | with_reducible refine K.keeps_forIn (fun _ _ => ?_) _ _
    | split
    | dsimp only
theorem K.denseLike_keeps (parm : List Byte) (cores : Nat) : K.Keeps (K.denseLike parm cores) := by
  unfold K.denseLike
  repeat' first
    | with_reducible exact K.keeps_pure _
    | with_reducible apply K.arrayEvents_keeps
    | with_reducible apply K.denseCore_keeps
    | with_reducible apply K.resampleCore_keeps
    | with_reducible refine K.keeps_bind ?_ fun _ => ?_
    | with_reducible refine K.keeps_forIn (fun _ _ => ?_) _ _
    | split
    | dsimp only
theorem K.array_keeps (parm : List Byte) (cores : Nat) : K.Keeps (K.array parm cores) := by
  unfold K.array
  repeat' first
    | with_reducible exact K.keeps_pure _
    | with_reducible apply K.matmul_keeps
    | with_reducible apply K.sparse_keeps
    | with_reducible apply K.denseLike_keeps
    | with_reducible refine K.keeps_bind ?_ fun _ => ?_
    | split
    | dsimp only
theorem K.gatherTo_keeps (base j a n dst len : Nat) (ahead : List Nat) : K.Keeps (K.gatherTo base j a n dst len ahead) := by
  unfold K.gatherTo
  repeat' first
    | with_reducible exact K.keeps_pure _
    | with_reducible apply K.poisonInk_keeps
    | with_reducible apply K.nibStoreInk_keeps
    | with_reducible apply K.gatherHbm_keeps
    | with_reducible apply K.heldWithin_keeps
    | with_reducible refine K.keeps_bind ?_ fun _ => ?_
    | with_reducible refine K.keeps_forM (fun _ => ?_) _
    | split
    | dsimp only
theorem K.gatherRows_keeps (base j : Nat) (l : List (Nat × Nat × Nat × Nat)) : K.Keeps (K.gatherRows base j l) := by
  induction l with
  | nil =>
    unfold K.gatherRows
    repeat' first
      | with_reducible exact K.keeps_pure _
      | with_reducible apply K.gatherTo_keeps
      | with_reducible refine K.keeps_bind ?_ fun _ => ?_
      | split
      | dsimp only
  | cons _ _ ih =>
    unfold K.gatherRows
    repeat' first
      | with_reducible exact K.keeps_pure _
      | with_reducible apply ih
      | with_reducible apply K.gatherTo_keeps
      | with_reducible refine K.keeps_bind ?_ fun _ => ?_
      | split
      | dsimp only
theorem K.gatherRuling_keeps (g : GatherArgs) (target : Stroke) (j : Nat) : K.Keeps (K.gatherRuling g target j) := by
  unfold K.gatherRuling
  repeat' first
    | with_reducible exact K.keeps_pure _
    | with_reducible apply K.chan_keeps
    | with_reducible apply K.sparseSlice_keeps
    | with_reducible apply K.gatherRows_keeps
    | with_reducible refine K.keeps_bind ?_ fun _ => ?_
    | with_reducible refine K.keeps_foldlM (fun _ _ => ?_) _ _
    | split
    | dsimp only
theorem K.gatherLift_keeps (g : GatherArgs) (j : Nat) : K.Keeps (K.gatherLift g j) := by
  unfold K.gatherLift
  repeat' first
    | with_reducible exact K.keeps_pure _
    | with_reducible exact K.keeps_get
    | with_reducible apply K.chan_keeps
    | with_reducible apply K.nibStoreInk_keeps
    | with_reducible apply K.gatherHbm_keeps
    | with_reducible apply K.gatherTo_keeps
    | with_reducible refine K.keeps_bind ?_ fun _ => ?_
    | with_reducible refine K.keeps_forIn (fun _ _ => ?_) _ _
    | split
    | dsimp only
theorem K.gatherAddr_keeps (parm : List Byte) (cores : List Nat) : K.Keeps (K.gatherAddr parm cores) := by
  unfold K.gatherAddr
  repeat' first
    | with_reducible exact K.keeps_pure _
    | with_reducible apply K.chan_keeps
    | with_reducible apply K.act_keeps
    | with_reducible apply K.gatherRuling_keeps
    | with_reducible apply K.gatherLift_keeps
    | with_reducible refine K.keeps_bind ?_ fun _ => ?_
    | with_reducible refine K.keeps_forIn (fun _ _ => ?_) _ _
    | split
    | dsimp only
theorem K.pick_keeps (mem a n : Nat) : K.Keeps (K.pick mem a n) := by
  unfold K.pick
  repeat' first
    | with_reducible exact K.keeps_pure _
    | with_reducible apply K.bump_keeps
    | with_reducible apply K.readInkP_keeps
    | with_reducible apply K.readHbmP_keeps
    | with_reducible refine K.keeps_bind ?_ fun _ => ?_
    | split
    | dsimp only
theorem K.put_keeps (mem a : Nat) (bs : List Byte) (bad : Bool) : K.Keeps (K.put mem a bs bad) := by
  unfold K.put
  repeat' first
    | with_reducible exact K.keeps_pure _
    | with_reducible exact K.keeps_get
    | with_reducible apply K.writeInk_keeps
    | with_reducible apply K.poisonInk_keeps
    | with_reducible apply K.poisonHbm_keeps
    | with_reducible apply K.writeHbm_keeps
    | with_reducible apply K.writeInkP_keeps
    | with_reducible apply K.writeHbmP_keeps
    | with_reducible refine K.keeps_bind ?_ fun _ => ?_
    | split
    | dsimp only
theorem K.moveGranule_keeps (smem sa dmem da n : Nat) : K.Keeps (K.moveGranule smem sa dmem da n) := by
  unfold K.moveGranule
  repeat' first
    | with_reducible exact K.keeps_pure _
    | with_reducible apply K.pick_keeps
    | with_reducible apply K.put_keeps
    | with_reducible refine K.keeps_bind ?_ fun _ => ?_
    | split
    | dsimp only
theorem K.gatherRow_keeps (a n : Nat) : K.Keeps (K.gatherRow a n) := by
  unfold K.gatherRow
  repeat' first
    | with_reducible exact K.keeps_pure _
    | with_reducible apply K.pick_keeps
    | with_reducible refine K.keeps_bind ?_ fun _ => ?_
    | with_reducible refine K.keeps_foldlM (fun _ _ => ?_) _ _
    | split
    | dsimp only
theorem K.imageBlanks_keeps (region : Nat) (bs : List Byte) : K.Keeps (K.imageBlanks region bs) := by
  unfold K.imageBlanks
  repeat' first
    | with_reducible exact K.keeps_pure _
    | with_reducible apply K.chan_keeps
    | with_reducible apply K.blankPacket_keeps
    | with_reducible apply K.blankPixel_keeps
    | with_reducible apply K.blankEnd_keeps
    | with_reducible refine K.keeps_bind ?_ fun _ => ?_
    | with_reducible refine K.keeps_forIn (fun _ _ => ?_) _ _
    | ((with_reducible refine K.mod_keeps ?_); intro c; first
        | exact .of rfl rfl rfl rfl)
    | split
    | dsimp only
theorem K.parallel_keeps (n : Nat) (ls : List (List (K Unit))) (h : ∀ l ∈ ls, ∀ t ∈ l, K.Keeps t) : K.Keeps (K.parallel n ls) := by
  induction n generalizing ls with
  | zero => exact K.keeps_pure _
  | succ n ih =>
    unfold K.parallel
    have hf : ∀ l ∈ ls.filter (fun l => !l.isEmpty), ∀ t ∈ l, K.Keeps t := fun l hl => h l (List.mem_filter.mp hl).1
    split
    · exact K.keeps_pure _
    · rename_i l hl
      rw [hl] at hf
      exact K.keeps_forM_mem fun t ht => hf l (by simp) t ht
    · refine K.keeps_bind K.free_keeps fun x => ?_
      dsimp only
      split
      · rename_i t ts ht
        have hm := hf _ (List.mem_of_getElem? ht)
        refine K.keeps_bind (hm t (by simp)) fun _ => ih _ fun l hl u hu => ?_
        obtain ⟨i, hi⟩ := List.mem_iff_getElem?.mp hl
        rw [List.getElem?_modify] at hi
        obtain ⟨l', hl', rfl⟩ := Option.map_eq_some_iff.mp hi
        have hu' : u ∈ l' := by
          split at hu
          · exact List.mem_of_mem_drop hu
          · exact hu
        exact hf l' (List.mem_of_getElem? hl') u hu'
      · exact K.keeps_pure _
theorem rowTasks_keeps (region smem sa dmem da n k : Nat) : ∀ t ∈ rowTasks region smem sa dmem da n k, K.Keeps t := by
  intro t ht
  simp only [rowTasks, List.mem_append, List.mem_map] at ht
  rcases ht with ht | ⟨i, _, rfl⟩
  · split at ht
    · obtain rfl := List.mem_singleton.mp ht
      exact K.regionCut_keeps _
    · cases ht
  · split
    · exact K.moveGranule_keeps _ _ _ _ _
    · split
      · exact K.poisonInk_keeps _ _
      · exact K.keeps_pure _
theorem hairTasks_keeps (src target n a d left : Nat) : ∀ t ∈ hairTasks src target n a d left, K.Keeps t := by
  induction n generalizing a d left with
  | zero => intro t ht; cases ht
  | succ n ih =>
    intro t ht
    rw [hairTasks] at ht
    split at ht
    · cases ht
    · rcases List.mem_cons.mp ht with rfl | ht
      · refine K.keeps_bind (K.gatherRow_keeps _ _) fun _ => ?_
        split
        refine K.keeps_bind K.keeps_get fun _ => K.keeps_bind (K.permit_keeps _ _ _) fun _ => ?_
        split
        · exact K.mod_keeps fun _ => .of rfl rfl rfl rfl
        · exact K.keeps_pure _
      · exact ih _ _ _ t ht
theorem XDesc.tasks_keeps (m : Ch) (c : Channel) (x : XDesc) : ∀ t ∈ x.tasks m c, K.Keeps t := by
  intro t ht
  unfold XDesc.tasks at ht
  dsimp only at ht
  split at ht
  · obtain ⟨i, _, h⟩ := List.mem_flatMap.mp ht; exact rowTasks_keeps _ _ _ _ _ _ _ t h
  · obtain ⟨i, _, h⟩ := List.mem_flatMap.mp ht; exact rowTasks_keeps _ _ _ _ _ _ _ t h
  · obtain ⟨i, _, h⟩ := List.mem_flatMap.mp ht; exact rowTasks_keeps _ _ _ _ _ _ _ t h
  · obtain ⟨i, _, h⟩ := List.mem_flatMap.mp ht; exact rowTasks_keeps _ _ _ _ _ _ _ t h
  · split at ht
    · obtain ⟨i, _, h⟩ := List.mem_flatMap.mp ht
      rcases List.mem_append.mp h with h | h
      · split at h
        · obtain rfl := List.mem_singleton.mp h
          exact K.regionCut_keeps _
        · cases h
      · exact hairTasks_keeps _ _ _ _ _ _ t h
    · obtain rfl := List.mem_singleton.mp ht
      exact K.keeps_bind K.keeps_get fun _ => K.modify_keeps fun _ => ⟨rfl, rfl, rfl⟩
  · split at ht
    · cases ht
    · rcases List.mem_append.mp ht with h | h
      · exact rowTasks_keeps _ _ _ _ _ _ _ t h
      · obtain rfl := List.mem_singleton.mp h
        exact K.keeps_bind K.chan_keeps fun _ => K.imageBlanks_keeps _ _
theorem K.transfer_keeps (parm : List Byte) (cores : Nat) : K.Keeps (K.transfer parm cores) := by
  unfold K.transfer
  refine K.keeps_bind K.keeps_get fun s => K.parallel_keeps _ _ fun l hl t ht => ?_
  obtain ⟨j, _, rfl⟩ := List.mem_map.mp hl
  obtain ⟨u, hu, rfl⟩ := List.mem_map.mp ht
  obtain ⟨x, _, hx⟩ := List.mem_flatMap.mp hu
  exact K.keeps_bind (K.act_keeps _) fun _ => x.tasks_keeps _ _ u hx
theorem K.selRead_keeps (ink : Bool) (j a n : Nat) : K.Keeps (K.selRead ink j a n) := by
  unfold K.selRead
  repeat' first
    | with_reducible exact K.keeps_pure _
    | with_reducible apply K.readInk_keeps
    | with_reducible apply K.readHbm_keeps
    | with_reducible refine K.keeps_bind ?_ fun _ => ?_
    | split
    | dsimp only
theorem K.selWrite_keeps (ink : Bool) (j a : Nat) (bs : List Byte) : K.Keeps (K.selWrite ink j a bs) := by
  unfold K.selWrite
  repeat' first
    | with_reducible exact K.keeps_pure _
    | with_reducible apply K.writeInk_keeps
    | with_reducible apply K.writeHbm_keeps
    | with_reducible refine K.keeps_bind ?_ fun _ => ?_
    | split
    | dsimp only
theorem K.countWord_keeps (ink : Bool) (j cnt nmax : Nat) : K.Keeps (K.countWord ink j cnt nmax) := by
  unfold K.countWord
  repeat' first
    | with_reducible exact K.keeps_pure _
    | with_reducible exact K.keeps_get
    | with_reducible apply K.err_keeps
    | with_reducible apply K.overflow_keeps
    | with_reducible apply K.selRead_keeps
    | with_reducible refine K.keeps_bind ?_ fun _ => ?_
    | ((with_reducible refine K.mod_keeps ?_); intro c; first
        | exact .of rfl rfl rfl rfl)
    | split
    | dsimp only
theorem K.countOf_keeps (cntsrc ink : Bool) (j cnt nmax : Nat) : K.Keeps (K.countOf cntsrc ink j cnt nmax) := by
  unfold K.countOf
  repeat' first
    | with_reducible exact K.keeps_pure _
    | with_reducible apply K.countWord_keeps
    | with_reducible refine K.keeps_bind ?_ fun _ => ?_
    | split
    | dsimp only
theorem K.sortRead_keeps (o : SortOp) (cores : List Nat) (a n : Nat) : K.Keeps (K.sortRead o cores a n) := by
  unfold K.sortRead
  repeat' first
    | with_reducible exact K.keeps_pure _
    | with_reducible apply K.act_keeps
    | with_reducible apply K.selRead_keeps
    | with_reducible refine K.keeps_bind ?_ fun _ => ?_
    | with_reducible refine K.keeps_foldlM (fun _ _ => ?_) _ _
    | split
    | dsimp only
theorem K.scatter_keeps (o : SortOp) (cores : List Nat) (a n : Nat) (l : List (List Byte × Nat)) : K.Keeps (K.scatter o cores a n l) := by
  unfold K.scatter
  repeat' first
    | with_reducible exact K.keeps_pure _
    | with_reducible apply K.act_keeps
    | with_reducible apply K.selWrite_keeps
    | with_reducible refine K.keeps_bind ?_ fun _ => ?_
    | with_reducible refine K.keeps_forM (fun _ => ?_) _
    | split
    | dsimp only
theorem K.sortFrom_keeps (o : SortOp) (cores : List Nat) (n : Nat) (k i a : Nat) : K.Keeps (K.sortFrom o cores n k i a) := by
  induction k generalizing i a with
  | zero =>
    unfold K.sortFrom
    repeat' first
      | with_reducible exact K.keeps_pure _
      | with_reducible apply K.scatter_keeps
      | with_reducible apply K.sortRead_keeps
      | with_reducible refine K.keeps_bind ?_ fun _ => ?_
      | split
      | dsimp only
  | succ k ih =>
    unfold K.sortFrom
    repeat' first
      | with_reducible exact K.keeps_pure _
      | with_reducible apply ih
      | with_reducible apply K.scatter_keeps
      | with_reducible apply K.sortRead_keeps
      | with_reducible refine K.keeps_bind ?_ fun _ => ?_
      | split
      | dsimp only
theorem K.sort_keeps (b : List Byte) (cores : List Nat) (n : Nat) : K.Keeps (K.sort b cores n) := by
  unfold K.sort
  repeat' first
    | with_reducible exact K.keeps_pure _
    | with_reducible apply K.sortFrom_keeps
    | with_reducible refine K.keeps_bind ?_ fun _ => ?_
    | split
    | dsimp only
theorem K.pickTop_keeps (k : Nat) (valid : List SelEntry) : K.Keeps (K.pickTop k valid) := by
  unfold K.pickTop
  repeat' first
    | with_reducible exact K.keeps_pure _
    | with_reducible apply K.shuffle_keeps
    | with_reducible refine K.keeps_bind ?_ fun _ => ?_
    | split
    | dsimp only
theorem K.tieSeen_keeps (tie : Bool) : K.Keeps (K.tieSeen tie) := by
  unfold K.tieSeen
  repeat' first
    | with_reducible exact K.keeps_pure _
    | with_reducible refine K.keeps_bind ?_ fun _ => ?_
    | ((with_reducible refine K.mod_keeps ?_); intro c; first
        | exact .of rfl rfl rfl rfl)
    | split
    | dsimp only
theorem K.topk_keeps (b : List Byte) (n : Nat) (clamp : Bool) : K.Keeps (K.topk b n clamp) := by
  unfold K.topk
  repeat' first
    | with_reducible exact K.keeps_pure _
    | with_reducible apply K.readInk_keeps
    | with_reducible apply K.writeInk_keeps
    | with_reducible apply K.pickTop_keeps
    | with_reducible apply K.tieSeen_keeps
    | with_reducible refine K.keeps_bind ?_ fun _ => ?_
    | split
    | dsimp only
theorem K.merge_keeps (b : List Byte) (earlier : List (List Byte)) : K.Keeps (K.merge b earlier) := by
  unfold K.merge
  repeat' first
    | with_reducible exact K.keeps_pure _
    | with_reducible exact K.keeps_get
    | with_reducible apply K.readInk_keeps
    | with_reducible apply K.writeInk_keeps
    | with_reducible apply K.tieSeen_keeps
    | with_reducible refine K.keeps_bind ?_ fun _ => ?_
    | with_reducible refine K.keeps_mapM (fun _ => ?_) _
    | split
    | dsimp only
theorem K.supWalk_keeps (o : SupOp) (l : List SelEntry) (st : SupSt) : K.Keeps (K.supWalk o l st) := by
  induction l generalizing st with
  | nil =>
    unfold K.supWalk
    repeat' first
      | with_reducible exact K.keeps_pure _
      | with_reducible apply K.readInk_keeps
      | with_reducible refine K.keeps_bind ?_ fun _ => ?_
      | split
      | dsimp only
  | cons _ _ ih =>
    unfold K.supWalk
    repeat' first
      | with_reducible exact K.keeps_pure _
      | with_reducible apply ih
      | with_reducible apply K.readInk_keeps
      | with_reducible refine K.keeps_bind ?_ fun _ => ?_
      | split
      | dsimp only
theorem K.suppress_keeps (b : List Byte) : K.Keeps (K.suppress b) := by
  unfold K.suppress
  repeat' first
    | with_reducible exact K.keeps_pure _
    | with_reducible exact K.keeps_get
    | with_reducible apply K.err_keeps
    | with_reducible apply K.bump_keeps
    | with_reducible apply K.readInk_keeps
    | with_reducible apply K.writeInk_keeps
    | with_reducible apply K.supWalk_keeps
    | with_reducible refine K.keeps_bind ?_ fun _ => ?_
    | ((with_reducible refine K.mod_keeps ?_); intro c; first
        | exact .of rfl rfl rfl rfl)
    | split
    | dsimp only
theorem K.entryCount_keeps (b : List Byte) (cores : List Nat) : K.Keeps (K.entryCount b cores) := by
  unfold K.entryCount
  repeat' first
    | with_reducible exact K.keeps_pure _
    | with_reducible apply K.countOf_keeps
    | with_reducible refine K.keeps_bind ?_ fun _ => ?_
    | split
    | dsimp only
theorem K.select_keeps (parm : List Byte) (cores : List Nat) : K.Keeps (K.select parm cores) := by
  unfold K.select
  repeat' first
    | with_reducible exact K.keeps_pure _
    | with_reducible apply K.act_keeps
    | with_reducible apply K.sort_keeps
    | with_reducible apply K.topk_keeps
    | with_reducible apply K.merge_keeps
    | with_reducible apply K.suppress_keeps
    | with_reducible apply K.entryCount_keeps
    | with_reducible refine K.keeps_bind ?_ fun _ => ?_
    | with_reducible refine K.keeps_forM (fun _ => ?_) _
    | with_reducible refine K.keeps_mapM (fun _ => ?_) _
    | split
    | dsimp only
theorem K.queryKeys_keeps (own : Nat → Nat) (f : Front) (a : MapArgs) : K.Keeps (K.queryKeys own f a) := by
  unfold K.queryKeys
  repeat' first
    | with_reducible exact K.keeps_pure _
    | with_reducible apply K.chan_keeps
    | with_reducible apply K.readKeys_keeps
    | with_reducible refine K.keeps_bind ?_ fun _ => ?_
    | split
    | dsimp only
theorem K.mapHash_keeps (cores : List Nat) (f : Front) (t : MapTable) (a : MapArgs) : K.Keeps (K.mapHash cores f t a) := by
  unfold K.mapHash
  repeat' first
    | with_reducible exact K.keeps_pure _
    | with_reducible apply K.owners_keeps
    | with_reducible apply K.putLines_keeps
    | with_reducible apply K.queryKeys_keeps
    | with_reducible refine K.keeps_bind ?_ fun _ => ?_
    | with_reducible refine K.keeps_forIn (fun _ _ => ?_) _ _
    | split
    | dsimp only
theorem K.readPairs_keeps (own : Nat → Nat) (n : Nat) (a : MapArgs) : K.Keeps (K.readPairs own n a) := by
  unfold K.readPairs
  repeat' first
    | with_reducible exact K.keeps_pure _
    | with_reducible exact K.heldRead_keeps (fun _ => K.readLines_keeps _ _ _) _ _ _
    | with_reducible refine K.keeps_bind ?_ fun _ => ?_
    | split
    | dsimp only
theorem K.mapUnique_keeps (cores : List Nat) (a : MapArgs) : K.Keeps (K.mapUnique cores a) := by
  unfold K.mapUnique
  repeat' first
    | with_reducible exact K.keeps_pure _
    | with_reducible apply K.chan_keeps
    | with_reducible apply K.owners_keeps
    | with_reducible apply K.putLines_keeps
    | with_reducible apply K.writeLines_keeps
    | with_reducible apply K.readPairs_keeps
    | with_reducible apply K.heldTo_keeps
    | with_reducible refine K.keeps_bind ?_ fun _ => ?_
    | with_reducible refine K.keeps_forIn (fun _ _ => ?_) _ _
    | split
    | dsimp only
theorem K.rowRead_keeps (region j a n : Nat) (ahead : List Nat) : K.Keeps (K.rowRead region j a n ahead) := by
  unfold K.rowRead
  repeat' first
    | with_reducible exact K.keeps_pure _
    | with_reducible apply K.poisoned_keeps
    | with_reducible apply K.nibReadAhead_keeps
    | with_reducible apply K.within_keeps
    | with_reducible refine K.keeps_bind ?_ fun _ => ?_
    | split
    | dsimp only
theorem K.rowWrite_keeps (region j a : Nat) (bs : List Byte) : K.Keeps (K.rowWrite region j a bs) := by
  unfold K.rowWrite
  repeat' first
    | with_reducible exact K.keeps_pure _
    | with_reducible apply K.nibWriteHbm_keeps
    | with_reducible apply K.within_keeps
    | with_reducible refine K.keeps_bind ?_ fun _ => ?_
    | split
    | dsimp only
theorem K.fetchRow_keeps (t : MapTable) (x : Nat) (fo : Folio) (a : MapArgs) (row u : Nat) (ahead : List Nat) (j dir : Nat) : K.Keeps (K.fetchRow t x fo a row u ahead j dir) := by
  unfold K.fetchRow
  repeat' first
    | with_reducible exact K.keeps_pure _
    | with_reducible exact K.keeps_get
    | with_reducible apply K.chan_keeps
    | with_reducible apply K.err_keeps
    | with_reducible apply K.putHeld_keeps
    | with_reducible apply K.rowRead_keeps
    | with_reducible apply K.rowWrite_keeps
    | with_reducible refine K.keeps_bind ?_ fun _ => ?_
    | ((with_reducible refine K.mod_keeps ?_); intro c; first
        | exact .of rfl rfl rfl rfl
        | exact .trans (.trans (.bump _ _ _) (.stick _ _)) (.tailRequest _ _ _ _)
        | (split <;> exact .of rfl rfl rfl rfl)
        | with_reducible exact .feedTail _
        | with_reducible exact .tailRequest _ _ _ _)
    | split
    | dsimp only
theorem K.mapFetch_keeps (t : MapTable) (a : MapArgs) : K.Keeps (K.mapFetch t a) := by
  unfold K.mapFetch
  repeat' first
    | with_reducible exact K.keeps_pure _
    | with_reducible apply K.chan_keeps
    | with_reducible apply K.bump_keeps
    | with_reducible exact K.heldRead_keeps (fun _ => K.nibReadHbm_keeps _ _ _) _ _ _
    | with_reducible apply K.putHeld_keeps
    | with_reducible apply K.readPairs_keeps
    | with_reducible apply K.fetchRow_keeps
    | with_reducible refine K.keeps_bind ?_ fun _ => ?_
    | with_reducible refine K.keeps_forIn (fun _ _ => ?_) _ _
    | split
    | dsimp only
theorem K.featRead_keeps (a : MapArgs) (j u : Nat) : K.Keeps (K.featRead a j u) := by
  unfold K.featRead
  repeat' first
    | with_reducible exact K.keeps_pure _
    | with_reducible apply K.heldTo_keeps
    | with_reducible apply K.nibReadHbm_keeps
    | with_reducible apply K.poisoned_keeps
    | with_reducible refine K.keeps_bind ?_ fun _ => ?_
    | split
    | dsimp only
theorem K.mapBlend_keeps (f : Front) (t : MapTable) (a : MapArgs) : K.Keeps (K.mapBlend f t a) := by
  unfold K.mapBlend
  repeat' first
    | with_reducible exact K.keeps_pure _
    | with_reducible exact K.heldRead_keeps (fun _ => K.nibReadHbm_keeps _ _ _) _ _ _
    | with_reducible apply K.putHeld_keeps
    | with_reducible apply K.queryKeys_keeps
    | with_reducible apply K.featRead_keeps
    | with_reducible refine K.keeps_bind ?_ fun _ => ?_
    | with_reducible refine K.keeps_forIn (fun _ _ => ?_) _ _
    | with_reducible refine K.keeps_mapM (fun _ => ?_) _
    | split
    | dsimp only
theorem K.loseEntries_keeps (x k n : Nat) : K.Keeps (K.loseEntries x k n) := by
  unfold K.loseEntries
  repeat' first
    | with_reducible exact K.keeps_pure _
    | with_reducible exact K.keeps_get
    | with_reducible apply K.err_keeps
    | with_reducible refine K.keeps_bind ?_ fun _ => ?_
    | ((with_reducible refine K.mod_keeps ?_); intro c; first
        | exact .of rfl rfl rfl rfl)
    | split
    | dsimp only
theorem K.openStage_keeps (x folio : Nat) : K.Keeps (K.openStage x folio) := by
  unfold K.openStage
  repeat' first
    | with_reducible exact K.keeps_pure _
    | with_reducible exact K.keeps_get
    | with_reducible apply K.loseEntries_keeps
    | with_reducible refine K.keeps_bind ?_ fun _ => ?_
    | with_reducible refine K.keeps_forIn (fun _ _ => ?_) _ _
    | ((with_reducible refine K.mod_keeps ?_); intro c; first
        | exact .of rfl rfl rfl rfl
        | exact .modCore (by exact fun _ h => h) _ _
        | exact .modCore (by exact fun _ h => Cells.wf_write h _ _) _ _
        | exact .storeHbm _ _ _ _
        | exact .invalidate _ _ _ _
        | exact .trans (.formErr _) (.feedTail _)
        | (split <;> exact .of rfl rfl rfl rfl))
    | split
    | dsimp only
theorem K.trainRow_keeps (t : MapTable) (fo : Folio) (a : MapArgs) (qs : List QLevel) (row : Nat) (pays ahead : List Nat) : K.Keeps (K.trainRow t fo a qs row pays ahead) := by
  unfold K.trainRow
  repeat' first
    | with_reducible exact K.keeps_pure _
    | with_reducible exact K.keeps_get
    | with_reducible apply K.err_keeps
    | with_reducible apply K.bump_keeps
    | with_reducible apply K.nibReadHbm_keeps
    | with_reducible apply K.rowRead_keeps
    | with_reducible apply K.rowWrite_keeps
    | with_reducible apply K.heldTo_keeps
    | with_reducible apply K.poisoned_keeps
    | with_reducible refine K.keeps_bind ?_ fun _ => ?_
    | with_reducible refine K.keeps_forIn (fun _ _ => ?_) _ _
    | with_reducible refine K.keeps_mapM (fun _ => ?_) _
    | ((with_reducible refine K.mod_keeps ?_); intro c; first
        | exact .of rfl rfl rfl rfl
        | (split <;> exact .of rfl rfl rfl rfl)
        | with_reducible exact .feedTail _
        | with_reducible exact .tailRequest _ _ _ _)
    | split
    | dsimp only
theorem K.mapTrain_keeps (f : Front) (t : MapTable) (a : MapArgs) : K.Keeps (K.mapTrain f t a) := by
  unfold K.mapTrain
  repeat' first
    | with_reducible exact K.keeps_pure _
    | with_reducible apply K.chan_keeps
    | with_reducible apply K.queryKeys_keeps
    | with_reducible apply K.readPairs_keeps
    | with_reducible apply K.openStage_keeps
    | with_reducible apply K.trainRow_keeps
    | with_reducible refine K.keeps_mapM (fun _ => ?_) _
    | with_reducible refine K.keeps_bind ?_ fun _ => ?_
    | with_reducible refine K.keeps_forIn (fun _ _ => ?_) _ _
    | split
    | dsimp only
theorem K.mapRefresh_keeps (t : MapTable) (x : Nat) : K.Keeps (K.mapRefresh t x) := by
  unfold K.mapRefresh
  repeat' first
    | with_reducible exact K.keeps_pure _
    | with_reducible apply K.chan_keeps
    | with_reducible apply K.nibReadHbm_keeps
    | with_reducible apply K.nibWriteHbm_keeps
    | with_reducible apply K.rowWrite_keeps
    | with_reducible refine K.keeps_forIn (fun _ _ => ?_) _ _
    | with_reducible apply K.openStage_keeps
    | with_reducible refine K.keeps_bind ?_ fun _ => ?_
    | ((with_reducible refine K.mod_keeps ?_); intro c; first
        | exact .of rfl rfl rfl rfl
        | (split <;> exact .of rfl rfl rfl rfl)
        | with_reducible exact .feedTail _
        | with_reducible exact .tailRequest _ _ _ _)
    | split
    | dsimp only
theorem K.mapKernel_keeps (parm : List Byte) (cores : List Nat) : K.Keeps (K.mapKernel parm cores) := by
  unfold K.mapKernel
  repeat' first
    | with_reducible exact K.keeps_pure _
    | with_reducible apply K.chan_keeps
    | with_reducible apply K.mapHash_keeps
    | with_reducible apply K.mapUnique_keeps
    | with_reducible apply K.mapFetch_keeps
    | with_reducible apply K.mapBlend_keeps
    | with_reducible apply K.mapTrain_keeps
    | with_reducible apply K.mapRefresh_keeps
    | with_reducible refine K.keeps_bind ?_ fun _ => ?_
    | split
    | dsimp only
theorem K.commitGet_keeps (region a n : Nat) : K.Keeps (K.commitGet region a n) := by
  unfold K.commitGet
  repeat' first
    | with_reducible exact K.keeps_pure _
    | with_reducible apply K.poisoned_keeps
    | with_reducible apply K.readHbm_keeps
    | with_reducible apply K.within_keeps
    | with_reducible refine K.keeps_bind ?_ fun _ => ?_
    | split
    | dsimp only
theorem K.commitPut_keeps (region a : Nat) (bs : List Byte) : K.Keeps (K.commitPut region a bs) := by
  unfold K.commitPut
  repeat' first
    | with_reducible exact K.keeps_pure _
    | with_reducible apply K.writeHbm_keeps
    | with_reducible apply K.within_keeps
    | with_reducible refine K.keeps_bind ?_ fun _ => ?_
    | split
    | dsimp only
theorem K.applyMig_keeps (t : MapTable) (fo : Folio) (e : List Byte) : K.Keeps (K.applyMig t fo e) := by
  unfold K.applyMig
  repeat' first
    | with_reducible exact K.keeps_pure _
    | with_reducible apply K.commitGet_keeps
    | with_reducible apply K.commitPut_keeps
    | with_reducible refine K.keeps_bind ?_ fun _ => ?_
    | with_reducible refine K.keeps_forIn (fun _ _ => ?_) _ _
    | dsimp only
theorem K.commitTable_keeps (t : MapTable) (x : Nat) : K.Keeps (K.commitTable t x) := by
  unfold K.commitTable
  repeat' first
    | with_reducible exact K.keeps_pure _
    | with_reducible exact K.keeps_get
    | with_reducible apply K.err_keeps
    | with_reducible apply K.bump_keeps
    | with_reducible apply K.commitGet_keeps
    | with_reducible apply K.commitPut_keeps
    | with_reducible apply K.applyMig_keeps
    | with_reducible refine K.keeps_bind ?_ fun _ => ?_
    | with_reducible refine K.keeps_forIn (fun _ _ => ?_) _ _
    | with_reducible refine K.keeps_mapM (fun _ => ?_) _
    | ((with_reducible refine K.mod_keeps ?_); intro c; first
        | exact .of rfl rfl rfl rfl
        | (split <;> exact .of rfl rfl rfl rfl)
        | with_reducible exact .feedTail _
        | with_reducible exact .tailRequest _ _ _ _)
    | split
    | dsimp only
theorem K.mapCommit_keeps : K.Keeps K.mapCommit := by
  unfold K.mapCommit
  repeat' first
    | with_reducible exact K.keeps_pure _
    | with_reducible apply K.chan_keeps
    | with_reducible apply K.commitTable_keeps
    | with_reducible refine K.keeps_bind ?_ fun _ => ?_
    | with_reducible refine K.keeps_forIn (fun _ _ => ?_) _ _
    | split
    | dsimp only
theorem K.modelInput_keeps : K.Keeps K.modelInput := by
  unfold K.modelInput
  repeat' first
    | with_reducible exact K.keeps_pure _
    | with_reducible exact K.keeps_get
    | with_reducible apply K.err_keeps
    | with_reducible refine K.keeps_bind ?_ fun _ => ?_
    | ((with_reducible refine K.mod_keeps ?_); intro c; first
        | exact .of rfl rfl rfl rfl)
    | split
    | dsimp only
theorem K.modOut_keeps (f : ModelOut → ModelOut) : K.Keeps (K.modOut f) := by
  unfold K.modOut
  repeat' first
    | with_reducible exact K.keeps_pure _
    | with_reducible refine K.keeps_bind ?_ fun _ => ?_
    | ((with_reducible refine K.mod_keeps ?_); intro c; first
        | exact .of rfl rfl rfl rfl)
    | split
    | dsimp only
theorem K.detObstacles_keeps (sc : ScribeCfg) (t : Word) (e : ModelEntry) (ncand : Nat) : K.Keeps (K.detObstacles sc t e ncand) := by
  unfold K.detObstacles
  repeat' first
    | with_reducible exact K.keeps_pure _
    | with_reducible apply K.readInk_keeps
    | with_reducible refine K.keeps_bind ?_ fun _ => ?_
    | with_reducible refine K.keeps_forIn (fun _ _ => ?_) _ _
    | split
    | dsimp only
theorem K.kinematic_keeps (rs : List Range) (e : ModelEntry) : K.Keeps (K.kinematic rs e) := by
  unfold K.kinematic
  repeat' first
    | with_reducible exact K.keeps_pure _
    | with_reducible exact K.keeps_get
    | with_reducible apply K.chan_keeps
    | with_reducible apply K.readInk_keeps
    | with_reducible apply K.modelInput_keeps
    | with_reducible apply K.modOut_keeps
    | with_reducible apply K.detObstacles_keeps
    | with_reducible refine K.keeps_bind ?_ fun _ => ?_
    | split
    | dsimp only
theorem K.readTelem_keeps (sc : ScribeCfg) : K.Keeps (K.readTelem sc) := by
  unfold K.readTelem
  repeat' first
    | with_reducible exact K.keeps_pure _
    | with_reducible apply K.chan_keeps
    | with_reducible apply K.bump_keeps
    | with_reducible apply K.readHbm_keeps
    | with_reducible apply K.blankPacket_keeps
    | with_reducible apply K.blankPair_keeps
    | with_reducible apply K.blankEnd_keeps
    | with_reducible apply K.inputSegs_keeps
    | with_reducible refine K.keeps_bind ?_ fun _ => ?_
    | with_reducible refine K.keeps_forIn (fun _ _ => ?_) _ _
    | ((with_reducible refine K.mod_keeps ?_); intro c; first
        | exact .of rfl rfl rfl rfl)
    | split
    | dsimp only
theorem K.telemRing_keeps : K.Keeps K.telemRing := by
  unfold K.telemRing
  repeat' first
    | with_reducible exact K.keeps_pure _
    | with_reducible exact K.keeps_get
    | with_reducible apply K.free_keeps
    | with_reducible refine K.keeps_bind ?_ fun _ => ?_
    | split
    | dsimp only
theorem K.staleTelem_keeps : K.Keeps K.staleTelem := by
  unfold K.staleTelem
  repeat' first
    | with_reducible exact K.keeps_pure _
    | with_reducible exact K.keeps_get
    | with_reducible apply K.err_keeps
    | with_reducible apply K.modOut_keeps
    | with_reducible apply K.telemRing_keeps
    | with_reducible refine K.keeps_bind ?_ fun _ => ?_
    | ((with_reducible refine K.mod_keeps ?_); intro c; first
        | exact .of rfl rfl rfl rfl)
    | split
    | dsimp only
theorem K.freeDerate_keeps : K.Keeps K.freeDerate := by
  unfold K.freeDerate
  repeat' first
    | with_reducible exact K.keeps_pure _
    | with_reducible apply K.free_keeps
    | with_reducible refine K.keeps_bind ?_ fun _ => ?_
    | split
    | dsimp only
theorem K.thermalSwitch_keeps (k : ThermClass) (hold s : Nat) (acc : List TelAcc) : K.Keeps (K.thermalSwitch k hold s acc) := by
  unfold K.thermalSwitch
  repeat' first
    | with_reducible exact K.keeps_pure _
    | with_reducible exact K.keeps_get
    | with_reducible apply K.chan_keeps
    | with_reducible apply K.err_keeps
    | with_reducible apply K.modOut_keeps
    | with_reducible apply K.staleTelem_keeps
    | with_reducible apply K.freeDerate_keeps
    | with_reducible refine K.keeps_bind ?_ fun _ => ?_
    | ((with_reducible refine K.mod_keeps ?_); intro c; first
        | exact .of rfl rfl rfl rfl)
    | split
    | dsimp only
theorem K.thermal_keeps : K.Keeps K.thermal := by
  unfold K.thermal
  repeat' first
    | with_reducible exact K.keeps_pure _
    | with_reducible apply K.chan_keeps
    | with_reducible apply K.modOut_keeps
    | with_reducible apply K.readTelem_keeps
    | with_reducible apply K.thermalSwitch_keeps
    | with_reducible refine K.keeps_bind ?_ fun _ => ?_
    | with_reducible refine K.keeps_forIn (fun _ _ => ?_) _ _
    | split
    | dsimp only
theorem K.health_keeps (e : ModelEntry) : K.Keeps (K.health e) := by
  unfold K.health
  repeat' first
    | with_reducible exact K.keeps_pure _
    | with_reducible apply K.chan_keeps
    | with_reducible apply K.readInk_keeps
    | with_reducible apply K.modelInput_keeps
    | with_reducible apply K.modOut_keeps
    | with_reducible refine K.keeps_bind ?_ fun _ => ?_
    | with_reducible refine K.keeps_forIn (fun _ _ => ?_) _ _
    | ((with_reducible refine K.mod_keeps ?_); intro c; first
        | exact .of rfl rfl rfl rfl)
    | split
    | dsimp only
theorem K.freeHalf_keeps : K.Keeps K.freeHalf := by
  unfold K.freeHalf
  repeat' first
    | with_reducible exact K.keeps_pure _
    | with_reducible apply K.free_keeps
    | with_reducible refine K.keeps_bind ?_ fun _ => ?_
    | split
    | dsimp only
theorem K.u16_keeps (i : Int) : K.Keeps (K.u16 i) := by
  unfold K.u16
  repeat' first
    | with_reducible exact K.keeps_pure _
    | with_reducible apply K.freeHalf_keeps
    | with_reducible refine K.keeps_bind ?_ fun _ => ?_
    | split
    | dsimp only
theorem K.tjField_keeps (w : Word) : K.Keeps (K.tjField w) := by
  unfold K.tjField
  repeat' first
    | with_reducible exact K.keeps_pure _
    | with_reducible apply K.freeHalf_keeps
    | with_reducible refine K.keeps_bind ?_ fun _ => ?_
    | split
    | dsimp only
theorem capField_keeps (w : Word) : K.Keeps (capField w) := by
  unfold capField
  repeat' first
    | with_reducible exact K.keeps_pure _
    | with_reducible apply K.u16_keeps
    | with_reducible refine K.keeps_bind ?_ fun _ => ?_
    | split
    | dsimp only
theorem esrField_keeps (w : Word) : K.Keeps (esrField w) := by
  unfold esrField
  repeat' first
    | with_reducible exact K.keeps_pure _
    | with_reducible apply K.u16_keeps
    | with_reducible refine K.keeps_bind ?_ fun _ => ?_
    | split
    | dsimp only
theorem K.healthVals_keeps (sc : ScribeCfg) (o : ModelOut) : K.Keeps (K.healthVals sc o) := by
  unfold K.healthVals
  repeat' first
    | with_reducible exact K.keeps_pure _
    | with_reducible apply K.tjField_keeps
    | with_reducible apply capField_keeps
    | with_reducible apply esrField_keeps
    | with_reducible refine K.keeps_bind ?_ fun _ => ?_
    | split
    | dsimp only
theorem K.healthEntries_keeps (o : ModelOut) : K.Keeps (K.healthEntries o) := by
  unfold K.healthEntries
  repeat' first
    | with_reducible exact K.keeps_pure _
    | with_reducible apply K.freeHalf_keeps
    | with_reducible apply K.tjField_keeps
    | with_reducible apply capField_keeps
    | with_reducible apply esrField_keeps
    | with_reducible refine K.keeps_bind ?_ fun _ => ?_
    | with_reducible refine K.keeps_forIn (fun _ _ => ?_) _ _
    | split
    | dsimp only
theorem K.record_keeps (e : ModelEntry) : K.Keeps (K.record e) := by
  unfold K.record
  repeat' first
    | with_reducible exact K.keeps_pure _
    | with_reducible exact K.keeps_get
    | with_reducible apply K.chan_keeps
    | with_reducible apply K.readInk_keeps
    | with_reducible apply K.modelInput_keeps
    | with_reducible apply K.healthVals_keeps
    | with_reducible apply K.healthEntries_keeps
    | with_reducible refine K.keeps_bind ?_ fun _ => ?_
    | ((with_reducible refine K.mod_keeps ?_); intro c; first
        | exact .of rfl rfl rfl rfl)
    | split
    | dsimp only
theorem K.models_keeps (rs : List Range) (parm : List Byte) : K.Keeps (K.models rs parm) := by
  unfold K.models
  repeat' first
    | with_reducible exact K.keeps_pure _
    | with_reducible apply K.kinematic_keeps
    | with_reducible apply K.thermal_keeps
    | with_reducible apply K.health_keeps
    | with_reducible refine K.keeps_bind ?_ fun _ => ?_
    | with_reducible refine K.keeps_forM (fun _ => ?_) _
    | split
    | dsimp only
theorem K.proof_keeps : K.Keeps K.proof := by
  unfold K.proof
  repeat' first
    | with_reducible exact K.keeps_pure _
    | with_reducible exact K.keeps_get
    | with_reducible apply K.chan_keeps
    | with_reducible apply K.err_keeps
    | with_reducible refine K.keeps_bind ?_ fun _ => ?_
    | ((with_reducible refine K.mod_keeps ?_); intro c; first
        | exact .of rfl rfl rfl rfl
        | (split <;> exact .of rfl rfl rfl rfl)
        | with_reducible exact .feedTail _
        | with_reducible exact .tailRequest _ _ _ _)
    | split
    | dsimp only
theorem K.frontKernel_keeps (parm : List Byte) (cores : List Nat) : K.Keeps (K.frontKernel parm cores) := by
  unfold K.frontKernel
  repeat' first
    | with_reducible exact K.keeps_pure _
    | with_reducible apply K.voxelise_keeps
    | with_reducible apply K.cellInsert_keeps
    | with_reducible apply K.cellOrder_keeps
    | with_reducible apply K.pointPool_keeps
    | with_reducible apply K.coarsen_keeps
    | with_reducible apply K.ruleBuild_keeps
    | with_reducible apply K.segReduceKernel_keeps
    | with_reducible apply K.columnPool_keeps
    | with_reducible apply K.radixKernel_keeps
    | with_reducible apply K.viewBuild_keeps
    | with_reducible refine K.keeps_bind ?_ fun _ => ?_
    | split
    | dsimp only
theorem K.rsvFlushAll_keeps : K.Keeps K.rsvFlushAll := by
  unfold K.rsvFlushAll
  repeat' first
    | with_reducible exact K.keeps_pure _
    | with_reducible apply K.rsvFlush_keeps
    | with_reducible refine K.keeps_bind ?_ fun _ => ?_
    | with_reducible refine K.keeps_forM (fun _ => ?_) _
    | split
    | dsimp only
theorem K.nibEnd_keeps (insert : Bool) (late : K Unit) (hl : K.Keeps late) : K.Keeps (K.nibEnd insert late) := by
  unfold K.nibEnd
  repeat' first
    | with_reducible exact K.keeps_pure _
    | with_reducible exact K.keeps_get
    | with_reducible exact hl
    | with_reducible apply K.bump_keeps
    | with_reducible apply K.free_keeps
    | with_reducible apply K.rsvFlushAll_keeps
    | with_reducible refine K.keeps_bind ?_ fun _ => ?_
    | ((with_reducible refine K.mod_keeps ?_); intro c; first
        | exact .of rfl rfl rfl rfl)
    | split
    | dsimp only
theorem Worked.countCe (st : Storage) (a : Channel) : Worked a (a.countCe st) := by
  match st with
  | .blotter => exact .refl _
  | .inkwell => exact .trans (.bump _ _ _) (.stick _ _)
  | .reservoir => exact .trans (.bump _ _ _) (.stick _ _)
  | .hbm => exact .trans (.trans (.bump _ _ _) (.bump _ _ _)) (.stick _ _)
theorem K.eccCe_keeps (st : Storage) (core g : Nat) : K.Keeps (K.eccCe st core g) := by
  unfold K.eccCe
  repeat' first
    | with_reducible exact K.keeps_pure _
    | with_reducible apply K.err_keeps
    | with_reducible refine K.keeps_bind ?_ fun _ => ?_
    | with_reducible exact K.keeps_get
    | ((with_reducible refine K.mod_keeps ?_); intro c; first
        | exact .of rfl rfl rfl rfl
        | exact .countCe _ _)
    | split
    | dsimp only
theorem K.eccMet_keeps (late : Bool) (o : EccObs) : K.Keeps (K.eccMet late o) := by
  unfold K.eccMet
  repeat' first
    | with_reducible exact K.keeps_pure _
    | with_reducible apply K.chan_keeps
    | with_reducible apply K.eccUe_keeps
    | with_reducible apply K.eccCe_keeps
    | with_reducible refine K.keeps_bind ?_ fun _ => ?_
    | ((with_reducible refine K.mod_keeps ?_); intro c; first
        | exact .of rfl rfl rfl rfl
        | exact .modCore (by exact fun _ h => h) _ _
        | exact .modCore (by exact fun _ h => Cells.wf_write h _ _) _ _
        | exact .storeHbm _ _ _ _
        | exact .invalidate _ _ _ _
        | (split <;> exact .of rfl rfl rfl rfl))
    | split
    | dsimp only
theorem K.eccEarly_keeps (os : List EccObs) : K.Keeps (K.eccEarly os) := by
  unfold K.eccEarly
  repeat' first
    | with_reducible exact K.keeps_pure _
    | with_reducible apply K.eccMet_keeps
    | with_reducible refine K.keeps_bind ?_ fun _ => ?_
    | with_reducible refine K.keeps_foldlM (fun _ _ => ?_) _ _
    | split
    | dsimp only
theorem K.eccLate_keeps (os : List EccObs) : K.Keeps (K.eccLate os) := by
  unfold K.eccLate
  repeat' first
    | with_reducible exact K.keeps_pure _
    | with_reducible apply K.eccMet_keeps
    | with_reducible refine K.keeps_bind ?_ fun _ => ?_
    | with_reducible refine K.keeps_forM (fun _ => ?_) _
    | split
    | dsimp only
theorem K.work_keeps (s : Stroke) (late : K Unit) (hl : K.Keeps late) : K.Keeps (K.work s late) := by
  unfold K.work
  repeat' first
    | with_reducible exact K.keeps_pure _
    | with_reducible exact hl
    | with_reducible apply K.vector_keeps
    | with_reducible apply K.array_keeps
    | with_reducible apply K.gatherAddr_keeps
    | with_reducible apply K.transfer_keeps
    | with_reducible apply K.select_keeps
    | with_reducible apply K.mapKernel_keeps
    | with_reducible apply K.models_keeps
    | with_reducible apply K.frontKernel_keeps
    | with_reducible apply K.nibEnd_keeps
    | with_reducible refine K.keeps_bind ?_ fun _ => ?_
    | split
    | dsimp only
theorem K.exemplarRun_keeps (core : Ch) (e : ExemplarCfg) (faults : List Word) : K.Keeps (K.exemplarRun core e faults) := by
  unfold K.exemplarRun
  repeat' first
    | with_reducible exact K.keeps_pure _
    | with_reducible apply K.chan_keeps
    | with_reducible apply K.array_keeps
    | with_reducible apply K.vector_keeps
    | with_reducible apply K.writeInk_keeps
    | with_reducible refine K.keeps_bind ?_ fun _ => ?_
    | with_reducible refine K.keeps_forM (fun _ => ?_) _
    | split
    | dsimp only

/-! ### A whole stroke -/

theorem Worked.recs {m : Ch} (l : List (Severity × Nat × Nat × Option Nat × Option Nat)) (hw : Hw) :
    Worked (hw.ch m) ((l.foldr (fun r h => h.raise m r.1 r.2.1 r.2.2.1 r.2.2.2.1 r.2.2.2.2) hw).ch m) := by
  induction l with
  | nil => exact refl _
  | cons r l ih => exact ih.trans (raise _ _ _ _ _ _ _)
/-- A stroke's work whose transactions all pass the firewalls, records and all, leaves its channel worked on. -/
theorem Worked.runKWith {k : K Unit} {f : Sx → Channel → Channel} (hk : K.Keeps k) (hf : ∀ s c, Worked c (f s c)) (m : Ch) (idx u : Nat)
    (stray : List FwObs) (hw : Hw) (hb : (k.run (Sx.start m idx hw.arrays hw.freeCtr u stray (hw.ch m))).2.blocked = []) :
    Worked (hw.ch m) ((hw.runKWith m idx u stray k f).ch m) := by
  unfold Hw.runKWith
  dsimp only
  rw [hb, List.foldl_nil, Hw.ch_modCh_same]
  refine Worked.trans ?_ (hf _ _)
  refine Worked.trans ?_ (recs _ _)
  refine Eq.subst (motive := Worked (hw.ch m)) ?_ (hk (Sx.start m idx hw.arrays hw.freeCtr u stray (hw.ch m))).2.2
  exact ((Hw.freeCtr_ch _ _ _).trans (Hw.ch_setCh_same _ _ _)).symm
theorem Worked.runK {k : K Unit} (hk : K.Keeps k) (m : Ch) (idx u : Nat) (hw : Hw)
    (hb : (k.run (Sx.start m idx hw.arrays hw.freeCtr u [] (hw.ch m))).2.blocked = []) : Worked (hw.ch m) ((hw.runK m idx u k).ch m) :=
  runKWith hk (fun _ c => refl c) m idx u [] hw hb

/-! ### Memories stay canonical where work is undone (R63, R383) -/

/-- Putting a granule back keeps the memories canonical. -/
theorem Channel.undoOne_memWf (u : Undo) {c : Channel} (h : c.memWf = true) : (c.undoOne u).memWf = true := by
  unfold Channel.undoOne
  split
  · exact (Worked.modCore (by exact fun _ h => Cells.wf_write h _ _) _ _).wf h
  split
  · simpa [Channel.memWf] using h
  · simp only [Channel.memWf, Bool.and_eq_true] at h ⊢
    exact ⟨⟨Cells.wf_write h.1.1 _ _, h.1.2⟩, h.2⟩
theorem Channel.undo_memWf (l : List Undo) {c : Channel} (h : c.memWf = true) : (l.foldl (fun c u => c.undoOne u) c).memWf = true := by
  induction l generalizing c with
  | nil => exact h
  | cons u l ih => exact ih (undoOne_memWf u h)
theorem Channel.stopFlight_memWf (f : Flight) {c : Channel} (h : c.memWf = true) : (c.stopFlight f).memWf = true := undo_memWf _ h
theorem Channel.stopFlights_memWf (l : List Flight) {c : Channel} (h : c.memWf = true) :
    (l.foldl (fun c f => c.stopFlight f) c).memWf = true := by
  induction l generalizing c with
  | nil => exact h
  | cons f l ih => exact ih (stopFlight_memWf f h)
/-- Abandoning a frame keeps the memories canonical. -/
theorem Channel.abandon_memWf {c : Channel} (h : c.memWf = true) : c.abandon.memWf = true := by
  have k := stopFlights_memWf c.duct.flight h
  simp only [Channel.abandon, Channel.memWf, Bool.and_eq_true] at k ⊢
  refine ⟨⟨k.1.1, ?_⟩, k.2⟩
  have := k.1.2
  rw [List.all_eq_true] at this ⊢
  intro x hx
  obtain ⟨y, hy, rfl⟩ := List.mem_map.mp hx
  exact this y hy
theorem Channel.cutFlights_memWf (u : Nat) {c : Channel} (h : c.memWf = true) : (c.cutFlights u).memWf = true := by
  have k : ∀ (l : List Flight) (c : Channel), c.memWf = true →
      (l.foldl (fun c f => ((f.undo.take (f.undo.length - f.keep)).filter (·.unit == u)).foldl (fun c x => c.undoOne x) c) c).memWf = true := by
    intro l
    induction l with
    | nil => exact fun _ h => h
    | cons f l ih => exact fun c h => ih _ (undo_memWf _ h)
  exact k _ _ h

end Sys2Proof.Machine
end

