-- ==== Sys2Proof/Tests/Slice0.lean ====
section
/-! SUPPORT. Tests of the model on small states: ill-formed commands are refused, and for every statement with hypotheses a state
that meets them, clause by clause. Values are the spec's limits; nothing here is a statement for the provers. -/
namespace Sys2Proof.Tests
open Sys2Proof.Machine Sys2Proof.Claims

/-! ### Small states -/

/-- The device out of PORST, its fuses read and the Signet ready. -/
def devOn : Device :=
  { Device.reset with porstN := true, rails := 0xFF#8, refclkOk := true, marginClkOk := true, ucieLock := true, faultLow := false,
                      signet := { Signet.reset with fusesRead := true, ready := true } }
/-- That device with channel 0 as given and the others in OFF. -/
def on (c : Channel) : State := { hw := { Hw.reset with dev := devOn, ch0 := c }, pending := [] }
/-- The same with the device changed. -/
def onD (f : Device → Device) (c : Channel) : State := { hw := { Hw.reset with dev := f devOn, ch0 := c }, pending := [] }
/-- What one step leaves, where it answers a next state. -/
def after {α : Type} (o : Host.Outcome State Fault Refusal) (f : Hw → α) : Option α :=
  match o with
  | .next s => some (f s.hw)
  | _ => none
/-- A channel in a state. -/
def inSt (x : ChState) : Channel := { Channel.reset with st := x }
/-- A channel whose frame 5 is in progress since 0 ns. -/
def ticking (x : ChState) : Channel :=
  { inSt x with tick := { Tick.reset with ticking := true, k := 5 }, img := { Image.reset with periodNs := 25000, tickTol := 10, tickN := 1 } }
/-- Local time in ns. -/
def atNs (n : Nat) (c : Channel) : Channel := { c with tb := { c.tb with sub := 65536 * n } }

/-- An authority key, and its digest as the fuses hold it. -/
def keyA : List Byte := List.replicate 1793 0#8
def fused : Device → Device := fun d => { d with fuses := { d.fuses with authority := some (Shake.shake256 32 keyA) } }
/-- A request of that authority. -/
def req : Signed := { counter := 1, sigOk := true, authority := keyA }
theorem accepts (c : Channel) : Accepts (later (onD fused c) 0) req false :=
  ⟨rfl, rfl, rfl, rfl, Nat.zero_lt_one, fun _ h => Option.some.inj h, fun h => absurd h (Option.some_ne_none _)⟩

/-- A packet of channel 0 for ring 0, sealed under 32 zero bytes. -/
def pkt (op : Byte) (payload : List Byte) : Packet :=
  { opcode := op, flags := 1, version := 1, rsvd3 := 0, route := 0, length := BitVec.ofNat 32 payload.length, seq := 0, captime := 0,
    frametag := 7, rsvd28 := 0, rsvd48 := List.replicate 16 0, payload := payload,
    pad := List.replicate ((64 - payload.length % 64) % 64) 0, sealed := { key := .zeros, nonce := List.replicate 12 0#8, intact := true }, wait := 0 }
/-- A payload of 64 bytes that begins so, with `more` after it. -/
def hdr (b more : List Byte) : List Byte := b ++ List.replicate (64 - b.length) 0#8 ++ more
/-- Ring 0, inbound, of tenant 0, into region 0. -/
def ring0 : Ring :=
  { num := 0, enabled := true, out := false, safety := false, bidir := true, tenant := 0, cls := 0, opmask := 0x3FFE#32, region := 0, expect := 0,
    source := 0, hairpinTo := 0, hairpin := false, maxAge := 0, nextSeq := 0, genUsed := 0, accepted := 0, discarded := 0, gaps := 0, outSeq := 0,
    stampA := 0, stampB := 0, latAccepted := 0, latDiscarded := 0, latGaps := 0, msgsOpen := 0, tagOpen := none, tagClosed := none,
    nonceRaised := false,
    msg := { openTag := none, openCrc := 0, openCap := 0, openSweep := 0, lastCrc := none, lastSweep := none, lastCap := none },
    blank := { active := false, firstTag := 0, lfsr := 0, count := 0, rows := 0, failed := false } }
/-- An INPUT and HOSTW region of two halves of 128 bytes. -/
def reg0 : Region :=
  { base := 4096, len := 128, tag := 0, cache := false, hostw := true, input := true, peerw := false, tenant := 0, rsvdOk := true }
/-- A running channel with ring 0 in the context cache. -/
def host (x : ChState) : Channel :=
  { ticking x with rings := [ring0], ringsLoaded := true, ctx := [0], img := { (ticking x).img with regions := [reg0], tenant := some 0, hbTimeoutUs := 1000 } }
/-- Tenant 0's session is open under 32 zero bytes. -/
def opened : Device → Device := fun d => { d with signet := { d.signet with sessions := d.signet.sessions.set 0 { Session.reset with isOpen := true } } }
/-- A stroke of a kind on one core. -/
def stroke (i kind : Nat) (parm : List Byte) : Stroke :=
  { index := i, kind := kind, pdpoint := false, cores := 1, nrange := 0, npred := 0, preds := [], ranges := [], budget := [(1, 1)], parm := parm,
    pdword := 0 }
/-- A Ductus of one bracket at point 0. -/
def duct (ss : List Stroke) : Ductus :=
  { nstrokes := ss.length, nbrackets := 1, decide := 0xFFFF, exCyc := 1, exLatest := 0,
    brackets := [{ pointsMax := 2097152, cellsMax := 1048576, point := 0, tailCyc := 0, tailFix := 0 }], strokes := ss, lenOk := true }
def withDuct (d : Ductus) (c : Channel) : Channel := { c with img := { c.img with ductus := some d } }

/-! ### Ill-formed commands -/

theorem test_wf_stroke : (Instr.strokeComplete 0 0 65536).wf = false ∧ (Instr.strokeComplete 0 0 65535).wf = true := by decide
theorem test_wf_stroke_unit :
    (Instr.strokeIssue 0 0 0 { ecc := [], fw := [{ unit := 11, addr := 0, after := 0 }] }).wf = false ∧
    (Instr.strokeIssue 0 0 65536 { ecc := [], fw := [] }).wf = false ∧
    (Instr.strokeIssue 0 0 0 { ecc := [], fw := [{ unit := 10, addr := 0, after := 0 }] }).wf = true := by decide
/-- A packet of another opcode, of another length than its header says, or whose ns field holds a whole second. -/
theorem test_wf_packet :
    (Instr.heartbeat 0 (pkt 12 (hdr [] []))).wf = false ∧
    (Instr.heartbeat 0 { pkt 13 (hdr [] []) with length := 65#32 }).wf = false ∧
    (Instr.heartbeat 0 { pkt 13 (hdr [] []) with captime := 1000000000#64 }).wf = false ∧
    (Instr.heartbeat 0 { pkt 13 (hdr [] []) with version := 2 }).wf = false ∧
    (Instr.heartbeat 0 (pkt 13 (hdr [] []))).wf = true := by decide
theorem test_wf_packet_rows :
    (Instr.sweep 0 (pkt 2 (hdr [] []))).wf = false ∧ (Instr.image 0 (pkt 1 (hdr [] []))).wf = false ∧
    (Instr.telem 0 (pkt 1 (hdr [] []))).wf = false ∧ (Instr.calib 0 (pkt 1 (hdr [] []))).wf = false ∧
    (Instr.memwrite 0 (pkt 1 (hdr [] []))).wf = false ∧ (Instr.regread 0 (pkt 8 (hdr [] []))).wf = false ∧
    (Instr.regwrite 0 (pkt 7 (hdr [] []))).wf = false ∧ (Instr.publish 0 (pkt 1 (hdr [] []))).wf = false ∧
    (Instr.membership 0 (pkt 13 (hdr [] []))).wf = false ∧ (Instr.malformed 0 (pkt 13 (hdr [] []))).wf = false ∧
    (Instr.nvmwrite 0 (pkt 11 (hdr [] [])) [1] false).wf = false ∧ (Instr.malformed 0 (pkt 14 (hdr [] []))).wf = true := by decide
/-- SCOPE and ACTION choose the row of a KEYROTATE. -/
theorem test_wf_keyrotate :
    (Instr.keyrotateSessionInstall 0 (pkt 10 (hdr [1] [])) ⟨0, 0⟩ 0).wf = false ∧
    (Instr.keyrotateSessionRetire 0 (pkt 10 (hdr [0, 0, 0] []))).wf = false ∧
    (Instr.keyrotateTableInstall 0 (pkt 10 (hdr [1, 0, 1] [])) ⟨0, 0⟩ 0).wf = false ∧
    (Instr.keyrotateTableRetire 0 (pkt 10 (hdr [0, 0, 1] []))).wf = false ∧
    (Instr.keyrotateTableRetire 0 (pkt 10 (hdr [1, 0, 1] []))).wf = true := by decide
theorem test_wf_tailpage (s : SealedPage) (h : s.plain = []) : (Instr.tailpage 0 (pkt 6 (hdr [] [])) s).wf = false := by
  simp [Instr.wf, SealedPage.wf, h]
/-- A request with a public key of another length, and operands wider than their fields. -/
theorem test_wf_management :
    (Instr.readErrors 0 { req with authority := [] }).wf = false ∧ (Instr.readErrors 0 { req with counter := 2 ^ 32 }).wf = false ∧
    (Instr.getCert 0 256).wf = false ∧ (Instr.getReport 0 0 []).wf = false ∧ (Instr.pwrDevCap 0 65536).wf = false ∧
    (Instr.readReg 0 { req with authority := [] } 0 1).wf = false ∧ (Instr.writeReg 0 { req with authority := [] } 0 []).wf = false := by decide
theorem test_wf_fields :
    (Instr.ringContextFetch 0 0 65536).wf = false ∧ (Instr.hostWriteApply 0 0 (2 ^ 64)).wf = false ∧ (Instr.tailTimeout 0 0 (2 ^ 32)).wf = false ∧
    (Instr.vaux 0 (2 ^ 32)).wf = false ∧ (Instr.parity 0 0 0 (2 ^ 32)).wf = false ∧ (Instr.scrub 0 0 0x6000000 true).wf = false ∧
    (Instr.scrub 0 0 0x5FFFFFF true).wf = true ∧ (Instr.powerMeasure 0 0 0 0 0 65536).wf = false ∧ (Instr.trsp 0 0 256 0 false).wf = false ∧
    (Instr.tfol 0 0 0 1000000000 false).wf = false := by decide

/-- A PTP frame of a type. -/
def ptpF (ty : Nat) : PtpFrame :=
  { wellFormed := true, domain := 0, majorSdoId := 0, messageType := ty, source := 7, seqId := 1, correction := 0, origin := 0, requester := 0,
    twoStep := true, rest := [2#8, 1#8] }
/-- A peer frame of a type, from position 1 to position 0. -/
def peerF (ty : Byte) : PeerFrame :=
  { fcsOk := true, etherOk := true, dstAddr := 0, srcAddr := 0, ptype := ty, pflags := 0, srcPos := 1, dstPos := 0, epoch := 0, ring := 0, window := 0,
    len := 64, block := 0, offset := 0, fseq := 0, nstatus := 0, ttl := 7, kSrc := 0, data := List.replicate 64 1#8 }
theorem test_wf_frames :
    (Instr.ptpSyncReceive 0 0 .east (ptpF 1)).wf = false ∧ (Instr.delayReq 0 0 .east (ptpF 0)).wf = false ∧
    (Instr.delayResp 0 0 .east (ptpF 0)).wf = false ∧ (Instr.ptpOther 0 0 .east (ptpF 9)).wf = false ∧
    (Instr.ptpOther 0 0 .east { ptpF 8 with domain := 256 }).wf = false ∧ (Instr.ptpOther 0 0 .east (ptpF 8)).wf = true ∧
    (Instr.data 0 0 .east (peerF 2)).wf = false ∧ (Instr.nack 0 0 .east (peerF 1)).wf = false := by decide

/-! ### What every step keeps -/

/-- A state with a listed byte, a command waiting, a provisioned owner slot and a fused authority. -/
def busy : State :=
  { onD (fun d => { fused d with fuses := { (fused d).fuses with slots := List.replicate 4 { digest := [], provisioned := true, revoked := false } } })
      { host .run with hbm := [(5, 1#8)] } with pending := [.linkDown 0] }
theorem wit_FrontCommand : Runs (.linkDown 0) busy fun _ => True := ⟨_, rfl, trivial⟩
theorem wit_MemoryStaysCanonical : Memory.wf busy = true ∧ ∃ s', step busy = .next s' := ⟨by decide, _, rfl⟩
theorem wit_PinsFollowTheState : busy.pinsSafe ∧ ∃ s', step busy = .next s' :=
  ⟨by unfold State.pinsSafe Channel.pinsSafe; decide, _, rfl⟩
theorem wit_ReservationsStayWithinTheCap : busy.powerFits ∧ ∃ s', step busy = .next s' := ⟨by unfold State.powerFits; decide, _, rfl⟩
/-- The device after DEVICE_STOP. -/
def halted : State :=
  { hw := { Hw.reset with dev := { fused devOn with deviceStop := true, faultLow := true }, ch0 := inSt .stopped, ch1 := inSt .stopped,
                          ch2 := inSt .stopped, ch3 := inSt .stopped }, pending := [] }
theorem wit_DeviceStopHolds : halted.stopHolds ∧ (∃ s', step halted = .next s') ∧ halted.hw.dev.deviceStop = true ∧ Accepts (later halted 0) req false :=
  ⟨by unfold State.stopHolds Channel.halted; decide, ⟨_, rfl⟩, rfl,
   rfl, rfl, rfl, rfl, Nat.zero_lt_one, fun _ h => Option.some.inj h, fun h => absurd h (Option.some_ne_none _)⟩
theorem wit_PorstHoldsEverythingOff : OffAtPorst State.reset ∧ State.reset.hw.dev.porstN = false ∧ ∃ s', step State.reset = .next s' :=
  ⟨by unfold OffAtPorst; decide, rfl, _, rfl⟩
theorem wit_FusesAreOneTime :
    (∃ s', step busy = .next s') ∧ busy.hw.dev.fuses.authority.isSome ∧ ∃ o, busy.hw.dev.fuses.slots[3]? = some o ∧ o.provisioned = true :=
  ⟨⟨_, rfl⟩, rfl, _, rfl, rfl⟩

/-! ### Start-up -/

theorem awake (c : Channel) : Awake (on c) := ⟨rfl, rfl⟩
theorem wit_PorstReleaseStartsTheDevice :
    State.reset.hw.dev.porstN = false ∧
    (let s := onD (fun d => { d with signet := Signet.reset }) Channel.reset; Awake s ∧ s.hw.dev.signet.fusesRead = false) ∧
    (Awake (on Channel.reset) ∧ (on Channel.reset).hw.dev.signet.fusesRead = true) := ⟨rfl, ⟨⟨rfl, rfl⟩, rfl⟩, awake _, rfl⟩
/-- Channel 3's uncore regulator is up at 4 ms at the earliest. -/
theorem wit_BootStepsRun_uncore :
    let s := on Channel.reset
    Awake s ∧ (s.hw.ch 3).st = .off ∧ s.hw.dev.porstAt + 1000000 * ((3 : Ch).val + 1) ≤ s.hw.now + 4000000 := ⟨awake _, rfl, by decide⟩
theorem wit_BootStepsRun :
    ((on (inSt .boot)).hw.ch 0).st = .boot ∧ ((on (inSt .boot)).hw.ch 0).boot.hdrSeen = false ∧ ((on (inSt .boot)).hw.ch 0).boot.hbm = none ∧
    ((on (inSt .boot)).hw.ch 0).boot.verified = false ∧
    (let c := (on { inSt .boot with boot := { Boot.reset with verified := true } }).hw.ch 0; c.boot.verified = true ∧ c.boot.hbm = none) := by decide

/-- A section entry (R469). -/
def entry (ty off len : Nat) : List Byte := leBytes 4 ty ++ leBytes 4 off ++ leBytes 4 len ++ leBytes 20 0 ++ List.replicate 64 0#8
/-- The ten section types that R470 requires. -/
def sects : List (Nat × Nat × Nat) :=
  [(1, 4096, 1600), (2, 8192, 64), (3, 12288, 16), (4, 16384, 4194304), (5, 4210688, 16), (6, 4214784, 16), (9, 4218880, 16), (10, 4222976, 672),
   (11, 4227072, 32), (13, 4231168, 16)]
def sectE (x : Nat × Nat × Nat) : SectEntry :=
  { type := x.1, offset := x.2.1, len := x.2.2, dest := 0, digest := List.replicate 64 0#8, rsvdOk := true }
/-- Their header, with a signature of one byte (R468). -/
def header : List Byte :=
  magic ++ leBytes 2 1 ++ [0, 10] ++ leBytes 4 2857 ++ leBytes 4 4239360 ++ List.replicate 44 0#8 ++ keyA ++ List.replicate 31 0#8
    ++ sects.flatMap (fun x => entry x.1 x.2.1 x.2.2) ++ leBytes 2 1 ++ List.replicate 6 0#8 ++ [0]
/-- The Signet with channel 0's request first, the owner's key in slot 2. -/
def verifying (h : Option (List Byte)) : State :=
  onD (fun d => { d with signet := { d.signet with queue := [0] },
                         fuses := { d.fuses with slots := d.fuses.slots.set 2 { digest := Shake.shake256 32 keyA, provisioned := true, revoked := false } } })
    { inSt .boot with boot := { Boot.reset with header := h } }
theorem wit_ImageVerifyDecides :
    (verifying none).hw.dev.signet.ready = true ∧ (verifying none).hw.dev.signet.queue = [0] ∧ ((verifying none).hw.ch 0).st = .boot ∧
    verifyWhy (verifying none).hw 0 true = (some 0x01, none) := ⟨rfl, rfl, rfl, rfl⟩
theorem header_magic : bytesAt header 0 8 = magic := by decide
theorem header_key : bytesAt header 64 1793 = keyA := by decide +kernel
theorem header_sects : parseEntries header 10 = sects.map sectE := by decide +kernel
theorem header_fields : byteAt header 11 = 10 ∧ byteAt header 10 = 0 ∧ field header 8 2 = 1 ∧ field header (1888 + 96 * 10) 2 = 1 ∧
    field header 12 4 = 2857 ∧ field header 16 4 = 4239360 ∧ zeroAt header 20 44 = true ∧ zeroAt header 1857 31 = true ∧
    zeroAt header (1890 + 96 * 10) 6 = true := by decide +kernel
theorem header_rules : sectionsOk 2857 4239360 (sects.map sectE) = true := by decide +kernel
theorem owner_slot (d : List Byte) :
    (List.range 4).find? (fun i => ((Fuses.reset.slots.set 2 { digest := d, provisioned := true, revoked := false })[i]?).any
      fun s => s.provisioned && !s.revoked && s.digest == d) = some 2 := by
  simp [Fuses.reset, List.range, List.range.loop, List.find?]
/-- The header passes steps 1 to 3 of R473; the digest of its key is slot 2's, so the signature decides. -/
theorem wit_ImageVerifyDecides_accepted (sigOk : Bool) :
    verifyWhy (verifying (some header)).hw 0 sigOk = if sigOk then (none, some 2) else (some 0x05, none) := by
  obtain ⟨h1, h2, h3, h4, h5, h6, h7, h8, h9⟩ := header_fields
  have hh : ((verifying (some header)).hw.ch 0).boot.header = some header := rfl
  have hu : ((verifying (some header)).hw.ch 0).nvm.usable = 67108864 := rfl
  have hg : (verifying (some header)).hw.dev.fuses.grade1630 = false := rfl
  have hs : (verifying (some header)).hw.dev.fuses.slots =
    Fuses.reset.slots.set 2 { digest := Shake.shake256 32 keyA, provisioned := true, revoked := false } := rfl
  have hl : (Fuses.reset.slots.set 2 { digest := Shake.shake256 32 keyA, provisioned := true, revoked := false }).length = 4 := by
    rw [List.length_set]; rfl
  simp only [verifyWhy, hh, header_magic, header_key, h1, h2, h3, h4, h5, h6, h7, h8, h9, header_sects, header_rules, hu, hg, hs, hl, owner_slot]
  rfl

/-! A small image that passes every check of step 9: SCRIBE with RECORD, then COMMIT. -/

def motion : List Word :=
  [0x3F000000#32, 0x40000000#32, 0x40200000#32, 0x3F800000#32, 0x40400000#32, 0x40800000#32, 0x42F00000#32, 0x41300000#32, 0x3F000000#32, 0x3E800000#32, 0x3F800000#32, 0x3F000000#32, 0x469C4000#32, 0x476A6000#32]
def safetyVals : List Word :=
  [0xBF000000#32, 0x40400000#32, 0x3F000000#32, 0x40200000#32, 0x40400000#32, 0x40800000#32, 0x42F00000#32, 0x3F000000#32, 0x40200000#32, 0x40000000#32, 0x41000000#32, 0x3F000000#32, 0x3F800000#32, 0x3F000000#32, 0x3F000000#32, 0x40A00000#32, 0x40A00000#32, 0x00000000#32, 0x00000000#32, 0x3E000000#32, 0x43160000#32, 0x42F00000#32, 0x3C000000#32, 0x3C000000#32, 0x3F000000#32]
def scribeCfg : ScribeCfg :=
  { envRing := 16, resultRing := 17, kin := false, therm := false, health := false, motors := 0, msHold := 2, telemHold := 10, coverFirst := 0,
    coverLast := 359, inverters := 0, motion := motion, classR := [], classV := [], motor := [], switches := [], classes := [], rsvdOk := true }
def safetyCfg : SafetyCfg :=
  { rangeMode := false, powerMode := false, scanners := 0, proofK := 8, proofH := 0, proofE := 3, proofW := 1200, seed := 1, testPoints := 0,
    testRows := 0, testSamples := 0, vals := safetyVals, tqM := [], poses := [], rsvdOk := true }
def exemplarCfg : ExemplarCfg := { hdrOk := true, nblocks := 0, outFmt := 7, elements := 0, outOffset := 0, blocks := [], input := [], refs := [], crc := 0 }
/-- One entry, RECORD, with its block at Inkwell address 0 of core 0. -/
def recordParm : List Byte := [1#8] ++ List.replicate 15 0#8 ++ [3#8] ++ List.replicate 31 0#8
def smallDuct : Ductus :=
  duct [{ stroke 0 7 recordParm with cores := 0, nrange := 1, ranges := [{ space := 0, access := 0, core := 0, len := 33, base := 0 }], budget := [(0, 30000)] },
        { stroke 1 11 [] with cores := 0, npred := 1, preds := [0], budget := [(0, 1000)] }]
def smallImage : Image :=
  { Image.reset with
    tenant := some 0, periodNs := 1000000, hbTimeoutUs := 1000, regions := [reg0]
    allocs := [{ base := 0, len := 2112, core := 0, keep := false, preload := false, exemplar := false, section_ := 0, soffset := 0, rsvdOk := true }]
    ductus := some smallDuct, scribe := some scribeCfg, safety := some safetyCfg, exemplar := some exemplarCfg }
def envRing : Ring := { ring0 with num := 16, out := true, bidir := false, opmask := 2#32 }
def resultRing : Ring := { ring0 with num := 17, out := true, bidir := false, opmask := 4#32, cls := 1 }
/-- A channel in LOAD with every section matched. -/
def loaded (f : Boot → Boot) : Channel :=
  { inSt .load with img := smallImage, rings := [ring0, envRing, resultRing], boot := f { Boot.reset with cleared := true } }
theorem wit_LoadStepsRun_check_accepted : loadWhy 0 ((later (on (loaded id)) 0).ch 0) 4 0 = none := by decide

def sectTest (ty : Nat) (d : List Byte) : SectEntry := { type := ty, offset := 0, len := 0, dest := 0, digest := d, rsvdOk := true }
def matching (ty : Nat) (d : List Byte) : Channel := loaded fun b => { b with sects := [sectTest ty d] }
theorem wit_LoadStepsRun_clear : ((on (inSt .load)).hw.ch 0).st = .load ∧ ((on (inSt .load)).hw.ch 0).boot.cleared = false := ⟨rfl, rfl⟩
theorem wit_LoadStepsRun_sections (d : List Byte) :
    (matching 1 d).st = .load ∧ (matching 1 d).boot.cleared = true ∧ (matching 1 d).boot.sects[(matching 1 d).boot.nextSect]? = some (sectTest 1 d) ∧
    (matching 1 d).nvm.read 0 0 = [] := ⟨rfl, rfl, rfl, rfl⟩
/-- A digest that differs, one that matches, and a tenant whose EK_T is another one. -/
theorem wit_LoadStepsRun_digest :
    Shake.shake256 64 [] ≠ (sectTest 2 []).digest ∧ (∀ d, (sectTest 2 d).digest = d) ∧
    (let s := onD (fun d => { d with signet := { d.signet with sessions := [{ Session.reset with ekT := some [1] }] } }) (matching 1 [])
     (s.hw.session 0).ekT.isSome ∧ (s.hw.session 0).ekT ≠ some (bytesAt [] 32 1568)) := ⟨by decide, fun _ => rfl, by decide⟩
/-- A tenant that no image named before; a DATA section; and a PRELOAD allocation of what one brought. -/
theorem wit_LoadStepsRun_contents :
    (let s := on (matching 1 [])
     (s.hw.session (byteAt [] 0)).ekT = none ∧ byteAt [] 0 < 8 ∧ byteAt [] 0 < s.hw.dev.signet.sessions.length) ∧
    (sectTest 14 []).type = 14 ∧ (sectTest 14 []).dest + 64 ≤ hbmSize ∧ (matching 14 []).memWf = true ∧
    (let x : Alloc := { base := 0, len := 64, core := 0, keep := false, preload := true, exemplar := false, section_ := 4, soffset := 64, rsvdOk := true }
     let c := { loaded (fun b => { b with checked := true }) with img := { smallImage with allocs := [x], dataDest := [(4, 4096, 128)] } }
     c.boot.checked = true ∧ c.memWf = true ∧ x ∈ c.img.allocs ∧ x.preload = true ∧ x.exemplar = false ∧ x.core < c.core.length ∧
     (∀ y ∈ c.img.allocs, y ≠ x → y.core = x.core → y.base + y.len ≤ x.base ∨ x.base + x.len ≤ y.base) ∧
     c.img.dataDest.find? (·.1 == x.section_) = some (4, 4096, 128)) := by decide
theorem wit_LoadStepsRun_check :
    (loaded id).boot.cleared = true ∧ (loaded id).boot.nextSect = (loaded id).boot.nsect ∧ (loaded id).boot.checked = false ∧
    loadWhy 0 { inSt .load with boot := (loaded id).boot } 4 0 = some 0x20 := ⟨rfl, rfl, rfl, by decide⟩
/-- What step 10 makes of a channel. -/
def copied (s : State) : Hw := (later s 0).modCh 0 (Channel.stepTen 0)
def checkedCh (i : Image) : Channel := { loaded (fun b => { b with checked := true }) with img := i }
theorem wit_LoadStepsRun_copy :
    (checkedCh smallImage).boot.checked = true ∧
    ((copied (on (checkedCh smallImage))).ch 0).refsOk = true ∧ ((copied (on (checkedCh smallImage))).aside 0).fitsPower 0 = true ∧
    ((copied (on (checkedCh { smallImage with exemplar := none }))).ch 0).refsOk = false ∧
    ((copied (onD (fun d => { d with capDw := 400 }) (checkedCh smallImage))).aside 0).fitsPower 0 = false := by decide
/-- Channel 1 was judged in the same cycle, before channel 0, which goes first: under a cap for one of them channel 0 is READY, 1 is not (R19). -/
theorem test_power_check_serves_lower_first :
    let up := { inSt .ready with img := smallImage, resv := some (checkedCh smallImage).need, boot := { (loaded id).boot with checkAt := some 0 } }
    let s := fun (cap : Nat) => ({ hw := { Hw.reset with dev := { devOn with capDw := cap }, ch0 := checkedCh smallImage, ch1 := up }, pending := [] } : State)
    let sts := fun (cap : Nat) => match execPreloadCopy 0 0 (s cap) with
      | .next u => some ((u.hw.ch 0).st, (u.hw.ch 1).st, (u.hw.ch 1).reason)
      | _ => none
    (1 : Ch) ∈ (copied (s 2650)).checkedAfter 0 ∧ (2 : Ch) ∉ (copied (s 2650)).checkedAfter 0 ∧
    sts 2650 = some (.ready, .ready, 0#8) ∧ sts 600 = some (.ready, .refused, 0x31#8) := by decide
/-- At points 5, 7 and 5 (R482) under 120 W: channel 1 was judged first and channel 2 refused beside it. -/
def judgedFirst : State :=
  let img := fun (p : Nat) => { smallImage with ductus := some { smallDuct with brackets := smallDuct.brackets.map fun b => { b with point := p } } }
  let at_ := { (loaded id).boot with checkAt := some 0 }
  let no := mkRec (inSt .refused) (some 2) .degraded 0xD8 initSignet (some 0x31) (some 0xFFFFFFFF)
  { hw := { Hw.reset with
      dev := { devOn with capDw := 1200 }
      ch0 := checkedCh (img 5)
      ch1 := { inSt .ready with img := img 7, resv := some 510, startUs := 3, boot := at_ }
      ch2 := { inSt .refused with img := img 5, reason := 0x31#8, boot := at_, errq := [{ record := no, carry := .waiting, id := 0 }] } }
    pending := [] }
/-- Channel 0 takes its place before both, so that 1 is refused and 2 is READY, its refusal's record gone (R19). -/
theorem test_power_check_takes_refusals_back :
    after (execPreloadCopy 0 0 judgedFirst) (fun h => ((h.ch 0).resv, (h.ch 1).st, (h.ch 1).startUs)) = some (some 342, .refused, 0) ∧
    after (execPreloadCopy 0 0 judgedFirst) (fun h => ((h.ch 2).st, (h.ch 2).resv, (h.ch 2).errq.length)) = some (.ready, some 342, 0) := by
  decide
/-- Five brackets: four budgets hold every bound, so that BRACKETS is the reason, not a stroke (R46, R55). -/
def fiveBrackets : Image :=
  { smallImage with ductus := some { smallDuct with nbrackets := 5, strokes := smallDuct.strokes.map fun s => { s with budget := List.replicate 4 (0, 30000) } } }
theorem test_five_brackets : loadWhy 0 ((later (on { loaded id with img := fiveBrackets }) 0).ch 0) 4 0 = some 0x24 := by decide

/-! ### Frames -/

theorem wit_BoundaryBeginsTheNextFrame :
    let c := (later (on (ticking .run)) 0).ch 0
    let x := (later (on { ticking .run with stopPending := some 0xA0#8 }) 0).ch 0
    (c.img.tickSrc = 0 ∧ c.tick.ticking = true ∧ c.st.ticks = true ∧ c.tick.nextDue ≤ c.local ∧ c.stopPending = none) ∧
    (x.img.tickSrc = 0 ∧ x.tick.ticking = true ∧ x.st.ticks = true ∧ x.tick.nextDue ≤ x.local ∧ x.stopPending = some 0xA0#8) := by decide
def tab0 : TableSt := { TableSt.reset with pending := [⟨1, 0, 2048, 4096, 0x81000, 1⟩], lastPublish := some 1, serial := 1, keyCur := some (0, .zeros) }
/-- Everything that a boundary applies is staged: intrinsics of camera 0, extrinsics of camera 1, the pose of scanner 2, a machine state, a
folio, and on three tables no key, a key and a retirement. -/
def stagedCh : Channel :=
  let c := ticking .run
  { c with
    cal := { c.cal with camNext := [(0, 0, List.replicate 8 1#32), (1, 1, List.replicate 7 1#32)], posesNext := [(2, List.replicate 7 1#32)],
                        msNext := some [1#32] }
    front := { c.front with cams := List.replicate 3 { intr := [], extr := [], gen := 0, active := 0, genActive := 0, genOther := 0 } }
    img := { c.img with scribe := some scribeCfg, sitemap := some { tailcache := 0, tailSlots := 0, tailRing := 0, deltaRing := 0, tailTimeout := 1000,
                                                                    ntables := 3, tables := [], rsvdOk := true } }
    map := { c.map with tables := [tab0, { tab0 with pending := [], keyStaged := [.install 1 .zeros] }, { tab0 with keyStaged := [.retire] }] } }
theorem wit_BoundaryBeginsTheNextFrame_staged :
    let c := (later (on stagedCh) 0).ch 0
    let cam := fun i => c.cal.camNext.filter (·.1 == i)
    (c.img.tickSrc = 0 ∧ c.tick.ticking = true ∧ c.st.ticks = true ∧ c.tick.nextDue ≤ c.local ∧ c.stopPending = none) ∧
    (c.img.scribe.isSome = true ∧ c.st ≠ .fenced ∧ c.front.cams.length = 3 ∧ cam 2 = [] ∧ cam 0 = [(0, 0, List.replicate 8 1#32)] ∧
      cam 1 = [(1, 1, List.replicate 7 1#32)] ∧ c.cal.posesNext = [(2, List.replicate 7 1#32)]) ∧
    (c.img.sitemap.isSome = true ∧ c.map.tables[0]? = some tab0 ∧ tab0.pending.filter (fun y => tab0.lastPublish == some y.slot) = [⟨1, 0, 2048, 4096, 0x81000, 1⟩] ∧
      tab0.keyStaged = [] ∧ (c.map.tables.map (·.pending.length)) = [1, 0, 1] ∧ tab0.keyCur.isSome = true ∧
      c.map.tables.map (·.keyStaged) = [[], [.install 1 .zeros], [.retire]]) := by decide
/-- A channel that may run: READY, or FENCED before it ever ticked. -/
def mayRun (x : ChState) (src : Nat) : Channel :=
  { inSt x with hbSinceReady := true, resv := some 134, ts := { TimeSrv.reset with everLocked := true },
                img := { Image.reset with periodNs := 25000, tickSrc := src, tickN := 1 } }
theorem wit_FirstBoundaryEntersRun :
    let c := (later (on (atNs 25001 (mayRun .ready 0))) 0).ch 0
    let x := (later (on (mayRun .fenced 1)) 0).ch 0
    (c.img.tickSrc = 0 ∧ c.runnable = true ∧ c.tick.ticking = false ∧ c.local ≤ c.lastDue + 1) ∧
    (20 ≤ 20 ∧ x.img.tickSrc = 1 ∧ x.runnable = true ∧ x.tick.ticking = false ∧ x.img.tickN ≤ x.tick.edges + 1) := by decide
/-- A channel that ticks on CHn_SYNC. -/
def synced (n : Nat) : Channel := { ticking .run with img := { (ticking .run).img with tickSrc := 1, tickN := n } }
/-- At the window's edges, 1 % around 25 µs: 24,750 ns and 25,250 ns. -/
theorem wit_SyncEdgesCount :
    let c := fun (n t : Nat) => ((later (on (atNs t (synced n))) 0).free.2).ch 0
    ((c 2 0).img.tickSrc = 1 ∧ (c 2 0).tick.ticking = true ∧ (c 2 0).st.ticks = true ∧ 20 ≤ 20 ∧ 4 < 5) ∧
    (c 2 0).tick.edges + 1 < (c 2 0).img.tickN ∧
    ((c 1 24749).img.tickN ≤ (c 1 24749).tick.edges + 1 ∧ (c 1 24749).windowOpen = false) ∧
    ((c 1 24750).windowOpen = true ∧ (c 1 24750).windowPast = false ∧ (c 1 24750).stopPending = none) ∧
    ((c 1 25250).windowOpen = true ∧ (c 1 25250).windowPast = false) ∧ ((c 1 25251).windowOpen = true ∧ (c 1 25251).windowPast = true) := by decide
theorem wit_MissingBoundariesAreMade :
    let c := (later (on (atNs 25250 (synced 1))) 0).ch 0
    let a := later (on (synced 1)) 25503
    (c.tick.ticking = true ∧ c.st = .run ∧ c.stopPending = none ∧ c.img.tickSrc = 1 ∧ c.windowShut = true) ∧
    ((a.ch 0).tick.ticking = true ∧ (a.ch 0).st = .run ∧ (a.ch 0).stopPending = none ∧ (a.ch 0).img.pmaxMilli * 101 ≤ (a.now - (a.ch 0).tick.tkNow) * 100000) := by
  decide
def mainRec : EnvRec :=
  { k := 5, inputTag := 0, fromMargin := false, channel := 0, stop := false, kin := false, therm := false, healthOld := false, tjOver := false,
    motors := 0, doubts := 0, vFwd := 0, vRev := 0, aLim := 0, dFwd := 0, dRev := 0, coverFirst := 0, coverLast := 0, torque := [], derate := [],
    healthMin := 0, healthSwitch := 0, lifeMin := 0, tjMax := 0, tjSwitch := 0, capMin := 0, esrMax := 0 }
theorem wit_MainOnlyWhenClean :
    let a := later (on { ticking .run with duct := { Duct.reset with exem := List.replicate 4 .done, main := some mainRec, verdict := some true } }) 0
    let c := a.ch 0
    c.img.tickSrc = 0 ∧ c.tick.ticking = true ∧ c.st = .run ∧ c.stopPending = none ∧ c.tick.nextDue ≤ c.local ∧
    c.strokesLeft = [] ∧ c.exMissing = [] ∧ c.doubtP = 0#32 ∧ c.duct.main = some mainRec ∧ mainRec.fromMargin = false ∧ a.hbLapse 0 = none ∧
    c.duct.verdict.isSome = true := by decide
/-- HB_TIMEOUT of 1 ms: a lapse of 1 ms is none, one more ns is one. -/
theorem wit_HeartbeatLapseDoubts :
    let s := fun (b : Bool) => on { host .run with hbLast := some 0, grd := { Guards.reset with hbRaised := b } }
    ((later (s false) 0).ch 0).st.ticks = true ∧ ((later (s false) 0).ch 0).hbLast = some 0 ∧
    (((later (s false) 0).ch 0).img.hbTimeoutUs * 1000 < (later (s false) 1000001).now - 0 ∧ ((later (s false) 0).ch 0).grd.hbRaised = false) ∧
    ((later (s true) 0).ch 0).grd.hbRaised = true ∧ (later (s false) 1000000).now - 0 ≤ ((later (s false) 0).ch 0).img.hbTimeoutUs * 1000 := by decide

/-! ### The Ductus -/

def worked : Channel := withDuct (duct [stroke 0 1 []]) (ticking .run)
/-- From 15,000 ns, 10 µs before the boundary at 25,000 ns: running, FENCED and to return, and READY before T(0); READY at the last pulse
before T(0); READY a nanosecond too early, or a second time; in a change from point 3 to 4; and out of one. -/
theorem wit_PointChangesRun :
    let at_ := fun (n : Nat) (c : Channel) => (later (on (atNs n c)) 0).ch 0
    let c := at_ 15000 worked
    let f := at_ 15000 { worked with st := .fenced, resv := some 134 }
    let r := fun n => at_ n (withDuct (duct [stroke 0 1 []]) (mayRun .ready 0))
    let e := at_ 0 (withDuct (duct [stroke 0 1 []]) (mayRun .ready 1))
    let x := at_ 0 { worked with duct := { Duct.reset with changing := some (3, 4) } }
    (c.img.ductus = some (duct [stroke 0 1 []]) ∧ c.running = true ∧ c.pastRaise = true ∧ c.duct.raised = false) ∧
    (f.img.ductus = some (duct [stroke 0 1 []]) ∧ f.st = .fenced ∧ f.tick.ticking = true ∧ f.resv.isSome = true ∧ f.stopPending = none ∧ f.pastRaise = true ∧
      f.duct.raised = false) ∧
    ((r 15000).img.ductus = some (duct [stroke 0 1 []]) ∧ (r 15000).runnable = true ∧ (r 15000).tick.ticking = false ∧ (r 15000).img.tickSrc = 0 ∧
      (r 15000).img.nextDue (r 15000).local ≤ (r 15000).local + 10000 ∧ (r 15000).duct.raised = false) ∧
    (e.runnable = true ∧ e.tick.ticking = false ∧ e.img.tickSrc ≠ 0 ∧ e.img.tickN ≤ e.tick.edges + 1) ∧
    ((r 14999).st = .ready ∧ (r 14999).tick.ticking = false ∧ (r 14999).running = false ∧ (r 14999).img.tickSrc = 0 ∧
      (r 14999).local + 10000 < (r 14999).img.nextDue (r 14999).local) ∧
    (({ r 15000 with duct := { (r 15000).duct with raised := true } } : Channel).duct.raised = true) ∧
    ((at_ 14999 worked).st.ticks = true ∧ (at_ 14999 worked).pastRaise = false ∧ (at_ 14999 worked).runnable = false) ∧
    ((at_ 0 (inSt .stopped)).tick.ticking = false ∧ (at_ 0 (inSt .stopped)).running = false ∧ (at_ 0 (inSt .stopped)).runnable = false) ∧
    x.duct.changing = some (3, 4) ∧ c.duct.changing = none := by decide
theorem wit_ExemplarsRun :
    let c := (later (on (atNs 15000 worked)) 0).ch 0
    c.img.ductus = some (duct [stroke 0 1 []]) ∧
    (c.running = true ∧ c.exUnstarted.contains (0 : Ch).val = true ∧
      (c.busyUnits (duct [stroke 0 1 []])).any (fun u => u / 5 == (0 : Ch).val && u < 20) = false) ∧
    (c.running = true ∧ (duct [stroke 0 1 []]).exLatest ≤ c.elapsed ∧ c.exUnstarted ≠ []) := by decide
def exCh (e : ExemplarCfg) : Channel :=
  { worked with img := { worked.img with exemplar := some e, safety := some safetyCfg },
                duct := { Duct.reset with exem := [.running, .idle, .idle, .idle], exFailLast := [true, false, false, false] } }
/-- Whatever its blocks did, an exemplar of no elements has no output. -/
theorem exOutput_none (c : Channel) (core : Ch) (e : ExemplarCfg) (h : e.elements = 0) : exOutput c core e = [] := by
  unfold exOutput; split <;> simp [wordsAt, h]
/-- Its CRC is that of no bytes, so it agrees, but for a fault of the CRC logic; one with another CRC does not, on a core that failed in the
frame before and on one that did not. -/
theorem wit_ExemplarsRun_done :
    let bad : ExemplarCfg := { exemplarCfg with crc := 1 }
    let os : List Word := []
    let good := fun (e : ExemplarCfg) (fault : Word) =>
      exOut safetyCfg os e.refs + (e.refs.length - os.length) = 0 ∧ exCrc safetyCfg os ^^^ fault = e.crc
    ((exCh exemplarCfg).duct.exem.getD (0 : Ch) .idle = .running ∧ (exCh exemplarCfg).img.exemplar = some exemplarCfg ∧
      (exCh exemplarCfg).img.safety = some safetyCfg ∧ good exemplarCfg 0 ∧ ¬good exemplarCfg 1) ∧
    ((exCh bad).duct.exem.getD (0 : Ch) .idle = .running ∧ (exCh bad).img.exemplar = some bad ∧ ¬good bad 0 ∧
      (exCh bad).duct.exFailLast.getD (0 : Ch) false = true ∧ (exCh bad).duct.exFailLast.getD (1 : Ch) false = false) := by decide
def spanCh (x : Span) : Channel :=
  { ticking .run with core := (List.replicate 3 CoreMem.reset) ++ [{ CoreMem.reset with spans := (List.replicate 12 Span.on).set 11 x, ink := [(11534336, 1#8)] }] }
/-- A span that drains since 0 ns: at 2,000 ns it may go off, at 2,001 ns it stays on; its time is over at 2,000 ns. -/
theorem wit_SpansPowerDownAndClear :
    let a := later (on (spanCh (.draining 0))) 2000
    let b := later (on (spanCh (.draining 0))) 2001
    ((a.ch 0).spanAt 3 11 = some (.draining 0) ∧ a.now - 0 ≤ 2000 ∧ 2000 < b.now - 0) ∧ (2000 ≤ a.now - 0 ∧ (later (on (spanCh (.draining 0))) 1999).now - 0 < 2000) ∧
    ((atNs 15000 (spanCh .off)).tick.ticking = true ∧ (atNs 15000 (spanCh .off)).pastRaise = true) ∧
    (spanCh .clearing).spanAt 3 11 = some .clearing ∧ (spanCh .clearing).memWf = true := by decide
/-- Stroke 1 stands behind stroke 0, which is in flight in the last case. -/
def two : Ductus := duct [stroke 0 1 [], { stroke 1 1 [] with npred := 1, preds := [0] }]
theorem wit_StrokesIssueAndComplete :
    let c := (later (on (withDuct two (ticking .run))) 0).ch 0
    let x := (later (on { withDuct two (ticking .run) with duct := { Duct.reset with flight := [{ idx := 0, cores := 1, ranges := [], since := 0, undo := [], keep := 0 }] } }) 0).ch 0
    c.img.ductus = some two ∧ two.stroke 0 = some (stroke 0 1 []) ∧
    (c.running = true ∧ c.ready two (stroke 0 1 []) = true ∧ c.firstReady two (stroke 0 1 []) = true) ∧
    (two.stroke 1).any (fun st => c.ready two st) = false ∧ (two.stroke 1).isSome ∧
    x.duct.flight.any (·.idx == 0) = true ∧ (stroke 0 1 []).kind ≠ 9 := by decide
/-- One row of 64 bytes from 4096 in region 0, or the half just closed, to Inkwell address 128 of core 0. -/
def rowD (op : Byte) : List Byte := [op, 0, 0, 0] ++ leBytes 4 0 ++ leBytes 8 4096 ++ leBytes 8 128 ++ leBytes 4 64 ++ leBytes 4 1 ++ List.replicate 16 0#8
def movePar (op : Byte) : List Byte := [1#8] ++ List.replicate 15 0#8 ++ rowD op
/-- An XFER of a row, or an INTAKE of the half that closed with 64 bytes; or a PEER or COMMIT stroke. -/
def oneStroke (kind : Nat) (parm : List Byte) : Channel :=
  let c := withDuct (duct [stroke 0 kind parm]) (ticking .run)
  { c with img := { c.img with regions := [reg0], tenant := some 0 }, input := [{ region := 0, half := 1, bytes := 64, segs := [] }] }
theorem wit_StrokesIssueAndComplete_transfers :
    let c := fun k p => (later (on (oneStroke k p)) 0).ch 0
    let goes := fun k p => (c k p).running = true ∧ (c k p).ready (duct [stroke 0 k p]) (stroke 0 k p) = true ∧
      (c k p).firstReady (duct [stroke 0 k p]) (stroke 0 k p) = true
    (goes 8 (movePar 0) ∧ goes 0 (movePar 5) ∧ goes 9 [] ∧ goes 11 []) ∧ (c 8 (movePar 0)).memWf = true ∧ (c 0 (movePar 5)).memWf = true ∧
    (descriptors (movePar 0) = [rowD 0] ∧ byteAt (rowD 0) 2 = 0 ∧ 0 < (c 8 (movePar 0)).core.length ∧ 0 ∈ coresOf 1 ∧
      byteAt (rowD 0) 0 = 0 ∧ field (rowD 0) 28 4 = 1 ∧ field (rowD 0) 24 4 = 64 ∧ field (rowD 0) 8 8 = 4096 ∧ field (rowD 0) 16 8 = 128 ∧
      (c 8 (movePar 0)).inside 0 4096 64 = 64) ∧
    (descriptors (movePar 5) = [rowD 5] ∧ byteAt (rowD 5) 0 = 5 ∧ ((c 0 (movePar 5)).halfOf 0 (c 0 (movePar 5)).closedHalf).bytes = 64 ∧
      (c 0 (movePar 5)).region 0 = some reg0 ∧ reg0.base + (c 0 (movePar 5)).closedHalf * reg0.len = 4224) ∧
    (∀ k < 192, (c 8 (movePar 0)).tenantOk (4096 + k) = true ∧ (4096 + k) / 64 ∉ (c 8 (movePar 0)).hbmPoison) ∧
    (∀ k < 64, (coreMem (c 8 (movePar 0)) 0).offAt (64 * ((128 + k) / 64)) = false) := by decide +kernel
theorem wit_StrokesIssueAndComplete_peer :
    let fl : List Flight := [{ idx := 0, cores := 1, ranges := [], since := 0, undo := [], keep := 0 }]
    let c := fun p => ({ oneStroke 9 p with duct := { Duct.reset with flight := fl },
                                            peer := { PeerSt.reset with run := some { stroke := 0, entry := 0 } } } : Channel)
    (c [0]).duct.flight.any (·.idx == 0) = true ∧ (c [0]).peerDone (stroke 0 9 [0]) = true ∧ (c [1]).peerDone (stroke 0 9 [1]) = false := by decide
/-- A COMMIT in flight with one table: issued before 14,600 ns its apply of 400 ns ends 10 µs before the boundary at 25,000 ns. -/
def committing (since : Nat) : Channel :=
  let c := withDuct (duct [stroke 0 11 []]) (ticking .run)
  { c with img := { c.img with sitemap := some { tailcache := 0, tailSlots := 0, tailRing := 0, deltaRing := 0, tailTimeout := 1000, ntables := 1,
                                                 tables := [{ nlevels := 1, train := 0, tenant := 0, skew := 0, region := 0, work := 0, lrows := 16, updMax := 0,
                                                              migMax := 0, refreshN := 0, lr := 0, beta1 := 0, beta2 := 0, eps := 0, levels := [] }], rsvdOk := true } },
           duct := { Duct.reset with flight := [{ idx := 0, cores := 1, ranges := [], since := since, undo := [], keep := 0 }] } }
theorem wit_StrokesIssueAndComplete_commit :
    let c := fun n => (later (on (committing n)) 0).ch 0
    (duct [stroke 0 11 []]).stroke 0 = some (stroke 0 11 []) ∧ (c 0).img.ductus = some (duct [stroke 0 11 []]) ∧
    (c 0).duct.flight.any (·.idx == 0) = true ∧ (c 0).mayCommit 0 = true ∧ (c 14599).mayCommit 0 = true ∧ (c 14600).mayCommit 0 = false := by decide
def twoBrackets : Ductus :=
  { duct [] with nbrackets := 2, brackets := [{ pointsMax := 100, cellsMax := 10, point := 0, tailCyc := 0, tailFix := 0 },
                                              { pointsMax := 2097152, cellsMax := 1048576, point := 6, tailCyc := 0, tailFix := 0 }] }
/-- Counts at and above the first bracket's limits: the decision is bracket 0, then 1; an overflowed frame is in bracket 1. -/
theorem wit_DecisionFixesTheBracket :
    let c := fun (n : Nat) => ({ inSt .run with front := { FrontSt.reset with points := n, cells := 10 } } : Channel)
    ((c 100).doubts .overflow = false ∧ 0 < twoBrackets.nbrackets ∧ (c 100).front.points ≤ (twoBrackets.bracketAt 0).pointsMax ∧
      (c 100).front.cells ≤ (twoBrackets.bracketAt 0).cellsMax ∧ ((c 100).decideFrame twoBrackets).duct.bracket = 0) ∧
    ((c 101).decideFrame twoBrackets).duct.bracket = 1 ∧
    (((c 0).doubt .overflow).doubts .overflow = true ∧ (((c 0).doubt .overflow).decideFrame twoBrackets).duct.bracket = 1) := by decide
/-- Stroke 1 decides, and is in flight; or another one does. -/
theorem wit_DecisionFixesTheBracket_stroke :
    let d := fun k => { twoBrackets with strokes := two.strokes, decide := k }
    let fl : List Flight := [{ idx := 1, cores := 1, ranges := [], since := 0, undo := [], keep := 0 }]
    let c := fun k => (later (on { withDuct (d k) (ticking .run) with duct := { Duct.reset with flight := fl } }) 0).ch 0
    let st : Stroke := { stroke 1 1 [] with npred := 1, preds := [0] }
    ((c 1).img.ductus = some (d 1) ∧ (d 1).stroke 1 = some st ∧ (c 1).duct.flight.any (·.idx == 1) = true ∧ st.kind ≠ 9 ∧ st.kind ≠ 11 ∧
      st.index = (d 1).decide) ∧ st.index ≠ (d 0).decide := by decide

/-! ### Host packets -/

/-- A running channel whose tenant's session is open. -/
def live (c : Channel) : State := onD opened c
/-- A packet that passes every check on ring 0 of channel 0. -/
def ok (p : Packet) (c : Channel) : Prop := Passes (later (live c) 0) (plain p) 0 ring0
def big : Region := { reg0 with len := 0x100000 }
def roomy (c : Channel) : Channel := { c with img := { c.img with regions := [big] } }
theorem wit_AcceptedPacketAdvancesItsRing :
    Carries (.heartbeat 0 (pkt 13 (hdr [] []))) 0 (plain (pkt 13 (hdr [] []))) ∧ ok (pkt 13 (hdr [] [])) (host .run) :=
  ⟨.heartbeat 0 _ rfl, by unfold ok Passes Checked Reaches; decide⟩
/-- Step 1, step 2, an early step (another tenant) and a late one (an opcode the ring does not admit). -/
theorem wit_DiscardedPacketChangesNothing :
    let p := pkt 13 (hdr [] [])
    let c := { host .run with ctx := [0, 5] }
    let a := later (live c) 0
    let x := later (live { c with rings := [{ ring0 with opmask := 2#32 }] }) 0
    Carries (.malformed 0 { p with version := 2 }) 0 (plain { p with version := 2 }) ∧
    (a.dev.porstN = true ∧ a.dev.link.down = false ∧ p.chan = 0 ∧ ({ p with version := 2 } : Packet).headerOk = false) ∧
    (Reaches a (plain { p with route := 5 }) 0 ∧ ({ p with route := 5 } : Packet).headerOk = true ∧ (a.ch 0).inRing 5 = none) ∧
    (Reaches a (plain p) 0 ∧ p.headerOk = true ∧ (a.ch 0).inRing 0 = some ring0 ∧
      a.earlyWhy 0 ring0 { p with route := 0x40000#32 } = some 0x43 ∧ ({ p with route := 0x40000#32 } : Packet).ring = 0) ∧
    (Reaches x (plain p) 0 ∧ (x.ch 0).inRing 0 = some { ring0 with opmask := 2#32 } ∧ x.earlyWhy 0 { ring0 with opmask := 2#32 } p = none ∧
      (carried x 0 { ring0 with opmask := 2#32 } p).lateWhy 0 { ring0 with opmask := 2#32 } (plain p) = some (0x48, .degraded)) :=
  ⟨.malformed 0 _ rfl, by unfold Reaches; decide⟩

/-- `n` point or telemetry records. -/
def sweepP (op : Byte) (at_ n : Nat) : Packet := pkt op (hdr (List.replicate at_ 0#8 ++ [BitVec.ofNat 8 n]) (List.replicate (16 * n) 1#8))
/-- A stripe of `n` rows of 16 pixels, one byte each. -/
def stripe (n : Nat) : Packet := pkt 2 (hdr [0, 0, 16, 0, 0, 0, BitVec.ofNat 8 n] (List.replicate (16 * n) 1#8))
/-- Eight records of 16 bytes fill the half of 128 bytes; nine are past its end. -/
theorem wit_DataPacketsLand_fit : ok (sweepP 1 8 8) (host .run) ∧ ok (stripe 8) (host .run) ∧ ok (sweepP 3 4 8) (host .run) := by
  unfold ok Passes Checked Reaches; decide +kernel
/-- Ring 0's region belongs to tenant 1: the firewall keeps ingest out of it. -/
def foreignCh : Channel := { host .run with img := { (host .run).img with regions := [{ reg0 with tenant := 1 }] } }
theorem wit_DiscardedPacketChangesNothing_firewall :
    let p := sweepP 1 8 8
    Carries (.sweep 0 p) 0 (plain p) ∧ Checked (later (live foreignCh) 0) (plain p) 0 ring0 ∧
    ((later (live foreignCh) 0).ch 0).ingestOk ring0 p = false ∧ ((later (live foreignCh) 0).ch 0).region ring0.region = some { reg0 with tenant := 1 } :=
  ⟨.sweep 0 _ rfl, by unfold Checked Reaches; decide +kernel⟩
theorem wit_DataPacketsLand_past : ok (sweepP 1 8 9) (host .run) ∧ ok (stripe 9) (host .run) ∧ ok (sweepP 3 4 9) (host .run) := by
  unfold ok Passes Checked Reaches; decide +kernel
theorem wit_DataPacketsLand :
    let c := (later (live (host .run)) 0).ch 0
    c.region ring0.region = some reg0 ∧ reg0.input = true ∧ c.memWf = true ∧
    (c.halfOf 0 (c.openFrame % 2)).bytes + (bytesAt (sweepP 1 8 8).payload 64 ((sweepP 1 8 8).len - 64)).length = reg0.len ∧
    reg0.len < (c.halfOf 0 (c.openFrame % 2)).bytes + (bytesAt (sweepP 1 8 9).payload 64 ((sweepP 1 8 9).len - 64)).length := by decide +kernel

/-- Margin reads a safety ring's points and samples, of a packet past the end of the half as well. -/
def seen : Channel :=
  { host .run with rings := [{ ring0 with safety := true }],
                   img := { (host .run).img with safety := some { safetyCfg with rangeMode := true, powerMode := true } } }
theorem wit_DataPacketsLand_margin :
    let r : Ring := { ring0 with safety := true }
    let a := later (live seen) 0
    (∀ p ∈ [sweepP 1 8 8, sweepP 1 8 9, sweepP 3 4 8, stripe 8], Passes a (plain p) 0 r) ∧ (a.ch 0).marginReads 1 r = true ∧
    (a.ch 0).marginReads 3 r = true ∧ (a.ch 0).region r.region = some reg0 ∧
    (a.ch 0).img.safety.map (fun x => (x.rangeMode, x.powerMode)) = some (true, true) := by
  unfold Passes Checked Reaches; decide +kernel

def tableCfg : MapTable :=
  { nlevels := 1, train := 0, tenant := 0, skew := 0, region := 0, work := 0, lrows := 16, updMax := 0, migMax := 0, refreshN := 0, lr := 0, beta1 := 0,
    beta2 := 0, eps := 0, levels := [{ edge := 0x3F800000#32, log2 := 4 }] }
/-- A site map of one table, with tail slots 0 and 1. -/
def mapped (c : Channel) : Channel :=
  { c with map := { c.map with tables := [TableSt.reset] },
           img := { c.img with sitemap := some { tailcache := 0, tailSlots := 2, tailRing := 0, deltaRing := 0, tailTimeout := 1000, ntables := 1,
                                                 tables := [tableCfg], rsvdOk := true } } }
/-- 2,048 rows at 4096, the index at 4096 + 80,000h. -/
def publishP : Packet := pkt 9 (hdr (leBytes 4 0 ++ leBytes 4 2048 ++ leBytes 8 4096 ++ leBytes 8 0x81000) [])
theorem wit_StagedPacketsTakeTheirPlace :
    ok (pkt 4 (hdr [0] [])) (host .run) ∧ ok (pkt 5 (hdr (leBytes 8 4096) (List.replicate 64 1#8))) (host .run) ∧
    ok publishP (roomy (mapped (host .run))) ∧ (roomy (mapped (host .run))).map.tables[byteAt publishP.payload 0]? = some TableSt.reset := by
  unfold ok Passes Checked Reaches; decide +kernel

def tailReq : TailReq := { id := 9, frame := 0, table := 0, folio := 0, page := 3, since := 0 }
def tailKeyed (cur : Nat) (prev : Option (Nat × Key)) (free : Bool) : Channel :=
  let c := roomy (mapped (host .run))
  { c with map := { c.map with tables := [{ TableSt.reset with keyCur := some (cur, .zeros), keyPrev := prev }], reqs := [tailReq],
                               slots := if free then [] else [⟨0, 0, 0, 0, true⟩, ⟨1, 0, 0, 1, true⟩] } }
/-- Generation 1 is the current one, with and without a free slot. -/
def tailCh (free : Bool) : Channel := tailKeyed 1 none free
/-- Generation 1 is the previous one, and ring 16 can send DELTA. -/
def tailPrev (free : Bool) : Channel :=
  let c := tailKeyed 2 (some (1, .zeros)) free
  { c with rings := [ring0, { ring0 with num := 16, out := true, bidir := false, opmask := 0x80#32 }],
           img := { c.img with sitemap := c.img.sitemap.map fun x => { x with deltaRing := 16 } } }
/-- It is neither. -/
def tailNone : Channel := tailKeyed 2 (some (3, .zeros)) true
def tailP : Packet := { pkt 6 (hdr (leBytes 4 9 ++ [0, 0, 1, 0] ++ leBytes 4 3) []) with length := 65600 }
def page (ok : Bool) : SealedPage := { key := .zeros, table := 0, folio := 0, gen := 1, page := 3, serial := 0, intact := ok, plain := [] }
theorem wit_TailpagesInstall (b free : Bool) :
    (∀ c ∈ [tailCh free, tailPrev free, tailNone], Passes (later (live c) 0) { plain tailP with page := some (page b) } 0 ring0) := by
  unfold Passes Checked Reaches; revert b free; decide
theorem wit_TailpagesInstall_clauses :
    let at_ := fun (c : Channel) => (later (live c) 0).ch 0
    let c := at_ (tailCh true)
    let p := at_ (tailPrev true)
    let n := at_ tailNone
    let total := fun (c : Channel) => (c.img.sitemap.map (·.tailSlots)).getD 0
    let good := fun (pg : SealedPage) => pg.intact && pg.key == .zeros && pg.table == 0 && pg.folio == 0 && pg.gen == 1 && pg.page == 3
      && pg.serial == (c.tab 0).current.elim 0 (·.serial)
    (tailP.tailReq c = some tailReq ∧ tailP.tailReq p = some tailReq ∧ tailP.tailReq n = some tailReq ∧ tailP.tail.gen = 1) ∧
    ((c.tab 0).keyCur = some (1, .zeros) ∧ c.memWf = true ∧ freeSlots (total c) c.map.slots ≠ [] ∧
      freeSlots (total c) (at_ (tailCh false)).map.slots = []) ∧
    ((p.tab 0).keyCur = some (2, .zeros) ∧ (p.tab 0).keyPrev = some (1, .zeros) ∧ p.memWf = true ∧ freeSlots (total p) p.map.slots ≠ [] ∧
      p.sends 16 7 = true ∧ p.roomOther = true ∧ c.sends 0 7 = false ∧ freeSlots (total p) (at_ (tailPrev false)).map.slots = []) ∧
    ((n.tab 0).keyCur = some (2, .zeros) ∧ (n.tab 0).keyPrev = some (3, .zeros)) ∧ good (page true) = true ∧ good (page false) = false := by
  decide
/-- One ns past TAIL_TIMEOUT of 1,000 µs. -/
theorem wit_TailpagesInstall_timeout :
    let c := (later (live (atNs 1000001 (tailCh true))) 0).ch 0
    ∃ q ∈ c.map.reqs, q.id = 9 ∧ (c.img.sitemap.map (·.tailTimeout)).getD 0 * 1000 < c.local - q.since :=
  ⟨tailReq, List.mem_singleton.2 rfl, by decide⟩

/-- A REGREAD of the channel's first word. -/
def readP : Packet := pkt 7 (hdr (leBytes 4 1 ++ leBytes 4 0x1000000 ++ leBytes 2 1) [])
/-- A boundary due in 2,000 ns is near; in 2,001 ns it is not. -/
def dueIn (n : Nat) : Channel := { host .run with tick := { (host .run).tick with nextDue := n } }
theorem wit_RegreadAnswers :
    (readP.op = 7 ∧ readP.ring = 0 ∧ ok readP (dueIn 2000) ∧ ok readP (dueIn 2001)) ∧
    (let c := (later (live (dueIn 2001)) 0).ch 0; c.boundaryNear = false ∧ c.regHeld = [] ∧ c.roomOther = true) ∧
    ((later (live (dueIn 2000)) 0).ch 0).boundaryNear = true ∧
    (let a := later (live { dueIn 2001 with regHeld := [readP] }) 0
     let c := a.ch 0
     c.regHeld = [readP] ∧ c.boundaryNear = false ∧ (∀ k, (a.ch k).ctxWait = []) ∧ c.roomOther = true) := by
  unfold ok Passes Checked Reaches; decide
/-- RSTATUS 0, 1 and 2: the channel's own word, channel 1's, and an address where nothing is mapped. -/
theorem wit_RegreadAnswers_status :
    let a := later (live (dueIn 2001)) 0
    readStatus a 0 0x1000010 1 = 0 ∧ readStatus a 0 0x2000000 1 = 1 ∧ readStatus a 0 0x6000000 1 = 2 ∧
    ok { readP with payload := hdr (leBytes 4 1 ++ leBytes 4 0x2000000 ++ leBytes 2 1) [] } (dueIn 2001) := by
  unfold ok Passes Checked Reaches; decide
/-- One word for the doubts of the frame, with and without ACK. -/
def writeP (ack : Bool) : Packet :=
  { pkt 8 (hdr (leBytes 4 1 ++ leBytes 4 0x1000904 ++ leBytes 2 1) [0, 0, 0, 0]) with flags := if ack then 3 else 1 }
theorem wit_RegwriteApplies_places :
    Awake (live (host .run)) ∧ placeOf 0x6000000 = .nowhere ∧ (placeOf 0x10 = .device 0x10 ∧ 0x10 ≠ 0x090 ∧ 0x10 ≠ 0x200) ∧
    ((later (live (host .run)) 0).chWord 0 true 0x90C).isSome = true ∧ named 0x564 0 .ceHbm = false :=
  ⟨⟨rfl, rfl⟩, by decide, by decide +kernel, by decide +kernel, by decide⟩
theorem wit_RegwriteApplies :
    (ok (writeP true) (host .run) ∧ ok (writeP false) (host .run) ∧ (writeP true).ack = true ∧ (writeP false).ack = false ∧ (host .run).roomOther = true) ∧
    (placeOf 0x1000900 = .channel 0 0x900 ∧ ((later (live (host .run)) 0).chWord 0 true 0x900).isSome = true ∧ inView 0x900 = false ∧
      imFields 0x900 = 0 ∧ 0x900 ≠ 0x90C) ∧
    (placeOf 0x2000900 = .channel 1 0x900 ∧ (1 : Ch) ≠ 0) ∧
    (∃ old, (later (live (host .run)) 0).chWord 0 false 0x900 = some old ∧ (old ^^^ old) &&& roMask (.channel 0 0x900) = 0) :=
  ⟨by unfold ok Passes Checked Reaches; decide, by decide +kernel, by decide +kernel, _, rfl, by decide +kernel⟩

/-! ### Keys and the xSPI memory -/

def secret : Kem := { toEk := 0, secret := 3 }
def installP (scope gen : Byte) (confirm : List Byte) : Packet :=
  { pkt 10 [] with length := 1632, payload := [scope, 0, 0, gen, 0, 0, 0, 0, 0, 0, 0, 0, 0, 0, 0, 0] ++ confirm }
def retireP (scope : Byte) : Packet := pkt 10 (hdr [scope, 0, 1, 0] [])
/-- The same with the previous key still held. -/
def previous (c : Channel) : State :=
  onD (fun d => { d with signet := { d.signet with sessions := d.signet.sessions.set 0 { Session.reset with isOpen := true, prevLive := true } } }) c
theorem confirms (scope gen : Byte) (k : Key) : Packet.confirms (installP scope gen k.confirm) k = true := by
  simp [Packet.confirms, installP, bytesAt, Key.confirm, Shake.shake256, List.take_of_length_le]
/-- A packet of opcode 10 that passes the first steps passes them all when its rotation is in order. -/
theorem passes_rotation (a : Hw) (r : Ring) (p : Packet) (k : Option (Kem × Nat))
    (h : (Reaches a (plain p) 0 ∧ p.headerOk = true ∧ (a.ch 0).inRing p.ring = some r ∧ r.num = p.ring ∧ a.earlyWhy 0 r p = none) ∧
      (a.ch 0).ingestOk r p = true ∧ p.op = 10 ∧ seqStep r p < 2 ^ 31 ∧ r.opmask.getLsbD 10 = true)
    (h4 : (carried a 0 r p).rotateOk 0 r.tenant p k = true) : Passes a { plain p with kem := k } 0 r := by
  obtain ⟨⟨b1, b2, b3, b4, b5⟩, b6, b7, b8, b9⟩ := h
  refine ⟨⟨b1, b2, b3, b4, b5, ?_⟩, b6⟩
  have c8 : ¬2147483648 ≤ seqStep r p := by omega
  have c9 : r.opmask[10] = true := b9
  simp [Hw.lateWhy, Channel.inFirewall, Hw.payloadOk, plain, b7, c9, h4, c8]
theorem rotates_session (a : Hw) (p : Packet) (ct : Kem) (wrong : Nat) (k : Key) (e : a.nextSessionKey 0 (ct.yields (a.session 0).ekD wrong) = k)
    (c : Packet.confirms p k = true)
    (h : p.rotate.scope = 0 ∧ p.rotate.target = 0 ∧ p.gen = (a.session 0).genCur ∧ p.rotate.action = 0 ∧
      p.rotate.newGen = ((a.session 0).genCur + 1) % 4 ∧ (a.session 0).prevLive = false ∧ p.len = 1632) :
    a.rotateOk 0 0 p (some (ct, wrong)) = true := by
  obtain ⟨h1, h2, h3, h4, h5, h6, h7⟩ := h
  simp [Hw.rotateOk, h1, h2, h3, h4, h5, h6, h7, e, c]
theorem rotates_table (a : Hw) (p : Packet) (ct : Kem) (wrong : Nat) (k : Key)
    (e : a.nextTableKey 0 0 p.rotate.target p.rotate.newGen (ct.yields (a.session 0).ekD wrong) = k) (c : Packet.confirms p k = true)
    (h : p.rotate.scope = 1 ∧ p.rotate.target < (a.ch 0).map.tables.length ∧ p.rotate.action = 0 ∧ p.rotate.newGen < 4 ∧
      ((a.ch 0).tab p.rotate.target).installOk p.rotate.newGen = true ∧ p.len = 1632) :
    a.rotateOk 0 0 p (some (ct, wrong)) = true := by
  obtain ⟨h1, h2, h3, h4, h5, h6⟩ := h
  simp [Hw.rotateOk, h1, h2, h3, h4, h5, h6, e, c]
/-- The key that the secret 3 makes of tenant 0's first one; it is the sealed secret, or what another ciphertext yields. -/
def nextKey : Key := (later (live (host .run)) 0).nextSessionKey 0 3
theorem wit_KeysRotate_session (ct : Kem) (wrong : Nat) (h : ct.yields 0 wrong = 3) :
    (installP 0 1 nextKey.confirm).op = 10 ∧ (installP 0 1 nextKey.confirm).rotate.scope = 0 ∧ (installP 0 1 nextKey.confirm).rotate.action = 0 ∧
    Passes (later (live (host .run)) 0) { plain (installP 0 1 nextKey.confirm) with kem := some (ct, wrong) } 0 ring0 := by
  refine ⟨by decide, by decide, by decide, passes_rotation _ _ _ _ (by unfold Reaches; decide) ?_⟩
  have e : (carried (later (live (host .run)) 0) 0 ring0 (installP 0 1 nextKey.confirm)).nextSessionKey 0 3 = nextKey ∧
    ((carried (later (live (host .run)) 0) 0 ring0 (installP 0 1 nextKey.confirm)).session 0).ekD = 0 := by decide
  exact rotates_session _ _ _ _ nextKey (by rw [e.2, h, e.1]) (confirms ..) (by decide)
theorem wit_KeysRotate_secrets : secret.yields 0 0 = 3 ∧ ({ toEk := 7, secret := 5 } : Kem).yields 0 3 = 3 := by decide
theorem wit_KeysRotate_retire :
    (retireP 0).rotate.scope = 0 ∧ (retireP 0).rotate.action = 1 ∧ Passes (later (previous (host .run)) 0) (plain (retireP 0)) 0 ring0 := by
  unfold Passes Checked Reaches; decide
def keyed : Channel :=
  { host .run with map := { MapSt.reset with tables := [{ TableSt.reset with keyCur := some (1, .zeros), keyPrev := some (0, .zeros) }] } }
def firstTableKey : Key := (later (live (mapped (host .run))) 0).nextTableKey 0 0 0 3 3
theorem wit_KeysRotate_table :
    let p := installP 1 3 firstTableKey.confirm
    p.op = 10 ∧ p.rotate.scope = 1 ∧ p.rotate.action = 0 ∧
    Passes (later (live (mapped (host .run))) 0) { plain p with kem := some (secret, 0) } 0 ring0 := by
  refine ⟨by decide, by decide, by decide, passes_rotation _ _ _ _ (by unfold Reaches; decide) ?_⟩
  exact rotates_table _ _ _ _ firstTableKey (by decide) (confirms ..) (by decide +kernel)
theorem wit_KeysRotate_table_retire :
    (retireP 1).rotate.scope = 1 ∧ (retireP 1).rotate.action = 1 ∧ Passes (later (live keyed) 0) (plain (retireP 1)) 0 ring0 := by
  unfold Passes Checked Reaches; decide
/-- The maintenance ring. -/
def ringM : Ring := { ring0 with opmask := 0x2980#32 }
def maintCh (erased : Bool) : Channel :=
  { inSt .maint with maint := some { active := true, tenant := 0, key := .zeros, session := 1 }, maintRing := some ringM,
                     nvm := { Nvm.reset with erased := erased } }
/-- A sector of data at `sector`, erasing first or not, under KM and SESSION 1. -/
def nvmP (sector : Nat) (erase : Byte := 1) : Packet :=
  let p := pkt 11 (hdr (leBytes 4 (4096 * sector) ++ [erase]) (List.replicate 4096 0#8))
  { p with length := 4160, sealed := { p.sealed with nonce := List.replicate 8 0#8 ++ leBytes 4 1 } }
/-- The same with a byte of sector 1 programmed to 0, over which FFh is to be written. -/
def worn : Channel := { maintCh true with nvm := { (maintCh true).nvm with cells := [(4096, 0#8)] } }
def onesP : Packet := { nvmP 1 0 with payload := hdr (leBytes 4 4096 ++ [0]) (List.replicate 4096 0xFF#8) }
/-- Sector 0, sector 1 and the last sector of 64 MiB. -/
theorem wit_NvmwriteProgramsFlash :
    Passes (later (on (maintCh false)) 0) { plain (nvmP 0) with badPages := [], eraseFails := false } 0 ringM ∧
    Passes (later (on (maintCh true)) 0) { plain (nvmP 1) with badPages := [], eraseFails := false } 0 ringM ∧
    Passes (later (on (maintCh true)) 0) { plain (nvmP 16383) with badPages := [], eraseFails := false } 0 ringM ∧
    Passes (later (on (maintCh true)) 0) { plain (nvmP 1 0) with badPages := [], eraseFails := false } 0 ringM ∧
    Passes (later (on worn) 0) { plain onesP with badPages := [], eraseFails := false } 0 ringM := by
  unfold Passes Checked Reaches; decide
/-- Without the erase flag: zeros can always be programmed, FFh not over a cleared byte. -/
theorem wit_NvmwriteProgramsFlash_takes :
    (nvmP 1 0).nvmErase = false ∧ (∀ x : Byte, x &&& 0#8 = 0#8) ∧ onesP.nvmErase = false ∧ worn.memWf = true ∧
    Cells.byte norDefault worn.nvm.cells 4096 &&& (bytesAt onesP.payload 64 4096).getD 0 0 ≠ (bytesAt onesP.payload 64 4096).getD 0 0 :=
  ⟨by decide, fun x => by simp, by decide, by decide, by decide +kernel⟩
theorem wit_NvmwriteProgramsFlash_clauses :
    (nvmP 0).op = 11 ∧ (nvmP 0).nvmOffset = 0 ∧ (nvmP 1).nvmOffset = 4096 ∧ (nvmP 1).nvmErase = true ∧ (maintCh false).memWf = true ∧
    (maintCh false).nvm.erased = false ∧ (bytesAt (nvmP 0).payload 64 1) ≠ [] ∧ (nvmP 0).len - 64 = 4096 := by decide

/-! ### Membership, heartbeats and waiting -/

/-- Epoch, members and position. -/
def memberP (e m p : Nat) : Packet := pkt 12 (hdr (leBytes 4 e ++ [BitVec.ofNat 8 m, BitVec.ofNat 8 p]) [])
/-- Epoch 5, members 0 and 1, position 1. -/
def joined (x : ChState) : Channel := { host x with peer := { PeerSt.reset with epoch := 5, seen := 5, members := 3, position := some 1 } }
theorem wit_MembershipAndHeartbeat :
    (ok (memberP 6 3 1) (joined .run) ∧ (joined .run).memberCase (memberP 6 3 1).member = .replace ∧ (joined .run).peer.seen.toNat ≤ (memberP 6 3 1).member.epoch.toNat) ∧
    (ok (memberP 0 1 0) (host .run) ∧ (host .run).memberCase (memberP 0 1 0).member = .replace) ∧
    (ok (memberP 5 3 1) (joined .run) ∧ (joined .run).memberCase (memberP 5 3 1).member = .same) ∧
    (ok (memberP 6 1 1) (joined .run) ∧ (joined .run).memberCase (memberP 6 1 1).member = .removed ∧ (joined .run).st ≠ .fenced) ∧
    ok (pkt 13 (hdr [] [])) (host .ready) := by unfold ok Passes Checked Reaches; decide
theorem wit_MembershipAndHeartbeat_fenced :
    ok (memberP 6 1 1) { joined .fenced with resv := some 134 } ∧ (joined .fenced).memberCase (memberP 6 1 1).member = .removed ∧
    (joined .fenced).st = .fenced := by unfold ok Passes Checked Reaches; decide
/-- HB_TIMEOUT of 1 ms: a HEARTBEAT that comes a nanosecond late. -/
theorem wit_MembershipAndHeartbeat_lapse :
    let a := later (live { host .run with hbLast := some 0 }) 1000001
    (Passes a (plain (pkt 13 (hdr [] []))) 0 ring0 ∧ (a.ch 0).st.ticks = true ∧ (a.ch 0).grd.hbRaised = false) ∧ a.hbLapse 0 ≠ none := by
  unfold Passes Checked Reaches; decide
theorem test_late_heartbeat_doubts :
    let s := live { host .run with hbLast := some 0 }
    let f := fun (h : Hw) => ((h.ch 0).doubts .heartbeat, (h.ch 0).hbLast)
    after (execHeartbeat 1000001 (pkt 13 (hdr [] [])) s) f = some (true, some 1000001) ∧
    after (execHeartbeat 1000000 (pkt 13 (hdr [] [])) s) f = some (false, some 1000000) := by decide
/-- A packet that waits behind a held write of ring 0, whose context leaves a cache; one already counted is not counted again (R501). -/
theorem test_evicted_context_counts :
    let c := fun b => { host .run with ctxWait := [{ plain readP with missed := b }] }
    ((c false).evictCtx 0).count .ctxMisses = 1 ∧ ((c true).evictCtx 0).count .ctxMisses = 0 ∧
    ((c false).evictCtx 0).ctxWait.map (·.missed) = [true] ∧ ((c false).evictCtx 0).uncached 0 = true := by decide
def held (applying : Bool) : HostWrite := { id := 4, ring := 0, frame := 6, addr := 4096, bytes := [1, 2], also := none, bad := [], applying := applying, held := false }
theorem wit_WaitingPacketsGoOn :
    (let c := (later (live { host .run with ctx := [], ctxWait := [plain readP] }) 0).ch 0; c.behind 0 = true ∧ 0 ∉ c.ctx) ∧
    (let a := later (live { host .run with writes := [held false] }) 0
     (a.ch 0).writeOf 4 = some (held false) ∧ (a.ch 0).mayApply (held false) = true ∧ ∀ k, (a.ch k).ctxWait = []) ∧
    (let a := later (live { host .run with writes := [held true] }) 0
     (a.ch 0).writeOf 4 = some (held true) ∧ (a.ch 0).mayLand (held true) = true ∧ (∀ k, (a.ch k).ctxWait = []) ∧ (a.ch 0).memWf = true) := by decide
def hairR : Ring := { ring0 with hairpinTo := 0 }
def hairPkt : HairPkt := { stroke := none, unit := 0, srcRing := 0, target := 0, addr := 4096, bytes := List.replicate 64 1#8, bad := [] }
/-- From channel 1 to ring 0 of channel 0, and within channel 0; SOURCE names the sender. -/
theorem wit_HairpinDelivers :
    let c := { host .run with hairQ := [hairPkt] }
    let a := later (live c) 0
    let b := later { hw := { Hw.reset with dev := devOn, ch0 := { host .run with rings := [{ ring0 with source := 1 }] }, ch1 := c }, pending := [] } 0
    ((a.ch 0).hairQ = [hairPkt] ∧ (Fin.ofNat 4 (hairPkt.target / 65536) : Ch) = 0 ∧ 0 ∈ (a.ch 0).ctx ∧ (a.ch 0).ringHeld 0 = false ∧
      (a.ch 0).behind 0 = false ∧ (a.ch 0).inRing 0 = some ring0 ∧ ring0.num = hairPkt.target % 65536 ∧ a.hairOk 0 0 hairPkt ring0 = true ∧
      (a.ch 0).inWindow ring0 hairPkt.addr hairPkt.bytes.length = true) ∧
    ((b.ch 1).hairQ = [hairPkt] ∧ (b.ch 0).inRing 0 = some { ring0 with source := 1 } ∧ b.hairOk 1 0 hairPkt { ring0 with source := 1 } = true) := by
  decide

/-! ### Control and power -/

theorem wit_ControlsLatentAndFence :
    ¬Awake State.reset ∧ Awake (on (ticking .run)) ∧
    ((later (on { ticking .run with mrg := { MarginSt.reset with latent := true } }) 0).ch 0).mrg.latent = true ∧
    (∃ u, u < 9 ∧ (256#9).getLsbD u = true ∧ u ∉ ((later (on (ticking .run)) 0).ch 0).fenced) ∧ (ticking .run).st = .run := by
  unfold Awake; decide
/-- The bounds of the cap and of its rate limit, with 134 reserved beside the standing 370. -/
theorem wit_PowerCapIsGuarded :
    let a := later (on { inSt .ready with resv := some 1000 }) 0
    let b := later (on (inSt .ready)) 0
    (1200 ≤ 2650 ∧ 2650 ≤ 2650 ∧ a.reserved ≤ 2650) ∧ (1200 ≤ 1200 ∧ b.reserved ≤ 1200) ∧ (1200 ≤ 1369 ∧ 1369 ≤ 2650 ∧ 1369 < a.reserved) ∧
    State.reset.hw.dev.porstN = false ∧ 1370 = a.reserved ∧ 1199 < 1200 ∧ 2650 < 2651 ∧
    (a.dev.signet.lastRefused.all fun x => decide (x + 100000000 ≤ a.now)) = true ∧
    (let d := later (onD (fun d => { d with signet := { d.signet with lastRefused := some 0 } }) (inSt .ready)) 99999999
     (d.dev.signet.lastRefused.all fun x => decide (x + 100000000 ≤ d.now)) = false) := by decide
theorem wit_PowerCapIsGuarded_signed : Accepts (later (onD fused { inSt .ready with resv := some 1000 }) 0) req false := accepts _

/-! ### Records and outbound packets -/

def errRec (sev : Severity) : ErrRec :=
  { severity := sev, code := 0xA0#8, channel := some 0, initiator := 0, detail0 := none, detail1 := none, k := 0, time := 0, dropped := 0 }
def errEnt (sev : Severity) : ErrEntry := { record := errRec sev, carry := .waiting, id := 0 }
/-- A full queue of NOTEs but for a DEGRADED newest: entry 30 is the newest of the least severity. -/
def fullQ : Channel := { inSt .run with errq := List.replicate 31 (errEnt .note) ++ [errEnt .degraded] }
theorem wit_ErrorQueueKeepsTheWorst :
    fullQ.errq.length = 32 ∧ (inSt .run).errq.length < 32 ∧ (errRec .note).severity.toNat = 0 ∧
    (∃ e, fullQ.errq[30]? = some e ∧ e.record.severity.toNat < (errRec .doubt).severity.toNat) ∧
    ((fullQ.putErr (errRec .doubt)).errq.map (·.record.severity)) = List.replicate 30 .note ++ [.degraded, .doubt] ∧
    (fullQ.putErr (errRec .note)).errq = fullQ.errq := ⟨rfl, by decide, rfl, ⟨_, rfl, by decide⟩, by decide, by decide +kernel⟩
theorem fullQ_newest : ∀ j f, 30 < j → fullQ.errq[j]? = some f → (errEnt .note).record.severity.toNat < f.record.severity.toNat := by
  intro j f hj h
  have : j = 31 := by
    have := (List.getElem?_eq_some_iff.1 h).1
    have h2 : fullQ.errq.length = 32 := rfl
    omega
  subst this; cases h; decide
def envPkt : OutPkt := { body := .envelope mainRec, ring := 16, frametag := 0, reports := none, eom := true }
def stPkt : OutPkt := { body := .status 0 .run 0 0 0, ring := 0, frametag := 0, reports := none, eom := true }
def outCh (q : List OutPkt) : Channel := { host .run with rings := [ring0, envRing], outq := q }
/-- 63 others and one ENVELOPE fill the queue. -/
theorem wit_OutboundQueueIsBounded :
    let c := (on (outCh (List.replicate 63 stPkt ++ [envPkt]))).hw.ch 0
    (c.outq.length = 64 ∧ c.outq.length - c.envQueued ≤ 63) ∧ envPkt.body.isEnv = true ∧ ((on (outCh [])).hw.ch 0).roomOther = true ∧
    ((on (outCh (List.replicate 63 stPkt))).hw.ch 0).roomOther = false := by decide
theorem wit_OutboundSendSealsOnePacket :
    let s := live (outCh [stPkt, envPkt])
    s.hw.dev.porstN = true ∧ s.hw.dev.link.down = false ∧
    (later s 0).nonceHeld.nextOut = some { m := 0, idx := 1, pkt := envPkt, ring := envRing } ∧ (later (live (outCh [])) 0).nonceHeld.nextOut = none ∧
    ((later s 0).nonceHeld.ch 0).ring 16 = some envRing := by decide
/-- Ring 0 in MAINT, under KM; and a queue whose room a record that had none takes. -/
theorem wit_OutboundSendSealsOnePacket_maint :
    let s := live { maintCh false with outq := [stPkt] }
    let u := live { outCh [stPkt] with errq := [{ record := { severity := .note, code := 0xA0#8, channel := some 0, initiator := 0, detail0 := none, detail1 := none,
                                                              k := 0, time := 0, dropped := 0 }, carry := .unsent, id := 0 }] }
    (later s 0).nonceHeld.nextOut = some { m := 0, idx := 0, pkt := stPkt, ring := ringM } ∧ ((later s 0).nonceHeld.ch 0).st = .maint ∧ ringM.num = 0 ∧
    (later u 0).nonceHeld.nextOut = some { m := 0, idx := 0, pkt := stPkt, ring := ring0 } ∧
    (∀ e ∈ ((later s 0).nonceHeld.ch 0).errq, e.carry ≠ .unsent) ∧ ((later s 0).nonceHeld.ch 0).map.unsentFetch = [] ∧
    (∀ x ∈ ((later s 0).nonceHeld.ch 0).map.tables, x.exports = []) := by decide
/-- A READY channel that entered MAINT in this ns, with the response; HBM is the one it had. -/
def justMaint : State :=
  let s := onD fused (inSt .maint)
  { s with hw := { s.hw with emitted := [.mgmt 0x15 0 (.maint { toEk := 1, secret := 2 } 7)]
                             due := [{ ch := 0, command := 0x15, rank := 5, reply := 0, was := { inSt .ready with hbm := [(7, 1#8)] } }] } }
theorem wit_ErrorHandleActs :
    let c := fun (st : ChState) (sev : Severity) => ({ ticking st with errq := [errEnt sev] } : Channel)
    ((c .run .doubt).nextErr = some (errEnt .doubt) ∧ (errEnt .doubt).record.severity ≠ .channelStop) ∧
    ((c .run .channelStop).nextErr = some (errEnt .channelStop) ∧ (c .run .channelStop).tick.ticking = true ∧ (c .run .channelStop).st.ticks = true) ∧
    (let x := { inSt .ready with errq := [errEnt .channelStop] }
     x.nextErr = some (errEnt .channelStop) ∧ x.tick.ticking = false ∧ x.st ≠ .off ∧ x.st ≠ .stopped ∧ x.outranked 0 4 = false) ∧
    (c .run .channelStop).outranked 0 4 = false ∧ ({ c .run .channelStop with moved := some (0, 3) } : Channel).outranked 0 4 = true ∧
    (let x := { inSt .stopped with errq := [errEnt .channelStop] }
     x.nextErr = some (errEnt .channelStop) ∧ x.st = .stopped) := by decide
/-- T(0) at this ns, which a CHANNEL_STOP of it drops; a nanosecond later it waits for the boundary. -/
def justRun : Channel := { ticking .run with tick := { Tick.reset with ticking := true }, errq := [errEnt .channelStop] }
theorem wit_ErrorHandleActs_run :
    let a := later (on justRun) 0
    (a.ch 0).nextErr = some (errEnt .channelStop) ∧ (a.ch 0).ranNow a.now = true ∧ (a.ch 0).outranked a.now 4 = false ∧
    (ticking .run).ranNow 0 = false ∧ ((later justMaint 0).due.any (Due.below 0 4)) = true ∧ (later justMaint 0).dev.signet.lastRefused = none := by decide
theorem test_stop_in_the_cycle_of_run :
    let f := fun (h : Hw) => ((h.ch 0).st, (h.ch 0).stopPending.isSome)
    after (execErrorHandle 0 0 (on justRun)) f = some (.stopped, false) ∧ after (execErrorHandle 1 0 (on justRun)) f = some (.run, true) := by decide
/-- A status can be sent where the rings are loaded and the session is open. -/
theorem wit_ErrorHandleActs_status :
    let s := live { host .ready with tick := Tick.reset, errq := [errEnt .channelStop] }
    (s.hw.canStatus 0 = true ∧ (s.hw.ch 0).roomOther = true ∧ (s.hw.ch 0).nextErr = some (errEnt .channelStop) ∧ (s.hw.ch 0).tick.ticking = false) ∧
    (on { inSt .ready with errq := [errEnt .channelStop] }).hw.canStatus 0 = false ∧
    (live (outCh (List.replicate 63 stPkt))).hw.canStatus 0 = true ∧ ((live (outCh (List.replicate 63 stPkt))).hw.ch 0).roomOther = false := by
  decide

/-! ### Management -/

theorem wit_AttestationReads :
    Awake (on (inSt .off)) ∧ (on (inSt .off)).hw.dev.signet.ready = true ∧ (List.replicate 32 0#8).length = 32 ∧ (7 < 8 ∧ 0xFF = 0xFF) :=
  ⟨awake _, rfl, rfl, by decide⟩
/-- Each reason of refusal: not ready, no signature, another key, no authority fused, an old COUNTER. -/
theorem wit_SignedCommandsCount :
    signedOf (.readErrors 0 req) = some (0, 0x14, req, false) ∧ Awake (onD fused (inSt .off)) ∧
    (onD (fun d => { d with signet := { d.signet with ready := false } }) (inSt .off)).hw.dev.signet.ready = false ∧
    ({ req with sigOk := false } : Signed).sigOk = false ∧
    (∃ d, (onD (fun d => { d with fuses := { d.fuses with authority := some [] } }) (inSt .off)).hw.dev.fuses.authority = some d ∧ Shake.shake256 32 [] ≠ d) ∧
    (on (inSt .off)).hw.dev.fuses.authority = none ∧ signedOf (.provisionOwner 0 req 4 []) = some (0, 0x18, req, true) ∧
    ({ req with counter := 0 } : Signed).counter ≤ (onD fused (inSt .off)).hw.dev.signet.mgCounter ∧
    Accepts (later (onD fused (inSt .off)) 0) req false :=
  ⟨rfl, ⟨rfl, rfl⟩, rfl, rfl, ⟨_, rfl, by decide⟩, rfl, rfl, Nat.le_refl 0, accepts _⟩
theorem wit_ManagementRegisters :
    Accepts (later (onD fused (host .run)) 0) req false ∧
    ((0x1000904#32).toNat % 4 = 0 ∧ 1 ≤ 64 ∧ 64 ≤ 64 ∧ placeOf ((0x1000904#32).toNat + 4 * 0) = .channel 0 0x904) ∧
    (counted (later (on (host .run)) 0) req).word none (placeOf (0x5000000 + 4 * 0)) = none ∧
    (placeOf (0x1000900#32).toNat = .channel 0 0x900 ∧ (0x1000900#32).toNat % 4 = 0 ∧ inView 0x900 = false ∧ 0x900 ≠ 0x90C ∧
      ((counted (later (on (host .run)) 0) req).chWord 0 false 0x900).isSome) :=
  ⟨accepts _, by decide⟩
/-- A counter, MG_COUNTER, CH_STATE, and a word whose defined bits are all W1C: 508h. -/
theorem wit_ManagementRegisters_words :
    let a := counted (later (on (host .run)) 0) req
    (ctrAt 0x184 = some .ductMiss ∧ placeOf 0x1000184 = .channel 0 0x184 ∧ a.chWord 0 false 0x184 = some 0 ∧ (1#32).toNat ≠ (a.ch 0).count .ductMiss) ∧
    placeOf 0x90 = .device 0x090 ∧ ((a.chWord 0 false 0x010).isSome = true ∧ (0#32).toNat % 16 ≠ (a.ch 0).st.code) ∧
    (a.chWord 0 false 0x508).isSome = true ∧ (a.chWord 0 false 0x410).isSome = true ∧ (a.chWord 0 false 0x560).isSome = true ∧
    (a.chWord 0 false 0x700).isSome = true ∧ imFields 0x900 = 0 ∧ (0 ^^^ 0) &&& roMask (.channel 0 0x900) = 0 := by decide
/-- Words 0 and 15 of ring 3's descriptor, which is not in the cache, and of ring 0's, which is. -/
theorem wit_ManagementRegisters_view :
    let a := later (on (host .run)) 0
    (3 < 65536 ∧ (a.ch 0).uncached 3 = true ∧ (a.ch 0).uncached 0 = false) ∧
    placeOf (0x014000C0 + 4 * 0) = .channel 0 (0x400000 + 64 * 3) ∧ placeOf (0x014000C0 + 4 * 15) = .channel 0 (0x400000 + 64 * 3 + 60) ∧
    ((a.viewReads (placesFrom 0x014000C0 16)).ch 0).count .perfHbmRd = 64 ∧ ((a.viewReads (placesFrom 0x014000C0 17)).ch 0).count .perfHbmRd = 128 ∧
    ((a.viewReads (placesFrom 0x01400000 16)).ch 0).count .perfHbmRd = 0 := by decide
/-- Two devices that differ in one byte of HBM. -/
theorem wit_ManagementReadsNoMemory :
    let s := on { inSt .run with hbm := [(5, 1#8)] }
    let u := on (inSt .run)
    s.hw.dev = u.hw.dev ∧ s.hw.emitted = u.hw.emitted ∧ s.hw.freeCtr = u.hw.freeCtr ∧ s.hw.now = u.hw.now ∧ s ≠ u ∧
    (∀ m, ({ s.hw.ch m with hbm := [] } : Channel) = { u.hw.ch m with hbm := [] }) ∧ ∃ s', exec (.getCounter 0) s = .next s' :=
  ⟨rfl, rfl, rfl, rfl, by decide, by decide, _, rfl⟩
theorem wit_ChannelResetRestarts :
    Accepts (later (onD fused (inSt .maint)) 0) req false ∧ 0 = (0 : Ch).val ∧ (onD fused (inSt .maint)).hw.dev.deviceStop = false ∧
    (inSt .maint).st ≠ .off ∧ (inSt .maint).st = .maint ∧ (inSt .off).st = .off ∧ (inSt .off).st ≠ .maint ∧ (inSt .maint).ctxWait = [] ∧
    (∀ k, k ≠ 0 → ((later (onD fused (inSt .maint)) 0).ch k).released = []) := ⟨accepts _, rfl, rfl, by decide⟩
/-- Sector 0 held over an erased one; the same where NVM_FAIL occurred, or where page 1 will not read back; and a channel whose state
changed in this very cycle by a transition of place 1 (R463). -/
theorem wit_ChannelResetRestarts_flash :
    let c := fun (failed : Bool) (bad : List Nat) =>
      ({ inSt .maint with nvm := { Nvm.reset with held := some (List.replicate 4096 1#8), failed := failed, badHeld := bad } } : Channel)
    let a := fun x => later (onD fused x) 0
    let o := { inSt .run with moved := some (0, 1) }
    (∀ f b, Accepts (a (c f b)) req false) ∧ ((a (c false [])).ch 0).outranked (a (c false [])).now 3 = false ∧
    (((a (c false [])).ch 0).nvm.held = some (List.replicate 4096 1#8) ∧ (List.replicate 4096 1#8).length = 4096 ∧
      ((a (c false [])).ch 0).memWf = true ∧ ((a (c false [])).ch 0).nvm.failed = false ∧ ((a (c false [])).ch 0).nvm.cells = [] ∧
      ∀ k < 16, 256 * k ∉ ((a (c false [])).ch 0).nvm.badHeld) ∧
    ((a (c true [])).ch 0).nvm.failed = true ∧ 256 * 1 ∈ ((a (c false [256])).ch 0).nvm.badHeld ∧
    (Accepts (a o) req false ∧ ((a o).ch 0).outranked (a o).now 3 = true) :=
  ⟨fun _ _ => accepts _, rfl, ⟨rfl, List.length_replicate, by decide, rfl, rfl, by decide⟩, rfl, by decide, accepts _, by decide⟩
theorem wit_EnterMaintOpensTheSession :
    Accepts (later (onD fused (inSt .stopped)) 0) req false ∧ 7 < 8 ∧ (onD fused (inSt .stopped)).hw.dev.deviceStop = false ∧
    (inSt .stopped).st.mayMaint = true ∧ (∀ k, ((later (onD fused (inSt .stopped)) 0).ch k).ctxWait = []) ∧ (inSt .load).st.mayMaint = false ∧
    (inSt .stopped).outranked 0 5 = false ∧ ({ inSt .stopped with moved := some (0, 3) } : Channel).outranked 0 5 = true ∧
    (inSt .stopped).stopDue 0 = false :=
  ⟨accepts _, by decide, rfl, by decide⟩
/-- A CHANNEL_STOP that waits for a boundary is due in the cycle of ENTER_MAINT (R463). -/
theorem wit_EnterMaintOpensTheSession_stop :
    let s := onD fused { ticking .run with stopPending := some 0xA0#8 }
    Accepts (later s 0) req false ∧ (later s 0).dev.deviceStop = false ∧ ((later s 0).ch 0).st.mayMaint = true ∧
    ((later s 0).ch 0).stopDue (later s 0).now = true := ⟨accepts _, rfl, by decide⟩
/-- A RESET_CHANNEL or a DEVICE_STOP in the cycle of an ENTER_MAINT turns its response into STATUS 5 and undoes it; a CHANNEL_STOP turns the
response alone; a cycle later nothing is undone (R463). -/
theorem test_dropped_commands_are_undone :
    let a := later justMaint 0
    (a.undoDue 0 3).emitted = [.mgmt 0x15 5 .none] ∧ ((a.undoDue 0 3).ch 0).st = .ready ∧ ((a.undoDue 0 3).ch 0).hbm = [(7, 1#8)] ∧
    (a.dropDue 0 4).emitted = [.mgmt 0x15 5 .none] ∧ ((a.dropDue 0 4).ch 0).st = .maint ∧ (a.undoDue 0 5).emitted = a.emitted ∧
    ((later justMaint 1).undoDue 0 2).emitted = a.emitted ∧ (a.undoDue 1 2).emitted = a.emitted := by decide
theorem test_dropped_commands_are_refused :
    let a := later justMaint 0
    ((a.dropDue 0 4).dev.signet.logDevice.map fun r => (r.code, r.detail0, r.detail1)) = [(0xD3#8, some 0x15#32, some 5#32)] ∧
    (a.dropDue 0 4).dev.signet.lastRefused = some 0 ∧ ((a.undoDue 0 3).ch 0).errq.length = 1 ∧ (a.undoDue 0 5).dev.signet.logDevice = [] := by decide
/-- A LEAVE_MAINT of the cycle of its ENTER_MAINT resets the channel as it was before it. -/
theorem test_leave_drops_enter :
    let a := (later justMaint 0).resetDue 0 0x16
    (a.ch 0).st = .boot ∧ a.emitted = [.mgmt 0x15 5 .none] ∧ a.due.map (fun d => (d.command, d.rank)) = [(0x16, 3)] := by decide
/-- A sector that a LEAVE_MAINT of this ns programmed, and the fall of PORST_N. -/
def justLeft : State :=
  let c := { inSt .boot with nvm := { Nvm.reset with cells := [(0, 0x57#8)] } }
  { on c with hw := { (on c).hw with emitted := [.mgmt 0x16 0 .none], due := [{ ch := 0, command := 0x16, rank := 3, reply := 0, was := inSt .maint }] } }
theorem wit_PorstEndsOperation : (later justLeft 0).due ≠ [] ∧ (later (on (inSt .run)) 0).due = [] := by decide
theorem test_porst_undoes_leave :
    let f := fun (h : Hw) => (h.emitted, (h.ch 0).nvm.cells)
    after (execPorst 0 justLeft) f = some ([.mgmt 0x16 5 .none], []) ∧
    after (execPorst 1 justLeft) f = some ([.mgmt 0x16 0 .none], [(0, 0x57#8)]) := by decide
theorem test_device_stop_undoes_maint :
    after (execVaux 0 700 justMaint) (fun h => ((h.ch 0).st, (h.ch 0).hbm, h.emitted, h.due)) =
      some (.stopped, [(7, 1#8)], [.mgmt 0x15 5 .none], []) := by decide
/-- So does the CHn_SYNC edge that makes the boundary at which a CHANNEL_STOP was due (R463). -/
theorem test_edge_stop_undoes_maint :
    let was := { atNs 24750 (synced 1) with stopPending := some 0xA0#8 }
    let s : State := { justMaint with hw := { justMaint.hw with
      ch0 := { was with st := .maint, stopPending := none, tick := .reset }, due := [{ ch := 0, command := 0x15, rank := 5, reply := 0, was := was }] } }
    after (execSyncEdge 0 0 20 20 s) (fun h => ((h.ch 0).st, (h.ch 0).reason)) = some (.stopped, 0xA0#8) ∧
    after (execSyncEdge 0 0 20 20 s) (fun h => h.emitted) = some [.mgmt 0x15 5 .none] := by decide
theorem wit_ChannelResetRestarts_undone :
    Accepts (later justMaint 0) req false ∧ ((later justMaint 0).ch 0).outranked (later justMaint 0).now 3 = false ∧
    (((later justMaint 0).undoDue 0 3).ch 0).st ≠ .maint ∧ ∀ k, k ≠ 0 → ((later justMaint 0).ch k).released = [] :=
  ⟨accepts (inSt .maint), by decide⟩
/-- Slot 0 is provisioned and slot 1 too, or alone; slot 2 is empty, slot 3 revoked. -/
def slots (both : Bool) : Device → Device := fun d =>
  { fused d with fuses := { (fused d).fuses with slots := [⟨[], true, false⟩, ⟨[], both, false⟩, ⟨[], false, false⟩, ⟨[], true, true⟩] } }
theorem wit_SessionsAndFuses :
    (List.replicate 32 0#8).length = 32 ∧ Accepts (later (on (inSt .run)) 0) req true ∧ Accepts (later (onD fused (inSt .run)) 0) req true ∧
    (on (inSt .run)).hw.dev.fuses.authority = none ∧ (onD fused (inSt .run)).hw.dev.fuses.authority ≠ none ∧
    Accepts (later (onD (fun d => fused (opened d)) (inSt .run)) 0) req false ∧
    (7 < 8 ∧ ((onD (fun d => fused (opened d)) (inSt .run)).hw.session 0).isOpen = true) :=
  ⟨rfl, ⟨rfl, rfl, rfl, rfl, Nat.zero_lt_one, fun _ h => absurd h.symm (Option.some_ne_none _), fun _ => rfl⟩,
   ⟨rfl, rfl, rfl, rfl, Nat.zero_lt_one, fun _ h => Option.some.inj h, fun h => absurd h (Option.some_ne_none _)⟩, rfl, Option.some_ne_none _,
   ⟨rfl, rfl, rfl, rfl, Nat.zero_lt_one, fun _ h => Option.some.inj h, fun h => absurd h (Option.some_ne_none _)⟩, by decide⟩
theorem slots_alone (k : Nat) (x : OwnerSlot) (hk : k ≠ 0) (h : (slots false devOn).fuses.slots[k]? = some x) (hp : x.provisioned = true) :
    x.revoked = true := by
  match k, h with
  | 0, _ => exact absurd rfl hk
  | 1, h => cases h; cases hp
  | 2, h => cases h; cases hp
  | 3, h => cases h; rfl
  | _ + 4, h => cases h
theorem wit_SessionsAndFuses_slots :
    let s := fun b => (slots b devOn).fuses.slots
    Accepts (later (onD (slots true) (inSt .run)) 0) req false ∧ 2 ≠ 4 ∧ (s true)[2]? = some ⟨[], false, false⟩ ∧ (s true)[0]? = some ⟨[], true, false⟩ ∧
    (∃ (k : Nat) (x : OwnerSlot), k ≠ 0 ∧ (s true)[k]? = some x ∧ x.provisioned = true ∧ x.revoked = false) ∧
    (∀ (k : Nat) (x : OwnerSlot), k ≠ 0 → (s false)[k]? = some x → x.provisioned = true → x.revoked = true) ∧ (s true)[3]? = some ⟨[], true, true⟩ :=
  ⟨⟨rfl, rfl, rfl, rfl, Nat.zero_lt_one, fun _ h => Option.some.inj h, fun h => absurd h (Option.some_ne_none _)⟩, by decide, rfl, rfl,
   ⟨1, _, by decide, rfl, rfl, rfl⟩, slots_alone, rfl⟩

/-! ### The device from outside -/

theorem wit_LinkCommands :
    Awake (on (inSt .run)) ∧ (on (inSt .run)).hw.dev.link.down = false ∧
    (onD (fun d => { d with link := { d.link with down := true } }) (inSt .run)).hw.dev.link.down = true ∧
    ({ ring0 with safety := true } : Ring) ∈ seen.rings ∧ seen.marginRing { ring0 with safety := true } = true ∧
    { seen with img := smallImage }.marginRing { ring0 with safety := true } = false := ⟨awake _, rfl, rfl, by decide⟩
/-- A boundary is due while the link is down, or while ring 0 owes a message. -/
theorem wit_LinkCommands_frames :
    let a := onD (fun d => { d with link := { d.link with down := true } }) (ticking .run)
    let b := onD (fun d => { d with link := { d.link with owing := [(0, 0)] } }) (ticking .run)
    let c := (later a 0).ch 0
    (a.hw.dev.link.down = true ∧ (0, 0) ∈ b.hw.dev.link.owing) ∧ (later b 0).ch 0 = c ∧
    (c.img.tickSrc = 0 ∧ c.tick.ticking = true ∧ c.st.ticks = true ∧ c.stopPending = none ∧ c.tick.nextDue ≤ c.local) := by decide
/-- Bounds of VAUX, of each rail at its balls and of a sensor. -/
theorem wit_DeviceStops :
    Awake (on (inSt .run)) ∧ (1350 : Int) < 1351 ∧ 100 * 759 < 95 * 800 ∧ 105 * 800 < 100 * 841 ∧ (95 * 800 ≤ 100 * 760 ∧ 100 * 840 ≤ 105 * 800) ∧
    (railOk 0 1709 = false ∧ railOk 0 1710 = true ∧ railOk 0 1890 = true ∧ railOk 0 1891 = false ∧ railOk 6 3134 = false ∧ railOk 6 3135 = true ∧
      railOk 6 3465 = true ∧ railOk 6 3466 = false ∧ railOk 1 727 = false ∧ railOk 1 772 = true ∧
      railOk 2 873 = true ∧ railOk 2 928 = false ∧ railOk 3 1980 = true ∧ railOk 3 1981 = false ∧ railOk 4 1067 = true ∧ railOk 4 1167 = false ∧
      railOk 5 379 = false ∧ railOk 5 420 = true) := ⟨awake _, by decide⟩
/-- Each threshold and the first value past it: sensors of a core and of HBM3, clocks of the channel and CHn_SYNC. -/
theorem wit_MonitorsDoubt :
    Awake (on (ticking .run)) ∧ (ticking .run).st ≠ .off ∧
    ((if (4 : Fin 9).val < 5 then (1250 : Int) else 1050) < 1251 ∧ (if (5 : Fin 9).val < 5 then (1250 : Int) else 1050) < 1051) ∧
    ((10 : Fin 11).val = 10 ∧ (ticking .run).img.tickSrc = 0 ∧ (ticking .run).tick.ticking = true) ∧
    ((if (10 : Fin 11).val = 10 then 50 else 200) < (-51 : Int).natAbs ∧ (50 : Int).natAbs ≤ (if (10 : Fin 11).val = 10 then 50 else 200)) ∧
    ((if (9 : Fin 11).val = 10 then 50 else 200) < (201 : Int).natAbs ∧ (-200 : Int).natAbs ≤ (if (9 : Fin 11).val = 10 then 50 else 200)) ∧
    ((4 : Fin 6).val < 5 ∧ (5 : Fin 6).val = 5) ∧
    (100 * 1709 < 95 * 1800 ∧ 105 * 1800 < 100 * 1891 ∧ 95 * 1800 ≤ 100 * 1710 ∧ 100 * 1890 ≤ 105 * 1800) ∧
    ((ticking .run).regulatorOk 0 522 = false ∧ (ticking .run).regulatorOk 0 523 = true ∧ (ticking .run).regulatorOk 3 577 = true ∧
      (ticking .run).regulatorOk 3 578 = false) := ⟨awake _, by decide⟩
theorem wit_ChannelFaultsAreRecorded : Awake (on (inSt .run)) ∧ ((on (inSt .run)).hw.ch 0).st ≠ .off ∧ (2 : Fin 4).val < 3 := ⟨awake _, by decide⟩
/-- A granule of 64 bytes is read, and a corrected one written back (R246, R501). -/
theorem test_scrub_counts_bytes :
    let f := fun (h : Hw) => ((h.ch 0).count .perfHbmRd, (h.ch 0).count .perfHbmWr)
    after (execScrub 0 0 3 true (on (inSt .run))) f = some (64, 64) ∧ after (execScrub 0 0 3 false (on (inSt .run))) f = some (64, 0) := by decide
theorem wit_ScrubAndPower :
    Awake (on { ticking .run with resv := some 134 }) ∧ (ticking .run).st ≠ .off ∧ 64 * 0x5FFFFFF < hbmSize ∧
    ({ Guards.reset with ceTick := [3] } : Guards).ceTick.contains 3 = true ∧ Guards.reset.ceTick.contains 3 = false ∧
    (devOn.capDw < 2651 ∧ devOn.overAt = none ∧ (∃ x, ({ devOn with overAt := some 0 } : Device).overAt = some x ∧ ¬x + 100000000 ≤ 99999999)) ∧
    ((∃ x, ({ Guards.reset with pwrOverAt := some 0 } : Guards).pwrOverAt = some x ∧ ¬x + 100000000 ≤ 99999999) ∧ (inSt .boot).st = .boot ∧ (inSt .ready).st = .ready) ∧
    (((later (on { ticking .run with resv := some 134 }) 0).ch 0).resv = some 134 ∧ 134 < 135 ∧
      ((later (on { ticking .run with resv := some 134 }) 0).ch 0).grd.pwrOverAt = none) ∧
    ((∀ m r, ((later (on { ticking .run with resv := some 134 }) 0).ch m).resv = some r → ([134, 0, 0, 0].getD m.val 0) ≤ r) ∧ 2650 ≤ devOn.capDw) ∧
    (ticking .run).tick.ticking = true ∧ (inSt .run).tick.ticking = false := by
  refine ⟨awake _, by decide, by decide, by decide, by decide, ⟨by decide, by decide, 0, rfl, by decide⟩, ⟨⟨0, rfl, by decide⟩, by decide⟩, by decide,
    ⟨fun m r h => ?_, by decide⟩, by decide⟩
  match m, h with
  | 0, h => cases h; decide
  | 1, h => cases h
  | 2, h => cases h
  | 3, h => cases h

/-! ### Time -/

def timeCfg (peer master : Bool) : TimeCfg :=
  { ring := master || peer, peer := peer, master := master, upWest := false, domain := 0, lossN := 2, intervalUs := 1000, tcMs := 1000, stepMax := 1000,
    delayMax := 10000, rsvdOk := true }
def timed (tc : TimeCfg) (ts : TimeSrv) : Channel := { ticking .run with img := { (ticking .run).img with time := some tc }, ts := ts }
/-- An exchange with t1 = 0, t2 = 5,000 ns and t4 = 10,000 ns, and t3 still to come. -/
def exchange : TimeSrv := { TimeSrv.reset with seq := 1, t1 := some 0, t2 := some 5000, t4 := some 10000, lastKept := some 0 }
theorem wit_SidebandKeepsTime :
    let tc := timeCfg false false
    let c := timed tc .reset
    let x := timed tc { exchange with t2 := none, t4 := none }
    (c.hostTime = some tc ∧ c.st ≠ .off ∧ devOn.link.down = false ∧ ((later (on c) 0).treqDue 0 tc).all (· ≤ (later (on c) 0).now) = true) ∧
    (let s := timed tc { TimeSrv.reset with lastSend := some 0 }
     ((later (on s) 1000000).treqDue 0 tc).all (· ≤ (later (on s) 1000000).now) = true) ∧
    (x.hostTime = some tc ∧ x.ts.t1 = some 0 ∧ x.ts.t4 = none ∧ (1 = x.ts.seq ∧ 2 ≠ x.ts.seq) ∧
      (atNs 120000 x).local ≤ 0 + 100000 + 2 * tc.delayMax ∧ 0 + 100000 + 2 * tc.delayMax < (atNs 120001 x).local) ∧
    (c.img.time.any (·.peer) = false ∧ c.ts.tmaster = none) ∧
    -- the same master again, another one, and the first since a reset that is the last since OFF
    (let y := fun (last : DWord) (m : Option (BitVec 80)) => ({ c.ts with tmaster := some last, master := m } : TimeSrv)
     (y 1 (some (1#64 ++ 0#16))).master = some (1#64 ++ 0#16) ∧
     (¬((y 1 (some (1#64 ++ 0#16))).tmaster = none ∨ ((y 1 (some (1#64 ++ 0#16))).master = none ∧ (y 1 (some (1#64 ++ 0#16))).tmaster = some 2)) ∧
       (y 1 (some (1#64 ++ 0#16))).master ≠ some (2#64 ++ 0#16)) ∧
     ((y 1 none).master = none ∧ (y 1 none).tmaster = some 1)) ∧
    (timed (timeCfg true false) .reset).img.time.any (·.peer) = true := by decide
/-- t3 = 5,000 ns: the delay is 10,000 ns, the offset 0; t3 = 15,001 ns makes the delay negative. -/
theorem wit_SidebandKeepsTime_kept :
    let tc := timeCfg false false
    let c := atNs 12000 (timed tc exchange)
    let e := fun (t3 : DWord) => (((5000 : Int) - 0) - (((10000 : Nat) : Int) - extend c.local t3)) * 65536
    let d := fun (t3 : DWord) => ((((10000 : Nat) : Int) - 0) - (extend c.local t3 - 5000)) * 65536
    (c.hostTime = some tc ∧ c.ts.t1 = some 0 ∧ c.ts.t2 = some 5000 ∧ c.ts.t4 = some 10000 ∧ c.ts.lastKept = some 0) ∧
    (c.local ≤ 10000 + 100000 + tc.delayMax ∧ 0 ≤ d 5000#64 ∧ d 5000#64 ≤ tc.delayMax * 131072 ∧ c.ts.tmaster.isSome = false ∧
      (e 5000#64).natAbs ≤ tc.step * 131072) ∧ d 15001#64 < 0 ∧
    (∃ t, (timed { tc with delayMax := 10 } exchange).hostTime = some t ∧ t.delayMax * 131072 < d 5000#64) := by
  refine ⟨by decide, by decide, by decide, _, rfl, by decide⟩
/-- t3 = 10,000 ns in REFUSING: the offset of 2,500 ns is beyond STEP_MAX of 1,000 ns. -/
theorem wit_SidebandKeepsTime_refusing :
    let tc := timeCfg false true
    let c := atNs 12000 (timed tc { exchange with state := .refusing, everLocked := true })
    let e : Int := (((5000 : Int) - 0) - (((10000 : Nat) : Int) - extend c.local 10000#64)) * 65536
    let d : Int := ((((10000 : Nat) : Int) - 0) - (extend c.local 10000#64 - 5000)) * 65536
    (c.hostTime = some tc ∧ c.ts.t1 = some 0 ∧ c.ts.t2 = some 5000 ∧ c.ts.t4 = some 10000) ∧
    (c.local ≤ 10000 + 100000 + tc.delayMax ∧ 0 ≤ d ∧ d ≤ tc.delayMax * 131072 ∧ c.ts.tmaster.isSome = false) ∧
    tc.step * 131072 < e.natAbs ∧ c.ts.state = .refusing ∧ c.ts.everLocked = true ∧ c.ts.firstMaster = false ∧ tc.ring = true ∧ c.st = .run := by
  decide
/-- The same exchange, the first from the first master, of a channel that locked before: it is stepped (R401). -/
theorem wit_SidebandKeepsTime_first :
    let tc := timeCfg false true
    let c := atNs 12000 (timed tc { exchange with everLocked := true, newMaster := true, firstMaster := true })
    let e : Int := (((5000 : Int) - 0) - (((10000 : Nat) : Int) - extend c.local 10000#64)) * 65536
    c.hostTime = some tc ∧ tc.step * 131072 < e.natAbs ∧ c.ts.newMaster = true ∧ c.ts.firstMaster = true := by decide
theorem wit_SidebandKeepsTime_states :
    let tc := timeCfg false false
    let c := timed tc { TimeSrv.reset with slewUntil := some 7, everLocked := true, state := .locked, lastKept := some 0 }
    (c.ts.slewUntil = some 7 ∧ 7 ≤ (later (on c) 7).now) ∧
    (c.img.time = some tc ∧ c.ts.lastKept = some 0 ∧ c.st ≠ .off ∧ c.ts.state ≠ .holdover ∧
      0 + tc.lossN * tc.intervalUs * 1000 ≤ (atNs 2000000 c).local) ∧
    (let x := atNs 2000000 { timed tc .reset with startMark := 0, tb := { Timebase.reset with running := true } }
     x.ts.lastKept = none ∧ x.ts.state ≠ .holdover ∧ x.localAt x.startMark + tc.lossN * tc.intervalUs * 1000 ≤ x.local) := by decide
/-- Both ports up. -/
def linked (c : Channel) : Channel :=
  { c with peer := { c.peer with position := some 0, east := { PeerPort.reset with up := true }, west := { PeerPort.reset with up := true } } }
/-- With a TC_MS of 0, which the load check refuses, local time runs on (R389). -/
theorem test_time_runs_without_a_time_constant :
    let c := timed { timeCfg false false with tcMs := 0 } .reset
    (({ c with st := .refused, tb := { Timebase.reset with running := true } } : Channel).advance 5).local = 5 := by decide
theorem wit_PtpForwardsAndAnswers :
    let c := linked (ticking .run)
    let id := fun (y : Port) => portIdentity 0 0 y
    ((c.peer.port .east).up = true ∧ c.st ≠ .off ∧ c.st ≠ .boot) ∧
    (Instr.ptpOther 0 0 .east (ptpF 8) = .ptpOther 0 0 .east (ptpF 8) ∧ (ptpF 8).messageType ≠ 0 ∧ (ptpF 8).messageType ≠ 1 ∧ (ptpF 8).messageType ≠ 9) ∧
    ({ ptpF 8 with wellFormed := false } : PtpFrame).wellFormed = false ∧
    ((ptpF 8).wellFormed = true ∧ c.img.time = none ∧ (ptpF 8).source ≠ id .east ∧ (ptpF 8).source ≠ id .west ∧ c.ts.seen = [] ∧
      (c.peer.port Port.west).up = true ∧ Port.east.other = .west) ∧
    ({ ptpF 8 with source := id .west } : PtpFrame).source = id .west := by decide
theorem wit_PtpForwardsAndAnswers_roles :
    let m := timeCfg false true
    let p := timeCfg true false
    let c := linked (timed m .reset)
    let x := linked (timed p { TimeSrv.reset with syncOrigin := some 0, syncLocal := some 100, reqSent := some 50, reqSeq := 1 })
    let f := { ptpF 9 with origin := 0, requester := portIdentity 0 0 .east }
    let up : Int := ((f.origin : Int) * 65536 - f.correction) - ((50 : Nat) : Int) * 65536
    let down : Int := ((100 : Nat) : Int) * 65536 - 0
    (c.img.time = some m ∧ m.master = true ∧ c.follows = true ∧ c.ts.lastSync = none ∧ m.mine (ptpF 1) = true ∧ (c.peer.port .east).up = true) ∧
    (x.img.time = some p ∧ p.peer = true ∧ x.follows = true ∧ Port.east = p.upstream ∧ p.mine (ptpF 0) = true ∧ p.mine f = true ∧
      (x.peer.port .east).up = true ∧ (ptpF 0).messageType = 0 ∧ f.messageType = 9 ∧ f.requester = portIdentity 0 0 .east ∧ f.seqId = x.ts.reqSeq) ∧
    (0 ≤ up + down ∧ up + down ≤ p.delayMax * 131072 ∧ (up - down).natAbs ≤ p.step * 131072) := by decide

/-! ### The peer ring -/

/-- Window 0 in region 0: data of 4,096 bytes and its eight landing records; writer 1 is expected. -/
def windowed (c : Channel) : Channel :=
  { c with img := { c.img with regions := [{ reg0 with len := 4352, input := false, peerw := true }],
                               peer := some { ports := 3, windows := 1, graceUs := 1000, rsvdOk := true,
                                              wins := [{ region := 0, openAtRun := false, maxLag := 0, writers := 2, expect := 2 }] } } }
def ringed (open_ : List Nat) (rx : List RxFrame) : Channel :=
  let c := windowed (linked (ticking .run))
  { c with peer := { c.peer with members := 3, winOpen := open_, east := { c.peer.east with rx := rx } } }
theorem wit_PeerFramesArrive :
    let c := ringed [0] []
    let f := peerF 1
    ((c.peer.port .east).up ≠ false ∧ (windowed (ticking .run)).portEnabled .west = true ∧ (windowed (ticking .run)).linkState = true ∧
      ((windowed (ticking .run)).peer.port .west).up ≠ true) ∧
    ((c.peer.port .east).up = true ∧ c.st ≠ .off ∧ c.st ≠ .boot ∧ frameOk 0 f = true ∧ c.peer.position = some f.dstPos.toNat ∧
      f.epoch.toNat ≤ c.peer.epoch.toNat) ∧
    (f.ptype = 1#8 ∧ frameHi (f :: (c.peer.port .east).rx.map (·.f)) ≤ 262144 ∧ c.refusal f = none ∧ (ringed [] []).refusal f = some 5 ∧
      ({ ringed [] [] with shut := [0] } : Channel).refusal f = none) ∧
    frameOk 0 { f with fcsOk := false } = false ∧
    ((peerF 2).ptype = 2#8 ∧ frameOk 0 { peerF 2 with len := 0, data := [] } = true) := by decide
/-- No port has the address 0: the first byte of each is 02h (R410). -/
theorem not_own (id : DWord) : ownAddr id (peerF 1).srcAddr = false := by
  have h : ∀ m x, ((peerF 1).srcAddr == portAddr id m x) = false := fun m x => by
    refine beq_eq_false_iff_ne.2 fun e => ?_
    have := congrArg (fun v : BitVec 48 => v.getLsbD 41) e
    rw [portAddr, BitVec.getLsbD_append] at this
    simp [peerF] at this
  simp only [ownAddr, h, Bool.or_self, List.any_eq_false]
  exact fun _ _ e => Bool.noConfusion e
/-- A link that goes down with a frame waiting, with the other port up and without; a frame for position 2, one of them for which the transit
buffer is full; a frame of a newer epoch, with a grace and without. -/
theorem wit_PeerFramesArrive_forward :
    let w := fun (west : Bool) => let c := ringed [0] []
      ({ c with peer := { c.peer with east := { c.peer.east with origin := [peerF 1] }, west := { c.peer.west with up := west } } } : Channel)
    let c := ringed [0] []
    let f : PeerFrame := { peerF 1 with dstPos := 2 }
    let big : PeerFrame := { peerF 1 with len := 1408, data := List.replicate 1408 1#8 }
    let full := List.replicate 47 big
    (((w true).peer.port .east).up = true ∧ ((w true).peer.port .east).origin = [peerF 1] ∧ ((w true).peer.port .west).up = true ∧
      (w true).sendsAlone = false ∧ ((w false).peer.port .west).up = false) ∧
    (frameOk 0 f = true ∧ c.peer.position ≠ some f.dstPos.toNat ∧ frameHi (f :: (c.peer.port .west).transit) ≤ 65536 ∧ f.ttl ≠ 0#8 ∧
      65536 < frameLo (f :: full)) ∧
    ((peerF 2).ptype = 2#8 ∧ frameOk 0 { peerF 2 with len := 0, data := [], dstPos := 2 } = true) ∧
    (({ peerF 1 with epoch := 1 } : PeerFrame).dstPos = 0 ∧ c.peer.position = some 0 ∧ c.peer.epoch.toNat < ({ peerF 1 with epoch := 1 } : PeerFrame).epoch.toNat ∧
      c.peer.grace = none ∧ ({ c.peer with grace := some 3 } : PeerSt).grace = some 3) := by decide
/-- A refused frame whose block has its NACK already, or whose writer can be reached; and an expired grace of a FENCED channel that was to
return, or was not. -/
theorem wit_PeerFramesArrive_refused :
    let c := ringed [] []
    let f := peerF 1
    (c.refusal f = some 5 ∧ c.tick.ticking = true ∧ ({ c with tick := Tick.reset } : Channel).tick.ticking = false) ∧
    ((f.srcPos.toNat, f.block.toNat) ∉ c.peer.nacked ∧ c.route f.dstPos.toNat f.srcPos.toNat = some .east) ∧
    (f.srcPos.toNat, f.block.toNat) ∈ ({ c.peer with nacked := [(1, 0)] } : PeerSt).nacked ∧
    (let x : Channel := { c with st := .fenced, resv := some 134, peer := { c.peer with grace := some 3 } }
     x.peer.grace = some 3 ∧ 3 ≤ (later (on x) 3).now ∧ x.st = .fenced ∧ x.resv.isSome = true ∧ ({ x with resv := none } : Channel).resv = none) := by decide
def rx0 : RxFrame := { id := 3, window := 0, f := peerF 1 }
/-- Its place among the writes (R237). -/
def rxWrite : HostWrite :=
  { id := 3, ring := 0, frame := 6, addr := 4096, bytes := (peerF 1).data, also := some (4096 + 4096 + 32), bad := [], applying := true, held := false }
theorem wit_PeerFramesArrive_land :
    let c := { ringed [0] [rx0] with writes := [rxWrite] }
    c.writeOf rx0.id = some rxWrite ∧ rxWrite.applying = true ∧ (c.peer.port .east).rx = rx0 :: [] ∧ c.dataArea 0 = some (4096, 4096) ∧ c.duct.flight = [] ∧ c.applying < 16 ∧ c.fenced.contains 8 = false ∧
    c.memWf = true ∧ rx0.f.offset.toNat + rx0.f.data.length ≤ 4096 ∧ ({ rx0.f with pflags := 3 } : PeerFrame).pflags.getLsbD 0 = true ∧
    (inSt .stopped).st ≠ .run ∧ c.st = .run ∧
    (∃ u, ({ c.peer with grace := some 3 } : PeerSt).grace = some u ∧ u ≤ (later (on c) 3).now) := by
  refine ⟨rfl, rfl, rfl, by decide, rfl, by decide, by decide, by decide, by decide, by decide, by decide, rfl, _, rfl, by decide⟩
/-- An entry of a PEER stroke: its operation, window, destination and, for SEND, 1,472 bytes from 4096. -/
def entryP (pop : Byte) : List Byte := [pop, 0, 1, 0] ++ List.replicate 4 0#8 ++ leBytes 8 4096 ++ leBytes 4 1472 ++ List.replicate 12 0#8
def peering (pop : Byte) : Channel :=
  let c := withDuct (duct [stroke 0 9 ([1] ++ List.replicate 15 0#8 ++ entryP pop)]) (ringed [] [])
  { c with peer := { c.peer with run := some { stroke := 0, entry := 0 } } }
theorem wit_PeerEntriesRun :
    let c := fun pop => (later (on (peering pop)) 0).ch 0
    ((c 0).peerNext 0 = some (entryP 0) ∧ (c 0).fenced.contains 8 = false ∧ (c 0).peer.position = some 0 ∧ (c 0).st ≠ .fenced ∧
      byteAt (entryP 0) 2 ≠ 0 ∧ (c 0).tenantOk (field (entryP 0) 8 8) = true ∧ 0 < field (entryP 0) 16 4 ∧
      (windowed { c 0 with img := { (c 0).img with tenant := some 3 } }).tenantOk (field (entryP 0) 8 8) = false ∧ (c 0).sendPort 0 (byteAt (entryP 0) 2) (byteAt (entryP 0) 3) = some .east) ∧
    ({ (c 0).peer with position := some 1 } : PeerSt).position = some (byteAt (entryP 0) 2) ∧
    ((c 1).peerNext 1 = some (entryP 1) ∧ ((c 1).img.peer.bind fun p => p.wins[byteAt (entryP 1) 1]?).isSome) ∧
    (c 2).peerNext 2 = some (entryP 2) := by decide
/-- A CLOSE is not complete in its own cycle (R422, R423). -/
theorem test_close_waits_for_its_cycle :
    let c := peering 2
    let s := on { c with peer := { c.peer with winOpen := [0] } }
    let st := stroke 0 9 ([1] ++ List.replicate 15 0#8 ++ entryP 2)
    after (execPeerClose 0 0 s) (fun h => ((h.ch 0).shut, (h.ch 0).peerDone st, ((h.advance 1).ch 0).peerDone st)) = some ([0], false, true) := by decide
theorem wit_PeerEntriesRun_close :
    let c := peering 2
    let st := stroke 0 9 ([1] ++ List.replicate 15 0#8 ++ entryP 2)
    ({ c with peer := { c.peer with run := some { stroke := 0, entry := 1 } } } : Channel).peerDone st = true ∧ field st.parm 0 2 = 0 + 1 ∧
    byteAt (st.parm.drop (16 + 32 * 0)) 0 = 2 := by decide
/-- A residence of 2 ns; what else the frame holds leaves as it came. -/
theorem test_leaving_keeps_the_rest :
    ({ f := ptpF 0, ingress := some 3, own := false } : PtpOut).leaving 5 = { ptpF 0 with correction := 131072 } := by decide
def egress (p : PeerPort) : Channel := { ringed [] [] with peer := { (ringed [] []).peer with east := { p with up := true } } }
theorem wit_PeerEntriesRun_egress :
    let o : PtpOut := { f := ptpF 8, ingress := none, own := false }
    let a := egress { PeerPort.reset with ptp := [o] }
    let b := egress { PeerPort.reset with transit := [peerF 1], origin := [peerF 1] }
    let d := egress { PeerPort.reset with transit := [peerF 1], origin := [peerF 1], turn := true }
    d.fenced.contains 8 = false ∧ ({ d with fenced := [8] } : Channel).fenced.contains 8 = true ∧
    ((a.peer.port .east).up = true ∧ (a.peer.port .east).ptp = o :: []) ∧
    ((b.peer.port .east).ptp = [] ∧ (b.peer.port .east).transit = peerF 1 :: [] ∧ (b.peer.port .east).turn = false) ∧
    ((d.peer.port .east).ptp = [] ∧ (d.peer.port .east).origin = peerF 1 :: [] ∧ (d.peer.port .east).turn = true) := by decide

/-! ### What commands leave alone -/

def undo0 : Undo := { mem := 4, unit := 0, granule := 64, old := [0#8], bad := false }
theorem wit_ChannelCommandsTouchOneChannel_drops :
    channelOf (.errorHandle 0 0) = some 0 ∧ dropsCommands (.errorHandle 0 0) = true ∧ (later justMaint 0).due.any (Due.below 0 4) = true ∧
    ∃ s', exec (.errorHandle 0 0) justMaint = .next s' := ⟨rfl, rfl, by decide, _, rfl⟩
theorem wit_ChannelCommandsTouchOneChannel :
    channelOf (.latentClear 0 2) = some 2 ∧ (∀ u, Instr.latentClear 0 2 ≠ .preloadCopy u 2) ∧
    ∃ s', exec (.latentClear 0 2) (on (inSt .run)) = .next s' := ⟨rfl, fun _ h => Instr.noConfusion h, _, rfl⟩
/-- A boundary that abandons a stroke in flight whose write of granule 64 replaced a byte: that byte alone may come back. -/
theorem wit_CommandsThatStoreNothing_stops :
    let c := { ticking .run with hbm := [(4096, 1#8)],
                                 duct := { Duct.reset with flight := [{ idx := 0, cores := 1, ranges := [], since := 0, keep := 0, undo := [undo0] }] } }
    stopsStrokes (.tickBoundary 0 0) = true ∧ Memory.wf (on c) = true ∧ (∃ s', exec (.tickBoundary 0 0) (on c) = .next s') ∧
    Restores c 4 4096 ∧ ¬Restores c 4 4097 ∧ ¬Restores c 0 4096 :=
  ⟨rfl, by decide, ⟨_, rfl⟩, by unfold Restores; decide, by unfold Restores; decide, by unfold Restores; decide⟩
/-- Page 3 of table 0, in slot 1 and not mapped yet: its entry is at 0 + 4 × 3 of the WORK region at 4096, and at the boundary of frame 0 it
takes SLOT 1, FOLIO 0, MAPPED and USED 1 (R265). The bytes of a page next to it are not its own. -/
theorem wit_CommandsThatStoreNothing_dir :
    let c := { mapped (ticking .run) with map := { (mapped (ticking .run)).map with slots := [⟨1, 0, 0, 3, false⟩] }
                                          img := { (mapped (ticking .run)).img with regions := [{ reg0 with base := 4096 }] } }
    let d := c.mapPages 1
    makesBoundary (.tickBoundary 0 0) = true ∧ DirHolds c 4108 ∧ DirHolds c 4111 ∧ (c.tabCfg 0).map (fun t => c.dirAt t 3) = some 4108 ∧
    Cells.read ramDefault d.hbm 4108 4 = leBytes 4 (dirEntry 1 0 1) ∧ d.map.slots.map (·.mapped) = [true] ∧ d.count .perfHbmWr = 4 :=
  ⟨rfl, ⟨_, List.mem_singleton.2 rfl, tableCfg, rfl, by decide, by decide⟩, ⟨_, List.mem_singleton.2 rfl, tableCfg, rfl, by decide, by decide⟩,
    by decide⟩
/-- A DEVICE_STOP of the same ns leaves the memory of before the ENTER_MAINT. -/
theorem wit_CommandsThatStoreNothing_undone :
    stopsStrokes (.vaux 0 700) = true ∧ Memory.wf justMaint = true ∧ (∃ s', exec (.vaux 0 700) justMaint = .next s') ∧
    Stood justMaint.hw 0 { inSt .ready with hbm := [(7, 1#8)] } :=
  ⟨rfl, by decide, ⟨_, rfl⟩, .inr ⟨_, List.mem_singleton.2 rfl, rfl, rfl⟩⟩
theorem wit_CommandsThatStoreNothing :
    storesNothing (.latentClear 0 2) = true ∧ ∃ s', exec (.latentClear 0 2) (on (inSt .run)) = .next s' := ⟨rfl, _, rfl⟩

/-- Two ranges side by side hold 128 bytes, and neither of them alone does (R189). -/
theorem test_resident_input_in_one_range :
    let rs : List Range := [{ space := 0, access := 0, core := 0, len := 1, base := 0 }, { space := 0, access := 0, core := 0, len := 1, base := 64 }]
    rangeHas rs 0 0 false 0 128 = true ∧ oneRangeHas rs 0 0 128 = false ∧ oneRangeHas rs 0 64 64 = true := by decide

/-! ### Known answers -/

/-- FIPS 202: SHAKE256 of the empty message. -/
theorem test_shake256 : Shake.shake256 4 [] = [0x46#8, 0xB9#8, 0xDD#8, 0x2B#8] := by decide +kernel
/-- The CRC-32 of IEEE 802.3 over the nine bytes "123456789". -/
theorem test_crc32 : crc32 [0x31, 0x32, 0x33, 0x34, 0x35, 0x36, 0x37, 0x38, 0x39] = 0xCBF43926#32 := by decide +kernel
/-- R484, R498: the cap and FAIL_SECT as they come out of reset. -/
theorem test_reset : State.reset.pending = [] ∧ State.reset.hw.dev.capDw = 2650 ∧ (State.reset.hw.ch 3).failSect = 0x7F := by decide
/-- The block idles on an empty queue. -/
theorem test_idle (hw : Hw) : step { hw := hw, pending := [] } = .next { hw := hw, pending := [] } := rfl
/-- No row gives bits, so no word spells a command. -/
theorem test_words (n w : Nat) (s : State) : decodeTableWord n w = none ∧ s.withFetchWord n w = s := ⟨rfl, rfl⟩

end Sys2Proof.Tests
end

section
namespace Sys2Proof.Machine

/-! ### Shared operations that touch one channel -/

namespace OnlyCh

/-- Whichever way a condition falls. -/
theorem ite {m : Ch} {a x y : Hw} {p : Prop} [Decidable p] (hx : OnlyCh m a x) (hy : OnlyCh m a y) : OnlyCh m a (if p then x else y) := by
  split
  · exact hx
  · exact hy
/-- A step that is made on a condition only. -/
theorem when {m : Ch} {a x : Hw} {p : Prop} [Decidable p] (hx : OnlyCh m a x) : OnlyCh m a (if p then x else a) := ite hx (refl _ _)
/-- A step that is left out on a condition only. -/
theorem whenNot {m : Ch} {a x : Hw} {p : Prop} [Decidable p] (hx : OnlyCh m a x) : OnlyCh m a (if p then a else x) := ite (refl _ _) hx
/-- The free-value counter is no channel's. -/
theorem freeCtr (m : Ch) (k : Nat) (a : Hw) : OnlyCh m a { a with freeCtr := k } := ⟨fun _ _ => rfl, rfl, rfl, rfl, rfl⟩

theorem overflowInput (m : Ch) (x : Cause) (a : Hw) : OnlyCh m a (a.overflowInput m x) :=
  (modCh m _ a).trans (whenNot (raiseIn ..))
theorem eccCe (m : Ch) (st : Storage) (init core g : Nat) (a : Hw) : OnlyCh m a (a.eccCe m st init core g) :=
  (modCh m _ a).trans (whenNot ((modCh ..).trans (raise ..)))
theorem tickRecs (m : Ch) (a : Hw) : OnlyCh m a (a.tickRecs m) := by
  unfold Hw.tickRecs
  dsimp only
  refine trans (trans ?_ (foldl (fun _ _ => raise ..) _ _)) (modCh ..)
  split
  · refine trans ?_ (raise ..)
    split
    · exact raise ..
    · exact refl ..
  · split
    · exact raise ..
    · exact refl ..

/-! DELTA packets (R105, R281) -/

theorem exportOne (m : Ch) (a : Hw) : OnlyCh m a (a.exportOne m) := by
  unfold Hw.exportOne
  split
  · exact ((freeCtr ..).trans (setCh ..)).trans (outPush ..)
  · exact refl ..
theorem exportFree (m : Ch) (n : Nat) (a : Hw) : OnlyCh m a (a.exportFree m n) := by
  induction n generalizing a with
  | zero => exact refl ..
  | succ n ih => exact when ((exportOne m a).trans (ih _))
theorem exportMore (m : Ch) (n : Nat) (a : Hw) : OnlyCh m a (a.exportMore m n) := by
  induction n generalizing a with
  | zero => exact refl ..
  | succ n ih => exact (exportOne m a).trans (ih _)
theorem exportDeltas (m : Ch) (a : Hw) : OnlyCh m a (a.exportDeltas m) :=
  whenNot (((exportFree m 64 a).trans (free ..)).trans (exportMore ..))

/-! The boundary (R29 to R35, R61 to R65) -/

theorem hbCheck (m : Ch) (a : Hw) : OnlyCh m a (a.hbCheck m) := by
  unfold Hw.hbCheck
  split
  · exact refl ..
  · exact (modCh m _ a).trans (whenNot (raise ..))
theorem judgeDeadline (m : Ch) (a : Hw) : OnlyCh m a (a.judgeDeadline m) := whenNot ((modCh m _ a).trans (raise ..))
theorem publishEnv (m : Ch) (loc : Nat) (f : Bool) (a : Hw) : OnlyCh m a (a.publishEnv m loc f) := by
  unfold Hw.publishEnv
  dsimp only
  split
  · exact (modCh ..).trans (outPush ..)
  · exact modCh ..
theorem publishResult (m : Ch) (loc : Nat) (a : Hw) : OnlyCh m a (a.publishResult m loc) := by
  unfold Hw.publishResult
  dsimp only
  split
  · exact outPush ..
  · exact refl ..
theorem closeFrame (m : Ch) (loc : Nat) (f : Bool) (a : Hw) : OnlyCh m a (a.closeFrame m loc f) :=
  (hbCheck m a).trans (ite (modCh ..) (((judgeDeadline ..).trans (modCh ..)).trans ((publishEnv ..).trans (publishResult ..))))
theorem toRun (m : Ch) (x : Nat) (a : Hw) : OnlyCh m a (a.toRun m x) :=
  ((modCh m _ a).trans ((enter ..).trans (modCh ..))).trans (when (enter ..))
theorem boundaryState (m : Ch) (a : Hw) : OnlyCh m a (a.boundaryState m) := by
  unfold Hw.boundaryState
  refine (modCh m Channel.endAlarm a).trans ?_
  dsimp only
  split
  · exact (modCh ..).trans (enter ..)
  · split
    · exact when (toRun ..)
    · exact when (toRun ..)
    · exact when (enter ..)
    · exact refl ..
theorem takeMachine (m : Ch) (a : Hw) : OnlyCh m a (a.takeMachine m) := by
  unfold Hw.takeMachine
  dsimp only
  split
  · exact refl ..
  · exact (modCh m _ a).trans (when ((modCh ..).trans (raise ..)))
theorem expectCheck (m : Ch) (l : List Ring) (a : Hw) : OnlyCh m a (a.expectCheck m l) :=
  foldl (fun _ _ => (modCh ..).trans (raise ..)) _ _
theorem lagCheck (m : Ch) (a : Hw) : OnlyCh m a (a.lagCheck m) := by
  unfold Hw.lagCheck
  split
  · exact (modCh ..).trans (raise ..)
  · exact refl ..
theorem marginAbsent (m : Ch) (l : List Nat) (a : Hw) : OnlyCh m a (a.marginAbsent m l) :=
  foldl (fun _ _ => (modCh ..).trans (raise ..)) _ _
theorem startFrame (m : Ch) (k loc : Nat) (a : Hw) : OnlyCh m a (a.startFrame m k loc) := by
  unfold Hw.startFrame
  exact ((((modCh m _ a).trans (free ..)).trans (modCh ..)).trans ((takeMachine ..).trans (expectCheck ..))).trans
    ((marginAbsent ..).trans (lagCheck ..))
theorem boundary (m : Ch) (loc : Nat) (f : Bool) (a : Hw) : OnlyCh m a (a.boundary m loc f) := by
  unfold Hw.boundary
  exact (((closeFrame m loc f a).trans (tickRecs ..)).trans ((modCh ..).trans (boundaryState ..))).trans
    (ite ((startFrame ..).trans ((exportDeltas ..).trans (modCh ..))) (modCh ..))
theorem firstBoundary (m : Ch) (loc : Nat) (a : Hw) : OnlyCh m a (a.firstBoundary m loc) :=
  ((tickRecs m a).trans (modCh ..)).trans ((toRun ..).trans (startFrame ..))
theorem syncEdge (m : Ch) (a : Hw) : OnlyCh m a (a.syncEdge m) := by
  unfold Hw.syncEdge
  dsimp only
  refine ite (ite (modCh ..) (ite ((modCh ..).trans (raise ..)) (whenNot (boundary ..)))) (when ?_)
  exact ite (modCh ..) (ite (firstBoundary ..) (modCh ..))


/-! Strokes and the exemplar (R41 to R43, R365 to R367) -/

theorem issue (m : Ch) (s : Stroke) (obs : StrokeObs) (a : Hw) : OnlyCh m a (a.issue m s obs) := by
  unfold Hw.issue
  exact ((modCh ..).trans (foldl (fun _ _ => eccCe ..) _ _)).trans (runKWith ..)
theorem complete (m : Ch) (d : Ductus) (s : Stroke) (a : Hw) : OnlyCh m a (a.complete m d s) := by
  have recorded (h : Hw) : OnlyCh m h (match holdsRecord s.parm with
      | some e => h.runK m s.index 9 (do K.record e; K.proof)
      | none => h) := by
    split
    · exact runK ..
    · exact refl ..
  unfold Hw.complete
  exact ((((modCh ..).trans (when (foldl (fun _ _ => runK ..) _ _))).trans (when ((runK ..).trans (exportDeltas ..)))).trans
    (when (recorded _))).trans (modCh ..)
theorem exemplarCheck (m core : Ch) (faults : List Word) (crcFault : Word) (a : Hw) :
    OnlyCh m a (a.exemplarCheck m core faults crcFault) := by
  unfold Hw.exemplarCheck
  dsimp only
  split
  · exact (runK ..).trans (whenNot (((modCh ..).trans (raise ..)).trans (when (fence ..))))
  · exact refl ..

/-! Start-up (R465, R473, R19) -/

theorem refuse (m : Ch) (reason : Nat) (sect : Option Nat) (a : Hw) : OnlyCh m a (a.refuse m reason sect) :=
  ((modCh m _ a).trans (enter ..)).trans (raise ..)
theorem step6 (m : Ch) (a : Hw) : OnlyCh m a (a.step6 m) := by
  unfold Hw.step6
  refine when ?_
  split
  · exact enter ..
  · exact refuse ..
  · exact refl ..
theorem toReady (m : Ch) (a : Hw) : OnlyCh m a (a.toReady m) := (modCh m _ a).trans (enter ..)
theorem unrefuse (m : Ch) (a : Hw) : OnlyCh m a (a.unrefuse m) :=
  (modCh m (Channel.unrefused m) a).trans ⟨fun _ _ => rfl, rfl, rfl, rfl, rfl⟩
theorem judgeAgain (m : Ch) (a : Hw) : OnlyCh m a (a.judgeAgain m) :=
  ite (ite (modCh ..) ((modCh ..).trans (refuse ..))) (when ((unrefuse ..).trans (toReady ..)))

/-! Registers (R9 to R12, R101, R383) -/

theorem refusedField (m : Ch) (init : Nat) (a : Hw) : OnlyCh m a (a.refusedField m init) := (free m a).trans (raise ..)
theorem refusedFields (m : Ch) (init n : Nat) (a : Hw) : OnlyCh m a (a.refusedFields m init n) := foldl (fun _ _ => refusedField ..) _ _
theorem fenceMask (m : Ch) (mask : Nat) (a : Hw) : OnlyCh m a (a.fenceMask m mask) := foldl (fun _ _ => fence ..) _ _
theorem hostWrite (m : Ch) (addr v : Nat) (a : Hw) : OnlyCh m a (a.hostWrite m addr v) := by
  unfold Hw.hostWrite
  refine whenNot ?_
  split
  · exact whenNot ((modCh ..).trans (refusedFields ..))
  · exact refusedFields ..
theorem regWrite (m : Ch) (p : Packet) (a : Hw) : OnlyCh m a (a.regWrite m p) :=
  ((foldl (fun _ _ => hostWrite ..) _ a).trans (when (raiseIn ..))).trans (when (outPush ..))

/-! What ingest and Margin do with data packets (R90, R93 to R95, R359) -/

theorem frozen (m : Ch) (ring kind : Nat) (a : Hw) : OnlyCh m a (a.frozen m ring kind) := (modCh m _ a).trans (raiseIn ..)
theorem marginPacket (m : Ch) (r : Ring) (sweep : Bool) (id : Nat) (tag : Word) (cap : Int) (eom : Bool) (recs : List (List Byte)) (a : Hw) :
    OnlyCh m a (a.marginPacket m r sweep id tag cap eom recs) := by
  unfold Hw.marginPacket
  exact whenNot (((((modCh m _ a).trans (when (frozen ..))).trans (when (frozen ..))).trans (when (frozen ..))).trans
    ((modCh ..).trans (when (frozen ..))))
theorem intake (m : Ch) (r : Ring) (sweep : Bool) (bs : List Byte) (mk : Nat → Segment) (a : Hw) :
    OnlyCh m a (a.intake m r sweep bs mk) := by
  unfold Hw.intake
  dsimp only
  split
  · exact refl ..
  · exact ite (modCh ..) ((modCh ..).trans (overflowInput ..))
theorem takeSweep (m : Ch) (r : Ring) (p : Packet) (a : Hw) : OnlyCh m a (a.takeSweep m r p) := by
  unfold Hw.takeSweep
  exact (intake ..).trans (marginPacket ..)
theorem takeTelem (m : Ch) (r : Ring) (p : Packet) (a : Hw) : OnlyCh m a (a.takeTelem m r p) := by
  unfold Hw.takeTelem
  exact (intake ..).trans (marginPacket ..)
theorem takeImage (m : Ch) (r : Ring) (p : Packet) (a : Hw) : OnlyCh m a (a.takeImage m r p) := by
  unfold Hw.takeImage
  exact intake ..
theorem tailInstall (m : Ch) (r : TailReq) (gen : Nat) (p : SealedPage) (a : Hw) : OnlyCh m a (a.tailInstall m r gen p) := by
  unfold Hw.tailInstall
  extract_lets _ _ key closed refuse
  have hc : OnlyCh m a closed := modCh ..
  have refused (code : Nat) : OnlyCh m a (refuse closed code) := hc.trans ((modCh ..).trans (raise ..))
  clear_value closed refuse key
  split
  · exact refused _
  · refine ite (refused _) (ite (hc.trans ((modCh ..).trans (raise ..))) ?_)
    have hf : OnlyCh m a closed.free.2 := hc.trans (free ..)
    dsimp only
    split
    · exact ite (hf.trans (modCh ..)) ((hf.trans (modCh ..)).trans ((modCh ..).trans (outPush ..)))
    · exact hf.trans (modCh ..)

/-! The xSPI memory and the peer ring's membership (R426 to R429, R477 to R479) -/

theorem nvmFail (m : Ch) (offset kind : Nat) (a : Hw) : OnlyCh m a (a.nvmFail m offset kind) := (modCh m _ a).trans (raise ..)
theorem badPage (m : Ch) (x n : Nat) (a : Hw) : OnlyCh m a (a.badPage m x n) := (freeCtr m _ a).trans (modCh ..)
theorem badErase (m : Ch) (x : Nat) (a : Hw) : OnlyCh m a (a.badErase m x) := (badPage m x 256 a).trans (nvmFail ..)
theorem programPages (m : Ch) (bad : List Nat) (n x : Nat) (bs : List Byte) (a : Hw) : OnlyCh m a (a.programPages m bad n x bs).1 := by
  induction n generalizing x bs a with
  | zero => exact refl ..
  | succ n ih =>
    unfold Hw.programPages
    dsimp only
    split
    · exact refl ..
    · split
      · split
        · exact (badPage ..).trans (nvmFail ..)
        · exact (badPage ..).trans (ih ..)
      · split
        · exact (modCh ..).trans (nvmFail ..)
        · exact (modCh ..).trans (ih ..)
theorem nvmWrite (m : Ch) (p : Packet) (bad : List Nat) (fails : Bool) (a : Hw) : OnlyCh m a (a.nvmWrite m p bad fails) := by
  unfold Hw.nvmWrite
  exact ite (badErase ..) (((when (modCh ..)).trans (modCh ..)).trans
    (whenNot (ite (badErase ..) ((when (modCh ..)).trans (programPages ..)))))
theorem fenceOff (m : Ch) (reason : Nat) (a : Hw) : OnlyCh m a (a.fenceOff m reason) :=
  ite ((modCh m _ a).trans (modCh ..)) (((modCh m _ a).trans (enter ..)).trans (modCh ..))
theorem rejoin (m : Ch) (a : Hw) : OnlyCh m a (a.rejoin m) := whenNot (ite (modCh ..) ((modCh ..).trans (raise ..)))
theorem membership (m : Ch) (x : Member) (a : Hw) : OnlyCh m a (a.membership m x) := by
  unfold Hw.membership
  split
  · exact (modCh ..).trans (when (rejoin ..))
  · exact (modCh ..).trans (fenceOff ..)
  · exact refl ..

end OnlyCh

/-! ### What reads of the descriptor view count, channel by channel (R499, R501) -/

/-- The offsets, in the window of channel `m`, of the places that lie there. -/
def offsetsIn (m : Ch) (ps : List Place) : List Nat := ps.filterMap fun p => match p with
  | .channel x off => if x == m then some off else none
  | _ => none
/-- What a command that reads words at these offsets counts of HBM: 64 bytes for each uncached ring whose descriptor they show. -/
def Channel.viewReads (offs : List Nat) (c : Channel) : Channel :=
  if (c.uncachedIn offs).length == 0 then c else c.bump .perfHbmRd (64 * (c.uncachedIn offs).length)

theorem mem_offsetsIn {m : Ch} {ps : List Place} {off : Nat} : off ∈ offsetsIn m ps ↔ .channel m off ∈ ps := by
  unfold offsetsIn
  rw [List.mem_filterMap]
  constructor
  · rintro ⟨p, hp, h⟩
    split at h
    · split at h
      · rename_i x y e
        have e : x = m := by simpa using e
        cases h; subst e; exact hp
      · cases h
    · cases h
  · intro h
    exact ⟨_, h, by simp⟩
theorem offsetsIn_eq_nil {m : Ch} {ps : List Place} (h : ∀ off, .channel m off ∉ ps) : offsetsIn m ps = [] :=
  List.eq_nil_iff_forall_not_mem.mpr fun off ho => h off (mem_offsetsIn.mp ho)
/-- A channel put back as it stands. -/
theorem Hw.modCh_of_eq {m : Ch} {f : Channel → Channel} {a : Hw} (h : f (a.ch m) = a.ch m) : a.modCh m f = a := by
  refine Hw.ext_ch (by simp) (by simp) (by simp) (by simp) (by simp) fun n => ?_
  rw [Hw.ch_modCh]
  split
  · next e => rw [e, h]
  · rfl
theorem Hw.viewReads_ch (ps : List Place) (a : Hw) (n : Ch) : (a.viewReads ps).ch n = (a.ch n).viewReads (offsetsIn n ps) := by
  refine (Hw.eachCh_local (g := fun m => Channel.viewReads (offsetsIn m ps)) (fun m h => ?_) a).1 n
  by_cases e : ((h.ch m).uncachedIn (offsetsIn m ps)).length == 0
  · exact (if_pos e).trans (Hw.modCh_of_eq (f := Channel.viewReads (offsetsIn m ps)) (if_pos e)).symm
  · exact (if_neg e).trans (congrArg (fun c => h.setCh m c) (if_neg e).symm)
/-- A channel of which no word is read keeps its count. -/
theorem Hw.viewReads_ch_of_none {ps : List Place} {n : Ch} (h : ∀ off, .channel n off ∉ ps) (a : Hw) : (a.viewReads ps).ch n = a.ch n := by
  rw [Hw.viewReads_ch, offsetsIn_eq_nil h]
  rfl

namespace OnlyCh

theorem viewReads {m : Ch} {ps : List Place} (h : ∀ p ∈ ps, p.foreign m = false) (a : Hw) : OnlyCh m a (a.viewReads ps) := by
  obtain ⟨_, hd, hn, he, hu⟩ := a.viewReads_does ps
  refine ⟨fun n hne => Hw.viewReads_ch_of_none (fun off ho => ?_) a, by rw [hd], hn, he, hu⟩
  have := h _ ho
  simp [Place.foreign, hne] at this

/-! The dispatcher (R79 to R107) -/

theorem regRead (m : Ch) (p : Packet) (a : Hw) : OnlyCh m a (a.regRead m p) := by
  unfold Hw.regRead
  exact ((viewReads (fun p hp => by simpa using (List.mem_filter.mp hp).2) a).trans (when (raiseIn ..))).trans (outPush ..)
theorem heartbeat (m : Ch) (p : Packet) (a : Hw) : OnlyCh m a (a.heartbeat m p) := by
  unfold Hw.heartbeat
  exact (when (hbCheck ..)).trans (modCh ..)
theorem discard (m : Ch) (p : Packet) (r : Option Ring) (code : Nat) (sev : Severity) (a : Hw) : OnlyCh m a (a.discard m p r code sev) := by
  unfold Hw.discard
  cases r with
  | none => exact (when (modCh ..)).trans (raiseIn ..)
  | some r => exact ((modCh ..).trans (when (modCh ..))).trans (raiseIn ..)
theorem gap (m : Ch) (r : Ring) (p : Packet) (d : Nat) (a : Hw) : OnlyCh m a (a.gap m r p d) :=
  whenNot (((modCh m _ a).trans (when (modCh ..))).trans (raiseIn ..))
theorem ageCheck (m : Ch) (r : Ring) (p : Packet) (a : Hw) : OnlyCh m a (a.ageCheck m r p) := when ((modCh m _ a).trans (raiseIn ..))
theorem account (m : Ch) (r : Ring) (w : Waiting) (a : Hw) : OnlyCh m a (a.account m r w) :=
  ((gap m r _ _ a).trans (modCh ..)).trans (ageCheck ..)
theorem ingestBlocked (m : Ch) (r : Ring) (a : Hw) : OnlyCh m a (a.ingestBlocked m r) := by
  unfold Hw.ingestBlocked
  dsimp only
  split
  · exact (modCh ..).trans (blocked ..)
  · exact ((free ..).trans (modCh ..)).trans (blocked ..)
/-- The effect of every opcode but KEYROTATE, which reaches the session of a tenant. -/
theorem perform {w : Waiting} (h : w.pkt.op ≠ 10) (m : Ch) (r : Ring) (a : Hw) : OnlyCh m a (a.perform m r w) := by
  unfold Hw.perform
  dsimp only
  split
  · exact takeSweep ..
  · exact takeImage ..
  · exact takeTelem ..
  · exact modCh ..
  · exact modCh ..
  · split
    · exact tailInstall ..
    · exact refl ..
  · exact ite (modCh ..) (regRead ..)
  · exact regWrite ..
  · exact modCh ..
  · next e => exact absurd e h
  · exact nvmWrite ..
  · exact membership ..
  · exact heartbeat ..

/-! Time (R393 to R403) -/

theorem modTs (m : Ch) (f : TimeSrv → TimeSrv) (a : Hw) : OnlyCh m a (a.modTs m f) := modCh ..
theorem slew (m : Ch) (t : TimeCfg) (e : Int) (a : Hw) : OnlyCh m a (a.slew m t e) := (modTs m _ a).trans (whenNot (raise ..))
theorem refuseStep (m : Ch) (e : Int) (a : Hw) : OnlyCh m a (a.refuseStep m e) := (modCh m _ a).trans (raise ..)
theorem kept (m : Ch) (t : TimeCfg) (e d : Int) (a : Hw) : OnlyCh m a (a.kept m t e d) := by
  unfold Hw.kept
  exact (((free ..).trans (modTs ..)).trans (ite (ite (modCh ..) (ite (refuseStep ..) (slew ..))) (modTs ..))).trans (modCh ..)
theorem masterIs (m : Ch) (id : BitVec 80) (peer first : Bool) (a : Hw) : OnlyCh m a (a.masterIs m id peer first) :=
  ite (modTs ..) (whenNot ((modCh ..).trans (raise ..)))
theorem ptpForward (m : Ch) (x : Port) (f : PtpFrame) (a : Hw) : OnlyCh m a (a.ptpForward m x f) := whenNot (modCh ..)
theorem ptpIn {m : Ch} {take : Hw → Hw} (h : ∀ b, OnlyCh m b (take b)) (x : Port) (f : PtpFrame) (a : Hw) : OnlyCh m a (a.ptpIn m x f take) :=
  whenNot (ite ((modCh ..).trans (raise ..)) ((ptpForward ..).trans (h _)))
theorem takeSync (m : Ch) (x : Port) (f : PtpFrame) (a : Hw) : OnlyCh m a (a.takeSync m x f) := by
  unfold Hw.takeSync
  dsimp only
  split
  · exact refl ..
  · exact whenNot ((masterIs ..).trans (modCh ..))
theorem answerDelay (m : Ch) (x : Port) (f : PtpFrame) (a : Hw) : OnlyCh m a (a.answerDelay m x f) := by
  unfold Hw.answerDelay
  dsimp only
  split
  · exact refl ..
  · exact whenNot (modCh ..)
theorem takeDelay (m : Ch) (x : Port) (f : PtpFrame) (a : Hw) : OnlyCh m a (a.takeDelay m x f) := by
  unfold Hw.takeDelay
  dsimp only
  split
  · exact whenNot (ite (modTs ..) ((modTs ..).trans (kept ..)))
  · exact refl ..

/-! The peer ring (R409 to R424) -/

theorem peerDrop (m : Ch) (cause n : Nat) (a : Hw) : OnlyCh m a (a.peerDrop m cause n) := (modCh m _ a).trans (ite (modCh ..) (raise ..))
theorem reroute (m : Ch) (x : Port) (a : Hw) : OnlyCh m a (a.reroute m x) := by
  unfold Hw.reroute
  exact ((modCh ..).trans (modCh ..)).trans (when (peerDrop ..))
theorem setLink (m : Ch) (x : Port) (up : Bool) (a : Hw) : OnlyCh m a (a.setLink m x up) :=
  ((modCh m _ a).trans (raise ..)).trans (whenNot (reroute ..))
theorem newerEpoch (m : Ch) (e : Word) (a : Hw) : OnlyCh m a (a.newerEpoch m e) := by
  unfold Hw.newerEpoch
  exact (modCh ..).trans (whenNot ((modCh ..).trans (raise ..)))
theorem peerForward (m : Ch) (x : Port) (f : PeerFrame) (a : Hw) : OnlyCh m a (a.peerForward m x f) :=
  whenNot ((free m a).trans (ite (modCh ..) (peerDrop ..)))
theorem sendNack (m : Ch) (f : PeerFrame) (status : Nat) (a : Hw) : OnlyCh m a (a.sendNack m f status) := by
  unfold Hw.sendNack
  dsimp only
  refine whenNot ?_
  split
  · exact modCh ..
  · split
    · exact (modCh ..).trans (peerDrop ..)
    · exact (modCh ..).trans (modCh ..)
theorem refuseFrame (m : Ch) (f : PeerFrame) (status : Nat) (a : Hw) : OnlyCh m a (a.refuseFrame m f status) :=
  ((modCh m _ a).trans (ite (modCh ..) (raise ..))).trans (sendNack ..)
theorem frameIn {m : Ch} {take : Hw → Hw} (h : ∀ b, OnlyCh m b (take b)) (x : Port) (f : PeerFrame) (a : Hw) :
    OnlyCh m a (a.frameIn m x f take) :=
  whenNot (ite (modCh ..) (ite (peerForward ..) (ite ((newerEpoch ..).trans (peerForward ..)) (h _))))
theorem takeData (m : Ch) (x : Port) (f : PeerFrame) (a : Hw) : OnlyCh m a (a.takeData m x f) := by
  unfold Hw.takeData
  refine (free m a).trans (ite (peerDrop ..) ?_)
  split
  · exact refuseFrame ..
  · exact modCh ..
theorem takeNack (m : Ch) (f : PeerFrame) (a : Hw) : OnlyCh m a (a.takeNack m f) := (modCh m _ a).trans (raise ..)
theorem landHead (m : Ch) (x : Port) (r : RxFrame) (a : Hw) : OnlyCh m a (a.landHead m x r) := by
  unfold Hw.landHead
  dsimp only
  split
  · exact modCh ..
  · exact (modCh ..).trans (ite (fwBlock ..) (modCh ..))
theorem egressBlock (m : Ch) (x : Port) (a : Hw) : OnlyCh m a (a.egressBlock m x) := ((free m a).trans (modCh ..)).trans (fwBlock ..)
theorem sendBlock (m : Ch) (idx pos : Nat) (b : List Byte) (a : Hw) : OnlyCh m a (a.sendBlock m idx pos b) := by
  unfold Hw.sendBlock
  dsimp only
  split
  · exact (modCh ..).trans (peerDrop ..)
  · exact (free ..).trans (runK ..)

end OnlyCh
open Sys2Proof.Claims

/-! ### What a command of one channel can reach -/

/-- `b` differs from `a` in channel `m` at most and, of the device, in the Signet's log and verification queue, in the messages that the link
owes and the rings that it served last, and in the reading of REFCLK. -/
structure Within (m : Ch) (a b : Hw) : Prop where
  ch : ∀ n, n ≠ m → b.ch n = a.ch n
  now : b.now = a.now
  dev : b.dev = { a.dev with
    refclkOk := b.dev.refclkOk
    link := { a.dev.link with owing := b.dev.link.owing, servedIn := b.dev.link.servedIn }
    signet := { a.dev.signet with log := b.dev.signet.log, queue := b.dev.signet.queue } }

namespace Within

theorem refl (m : Ch) (a : Hw) : Within m a a := ⟨fun _ _ => rfl, rfl, rfl⟩
theorem trans {m : Ch} {a b c : Hw} (h : Within m a b) (k : Within m b c) : Within m a c := by
  refine ⟨fun n hn => (k.ch n hn).trans (h.ch n hn), k.now.trans h.now, ?_⟩
  rw [k.dev, h.dev]
theorem emit (m : Ch) (e : Emission) (a : Hw) : Within m a (a.emit e) := ⟨fun _ _ => rfl, rfl, rfl⟩
theorem of_only {m : Ch} {a b : Hw} (h : OnlyCh m a b) : Within m a b := ⟨h.ch, h.now, by rw [h.dev]⟩
theorem modCh (m : Ch) (f : Channel → Channel) (a : Hw) : Within m a (a.modCh m f) := of_only (.modCh ..)
/-- Whichever way a condition falls. -/
theorem ite {m : Ch} {a x y : Hw} {p : Prop} [Decidable p] (hx : Within m a x) (hy : Within m a y) : Within m a (if p then x else y) := by
  split
  · exact hx
  · exact hy

/-- A verification request waits in the Signet's queue (R458). -/
theorem request (m : Ch) (a : Hw) : Within m a (a.request m) := (modCh m _ a).trans ⟨fun _ _ => rfl, rfl, rfl⟩
/-- A message of the channel is complete: the link owes it no more (R18). -/
theorem messageDone (m : Ch) (r : Ring) (p : Packet) (a : Hw) : Within m a (a.messageDone m r p) :=
  ite (refl ..) ((modCh m _ a).trans (ite (refl ..) ⟨fun _ _ => rfl, rfl, rfl⟩))
theorem accept {w : Waiting} (h : w.pkt.op ≠ 10) (m : Ch) (r : Ring) (a : Hw) : Within m a (a.accept m r w) :=
  (of_only ((OnlyCh.account m r w a).trans (.perform h ..))).trans (messageDone ..)
/-- A packet that is no KEYROTATE, or that fails step 1 of R84, is judged on its own channel. -/
theorem deliver {w : Waiting} (h : w.pkt.op ≠ 10 ∨ w.pkt.headerOk = false) (m : Ch) (a : Hw) : Within m a (a.deliver m w) := by
  unfold Hw.deliver
  dsimp only
  split
  · exact of_only (.discard ..)
  · next e =>
    have hop : w.pkt.op ≠ 10 := h.resolve_right (by simpa using e)
    split
    · exact of_only (.discard ..)
    · next r _ =>
      split
      · exact of_only (.discard ..)
      · have hc : Within m a (carried a m r w.pkt) := of_only (.when (.modCh ..))
        refine hc.trans ?_
        change Within m (carried a m r w.pkt) (match (carried a m r w.pkt).lateWhy m r w with
          | some (code, sev) => (carried a m r w.pkt).discard m w.pkt (some r) code sev
          | none => if ((carried a m r w.pkt).ch m).ingestOk r w.pkt then (carried a m r w.pkt).accept m r w
            else (carried a m r w.pkt).ingestBlocked m r)
        split
        · exact of_only (.discard ..)
        · exact ite (accept hop ..) (of_only (.ingestBlocked ..))
theorem serve {w : Waiting} (h : w.pkt.op ≠ 10 ∨ w.pkt.headerOk = false) (a : Hw) : Within w.pkt.chan a (a.serve w) := by
  have h0 : Within w.pkt.chan a (served a w.pkt) := ⟨fun _ _ => rfl, rfl, rfl⟩
  exact h0.trans (deliver h ..)
theorem arrive {w : Waiting} (h : w.pkt.op ≠ 10 ∨ w.pkt.headerOk = false) (a : Hw) : Within w.pkt.chan a (a.arrive w) := by
  unfold Hw.arrive
  exact ite (refl ..) (ite (modCh ..) (serve (w := { w with crossed := a.now - w.pkt.wait }) h a))

end Within

/-! ### The commands of one channel -/

section
variable (t : Nat) (ch : Ch) (s : State)

/-! Start-up -/

theorem uncoreUp_within : Runs (.uncoreUp t ch) s (Within ch (later s t)) :=
  ⟨_, rfl, .of_only (.when ((OnlyCh.modCh ..).trans (.enter ..)))⟩
theorem headerRead_within : Runs (.headerRead t ch) s (Within ch (later s t)) :=
  ⟨_, rfl, .ite ((Within.modCh ..).trans (.request ..)) (.refl ..)⟩
theorem hbmTrained_within (ok : Bool) : Runs (.hbmTrained t ch ok) s (Within ch (later s t)) :=
  ⟨_, rfl, .of_only (.when ((OnlyCh.modCh ..).trans (.step6 ..)))⟩
theorem loadClear_within : Runs (.loadClear t ch) s (Within ch (later s t)) :=
  ⟨_, rfl, .of_only (.when (.modCh ..))⟩
theorem loadCheck_within : Runs (.loadCheck t ch) s (Within ch (later s t)) := by
  refine ⟨_, rfl, .of_only (.when ?_)⟩
  split
  · exact .refuse ..
  · exact .modCh ..

/-! The tick -/

theorem tickBoundary_within : Runs (.tickBoundary t ch) s (Within ch (later s t)) :=
  ⟨_, rfl, .of_only (.whenNot (.ite (.when (.boundary ..)) (.when (.firstBoundary ..))))⟩
theorem syncMissing_within : Runs (.syncMissing t ch) s (Within ch (later s t)) :=
  ⟨_, rfl, .of_only (.when (((OnlyCh.modCh ..).trans (.raise ..)).trans (.boundary ..)))⟩
theorem tickLost_within : Runs (.tickLost t ch) s (Within ch (later s t)) :=
  ⟨_, rfl, .of_only (.when ((OnlyCh.raise ..).trans (.boundary ..)))⟩
theorem heartbeatMissing_within : Runs (.heartbeatMissing t ch) s (Within ch (later s t)) :=
  ⟨_, rfl, .of_only (.when (.hbCheck ..))⟩

/-! Points, spans, the exemplar and strokes -/

theorem pointRaise_within : Runs (.pointRaise t ch) s (Within ch (later s t)) := by
  refine ⟨_, rfl, .of_only ?_⟩
  dsimp only
  split
  · exact .when (.modCh ..)
  · exact .refl ..
theorem pointChangeDone_within : Runs (.pointChangeDone t ch) s (Within ch (later s t)) := ⟨_, rfl, .of_only (.modCh ..)⟩
theorem spanPowerUp_within : Runs (.spanPowerUp t ch) s (Within ch (later s t)) := ⟨_, rfl, .of_only (.when (.modCh ..))⟩
theorem spanClearDone_within (core : Ch) (span : Fin 12) : Runs (.spanClearDone t ch core span) s (Within ch (later s t)) :=
  ⟨_, rfl, .of_only (.when (.modCh ..))⟩
theorem spanPowerDown_within (core : Ch) (span : Fin 12) : Runs (.spanPowerDown t ch core span) s (Within ch (later s t)) := by
  refine ⟨_, rfl, .of_only ?_⟩
  dsimp only
  split
  · exact .when (.modCh ..)
  · exact .refl ..
theorem pdTimeout_within (core : Ch) (span : Fin 12) : Runs (.pdTimeout t ch core span) s (Within ch (later s t)) := by
  refine ⟨_, rfl, .of_only ?_⟩
  dsimp only
  split
  · exact .when ((OnlyCh.modCh ..).trans (.raise ..))
  · exact .refl ..
theorem exemplarStart_within (core : Ch) : Runs (.exemplarStart t ch core) s (Within ch (later s t)) := by
  refine ⟨_, rfl, .of_only ?_⟩
  dsimp only
  split
  · exact .when (.modCh ..)
  · exact .refl ..
theorem exemplarLatest_within : Runs (.exemplarLatest t ch) s (Within ch (later s t)) := by
  refine ⟨_, rfl, .of_only ?_⟩
  dsimp only
  split
  · exact .when (.modCh ..)
  · exact .refl ..
theorem exemplarDone_within (core : Ch) (faults : List Word) (crc : Word) :
    Runs (.exemplarDone t ch core faults crc) s (Within ch (later s t)) :=
  ⟨_, rfl, .of_only (.when ((OnlyCh.modCh ..).trans (.exemplarCheck ..)))⟩
theorem strokeIssue_within (idx : Nat) (obs : StrokeObs) : Runs (.strokeIssue t ch idx obs) s (Within ch (later s t)) := by
  refine ⟨_, rfl, .of_only ?_⟩
  dsimp only
  split
  · split
    · exact .when (.issue ..)
    · exact .refl ..
  · exact .refl ..
theorem strokeComplete_within (idx : Nat) : Runs (.strokeComplete t ch idx) s (Within ch (later s t)) := by
  refine ⟨_, rfl, .of_only ?_⟩
  dsimp only
  split
  · split
    · exact .when (.complete ..)
    · exact .refl ..
  · exact .refl ..

/-! Controls, records and monitors -/

theorem latentClear_within : Runs (.latentClear t ch) s (Within ch (later s t)) := ⟨_, rfl, .of_only (.whenNot (.modCh ..))⟩
theorem fenceReq_within (mask : BitVec 9) : Runs (.fenceReq t ch mask) s (Within ch (later s t)) :=
  ⟨_, rfl, .of_only (.whenNot (.fenceMask ..))⟩
theorem tailTimeout_within (id : Nat) : Runs (.tailTimeout t ch id) s (Within ch (later s t)) :=
  ⟨_, rfl, .of_only (.when ((OnlyCh.modCh ..).trans (.raise ..)))⟩
theorem voltage_within (n : Fin 5) (mv : Nat) : Runs (.voltage t ch n mv) s (Within ch (later s t)) :=
  ⟨_, rfl, .of_only (.whenNot ((OnlyCh.modCh ..).trans (.raise ..)))⟩
theorem temperature_within (n : Fin 9) (x : Int) : Runs (.temperature t ch n x) s (Within ch (later s t)) :=
  ⟨_, rfl, .of_only (.whenNot ((OnlyCh.modCh ..).trans (.raise ..)))⟩
theorem temperatureRestore_within (n : Fin 9) : Runs (.temperatureRestore t ch n) s (Within ch (later s t)) :=
  ⟨_, rfl, .of_only (.modCh ..)⟩
theorem clock_within (n : Fin 11) (x : Int) : Runs (.clock t ch n x) s (Within ch (later s t)) := by
  refine ⟨_, rfl, .ite (.refl ..) (.ite (.refl ..) ?_)⟩
  have windowed (a : Hw) (p : Prop) [Decidable p] (f : Channel → Channel) : Within ch a (if p then a else a.modCh ch f) := .ite (.refl ..) (.modCh ..)
  have read (h : Hw) (p : Prop) [Decidable p] (ok : Bool) : Within ch h (if p then h.modDev fun d => { d with refclkOk := ok } else h) :=
    .ite ⟨fun _ _ => rfl, rfl, rfl⟩ (.refl ..)
  exact ((windowed ..).trans (read ..)).trans (.of_only (.when ((OnlyCh.modCh ..).trans (.raise ..))))
theorem marginFault_within : Runs (.marginFault t ch) s (Within ch (later s t)) := ⟨_, rfl, .of_only (.when (.marginFault ..))⟩
theorem scribeFault_within : Runs (.scribeFault t ch) s (Within ch (later s t)) := ⟨_, rfl, .of_only (.when (.scribeFault ..))⟩
theorem pinWatchdog_within : Runs (.pinWatchdog t ch) s (Within ch (later s t)) := ⟨_, rfl, .of_only (.when (.marginFault ..))⟩
theorem parity_within (n : Fin 3) (e : Nat) : Runs (.parity t ch n e) s (Within ch (later s t)) := ⟨_, rfl, .of_only (.when (.raise ..))⟩
theorem scrub_within (g : Nat) (ok : Bool) : Runs (.scrub t ch g ok) s (Within ch (later s t)) :=
  ⟨_, rfl, .of_only (.whenNot ((OnlyCh.modCh ..).trans (.ite ((OnlyCh.eccCe ..).trans (.modCh ..)) ((OnlyCh.modCh ..).trans (.raise ..)))))⟩

/-! Time -/

theorem treq_within : Runs (.treq t ch) s (Within ch (later s t)) := by
  refine ⟨_, rfl, ?_⟩
  dsimp only
  split
  · exact .refl ..
  · exact .ite (.refl ..) ((Within.modCh ..).trans (.emit ..))
theorem trsp_within (seq : Nat) (t2 : DWord) (r : Bool) : Runs (.trsp t ch seq t2 r) s (Within ch (later s t)) := by
  refine ⟨_, rfl, .of_only ?_⟩
  dsimp only
  split
  · exact .whenNot (.ite (.modTs ..) (.modTs ..))
  · exact .refl ..
theorem tfol_within (seq : Nat) (t3 : DWord) (r : Bool) : Runs (.tfol t ch seq t3 r) s (Within ch (later s t)) := by
  refine ⟨_, rfl, .of_only (.whenNot ?_)⟩
  split
  · exact .ite (.modTs ..) ((OnlyCh.modTs ..).trans (.kept ..))
  · exact .modTs ..
theorem tmaster_within (valid : Bool) (master : DWord) : Runs (.tmaster t ch valid master) s (Within ch (later s t)) :=
  ⟨_, rfl, .of_only (.whenNot ((OnlyCh.whenNot (.masterIs ..)).trans (.modTs ..)))⟩
theorem slewEnd_within : Runs (.slewEnd t ch) s (Within ch (later s t)) := ⟨_, rfl, .of_only (.when (.modCh ..))⟩
theorem timeHoldover_within : Runs (.timeHoldover t ch) s (Within ch (later s t)) := by
  refine ⟨_, rfl, .of_only ?_⟩
  dsimp only
  split
  · exact .when ((OnlyCh.modCh ..).trans (.raise ..))
  · exact .refl ..
theorem ptpSyncSend_within : Runs (.ptpSyncSend t ch) s (Within ch (later s t)) := by
  refine ⟨_, rfl, .of_only ?_⟩
  dsimp only
  split
  · exact .refl ..
  · exact .whenNot (.modCh ..)
theorem ptpSyncReceive_within (x : Port) (f : PtpFrame) : Runs (.ptpSyncReceive t ch x f) s (Within ch (later s t)) :=
  ⟨_, rfl, .of_only (.when (.ptpIn (fun _ => .takeSync ..) ..))⟩
theorem delayReq_within (x : Port) (f : PtpFrame) : Runs (.delayReq t ch x f) s (Within ch (later s t)) :=
  ⟨_, rfl, .of_only (.when (.ptpIn (fun _ => .answerDelay ..) ..))⟩
theorem delayResp_within (x : Port) (f : PtpFrame) : Runs (.delayResp t ch x f) s (Within ch (later s t)) :=
  ⟨_, rfl, .of_only (.when (.ptpIn (fun _ => .takeDelay ..) ..))⟩
theorem ptpOther_within (x : Port) (f : PtpFrame) : Runs (.ptpOther t ch x f) s (Within ch (later s t)) :=
  ⟨_, rfl, .of_only (.whenNot (.ptpIn (fun _ => .refl ..) ..))⟩

/-! The peer ring -/

theorem peerLink_within (x : Port) (up : Bool) : Runs (.peerLink t ch x up) s (Within ch (later s t)) :=
  ⟨_, rfl, .of_only (.whenNot (.whenNot (.setLink ..)))⟩
theorem data_within (x : Port) (f : PeerFrame) : Runs (.data t ch x f) s (Within ch (later s t)) :=
  ⟨_, rfl, .of_only (.whenNot (.frameIn (fun _ => .takeData ..) ..))⟩
theorem nack_within (x : Port) (f : PeerFrame) : Runs (.nack t ch x f) s (Within ch (later s t)) :=
  ⟨_, rfl, .of_only (.when (.frameIn (fun _ => .takeNack ..) ..))⟩
theorem frameLand_within (x : Port) : Runs (.frameLand t ch x) s (Within ch (later s t)) := by
  refine ⟨_, rfl, .of_only ?_⟩
  dsimp only
  split
  · exact .when (.landHead ..)
  · exact .refl ..
theorem epochGrace_within : Runs (.epochGrace t ch) s (Within ch (later s t)) :=
  ⟨_, rfl, .of_only (.whenNot (.ite (.fenceOff ..) (.modCh ..)))⟩
theorem portEgress_within (x : Port) : Runs (.portEgress t ch x) s (Within ch (later s t)) := by
  refine ⟨_, rfl, ?_⟩
  dsimp only
  refine .ite (.refl ..) ?_
  have leaves (a : Hw) (f : Channel → Channel) (e : Emission) : Within ch a ((a.modCh ch f).emit e) := (Within.modCh ..).trans (.emit ..)
  split
  · exact leaves ..
  · split
    · exact leaves ..
    · exact leaves ..
    · exact .ite (.of_only (.egressBlock ..)) (leaves ..)
    · exact .ite (.of_only (.egressBlock ..)) (leaves ..)
    · exact .refl ..
theorem peerSend_within : Runs (.peerSend t ch) s (Within ch (later s t)) := by
  refine ⟨_, rfl, .of_only ?_⟩
  dsimp only
  split
  · exact .refl ..
  · refine (OnlyCh.modCh ch Channel.nextEntry _).trans (.ite (.fwBlock ..) ?_)
    split
    · exact .peerDrop ..
    · exact .ite (.peerDrop ..) (.sendBlock ..)
theorem peerOpen_within : Runs (.peerOpen t ch) s (Within ch (later s t)) := by
  refine ⟨_, rfl, .of_only ?_⟩
  dsimp only
  split
  · exact .modCh ..
  · exact .refl ..
theorem peerClose_within : Runs (.peerClose t ch) s (Within ch (later s t)) := by
  refine ⟨_, rfl, .of_only ?_⟩
  dsimp only
  split
  · exact .modCh ..
  · exact .refl ..
end

/-! Packets -/

/-- A packet of a row other than KEYROTATE reaches its own channel. -/
theorem packet_within {i : Instr} {s : State} {t op : Nat} {w : Waiting} {m : Ch} (he : exec i s = s.run t (Hw.packet op w))
    (hm : w.pkt.chan = m) (h : op ≠ 10) : Runs i s (Within m (later s t)) := by
  subst hm
  refine ⟨_, he, ?_⟩
  unfold Hw.packet
  split
  · next e => exact .arrive (.inl fun e' => h ((beq_iff_eq.mp e).symm.trans e')) _
  · exact .refl ..
theorem malformed_within (t : Nat) (p : Packet) (s : State) : Runs (.malformed t p) s (Within p.chan (later s t)) := by
  refine ⟨_, rfl, ?_⟩
  dsimp only
  split
  · exact .refl ..
  · next e => exact .arrive (w := plain p) (.inr (eq_false_of_ne_true e)) _

end Sys2Proof.Machine
end

section
namespace Sys2Proof.Claims
open Sys2Proof.Machine

/-- What a command does is what `exec` answers. -/
theorem Runs.of_exec {i : Instr} {s s' : State} {P : Hw → Prop} (h : Runs i s P) (he : exec i s = .next s') : s'.pending = s.pending ∧ P s'.hw := by
  obtain ⟨hw, hx, hp⟩ := h
  cases he.symm.trans hx
  exact ⟨rfl, hp⟩

/-! ### Channels up to their error queue (R376, R377) -/

theorem UpToQueue.refl (a : Channel) : UpToQueue a a := rfl
theorem UpToQueue.trans {a b c : Channel} (h : UpToQueue a b) (k : UpToQueue b c) : UpToQueue a c := by
  unfold UpToQueue at *
  rw [k, h]
theorem UpToQueue.putErr (r : ErrRec) (a : Channel) : UpToQueue a (a.putErr r) := by
  obtain ⟨_, _, _, _, _, h⟩ := a.putErr_form r
  rw [h]; rfl
theorem UpToQueue.putDev (r : Channel → ErrRec) (a : Channel) : UpToQueue a (a.putDev r) := by
  unfold Channel.putDev
  split
  · exact refl a
  · exact refl a
  · exact refl a
  · exact putErr _ _

end Sys2Proof.Claims
namespace Sys2Proof.Machine
open Sys2Proof.Claims

/-- MGMT_REFUSED is a device record: it reaches a channel's error queue and nothing else of it. -/
theorem Hw.mgmtRefused_upToQueue (command status : Nat) (a : Hw) (n : Ch) : UpToQueue (a.ch n) ((a.mgmtRefused command status).ch n) := by
  have said (f : Signet → Signet) : UpToQueue (a.ch n) (((a.modSig f).raiseDev .note 0xD3 initMgmt (some command) (some status)).ch n) := by
    rw [(Hw.raiseDev_eq ..).1]
    exact .putDev ..
  unfold Hw.mgmtRefused
  dsimp only
  split
  · split
    · exact said _
    · exact .refl _
  · exact said _
theorem Hw.dropDue_upToQueue (m : Ch) (r : Nat) (a : Hw) (n : Ch) : UpToQueue (a.ch n) ((a.dropDue m r).ch n) := by
  have all (l : List Due) (h : Hw) : UpToQueue (h.ch n) ((l.foldl (fun h d => h.mgmtRefused d.command 5) h).ch n) := by
    induction l generalizing h with
    | nil => exact .refl _
    | cons d l ih => exact (Hw.mgmtRefused_upToQueue ..).trans (ih _)
  exact all _ _

/-! ### What dropping a command of the same cycle can reach (R463) -/

/-- `b` is `a` but for channel `m` and for what MGMT_REFUSED does: records in the queues of the other channels and in the device log, and the
time of the last one. -/
structure Drops (m : Ch) (a b : Hw) : Prop where
  ch : ∀ n, n ≠ m → UpToQueue (a.ch n) (b.ch n)
  now : b.now = a.now
  dev : b.dev = { a.dev with signet := { a.dev.signet with logDevice := b.dev.signet.logDevice, lastRefused := b.dev.signet.lastRefused } }

theorem Hw.dropDue_drops (m : Ch) (r : Nat) (a : Hw) : Drops m a (a.dropDue m r) :=
  ⟨fun n _ => a.dropDue_upToQueue m r n, a.dropDue_now m r, a.dropDue_dev m r⟩
theorem Hw.undoDue_drops (m : Ch) (r : Nat) (a : Hw) : Drops m a (a.undoDue m r) := by
  refine ⟨fun n hn => ?_, a.undoDue_now m r, ?_⟩
  · rw [← Hw.revertDue_ch_ne hn r a]
    exact Hw.dropDue_upToQueue ..
  · have h := (a.revertDue m r).dropDue_dev m r
    rwa [Hw.revertDue_dev] at h

/-- What a command that may drop an ENTER_MAINT of its cycle does: nothing is dropped unless the list holds such a command, and what follows
is within the channel. -/
structure DropsThen (m : Ch) (r : Nat) (a b : Hw) : Prop where
  free : (∀ d ∈ a.due, d.below m r = false) → Within m a b
  drops : ∃ c, Drops m a c ∧ Within m c b

namespace DropsThen
theorem of_within {m : Ch} {r : Nat} {a b : Hw} (h : Within m a b) : DropsThen m r a b :=
  ⟨fun _ => h, a, ⟨fun _ _ => .refl _, rfl, rfl⟩, h⟩
theorem dropDue (m : Ch) (r : Nat) (a : Hw) : DropsThen m r a (a.dropDue m r) :=
  ⟨fun h => by rw [Hw.dropDue_of_none h]; exact .refl .., _, a.dropDue_drops m r, .refl ..⟩
theorem undoDue (m : Ch) (r : Nat) (a : Hw) : DropsThen m r a (a.undoDue m r) :=
  ⟨fun h => by rw [Hw.undoDue_of_none h]; exact .refl .., _, a.undoDue_drops m r, .refl ..⟩
theorem trans {m : Ch} {r : Nat} {a b c : Hw} (h : DropsThen m r a b) (k : Within m b c) : DropsThen m r a c := by
  obtain ⟨x, hx, hb⟩ := h.drops
  exact ⟨fun e => (h.free e).trans k, x, hx, hb.trans k⟩
theorem ite {m : Ch} {r : Nat} {a x y : Hw} {p : Prop} [Decidable p] (hx : DropsThen m r a x) (hy : DropsThen m r a y) :
    DropsThen m r a (if p then x else y) := by
  split
  · exact hx
  · exact hy
theorem now {m : Ch} {r : Nat} {a b : Hw} (h : DropsThen m r a b) : b.now = a.now := by
  obtain ⟨x, hx, hb⟩ := h.drops
  exact hb.now.trans hx.now
theorem ch {m : Ch} {r : Nat} {a b : Hw} (h : DropsThen m r a b) (n : Ch) (hn : n ≠ m) : UpToQueue (a.ch n) (b.ch n) := by
  obtain ⟨x, hx, hb⟩ := h.drops
  rw [hb.ch n hn]
  exact hx.ch n hn
theorem dev {m : Ch} {r : Nat} {a b : Hw} (h : DropsThen m r a b) : b.dev = { a.dev with
    refclkOk := b.dev.refclkOk
    link := { a.dev.link with owing := b.dev.link.owing, servedIn := b.dev.link.servedIn }
    signet := { a.dev.signet with log := b.dev.signet.log, queue := b.dev.signet.queue, logDevice := b.dev.signet.logDevice,
                                  lastRefused := b.dev.signet.lastRefused } } := by
  obtain ⟨x, hx, hb⟩ := h.drops
  rw [hb.dev, hx.dev]
end DropsThen

theorem actOn_dropsThen (m : Ch) (r : ErrRec) (a : Hw) : DropsThen m 4 a (a.actOn m r) := by
  have stays : DropsThen m 4 a a := .of_within (.refl ..)
  unfold Hw.actOn
  dsimp only
  split
  · split
    · exact stays
    · exact stays
    · refine .ite stays (.ite ?_ ?_)
      · exact ((DropsThen.dropDue ..).trans (.modCh ..)).trans (.modCh ..)
      · exact ((DropsThen.dropDue ..).trans (.modCh ..)).trans (.of_only ((OnlyCh.modCh ..).trans (.enter ..)))
  · exact stays
theorem errorHandle_dropsThen (t : Nat) (ch : Ch) (s : State) : Runs (.errorHandle t ch) s (DropsThen ch 4 (later s t)) := by
  refine ⟨_, rfl, ?_⟩
  dsimp only
  split
  · exact (actOn_dropsThen ..).trans (.modCh ..)
  · exact .of_within (.refl ..)
theorem syncEdge_dropsThen (t : Nat) (ch : Ch) (low high : Nat) (s : State) :
    Runs (.syncEdge t ch low high) s (DropsThen ch 4 (later s t)) := by
  refine ⟨_, rfl, ?_⟩
  dsimp only
  have same : DropsThen ch 4 (later s t) (later s t) := .of_within (.refl ..)
  have freed : Within ch (later s t) (later s t).free.2 := .of_only (.free ..)
  refine .ite same (.ite ?_ (.of_within freed))
  have stops : DropsThen ch 4 (later s t) ((later s t).free.2.edgeStops ch) := by
    unfold Hw.edgeStops
    refine .ite ?_ (.of_within freed)
    exact ⟨fun h => freed.trans ((DropsThen.undoDue ..).free h), _, ⟨((later s t).free.2.undoDue_drops ch 4).ch,
      ((later s t).free.2.undoDue_drops ch 4).now, ((later s t).free.2.undoDue_drops ch 4).dev⟩, .refl ..⟩
  exact stops.trans (.of_only (.syncEdge ..))

/-! ### PRELOAD_COPY (R19) -/

/-- Channels judged anew leave every other channel and the device but for the Signet's log. -/
theorem judgeAgain_foldl (l : List Ch) (a : Hw) :
    (∀ n, n ∉ l → (l.foldl (fun h x => h.judgeAgain x) a).ch n = a.ch n) ∧ (l.foldl (fun h x => h.judgeAgain x) a).now = a.now ∧
    (l.foldl (fun h x => h.judgeAgain x) a).dev = { a.dev with signet := { a.dev.signet with
      log := (l.foldl (fun h x => h.judgeAgain x) a).dev.signet.log } } := by
  induction l generalizing a with
  | nil => exact ⟨fun _ _ => rfl, rfl, rfl⟩
  | cons x l ih =>
    obtain ⟨hc, hn, hd⟩ := ih (a.judgeAgain x)
    have one := OnlyCh.judgeAgain x a
    refine ⟨fun n hm => ?_, hn.trans one.now, ?_⟩
    · rw [List.mem_cons, not_or] at hm
      exact (hc n hm.2).trans (one.ch n hm.1)
    · rw [List.foldl_cons, hd, one.dev]
/-- Which channels are judged after `m` does not turn on channel `m`. -/
theorem Hw.checkedAfter_modCh (m : Ch) (f : Channel → Channel) (a : Hw) : (a.modCh m f).checkedAfter m = a.checkedAfter m := by
  unfold Hw.checkedAfter
  refine List.filter_congr fun x _ => ?_
  by_cases h : x = m
  · simp [h]
  · rw [Hw.ch_modCh_ne h, Hw.modCh_now]
theorem preloadCopy_within (t : Nat) (ch : Ch) (s : State) : Runs (.preloadCopy t ch) s fun h =>
    (∀ n, n ≠ ch → n ∉ (later s t).checkedAfter ch → h.ch n = (later s t).ch n) ∧ h.now = (later s t).now ∧
    h.dev = { (later s t).dev with signet := { (later s t).dev.signet with log := h.dev.signet.log } } := by
  refine ⟨_, rfl, ?_⟩
  have of_only {b : Hw} (h : OnlyCh ch (later s t) b) : (∀ n, n ≠ ch → n ∉ (later s t).checkedAfter ch → b.ch n = (later s t).ch n) ∧
      b.now = (later s t).now ∧ b.dev = { (later s t).dev with signet := { (later s t).dev.signet with log := b.dev.signet.log } } :=
    ⟨fun n hn _ => h.ch n hn, h.now, h.dev⟩
  dsimp only
  split
  · split
    · exact of_only ((OnlyCh.modCh ..).trans (.refuse ..))
    · split
      · exact of_only ((OnlyCh.modCh ..).trans (.refuse ..))
      · have ready : OnlyCh ch (later s t) (((later s t).modCh ch (Channel.stepTen (later s t).now)).toReady ch) :=
          (OnlyCh.modCh ..).trans (.toReady ..)
        rw [Hw.checkedAfter_modCh]
        obtain ⟨hc, hn, hd⟩ := judgeAgain_foldl ((later s t).checkedAfter ch) (((later s t).modCh ch (Channel.stepTen (later s t).now)).toReady ch)
        refine ⟨fun n h h' => (hc n h').trans (ready.ch n h), hn.trans ready.now, ?_⟩
        rw [hd, ready.dev]
  · exact of_only (.refl ..)


/-- A command of channel `m` other than PRELOAD_COPY that drops no command of its cycle is within the channel. -/
theorem channelOf_within {i : Instr} {m : Ch} (s : State) (hm : channelOf i = some m) (hd : dropsCommands i = false)
    (hp : ∀ u, i ≠ .preloadCopy u m) : ∃ t, Runs i s (Within m (later s t)) := by
  cases i
  case uncoreUp => cases hm; exact ⟨_, uncoreUp_within ..⟩
  case headerRead => cases hm; exact ⟨_, headerRead_within ..⟩
  case hbmTrained => cases hm; exact ⟨_, hbmTrained_within ..⟩
  case loadClear => cases hm; exact ⟨_, loadClear_within ..⟩
  case loadCheck => cases hm; exact ⟨_, loadCheck_within ..⟩
  case tickBoundary => cases hm; exact ⟨_, tickBoundary_within ..⟩
  case syncMissing => cases hm; exact ⟨_, syncMissing_within ..⟩
  case tickLost => cases hm; exact ⟨_, tickLost_within ..⟩
  case heartbeatMissing => cases hm; exact ⟨_, heartbeatMissing_within ..⟩
  case pointRaise => cases hm; exact ⟨_, pointRaise_within ..⟩
  case pointChangeDone => cases hm; exact ⟨_, pointChangeDone_within ..⟩
  case spanPowerUp => cases hm; exact ⟨_, spanPowerUp_within ..⟩
  case spanClearDone => cases hm; exact ⟨_, spanClearDone_within ..⟩
  case spanPowerDown => cases hm; exact ⟨_, spanPowerDown_within ..⟩
  case pdTimeout => cases hm; exact ⟨_, pdTimeout_within ..⟩
  case exemplarStart => cases hm; exact ⟨_, exemplarStart_within ..⟩
  case exemplarLatest => cases hm; exact ⟨_, exemplarLatest_within ..⟩
  case exemplarDone => cases hm; exact ⟨_, exemplarDone_within ..⟩
  case strokeIssue => cases hm; exact ⟨_, strokeIssue_within ..⟩
  case strokeComplete => cases hm; exact ⟨_, strokeComplete_within ..⟩
  case latentClear => cases hm; exact ⟨_, latentClear_within ..⟩
  case fenceReq => cases hm; exact ⟨_, fenceReq_within ..⟩
  case tailTimeout => cases hm; exact ⟨_, tailTimeout_within ..⟩
  case voltage => cases hm; exact ⟨_, voltage_within ..⟩
  case temperature => cases hm; exact ⟨_, temperature_within ..⟩
  case temperatureRestore => cases hm; exact ⟨_, temperatureRestore_within ..⟩
  case clock => cases hm; exact ⟨_, clock_within ..⟩
  case marginFault => cases hm; exact ⟨_, marginFault_within ..⟩
  case scribeFault => cases hm; exact ⟨_, scribeFault_within ..⟩
  case pinWatchdog => cases hm; exact ⟨_, pinWatchdog_within ..⟩
  case parity => cases hm; exact ⟨_, parity_within ..⟩
  case scrub => cases hm; exact ⟨_, scrub_within ..⟩
  case treq => cases hm; exact ⟨_, treq_within ..⟩
  case trsp => cases hm; exact ⟨_, trsp_within ..⟩
  case tfol => cases hm; exact ⟨_, tfol_within ..⟩
  case tmaster => cases hm; exact ⟨_, tmaster_within ..⟩
  case slewEnd => cases hm; exact ⟨_, slewEnd_within ..⟩
  case timeHoldover => cases hm; exact ⟨_, timeHoldover_within ..⟩
  case ptpSyncSend => cases hm; exact ⟨_, ptpSyncSend_within ..⟩
  case ptpSyncReceive => cases hm; exact ⟨_, ptpSyncReceive_within ..⟩
  case delayReq => cases hm; exact ⟨_, delayReq_within ..⟩
  case delayResp => cases hm; exact ⟨_, delayResp_within ..⟩
  case ptpOther => cases hm; exact ⟨_, ptpOther_within ..⟩
  case peerLink => cases hm; exact ⟨_, peerLink_within ..⟩
  case data => cases hm; exact ⟨_, data_within ..⟩
  case nack => cases hm; exact ⟨_, nack_within ..⟩
  case frameLand => cases hm; exact ⟨_, frameLand_within ..⟩
  case epochGrace => cases hm; exact ⟨_, epochGrace_within ..⟩
  case portEgress => cases hm; exact ⟨_, portEgress_within ..⟩
  case peerSend => cases hm; exact ⟨_, peerSend_within ..⟩
  case peerOpen => cases hm; exact ⟨_, peerOpen_within ..⟩
  case peerClose => cases hm; exact ⟨_, peerClose_within ..⟩
  case sweep => cases hm; exact ⟨_, packet_within (op := 1) rfl rfl (by decide)⟩
  case image => cases hm; exact ⟨_, packet_within (op := 2) rfl rfl (by decide)⟩
  case telem => cases hm; exact ⟨_, packet_within (op := 3) rfl rfl (by decide)⟩
  case calib => cases hm; exact ⟨_, packet_within (op := 4) rfl rfl (by decide)⟩
  case memwrite => cases hm; exact ⟨_, packet_within (op := 5) rfl rfl (by decide)⟩
  case tailpage => cases hm; exact ⟨_, packet_within (op := 6) rfl rfl (by decide)⟩
  case regread => cases hm; exact ⟨_, packet_within (op := 7) rfl rfl (by decide)⟩
  case regwrite => cases hm; exact ⟨_, packet_within (op := 8) rfl rfl (by decide)⟩
  case publish => cases hm; exact ⟨_, packet_within (op := 9) rfl rfl (by decide)⟩
  case nvmwrite => cases hm; exact ⟨_, packet_within (op := 11) rfl rfl (by decide)⟩
  case membership => cases hm; exact ⟨_, packet_within (op := 12) rfl rfl (by decide)⟩
  case heartbeat => cases hm; exact ⟨_, packet_within (op := 13) rfl rfl (by decide)⟩
  case malformed => cases hm; exact ⟨_, malformed_within ..⟩
  case preloadCopy => cases hm; exact absurd rfl (hp _)
  case errorHandle => cases hd
  case syncEdge => cases hd
  all_goals cases hm
/-- The two that may drop one. -/
theorem dropsCommands_dropsThen {i : Instr} {m : Ch} (s : State) (hm : channelOf i = some m) (hd : dropsCommands i = true) :
    ∃ t, Runs i s (DropsThen m 4 (later s t)) := by
  cases i
  case errorHandle => cases hm; exact ⟨_, errorHandle_dropsThen ..⟩
  case syncEdge => cases hm; exact ⟨_, syncEdge_dropsThen ..⟩
  all_goals cases hd
/-- The device log and the time of the last MGMT_REFUSED stay. -/
theorem Within.logs {m : Ch} {a b : Hw} (h : Within m a b) :
    b.dev.signet.logDevice = a.dev.signet.logDevice ∧ b.dev.signet.lastRefused = a.dev.signet.lastRefused := by
  rw [h.dev]; exact ⟨rfl, rfl⟩

end Sys2Proof.Machine
end
section
open Sys2Proof Sys2Proof.Machine Sys2Proof.Claims

/-- Settles O59: most commands are within their channel; PRELOAD_COPY judges higher channels again (R19), and ERROR_HANDLE and SYNC_EDGE may
drop an ENTER_MAINT of their cycle (R463) before what is within the channel. -/
theorem channelCommandsTouchOneChannel : Obligations.ChannelCommandsTouchOneChannel := by
  unfold Obligations.ChannelCommandsTouchOneChannel
  intro i m s s' hm he
  by_cases hd : dropsCommands i = true
  · obtain ⟨t, hr⟩ := dropsCommands_dropsThen s hm hd
    obtain ⟨hpend, h⟩ := hr.of_exec he
    have free (hn : ¬(dropsCommands i = true ∧ ∃ d ∈ (later s t).due, d.below m 4 = true)) : Within m (later s t) s'.hw :=
      h.free fun d hdue => eq_false_of_ne_true fun hb => hn ⟨hd, d, hdue, hb⟩
    exact ⟨hpend, t, h.now, fun n hne _ => ⟨fun hn => (free hn).ch n hne, fun _ => h.ch n hne⟩, fun hn => (free hn).logs, h.dev⟩
  have hnot {p : Prop} : ¬(dropsCommands i = true ∧ p) := fun h => hd h.1
  by_cases hp : ∃ u, i = .preloadCopy u m
  · obtain ⟨u, rfl⟩ := hp
    obtain ⟨hpend, hch, hnow, hdev⟩ := (preloadCopy_within u m s).of_exec he
    refine ⟨hpend, u, hnow, fun n hne hc => ⟨fun _ => hch n hne (hc u rfl), fun h => absurd h hnot⟩, fun _ => ?_, ?_⟩
    · rw [hdev]; exact ⟨rfl, rfl⟩
    · rw [hdev]; rfl
  · obtain ⟨t, hr⟩ := channelOf_within s hm (eq_false_of_ne_true hd) (not_exists.mp hp)
    obtain ⟨hpend, h⟩ := hr.of_exec he
    exact ⟨hpend, t, h.now, fun n hne _ => ⟨fun _ => h.ch n hne, fun h => absurd h hnot⟩, fun _ => h.logs, (DropsThen.of_within (r := 4) h).dev⟩
end

section
namespace Sys2Proof.Machine
open Sys2Proof.Claims

/-! ### What a store leaves unchanged, byte by byte -/

namespace Cells

/-- Where no cell of a part is at `x`, the other part decides. -/
theorem byte_append_of_absent_left {d : Byte} {l : Cells} (r : Cells) {x : Nat} (h : ∀ c ∈ l, c.1 ≠ x) :
    byte d (l ++ r) x = byte d r x := by
  have : l.find? (·.1 == x) = none := by simpa using h
  simp [byte, List.find?_append, this]

theorem byte_append_of_absent_right {d : Byte} (l : Cells) {r : Cells} {x : Nat} (h : ∀ c ∈ r, c.1 ≠ x) :
    byte d (l ++ r) x = byte d l x := by
  have : r.find? (·.1 == x) = none := by simpa using h
  simp [byte, List.find?_append, this]

theorem addr_of_mem_ofBytes {d : Byte} {a : Nat} {bs : List Byte} {c : Host.Cell} (h : c ∈ ofBytes d a bs) :
    a ≤ c.1 ∧ c.1 < a + bs.length := by
  induction bs generalizing a with
  | nil => simp [ofBytes] at h
  | cons b bs ih =>
    have tail : c ∈ ofBytes d (a + 1) bs → a ≤ c.1 ∧ c.1 < a + (b :: bs).length := fun h => by
      have := ih h
      simp only [List.length_cons]
      omega
    unfold ofBytes at h
    split at h
    · exact tail h
    · rcases List.mem_cons.mp h with rfl | h
      · simp
      · exact tail h

/-- A store changes no byte outside the bytes stored. -/
theorem byte_write_of_outside {d : Byte} {m : Cells} (hwf : wf d m = true) (a : Nat) (bs : List Byte) {x : Nat}
    (hx : x < a ∨ a + bs.length ≤ x) : byte d (write d m a bs) x = byte d m x := by
  have stored : ∀ c ∈ ofBytes d a bs, c.1 ≠ x := fun c hc => by have := addr_of_mem_ofBytes hc; omega
  have low (b : Nat) (hb : b ≤ x) : ∀ c ∈ m.takeWhile (·.1 < b), c.1 ≠ x := fun c hc => by have := below_takeWhile b m c hc; omega
  have high (b : Nat) (hb : x < b) : ∀ c ∈ m.dropWhile (·.1 < b), c.1 ≠ x := fun c hc => by have := above_dropWhile b hwf c hc; omega
  unfold write
  rcases hx with hx | hx
  · rw [byte_append_of_absent_right _ (high _ (by omega)), byte_append_of_absent_right _ stored,
      ← byte_append_of_absent_right _ (high a hx), List.takeWhile_append_dropWhile]
  · rw [List.append_assoc, byte_append_of_absent_left _ (low _ (by omega)), byte_append_of_absent_left _ stored,
      ← byte_append_of_absent_left _ (low _ hx), List.takeWhile_append_dropWhile]

end Cells

theorem mem_insertNat {l : List Nat} {k v : Nat} : v ∈ insertNat l k ↔ v ∈ l ∨ v = k := by
  have parts : v ∈ l ↔ v ∈ l.takeWhile (· < k) ∨ v ∈ l.dropWhile (· < k) := by
    rw [← List.mem_append, List.takeWhile_append_dropWhile]
  have same (r : List Nat) : v ∈ r ↔ v ∈ r.takeWhile (· == k) ∨ v ∈ r.dropWhile (· == k) := by
    rw [← List.mem_append, List.takeWhile_append_dropWhile]
  have dropped (r : List Nat) : v ∈ r.takeWhile (· == k) → v = k := fun h => beq_iff_eq.mp (List.all_eq_true.mp List.all_takeWhile v h)
  have := dropped (l.dropWhile (· < k))
  rw [insertNat, List.mem_append, List.mem_cons, parts, same (l.dropWhile (· < k))]
  constructor
  · rintro (low | rfl | high)
    · exact .inl (.inl low)
    · exact .inr rfl
    · exact .inl (.inr (.inr high))
  · rintro ((low | equal | high) | rfl)
    · exact .inl low
    · exact .inr (.inl (this equal))
    · exact .inr (.inr high)
    · exact .inr (.inl rfl)

/-! ### Memory while work is undone (R63, R383) -/

/-- Byte `x` of memory `mem` (0 to 3 Inkwell, 4 HBM) is one that the undone write had replaced. -/
def Undo.Covers (u : Undo) (mem x : Nat) : Prop :=
  (if u.mem < 4 then u.mem else 4) = mem ∧ 64 * u.granule ≤ x ∧ x < 64 * u.granule + u.old.length

/-- Every byte outside `D` reads as before. -/
def StandsOutside (D : Nat → Nat → Prop) (a c : Channel) : Prop :=
  (∀ x, ¬D 4 x → Cells.byte ramDefault c.hbm x = Cells.byte ramDefault a.hbm x) ∧
  (∀ j x : Nat, ¬D j x → Cells.byte ramDefault (coreMem c j).ink x = Cells.byte ramDefault (coreMem a j).ink x) ∧
  c.nvm.cells = a.nvm.cells

namespace StandsOutside
variable {D E : Nat → Nat → Prop} {a b c : Channel}
theorem refl : StandsOutside D a a := ⟨fun _ _ => rfl, fun _ _ _ => rfl, rfl⟩
theorem trans (h : StandsOutside D a b) (k : StandsOutside D b c) : StandsOutside D a c := by
  obtain ⟨h1, h2, h3⟩ := h
  obtain ⟨k1, k2, k3⟩ := k
  exact ⟨fun x hx => (k1 x hx).trans (h1 x hx), fun j x hx => (k2 j x hx).trans (h2 j x hx), k3.trans h3⟩
theorem mono (hDE : ∀ j x, D j x → E j x) (h : StandsOutside D a c) : StandsOutside E a c := by
  obtain ⟨h1, h2, h3⟩ := h
  exact ⟨fun x hx => h1 x (hx ∘ hDE 4 x), fun j x hx => h2 j x (hx ∘ hDE j x), h3⟩
theorem of_same (hh : c.hbm = a.hbm) (hc : c.core = a.core) (hn : c.nvm = a.nvm) : StandsOutside D a c := by
  refine ⟨fun x _ => by rw [hh], fun j x _ => ?_, by rw [hn]⟩
  simp only [coreMem, hc]
theorem memoryStands (h : StandsOutside (Restores a) a c) : MemoryStands a c := by
  obtain ⟨h1, h2, h3⟩ := h
  exact ⟨fun x hx _ => h1 x hx, h2, h3⟩
end StandsOutside

theorem coreMem_modCore_same {j : Nat} {c : Channel} (hj : j < c.core.length) (f : CoreMem → CoreMem) :
    coreMem (c.modCore j f) j = f (coreMem c j) := by
  simp [coreMem, Channel.modCore, modAt, hj]
theorem coreMem_modCore_ne {i j : Nat} (hj : j ≠ i) (f : CoreMem → CoreMem) (c : Channel) : coreMem (c.modCore i f) j = coreMem c j := by
  simp only [coreMem, Channel.modCore, modAt]
  split <;> simp [List.getD_eq_getElem?_getD, hj.symm]
theorem Channel.modCore_of_length_le {j : Nat} {c : Channel} (hj : c.core.length ≤ j) (f : CoreMem → CoreMem) : c.modCore j f = c := by
  simp [Channel.modCore, modAt, hj]

theorem Channel.memWf_ink {c : Channel} (h : c.memWf = true) {j : Nat} (hj : j < c.core.length) : Cells.wf ramDefault (coreMem c j).ink = true := by
  simp only [Channel.memWf, Bool.and_eq_true, List.all_eq_true] at h
  have := h.1.2 _ (List.getElem_mem hj)
  simpa [coreMem, CoreMem.wf, hj] using this

/-- Putting a granule back changes no byte but the granule's. -/
theorem Channel.undoOne_stands (u : Undo) {c : Channel} (hwf : c.memWf = true) : StandsOutside u.Covers c (c.undoOne u) := by
  have outside {mem x : Nat} (hm : (if u.mem < 4 then u.mem else 4) = mem) (hx : ¬u.Covers mem x) :
      x < 64 * u.granule ∨ 64 * u.granule + u.old.length ≤ x := by
    have out : ¬(64 * u.granule ≤ x ∧ x < 64 * u.granule + u.old.length) := fun inside => hx ⟨hm, inside⟩
    omega
  unfold Channel.undoOne
  split
  case isTrue hmem =>
    refine ⟨fun _ _ => rfl, fun j x hx => ?_, rfl⟩
    by_cases hj : j = u.mem
    · subst hj
      by_cases hlen : u.mem < c.core.length
      · rw [coreMem_modCore_same hlen]
        exact Cells.byte_write_of_outside (memWf_ink hwf hlen) _ _ (outside (if_pos hmem) hx)
      · rw [modCore_of_length_le (by omega)]
    · rw [coreMem_modCore_ne hj]
  case isFalse hmem =>
    split
    · exact .of_same rfl rfl rfl
    · have hbm : Cells.wf ramDefault c.hbm = true := by
        simp only [Channel.memWf, Bool.and_eq_true] at hwf
        exact hwf.1.1
      exact ⟨fun x hx => Cells.byte_write_of_outside hbm _ _ (outside (if_neg hmem) hx), fun _ _ _ => rfl, rfl⟩

theorem Channel.undo_stands {D : Nat → Nat → Prop} (l : List Undo) (hD : ∀ u ∈ l, ∀ j x, u.Covers j x → D j x) {c : Channel}
    (hwf : c.memWf = true) : StandsOutside D c (l.foldl (fun c u => c.undoOne u) c) := by
  induction l generalizing c with
  | nil => exact .refl
  | cons u l ih =>
    have head := (undoOne_stands u hwf).mono (hD u (by simp))
    exact head.trans (ih (fun v hv => hD v (by simp [hv])) (undoOne_memWf u hwf))

/-- Undoing writes changes memory and the front's place, and nothing else. -/
theorem Channel.undoOne_same (u : Undo) (c : Channel) : c.undoOne u =
    { c with core := (c.undoOne u).core, hbm := (c.undoOne u).hbm, hbmPoison := (c.undoOne u).hbmPoison, front := (c.undoOne u).front } := by
  unfold Channel.undoOne
  split
  · rfl
  split <;> rfl


/-! ### Fencing (R383) -/

/-- What holds of a channel `c` that was `a` before units of it were fenced: the frame goes on, a running channel may be in MARGIN, no
doubt goes, and memory stands but for undone writes of strokes in flight. -/
structure Fencing (a c : Channel) : Prop where
  done : c.duct.done = a.duct.done
  tick : c.tick = a.tick
  st : c.st = a.st ∨ (a.st = .run ∧ c.st = .margin)
  doubt : ∀ d, a.doubtP &&& d = d → c.doubtP &&& d = d
  restores : ∀ j x, Restores c j x → Restores a j x
  wf : a.memWf = true → c.memWf = true
  memory : a.memWf = true → StandsOutside (Restores a) a c

namespace Fencing
variable {a b c : Channel}

theorem refl (a : Channel) : Fencing a a := ⟨rfl, rfl, .inl rfl, fun _ h => h, fun _ _ h => h, fun h => h, fun _ => .refl⟩

theorem trans (h : Fencing a b) (k : Fencing b c) : Fencing a c where
  done := k.done.trans h.done
  tick := k.tick.trans h.tick
  st := by
    rcases h.st with hs | ⟨hr, hm⟩
    · simpa [hs] using k.st
    · rcases k.st with ks | ⟨kr, -⟩
      · exact .inr ⟨hr, ks.trans hm⟩
      · simp [hm] at kr
  doubt d hd := k.doubt d (h.doubt d hd)
  restores j x hx := h.restores j x (k.restores j x hx)
  wf hw := k.wf (h.wf hw)
  memory hw := (h.memory hw).trans ((k.memory (h.wf hw)).mono h.restores)

/-- Changes of other fields: counters, records, the list of fenced units. -/
theorem of_same (hduct : c.duct = a.duct) (htick : c.tick = a.tick) (hst : c.st = a.st)
    (hdoubt : ∀ d, a.doubtP &&& d = d → c.doubtP &&& d = d) (hh : c.hbm = a.hbm) (hc : c.core = a.core) (hn : c.nvm = a.nvm) :
    Fencing a c where
  done := by rw [hduct]
  tick := htick
  st := .inl hst
  doubt := hdoubt
  restores j x h := by simpa only [Restores, hduct] using h
  wf h := by simpa only [Channel.memWf, hh, hc, hn] using h
  memory _ := .of_same hh hc hn

end Fencing

/-- Doubts are added, none goes. -/
theorem Channel.doubt_keeps (d : Doubt) (c : Channel) (m : BitVec 32) (h : c.doubtP &&& m = m) : (c.doubt d).doubtP &&& m = m := by
  change (c.doubtP ||| d.mask) &&& m = m
  refine BitVec.eq_of_getLsbD_eq fun i _ => ?_
  have bit : (c.doubtP.getLsbD i && m.getLsbD i) = m.getLsbD i := by rw [← BitVec.getLsbD_and, h]
  rw [BitVec.getLsbD_and, BitVec.getLsbD_or, Bool.and_or_distrib_right, bit]
  cases m.getLsbD i
  · rw [Bool.and_false, Bool.or_false]
  · rw [Bool.true_or]

theorem Channel.doubt_sets (d : Doubt) (c : Channel) : (c.doubt d).doubtP &&& d.mask = d.mask := by
  change (c.doubtP ||| d.mask) &&& d.mask = d.mask
  refine BitVec.eq_of_getLsbD_eq fun i _ => ?_
  rw [BitVec.getLsbD_and, BitVec.getLsbD_or]
  cases d.mask.getLsbD i
  · rw [Bool.and_false]
  · rw [Bool.or_true, Bool.and_true]

/-- The writes that unit `u` has still to make for strokes in flight are among those that a stop takes back. -/
theorem Channel.mem_undo_of_left {u : Nat} {f : Flight} {x : Undo}
    (h : x ∈ (f.undo.take (f.undo.length - f.keep)).filter (·.unit == u)) : x ∈ f.undo :=
  List.mem_of_mem_take (List.mem_filter.mp h).1

theorem Channel.cutWrites_stands {D : Nat → Nat → Prop} (u : Nat) (l : List Flight)
    (hD : ∀ f ∈ l, ∀ x ∈ f.undo, ∀ j y, x.Covers j y → D j y) {c : Channel} (hwf : c.memWf = true) :
    StandsOutside D c
      (l.foldl (fun c f => ((f.undo.take (f.undo.length - f.keep)).filter (·.unit == u)).foldl (fun c x => c.undoOne x) c) c) := by
  induction l generalizing c with
  | nil => exact .refl
  | cons f l ih =>
    have head := undo_stands _ (fun x hx => hD f (by simp) x (mem_undo_of_left (u := u) hx)) hwf
    exact head.trans (ih (fun g hg => hD g (by simp [hg])) (undo_memWf _ hwf))

/-- A property of the channel that no memory and no place of the front decides holds after undoing as before. -/
theorem Channel.undo_same {α : Type} (p : Channel → α) (hp : ∀ u c, p (Channel.undoOne u c) = p c) (l : List Undo) (c : Channel) :
    p (l.foldl (fun c u => c.undoOne u) c) = p c := by
  induction l generalizing c with
  | nil => rfl
  | cons u l ih => exact (ih _).trans (hp u c)

theorem Channel.cutWrites_same {α : Type} (p : Channel → α) (hp : ∀ u c, p (Channel.undoOne u c) = p c) (u : Nat) (l : List Flight)
    (c : Channel) :
    p (l.foldl (fun c f => ((f.undo.take (f.undo.length - f.keep)).filter (·.unit == u)).foldl (fun c x => c.undoOne x) c) c) = p c := by
  induction l generalizing c with
  | nil => rfl
  | cons f l ih => exact (ih _).trans (undo_same p hp _ c)

theorem Channel.cutFlights_fencing (u : Nat) (c : Channel) : Fencing c (c.cutFlights u) where
  done := rfl
  tick := cutWrites_same (·.tick) (fun u c => by rw [undoOne_same]) u c.duct.flight c
  st := .inl (cutWrites_same (·.st) (fun u c => by rw [undoOne_same]) u c.duct.flight c)
  doubt d h := by
    have : (c.cutFlights u).doubtP = c.doubtP := cutWrites_same (·.doubtP) (fun u c => by rw [undoOne_same]) u c.duct.flight c
    rwa [this]
  restores j x := by
    rintro ⟨f', hf', v, hv, hcover⟩
    obtain ⟨f, hf, rfl⟩ := List.mem_map.mp hf'
    refine ⟨f, hf, v, ?_, hcover⟩
    rcases List.mem_append.mp hv with hv | hv
    · exact List.mem_of_mem_take (List.mem_filter.mp hv).1
    · exact List.mem_of_mem_drop hv
  wf := cutFlights_memWf u
  memory h := cutWrites_stands u c.duct.flight (fun f hf x hx j y hc => ⟨f, hf, x, hx, hc⟩) h

/-- A blocked transaction of a fenced unit is counted, recorded and doubted. -/
theorem Hw.fenceHit_fencing (m : Ch) (u addr : Nat) (hw : Hw) : Fencing (hw.ch m) ((hw.fenceHit m u addr).ch m) := by
  apply Fencing.of_same <;>
    simp [Hw.fenceHit, Hw.blocked, Channel.fenceHit]
  exact Channel.doubt_keeps _ _

theorem Hw.fenceHits_fencing (m : Ch) (u : Nat) (l : List Nat) (hw : Hw) :
    Fencing (hw.ch m) ((l.foldl (fun h a => h.fenceHit m u a) hw).ch m) := by
  induction l generalizing hw with
  | nil => exact .refl _
  | cons x l ih => exact (fenceHit_fencing m u x hw).trans (ih _)

theorem Hw.fenceHits_fenced (m : Ch) (u : Nat) (l : List Nat) (hw : Hw) :
    ((l.foldl (fun h a => h.fenceHit m u a) hw).ch m).fenced = (hw.ch m).fenced := by
  induction l generalizing hw with
  | nil => rfl
  | cons x l ih => exact (ih _).trans (by simp [Hw.fenceHit, Hw.blocked, Channel.fenceHit])

theorem Hw.enterMargin_fencing (m : Ch) (hw : Hw) (hst : (hw.ch m).st = .run) : Fencing (hw.ch m) ((hw.enter m .margin 0).ch m) where
  done := by simp
  tick := by simp [ChState.ticks]
  st := .inr ⟨hst, by simp⟩
  doubt d h := by simpa using h
  restores j x h := by simpa [Restores] using h
  wf h := by simpa [Channel.memWf] using h
  memory _ := .of_same (by simp) (by simp) (by simp)

/-- The channel once unit `u` is declared failed, before what it still does is blocked. -/
def Channel.failUnit (u : Nat) (c : Channel) : Channel := { (c.cutFlights u).doubt .latentFault with fenced := insertNat c.fenced u }

theorem Channel.failUnit_fencing (u : Nat) (c : Channel) : Fencing c (c.failUnit u) :=
  (cutFlights_fencing u c).trans (.of_same rfl rfl rfl (doubt_keeps _ _) rfl rfl rfl)

theorem Hw.fence_of_fenced {m : Ch} {u : Nat} {hw : Hw} (h : u ∈ (hw.ch m).fenced) : hw.fence m u = hw := by
  simp [Hw.fence, h]
theorem Hw.fence_of_not_fenced {m : Ch} {u : Nat} {hw : Hw} (h : u ∉ (hw.ch m).fenced) :
    let b := ((hw.ch m).cutAddrs u).foldl (fun h a => h.fenceHit m u a) (hw.modCh m (Channel.failUnit u))
    hw.fence m u = if (b.ch m).st == .run then b.enter m .margin 0 else b := by
  simp only [Hw.fence, List.contains_eq_mem, h, decide_false, Bool.false_eq_true, if_false]
  rfl

/-- What declaring one unit failed does to its channel. -/
theorem Hw.fence_does (m : Ch) (u : Nat) (hw : Hw) :
    Fencing (hw.ch m) ((hw.fence m u).ch m) ∧
    (∀ v, v ∈ ((hw.fence m u).ch m).fenced ↔ v ∈ (hw.ch m).fenced ∨ v = u) ∧
    (u ∉ (hw.ch m).fenced → ((hw.fence m u).ch m).doubtP &&& Doubt.latentFault.mask = Doubt.latentFault.mask ∧
      ((hw.fence m u).ch m).st ≠ .run) := by
  by_cases h : u ∈ (hw.ch m).fenced
  · rw [fence_of_fenced h]
    refine ⟨.refl _, fun v => ⟨.inl, ?_⟩, fun hn => absurd h hn⟩
    rintro (hv | rfl)
    · exact hv
    · exact h
  · rw [fence_of_not_fenced h]
    have hits := fenceHits_fencing m u ((hw.ch m).cutAddrs u) (hw.modCh m (Channel.failUnit u))
    have fenced := fenceHits_fenced m u ((hw.ch m).cutAddrs u) (hw.modCh m (Channel.failUnit u))
    generalize ((hw.ch m).cutAddrs u).foldl (fun h a => h.fenceHit m u a) (hw.modCh m (Channel.failUnit u)) = b at hits fenced
    rw [ch_modCh_same] at hits fenced
    have before := (Channel.failUnit_fencing u (hw.ch m)).trans hits
    have doubted := hits.doubt _ (Channel.doubt_sets .latentFault ((hw.ch m).cutFlights u))
    have named : ∀ v, v ∈ (b.ch m).fenced ↔ v ∈ (hw.ch m).fenced ∨ v = u := fun v => by rw [fenced]; exact mem_insertNat
    split
    case isTrue run =>
      exact ⟨before.trans (enterMargin_fencing m b (by simpa using run)), by simpa using named, fun _ => ⟨by simpa using doubted, by simp⟩⟩
    case isFalse run => exact ⟨before, named, fun _ => ⟨doubted, by simpa using run⟩⟩

/-- What declaring several units failed does to their channel. -/
theorem Hw.fences_do (m : Ch) (l : List Nat) (hw : Hw) :
    let h := l.foldl (fun h u => h.fence m u) hw
    Fencing (hw.ch m) (h.ch m) ∧
    (∀ v, v ∈ (h.ch m).fenced ↔ v ∈ (hw.ch m).fenced ∨ v ∈ l) ∧
    ((∃ u ∈ l, u ∉ (hw.ch m).fenced) → (h.ch m).doubtP &&& Doubt.latentFault.mask = Doubt.latentFault.mask ∧ (h.ch m).st ≠ .run) := by
  induction l generalizing hw with
  | nil => exact ⟨.refl _, by simp, by simp⟩
  | cons u l ih =>
    obtain ⟨first, fenced1, doubted1⟩ := fence_does m u hw
    obtain ⟨rest, fenced2, doubted2⟩ := ih (hw.fence m u)
    refine ⟨first.trans rest, fun v => ?_, ?_⟩
    · rw [List.foldl_cons, fenced2, fenced1, List.mem_cons, or_assoc]
    · rintro ⟨v, hv, hnot⟩
      by_cases hu : u ∈ (hw.ch m).fenced
      · refine doubted2 ⟨v, ?_, ?_⟩
        · rcases List.mem_cons.mp hv with rfl | hv
          · exact absurd hu hnot
          · exact hv
        · rwa [fence_of_fenced hu]
      · obtain ⟨doubted, stopped⟩ := doubted1 hu
        refine ⟨rest.doubt _ doubted, ?_⟩
        rcases rest.st with same | ⟨run, -⟩
        · exact same ▸ stopped
        · exact absurd run stopped

end Sys2Proof.Machine

namespace Sys2Proof.Claims
open Sys2Proof.Machine

theorem bitOf_toNat {w : Nat} (v : BitVec w) (i : Nat) : bitOf v.toNat i = v.getLsbD i := by
  rw [bitOf, BitVec.getLsbD, Nat.testBit, Nat.and_comm, Nat.and_one_is_mod]
  rcases Nat.mod_two_eq_zero_or_one (v.toNat >>> i) with h | h <;> simp [h]

/-- A write of 1 to LATENT ends a standing alarm, but not one of the same cycle. -/
theorem clearLatent_of_latent {c : Channel} (h : c.mrg.latent = true) :
    c.clearLatent = { c with mrg := { c.mrg with latentClear := c.mrg.latentClear || !c.fresh.contains none } } := by
  cases fresh : c.fresh.contains none
  · rw [Channel.clearLatent, if_pos (by simp only [h, fresh, Bool.not_false, Bool.and_true]), Bool.not_false, Bool.or_true]
  · rw [Channel.clearLatent, if_neg (by simp only [fresh, Bool.not_true, Bool.and_false, Bool.false_eq_true, not_false_eq_true]), Bool.not_true, Bool.or_false]

theorem fenceMask_does (m : Ch) (mask : BitVec 9) (a : Hw) :
    let h := a.fenceMask m mask.toNat
    Fencing (a.ch m) (h.ch m) ∧
    (∀ u, u < 9 → (u ∈ (h.ch m).fenced ↔ u ∈ (a.ch m).fenced ∨ mask.getLsbD u = true)) ∧
    ((∃ u, u < 9 ∧ mask.getLsbD u = true ∧ u ∉ (a.ch m).fenced) →
      (h.ch m).doubtP &&& Doubt.latentFault.mask = Doubt.latentFault.mask ∧ (h.ch m).st ≠ .run) := by
  obtain ⟨frame, fenced, doubted⟩ := Hw.fences_do m ((List.range 9).filter (bitOf mask.toNat)) a
  have named : ∀ u, u ∈ (List.range 9).filter (bitOf mask.toNat) ↔ u < 9 ∧ mask.getLsbD u = true := by simp [bitOf_toNat]
  refine ⟨frame, fun u hu => ?_, ?_⟩
  · rw [Hw.fenceMask, fenced, named]
    simp only [hu, true_and]
  · rintro ⟨u, hu, hbit, hnot⟩
    exact doubted ⟨u, (named u).mpr ⟨hu, hbit⟩, hnot⟩

/-- Settles O37: LATENT_CLEAR by its two cases, FENCE_REQ by what fencing one unit does, for each unit named. -/
theorem controlsLatentAndFence : Obligations.ControlsLatentAndFence := by
  unfold Obligations.ControlsLatentAndFence
  intro t ch s
  refine ⟨fun asleep => ?_, fun awake => ?_⟩
  · have idle : (!(later s t).dev.porstN || (later s t).dev.testMode) = true := by
      simp only [Awake, not_and, Bool.not_eq_false] at asleep
      simpa [later, Hw.advance, ← Bool.not_eq_false, Decidable.imp_iff_not_or] using asleep
    exact ⟨⟨_, rfl, if_pos idle⟩, fun mask => ⟨_, rfl, if_pos idle⟩⟩
  · have active : ¬(!(later s t).dev.porstN || (later s t).dev.testMode) = true := by
      obtain ⟨porst, test⟩ := awake
      simp [later, Hw.advance, porst, test]
    refine ⟨fun latent => ⟨_, rfl, (if_neg active).trans ?_⟩, fun mask => ⟨_, rfl, ?_⟩⟩
    · exact congrArg (fun c => (later s t).setCh ch c) (clearLatent_of_latent latent)
    · dsimp only
      rw [if_neg active]
      obtain ⟨frame, fenced, doubted⟩ := fenceMask_does ch mask (later s t)
      have only := OnlyCh.fenceMask ch mask.toNat (later s t)
      refine ⟨fenced, fun named => ⟨(doubted named).1, fun run => ?_⟩, fun notRun => ?_, frame.done, frame.tick,
        fun wf => (frame.memory wf).memoryStands, only.ch, only.dev, only.now, only.emitted, only.due⟩
      · rcases frame.st with same | ⟨-, margin⟩
        · exact absurd (same.trans run) (doubted named).2
        · exact margin
      · exact frame.st.resolve_right fun h => notRun h.1

end Sys2Proof.Claims
end

section
namespace Sys2Proof.Machine
open Sys2Proof.Claims

/-! ### Sticky bits and what clears them (R9, R10) -/

theorem Sticky.ctorIdx_inj {x y : Sticky} : x.ctorIdx = y.ctorIdx ↔ x = y :=
  ⟨fun h => by rw [← Sticky.ofNat_ctorIdx x, h, Sticky.ofNat_ctorIdx], fun h => h ▸ rfl⟩

/-- Writing another sticky bit leaves this one. -/
theorem Channel.stuck_set_ne {x y : Sticky} (h : y ≠ x) (v : Bool) (c : Channel) :
    Channel.stuck x { c with sticky := setAt c.sticky y.ctorIdx v } = c.stuck x := by
  have : y.ctorIdx ≠ x.ctorIdx := mt Sticky.ctorIdx_inj.mp h
  simp [stuck, setAt, List.getD_eq_getElem?_getD, this]
theorem Channel.stuck_stick_ne {x y : Sticky} (h : y ≠ x) (c : Channel) : (c.stick y).stuck x = c.stuck x := stuck_set_ne h true c
theorem Channel.stuck_unstick_ne {x y : Sticky} (h : y ≠ x) (c : Channel) : (c.unstick y).stuck x = c.stuck x := stuck_set_ne h false c
theorem Channel.stuck_unstick_same (x : Sticky) (c : Channel) : (c.unstick x).stuck x = false := by
  simp only [stuck, unstick, setAt, List.getD_eq_getElem?_getD, List.getElem?_set]
  split
  · split <;> rfl
  · contradiction

/-- A written 1 clears its bit unless an event of the same cycle set it. -/
theorem Channel.stuck_w1c (x y : Sticky) (c : Channel) :
    (c.w1c y).stuck x = (c.stuck x && !(y == x && !c.fresh.contains (some x))) := by
  by_cases h : y = x
  · subst h
    cases fresh : c.fresh.contains (some y)
    · simp [w1c_of_not_fresh fresh, stuck_unstick_same]
    · simp [w1c_of_fresh fresh]
  · cases fresh : c.fresh.contains (some y)
    · simp [w1c_of_not_fresh fresh, stuck_unstick_ne h, h]
    · simp [w1c_of_fresh fresh, h]

/-- The bits of `l` that the word `v` names are written with 1. -/
def Channel.clearBits (v : Nat) (l : List (Nat × Sticky)) (c : Channel) : Channel :=
  l.foldl (fun c y => if bitOf v y.1 then c.w1c y.2 else c) c

theorem Channel.clearBits_eq (v : Nat) (l : List (Nat × Sticky)) (c : Channel) :
    c.clearBits v l = { c with sticky := (c.clearBits v l).sticky } := by
  induction l generalizing c with
  | nil => rfl
  | cons y l ih =>
    have head : (if bitOf v y.1 then c.w1c y.2 else c) = { c with sticky := (if bitOf v y.1 then c.w1c y.2 else c).sticky } := by
      split
      · exact w1c_eq _ _
      · rfl
    unfold clearBits at ih ⊢
    rw [List.foldl_cons, ih, head]

theorem Channel.stuck_clearBits (v : Nat) (l : List (Nat × Sticky)) (x : Sticky) (c : Channel) :
    (c.clearBits v l).stuck x = (c.stuck x && !((l.any fun y => y.2 == x && bitOf v y.1) && !c.fresh.contains (some x))) := by
  induction l generalizing c with
  | nil => simp [clearBits]
  | cons y l ih =>
    change Channel.stuck x (Channel.clearBits v l (if bitOf v y.1 then c.w1c y.2 else c)) = _
    rw [ih, List.any_cons]
    cases bit : bitOf v y.1
    · simp
    · have fresh : (c.w1c y.2).fresh = c.fresh := by rw [w1c_eq]
      simp only [if_true, stuck_w1c, fresh, Bool.and_true]
      cases y.2 == x <;> cases c.stuck x <;> cases c.fresh.contains (some x) <;> simp

theorem Channel.writeW1c_def (off v : Nat) (c : Channel) :
    c.writeW1c off v = if off == 0x900 && bitOf v 0 then (c.clearBits v (stickyAt off)).clearLatent else c.clearBits v (stickyAt off) := rfl

theorem Channel.clearLatent_eq (c : Channel) :
    c.clearLatent = { c with mrg := { c.mrg with latentClear := c.mrg.latentClear || (c.mrg.latent && !c.fresh.contains none) } } := by
  unfold clearLatent
  split
  · next h => rw [h, Bool.or_true]
  · next h => rw [eq_false_of_ne_true h, Bool.or_false]

/-- The W1C bits of a word, cleared as R9 and R10 say. -/
theorem Channel.writeW1c_clears (off v : Nat) (c : Channel) : Clears off v c (c.writeW1c off v) := by
  have bits := clearBits_eq v (stickyAt off) c
  have stuck := fun x => stuck_clearBits v (stickyAt off) x c
  rw [writeW1c_def]
  cases latent : off == 0x900 && bitOf v 0
  · refine ⟨stuck, ?_⟩
    simp only [Bool.false_eq_true, if_false, latent, Bool.false_and, Bool.or_false]
    exact bits
  · rw [if_pos rfl, clearLatent_eq]
    refine ⟨stuck, ?_⟩
    rw [bits]
    simp [latent]

/-! ### Error records touch the summary bits only (R376) -/

/-- The bits of CH_ERR_STATUS that the arrival of a record sets. -/
def summaryBits : List Sticky := [.sumNote, .sumDegraded, .sumDoubt, .sumChannelStop, .sumDeviceStop]

theorem Severity.summary_mem (s : Severity) : s.summary ∈ summaryBits := by cases s <;> decide

theorem Channel.putErr_sticky (r : ErrRec) (c : Channel) : (c.putErr r).sticky = (c.stick r.severity.summary).sticky := by
  unfold putErr
  dsimp only
  split
  · rfl
  split
  · rfl
  split <;> rfl
theorem Channel.stuck_putErr {x : Sticky} (hx : x ∉ summaryBits) (r : ErrRec) (c : Channel) : (c.putErr r).stuck x = c.stuck x := by
  have ne : r.severity.summary ≠ x := fun h => hx (h ▸ r.severity.summary_mem)
  rw [stuck, putErr_sticky]
  exact stuck_stick_ne ne c
theorem Channel.fresh_putErr {x : Sticky} (hx : x ∉ summaryBits) (r : ErrRec) (c : Channel) :
    (c.putErr r).fresh.contains (some x) = c.fresh.contains (some x) := by
  have ne : x ≠ r.severity.summary := fun h => hx (h ▸ r.severity.summary_mem)
  simp [putErr_fresh, ne]


/-! ### One word written over the host port (R12) -/

@[simp] theorem Hw.refusedFields_zero (m : Ch) (init : Nat) (a : Hw) : a.refusedFields m init 0 = a := rfl

theorem Hw.refusedField_ch (m : Ch) (init : Nat) (a : Hw) : ∃ r, (a.refusedField m init).ch m = (a.ch m).putErr r :=
  ⟨_, Hw.ch_modCh_same m (Channel.putErr _) a.free.2⟩

/-- A property that no arrival of a record changes holds after any number of refusals. -/
theorem Hw.refusedFields_ind {P : Channel → Prop} (hP : ∀ r c, P c → P (Channel.putErr r c)) (m : Ch) (init n : Nat) {a : Hw} (h : P (a.ch m)) :
    P ((a.refusedFields m init n).ch m) := by
  unfold Hw.refusedFields
  induction n with
  | zero => exact h
  | succ n ih =>
    rw [List.range_succ, List.foldl_append, List.foldl_cons, List.foldl_nil]
    obtain ⟨r, hr⟩ := refusedField_ch m init ((List.range n).foldl (fun h _ => h.refusedField m init) a)
    rw [hr]
    exact hP r _ ih

theorem Hw.refusedFields_upToQueue (m : Ch) (init n : Nat) (a : Hw) : UpToQueue (a.ch m) ((a.refusedFields m init n).ch m) :=
  refusedFields_ind (fun r _ h => h.trans (.putErr r _)) m init n (.refl _)

/-- A register with W1C bits is mapped. -/
theorem Hw.chWord_isSome_of_sticky {off : Nat} (h : stickyAt off ≠ []) (a : Hw) (m : Ch) (host : Bool) : (a.chWord m host off).isSome = true := by
  unfold stickyAt at h
  split at h
  case h_13 => exact absurd rfl h
  all_goals rfl

theorem Hw.chWord_isSome_latent (a : Hw) (m : Ch) (host : Bool) : (a.chWord m host 0x900).isSome = true := rfl

/-- The views hold no W1C bit. -/
theorem stickyAt_of_inView {off : Nat} (h : inView off = true) : stickyAt off = [] := by
  simp only [inView, Bool.and_eq_true, decide_eq_true_eq] at h
  unfold stickyAt
  split
  case h_13 => rfl
  all_goals omega

/-- Where a word of a channel's window is not mapped it names nothing. -/
theorem Channel.writeW1c_of_unmapped {a : Hw} {m : Ch} {host : Bool} {off : Nat} (h : a.chWord m host off = none) (v : Nat) (c : Channel) :
    c.writeW1c off v = c := by
  have bits : stickyAt off = [] := by
    refine Classical.byContradiction fun hs => ?_
    simpa [h] using a.chWord_isSome_of_sticky hs m host
  have latent : (off == 0x900) = false := by
    rw [beq_eq_false_iff_ne]
    rintro rfl
    simpa [h] using a.chWord_isSome_latent m host
  simp [writeW1c_def, bits, latent, clearBits]

theorem Hw.hostWrite_foreign {m n : Ch} {addr off : Nat} (hp : placeOf addr = .channel n off) (hn : n ≠ m) (v : Nat) (a : Hw) :
    a.hostWrite m addr v = a := by
  simp [Hw.hostWrite, hp, Place.foreign, hn]

/-- A word of the channel's own window outside the views. -/
theorem Hw.hostWrite_own {m : Ch} {addr off : Nat} (hp : placeOf addr = .channel m off) (hv : inView off = false) (v : Nat) (a : Hw) :
    a.hostWrite m addr v = (a.modCh m (Channel.writeW1c off v)).refusedFields m initDisp
      (if (a.chWord m true off).isSome then imFields off + b2n (mgMask (.channel m off) != 0) else 0) := by
  unfold Hw.hostWrite
  simp only [hp, Place.foreign, Hw.word, hv, bne_self_eq_false, Bool.false_or, Bool.false_eq_true, if_false, Option.isSome_some]
  cases hw : a.chWord m true off
  · exact (Hw.modCh_of_eq (Channel.writeW1c_of_unmapped hw v _)).symm
  · rfl

theorem Hw.hostWrite_view {m : Ch} {addr off : Nat} (hp : placeOf addr = .channel m off) (hv : inView off = true) (v : Nat) (a : Hw) :
    a.hostWrite m addr v = a := by
  simp [Hw.hostWrite, hp, hv]

/-- Outside the channel windows only two fields can be refused. -/
theorem Hw.hostWrite_device {addr off : Nat} (hp : placeOf addr = .device off) (m : Ch) (v : Nat) (a : Hw) :
    a.hostWrite m addr v = a.refusedFields m initDisp (if (a.word (some 0) (.device off)).isSome then b2n (mgMask (.device off) != 0) else 0) := by
  unfold Hw.hostWrite
  simp only [hp, Place.foreign, Bool.false_or]
  cases a.word (some 0) (.device off) <;> rfl

theorem Hw.hostWrite_nowhere {addr : Nat} (hp : placeOf addr = .nowhere) (m : Ch) (v : Nat) (a : Hw) : a.hostWrite m addr v = a := by
  simp [Hw.hostWrite, hp, Place.foreign, Hw.word]

theorem mgMask_channel {off : Nat} (h : off ≠ 0x90C) (m : Ch) : mgMask (.channel m off) = 0 := by
  simp [mgMask, h]
theorem mgMask_device {off : Nat} (h1 : off ≠ 0x090) (h2 : off ≠ 0x200) : mgMask (.device off) = 0 := by
  simp [mgMask, h1, h2]

/-! ### The words of a REGWRITE (R101) -/

/-- What holds of a channel `c` that was `a` before register words were written that name the bits of `cleared`: the bits named are clear
unless an event of the same cycle set them, other bits stand, the summary bits aside, and so do memories, state, image and queue. -/
structure RegStep (cleared : Sticky → Bool) (a c : Channel) : Prop where
  hbm : c.hbm = a.hbm
  core : c.core = a.core
  nvm : c.nvm = a.nvm
  st : c.st = a.st
  img : c.img = a.img
  outq : c.outq = a.outq
  reason : c.reason = a.reason
  tick : c.tick = a.tick
  fresh : ∀ x, x ∉ summaryBits → c.fresh.contains (some x) = a.fresh.contains (some x)
  stuck : ∀ x, x ∉ summaryBits → c.stuck x = (a.stuck x && !(cleared x && !a.fresh.contains (some x)))

namespace RegStep
variable {a b c : Channel} {p q : Sticky → Bool}

theorem refl (a : Channel) : RegStep (fun _ => false) a a := ⟨rfl, rfl, rfl, rfl, rfl, rfl, rfl, rfl, fun _ _ => rfl, fun _ _ => by simp⟩

theorem trans (h : RegStep p a b) (k : RegStep q b c) : RegStep (fun x => p x || q x) a c where
  hbm := k.hbm.trans h.hbm
  core := k.core.trans h.core
  nvm := k.nvm.trans h.nvm
  st := k.st.trans h.st
  img := k.img.trans h.img
  outq := k.outq.trans h.outq
  reason := k.reason.trans h.reason
  tick := k.tick.trans h.tick
  fresh x hx := (k.fresh x hx).trans (h.fresh x hx)
  stuck x hx := by
    rw [k.stuck x hx, h.stuck x hx, h.fresh x hx]
    cases p x <;> cases q x <;> simp

theorem of_eq (hpq : ∀ x, p x = q x) (h : RegStep p a c) : RegStep q a c := by
  have : p = q := funext hpq
  exact this ▸ h

/-- One more step that names no bit. -/
theorem then_none (h : RegStep p a b) (k : RegStep (fun _ => false) b c) : RegStep p a c := (h.trans k).of_eq fun _ => Bool.or_false _

theorem putErr (r : ErrRec) (a : Channel) : RegStep (fun _ => false) a (a.putErr r) :=
  ⟨by simp, by simp, by simp, by simp, by simp, by simp, by simp, by simp, fun _ hx => Channel.fresh_putErr hx r a,
    fun _ hx => by simp [Channel.stuck_putErr hx]⟩

theorem of_clears {off v : Nat} (h : Clears off v a c) : RegStep (named off v) a c := by
  obtain ⟨bits, same⟩ := h
  rw [same] at bits ⊢
  exact ⟨rfl, rfl, rfl, rfl, rfl, rfl, rfl, rfl, fun _ _ => rfl, fun x _ => bits x⟩

theorem refusedFields (m : Ch) (init n : Nat) (a : Hw) : RegStep (fun _ => false) (a.ch m) ((a.refusedFields m init n).ch m) :=
  Hw.refusedFields_ind (fun r _ h => h.then_none (.putErr r _)) m init n (.refl _)

end RegStep

/-- Whether the word `v` written by channel `m` at a place names sticky bit `x` of the channel. -/
def Place.names (m : Ch) (p : Place) (v : Nat) (x : Sticky) : Bool :=
  match p with
  | .channel n off => n == m && named off v x
  | _ => false

theorem Hw.hostWrite_regStep (m : Ch) (addr v : Nat) (a : Hw) :
    RegStep ((placeOf addr).names m v) (a.ch m) ((a.hostWrite m addr v).ch m) := by
  cases hp : placeOf addr with
  | nowhere =>
    rw [hostWrite_nowhere hp]
    exact .refl _
  | device off =>
    rw [hostWrite_device hp]
    exact .refusedFields ..
  | channel n off =>
    by_cases hn : n = m
    · subst hn
      cases hv : inView off
      · rw [hostWrite_own hp hv]
        have written := RegStep.of_clears ((a.ch n).writeW1c_clears off v)
        rw [← Hw.ch_modCh_same n (Channel.writeW1c off v) a] at written
        exact (written.then_none (.refusedFields n initDisp _ _)).of_eq fun x => by simp [Place.names]
      · rw [hostWrite_view hp hv]
        exact (RegStep.refl _).of_eq fun x => by simp [Place.names, named, stickyAt_of_inView hv]
    · rw [hostWrite_foreign hp hn]
      exact (RegStep.refl _).of_eq fun x => by simp [Place.names, hn]

theorem Hw.hostWrites_regStep (m : Ch) (l : List (Nat × Word)) (a : Hw) :
    RegStep (fun x => l.any fun w => (placeOf w.1).names m w.2.toNat x) (a.ch m) ((l.foldl (fun h w => h.hostWrite m w.1 w.2.toNat) a).ch m) := by
  induction l generalizing a with
  | nil => exact .refl _
  | cons w l ih => exact ((hostWrite_regStep m w.1 w.2.toNat a).trans (ih _)).of_eq fun x => by rw [List.any_cons]


/-! ### A packet that passes every check (R84) -/

theorem Hw.modCh_modDev (m : Ch) (g : Channel → Channel) (f : Device → Device) (a : Hw) : (a.modDev f).modCh m g = (a.modCh m g).modDev f := by
  refine Hw.ext_ch (by simp [Hw.modDev]) (by simp) (by simp [Hw.modDev]) (by simp) (by simp) fun n => ?_
  rw [Hw.modDev_ch, Hw.ch_modCh, Hw.ch_modCh, Hw.modDev_ch, Hw.modDev_ch]

/-- The hardware with another account of the link. -/
def Hw.modLink (f : Link → Link) (a : Hw) : Hw := a.modDev fun d => { d with link := f d.link }

theorem Hw.earlyWhy_modLink (f : Link → Link) (a : Hw) (m : Ch) (r : Ring) (p : Packet) : (a.modLink f).earlyWhy m r p = a.earlyWhy m r p := rfl
theorem Hw.lateWhy_modLink (f : Link → Link) (a : Hw) (m : Ch) (r : Ring) (w : Waiting) : (a.modLink f).lateWhy m r w = a.lateWhy m r w := rfl
theorem carried_modLink (f : Link → Link) (a : Hw) (m : Ch) (r : Ring) (p : Packet) : carried (a.modLink f) m r p = (carried a m r p).modLink f := by
  unfold carried
  rw [show (a.modLink f).curGen m r.num r.tenant = a.curGen m r.num r.tenant from rfl]
  split
  · exact Hw.modCh_modDev ..
  · rfl

theorem Hw.deliver_of_passes {m : Ch} {w : Waiting} {r : Ring} {a : Hw} (header : w.pkt.headerOk = true)
    (ring : (a.ch m).inRing w.pkt.ring = some r) (early : a.earlyWhy m r w.pkt = none) (late : (carried a m r w.pkt).lateWhy m r w = none)
    (ingest : ((carried a m r w.pkt).ch m).ingestOk r w.pkt = true) : a.deliver m w = (carried a m r w.pkt).accept m r w := by
  unfold carried at *
  simp only [Hw.deliver, header, Bool.not_true, Bool.false_eq_true, if_false, ring, early, late, ingest, if_true]

/-- A packet other than data is not ingested (R381). -/
theorem Channel.ingestOk_of_op {p : Packet} (h : p.op ∉ [1, 2, 3]) (r : Ring) (c : Channel) : c.ingestOk r p = true := by
  have : [1, 2, 3].contains p.op = false := by simpa using h
  rw [ingestOk, this]
  rfl

theorem served_eq_modLink (a : Hw) (p : Packet) :
    served a p = a.modLink fun l => { l with servedIn := setAt l.servedIn ((a.ch p.chan).waitClass p) p.ring18 } := rfl
theorem Hw.lateWhy_crossed (a : Hw) (m : Ch) (r : Ring) (w : Waiting) (x : Nat) : a.lateWhy m r { w with crossed := x } = a.lateWhy m r w := rfl
/-- Round-robin has no part in the checks. -/
theorem Hw.earlyWhy_served (a : Hw) (q : Packet) (m : Ch) (r : Ring) (p : Packet) : (served a q).earlyWhy m r p = a.earlyWhy m r p := by
  rw [served_eq_modLink, earlyWhy_modLink]
theorem Hw.lateWhy_served (a : Hw) (q p : Packet) (m : Ch) (r : Ring) (w : Waiting) :
    (carried (served a q) m r p).lateWhy m r w = (carried a m r p).lateWhy m r w := by
  rw [served_eq_modLink, carried_modLink, lateWhy_modLink]

/-- A packet that nothing holds back is served at once. -/
theorem Hw.packet_of_reaches {m : Ch} {w : Waiting} {a : Hw} (h : Reaches a w m) :
    a.packet w.pkt.op w = (served a w.pkt).deliver m { w with crossed := a.now - w.pkt.wait } := by
  obtain ⟨porst, link, rfl, free, first⟩ := h
  unfold Hw.packet Hw.arrive
  simp only [beq_self_eq_true, if_true, porst, link, free, first, Bool.not_true, Bool.or_self, Bool.and_false, Bool.false_eq_true, if_false]
  rfl

/-- A packet that passes every check takes effect at once. -/
theorem Hw.packet_of_passes {m : Ch} {w : Waiting} {r : Ring} {a : Hw} (h : Passes a w m r) (hop : w.pkt.op ∉ [1, 2, 3]) :
    a.packet w.pkt.op w = (carried (served a w.pkt) m r w.pkt).accept m r { w with crossed := a.now - w.pkt.wait } := by
  obtain ⟨⟨reaches, header, ring, -, early, late⟩, -⟩ := h
  rw [packet_of_reaches reaches]
  have early' : (served a w.pkt).earlyWhy m r w.pkt = none := by rw [earlyWhy_served, early]
  have late' : (carried (served a w.pkt) m r w.pkt).lateWhy m r { w with crossed := a.now - w.pkt.wait } = none := by
    rw [lateWhy_served, lateWhy_crossed, late]
  exact deliver_of_passes (w := { w with crossed := a.now - w.pkt.wait }) header ring early' late' (Channel.ingestOk_of_op hop ..)


/-! ### The account of a packet leaves registers as they are -/

namespace RegStep

theorem bump (x : Ctr) (n : Nat) (c : Channel) : RegStep (fun _ => false) c (c.bump x n) :=
  ⟨rfl, rfl, rfl, rfl, rfl, rfl, rfl, rfl, fun _ _ => rfl, fun _ _ => by simp [Channel.stuck]⟩
theorem doubtInput (d : Doubt) (c : Channel) : RegStep (fun _ => false) c (c.doubtInput d) :=
  ⟨rfl, rfl, rfl, rfl, rfl, rfl, rfl, rfl, fun _ _ => rfl, fun _ _ => by simp [Channel.stuck, Channel.doubtInput]⟩
theorem modRing (n : Nat) (f : Ring → Ring) (c : Channel) : RegStep (fun _ => false) c (c.modRing n f) := by
  unfold Channel.modRing
  split <;> exact ⟨rfl, rfl, rfl, rfl, rfl, rfl, rfl, rfl, fun _ _ => rfl, fun _ _ => by simp [Channel.stuck]⟩

variable (m : Ch) (a : Hw)

theorem of_modCh {f : Channel → Channel} (h : RegStep (fun _ => false) (a.ch m) (f (a.ch m))) :
    RegStep (fun _ => false) (a.ch m) ((a.modCh m f).ch m) := by
  rwa [Hw.ch_modCh_same]
theorem raiseIn (sev : Severity) (code init : Nat) (d0 d1 : Option Nat) :
    RegStep (fun _ => false) (a.ch m) ((a.raiseIn m sev code init d0 d1).ch m) :=
  of_modCh m a (.putErr ..)
theorem carried (r : Ring) (p : Packet) : RegStep (fun _ => false) (a.ch m) ((carried a m r p).ch m) := by
  unfold Claims.carried
  split
  · exact of_modCh m a (.modRing ..)
  · exact .refl _

theorem gap (r : Ring) (p : Packet) (d : Nat) : RegStep (fun _ => false) (a.ch m) ((a.gap m r p d).ch m) := by
  unfold Hw.gap
  split
  · exact .refl _
  · have stale (b : Hw) : RegStep (fun _ => false) (b.ch m) ((if r.safety then b.modCh m (Channel.doubtInput .staleInput) else b).ch m) := by
      split
      · exact of_modCh m b (.doubtInput ..)
      · exact .refl _
    exact ((of_modCh m a (.modRing ..)).then_none (stale _)).then_none (.raiseIn ..)
theorem ageCheck (r : Ring) (p : Packet) : RegStep (fun _ => false) (a.ch m) ((a.ageCheck m r p).ch m) := by
  unfold Hw.ageCheck
  split
  · exact (of_modCh m a (.doubtInput ..)).then_none (.raiseIn ..)
  · exact .refl _
theorem account (r : Ring) (w : Waiting) : RegStep (fun _ => false) (a.ch m) ((a.account m r w).ch m) :=
  ((gap m a r w.pkt _).then_none (of_modCh m _ ((bump ..).then_none (.modRing ..)))).then_none (.ageCheck ..)
theorem messageDone (r : Ring) (p : Packet) : RegStep (fun _ => false) (a.ch m) ((a.messageDone m r p).ch m) := by
  unfold Hw.messageDone
  split
  · exact .refl _
  · dsimp only
    split <;> exact of_modCh m a (.modRing ..)

end RegStep

/-- The words of a REGWRITE, with the record of those in another channel's window. -/
def Hw.regWords (m : Ch) (p : Packet) (a : Hw) : Hw :=
  let addrs := (List.range p.reg.count).map fun i => p.reg.addr + 4 * i
  let b := (addrs.zip (wordsAt p.payload 64 p.reg.count)).foldl (fun h w => h.hostWrite m w.1 w.2.toNat) a
  if addrs.any fun x => (placeOf x).foreign m then b.raiseIn m .degraded 0x49 initDisp (some p.ring18) (some p.seq.toNat) else b
/-- The STATUS packet that answers ACK (R102). -/
def Channel.ackPacket (tag : Word) (c : Channel) : OutPkt :=
  { body := .status 0 c.st c.reason tag c.tick.k, ring := 0, frametag := BitVec.ofNat 32 c.tick.k, reports := none, eom := true }

theorem Hw.regWrite_eq (m : Ch) (p : Packet) (a : Hw) :
    a.regWrite m p = if p.ack then (a.regWords m p).outPush m (((a.regWords m p).ch m).ackPacket p.reg.tag) else a.regWords m p := rfl

/-- Whether a word of the REGWRITE names sticky bit `x`. -/
def regNames (m : Ch) (p : Packet) (x : Sticky) : Bool :=
  (List.range p.reg.count).any fun i => (placeOf (p.reg.addr + 4 * i)).names m (wordAt p.payload (64 + 4 * i)).toNat x

theorem Hw.regWords_regStep (m : Ch) (p : Packet) (a : Hw) : RegStep (regNames m p) (a.ch m) ((a.regWords m p).ch m) := by
  have words := hostWrites_regStep m
    (((List.range p.reg.count).map fun i => p.reg.addr + 4 * i).zip (wordsAt p.payload 64 p.reg.count)) a
  have named := words.of_eq (q := regNames m p) fun x => by
    rw [wordsAt, List.zip_map', List.any_map]
    rfl
  unfold Hw.regWords
  dsimp only
  split
  · exact named.then_none (.raiseIn ..)
  · exact named

theorem regNames_iff {m : Ch} {p : Packet} {x : Sticky} : regNames m p x = true ↔
    ∃ i off, i < p.reg.count ∧ placeOf (p.reg.addr + 4 * i) = .channel m off ∧
      named off ((wordsAt p.payload 64 p.reg.count).getD i 0).toNat x = true := by
  have word {i : Nat} (hi : i < p.reg.count) : (wordsAt p.payload 64 p.reg.count).getD i 0 = wordAt p.payload (64 + 4 * i) := by
    simp [wordsAt, hi]
  simp only [regNames, List.any_eq_true, List.mem_range]
  constructor
  · rintro ⟨i, hi, hn⟩
    cases hp : placeOf (p.reg.addr + 4 * i) with
    | nowhere => simp [Place.names, hp] at hn
    | device off => simp [Place.names, hp] at hn
    | channel n off =>
      simp only [Place.names, hp, Bool.and_eq_true, beq_iff_eq] at hn
      obtain ⟨rfl, hn⟩ := hn
      exact ⟨i, off, hi, hp, (word hi).symm ▸ hn⟩
  · rintro ⟨i, off, hi, hp, hn⟩
    refine ⟨i, hi, ?_⟩
    rw [word hi] at hn
    simp [Place.names, hp, hn]

theorem Hw.outPush_of_room {m : Ch} {p : OutPkt} {a : Hw} (he : p.body.isEnv = false) (hr : (a.ch m).roomOther = true) :
    a.outPush m p = a.modCh m fun c => { c with outq := c.outq ++ [p] } := by
  simp [Hw.outPush, he, hr]

theorem Channel.roomOther_of_outq {a c : Channel} (h : c.outq = a.outq) : c.roomOther = a.roomOther := by
  rw [roomOther, roomOther, envQueued, envQueued, h]

/-- What a REGWRITE that passes every check does to its channel: the words, then the answer. -/
theorem Hw.regwrite_does {m : Ch} {r : Ring} {p : Packet} {a : Hw} (hop : p.op = 8) (h : Passes a (plain p) m r) :
    ∃ b : Hw, RegStep (regNames m p) (a.ch m) (b.ch m) ∧
      a.packet 8 (plain p) = (if p.ack then b.outPush m ((b.ch m).ackPacket p.reg.tag) else b).messageDone m r p := by
  have effect := packet_of_passes h (by simp [plain, hop])
  refine ⟨((carried (served a p) m r p).account m r { plain p with crossed := a.now - p.wait }).regWords m p, ?_, ?_⟩
  · have account := (RegStep.carried m (served a p) r p).then_none (.account m _ r { plain p with crossed := a.now - p.wait })
    exact (account.trans (regWords_regStep m p _)).of_eq fun _ => Bool.false_or _
  · rw [← hop, ← Hw.regWrite_eq]
    refine effect.trans ?_
    simp only [Hw.accept, Hw.perform, plain, hop]

end Sys2Proof.Machine
end

section
namespace Sys2Proof.Claims
open Sys2Proof.Machine

/-! ### Register writes (R9, R10, R12, R101) -/

/-- A command has one outcome. -/
theorem Runs.and {i : Instr} {s : State} {P Q : Hw → Prop} (h : Runs i s P) (k : Runs i s Q) : Runs i s fun x => P x ∧ Q x := by
  obtain ⟨x, hx, hP⟩ := h
  obtain ⟨y, hy, hQ⟩ := k
  cases hx.symm.trans hy
  exact ⟨x, hx, hP, hQ⟩

/-- Out of PORST and not under test, one register write takes its path. -/
theorem Runs.registerWrite_host {t : Nat} {m : Ch} {addr v : Word} {s : State} {P : Hw → Prop} (awake : Awake s)
    (h : P (if (placeOf addr.toNat).foreign m then (later s t).raiseIn m .degraded 0x49 initDisp (some (ring18 m 0)) none
      else (later s t).hostWrite m addr.toNat v.toNat)) : Runs (.registerWrite t (.host m) addr v) s P := by
  obtain ⟨porst, test⟩ := awake
  have active : ¬(!(later s t).dev.porstN || (later s t).dev.testMode) = true := by simp [later, Hw.advance, porst, test]
  refine ⟨_, rfl, ?_⟩
  dsimp only
  rwa [if_neg active]
theorem Runs.registerWrite_mgmt {t : Nat} {addr v : Word} {s : State} {P : Hw → Prop} (awake : Awake s)
    (h : P (((later s t).mgmtWrite addr.toNat v.toNat).2.answerWrite ((later s t).mgmtWrite addr.toNat v.toNat).1)) :
    Runs (.registerWrite t .mgmt addr v) s P := by
  obtain ⟨porst, test⟩ := awake
  have active : ¬(!(later s t).dev.porstN || (later s t).dev.testMode) = true := by simp [later, Hw.advance, porst, test]
  refine ⟨_, rfl, ?_⟩
  dsimp only
  rwa [if_neg active]
/-- A write to what is not another channel's window. -/
theorem Runs.registerWrite_own {t : Nat} {m : Ch} {addr v : Word} {s : State} {P : Hw → Prop} (awake : Awake s)
    (own : (placeOf addr.toNat).foreign m = false) (h : P ((later s t).hostWrite m addr.toNat v.toNat)) :
    Runs (.registerWrite t (.host m) addr v) s P :=
  .registerWrite_host awake (by rwa [own, if_neg Bool.false_ne_true])

/-- What a REGWRITE leaves of its channel `c`, with or without an answer. -/
def RegWritten (m : Ch) (p : Packet) (c d : Channel) : Prop :=
  d.hbm = c.hbm ∧ d.core = c.core ∧ d.nvm = c.nvm ∧ d.st = c.st ∧ d.img = c.img ∧
  ((p.ack = true → c.roomOther = true) → ∀ x, x ∉ summaryBits → d.stuck x = (c.stuck x && !(regNames m p x && !c.fresh.contains (some x)))) ∧
  (p.ack = false → d.outq = c.outq) ∧ (p.ack = true → c.roomOther = true → d.outq = c.outq ++ [c.ackPacket p.reg.tag])

/-- The answer, where it is asked for, keeps what the words left. -/
theorem RegWritten.answered {m : Ch} {p : Packet} {c : Channel} {b : Hw} (h : RegStep (regNames m p) c (b.ch m)) (r : Ring) :
    RegWritten m p c (((if p.ack then b.outPush m ((b.ch m).ackPacket p.reg.tag) else b).messageDone m r p).ch m) := by
  have done (x : Hw) := RegStep.messageDone m x r p
  cases ack : p.ack
  · rw [if_neg Bool.false_ne_true]
    have last := h.then_none (done b)
    exact ⟨last.hbm, last.core, last.nvm, last.st, last.img, fun _ => last.stuck, fun _ => last.outq, by simp [ack]⟩
  · rw [if_pos rfl]
    have last := done (b.outPush m ((b.ch m).ackPacket p.reg.tag))
    generalize hd : ((b.outPush m ((b.ch m).ackPacket p.reg.tag)).messageDone m r p).ch m = d at last
    refine ⟨?_, ?_, ?_, ?_, ?_, fun room x hx => ?_, by simp [ack], fun _ room => ?_⟩
    · rw [last.hbm, Hw.outPush_hbm, h.hbm]
    · rw [last.core, Hw.outPush_core, h.core]
    · rw [last.nvm, Hw.outPush_nvm, h.nvm]
    · rw [last.st, Hw.outPush_st, h.st]
    · rw [last.img, Hw.outPush_img, h.img]
    · have hroom := (Channel.roomOther_of_outq h.outq).trans (room ack)
      rw [last.stuck x hx, Hw.outPush_of_room rfl hroom, Hw.ch_modCh_same]
      simpa [Channel.stuck] using h.stuck x hx
    · have hroom := (Channel.roomOther_of_outq h.outq).trans room
      rw [last.outq, Hw.outPush_of_room rfl hroom, Hw.ch_modCh_same]
      simp only [h.outq, Channel.ackPacket, h.st, h.reason, h.tick]

theorem regwrite_runs {t : Nat} {p : Packet} {s : State} {m : Ch} {r : Ring} (hop : p.op = 8) (pass : Passes (later s t) (plain p) m r) :
    Runs (.regwrite t p) s fun h => Others m (later s t) h ∧ RegWritten m p ((later s t).ch m) (h.ch m) := by
  obtain ⟨b, words, effect⟩ := Hw.regwrite_does hop pass
  have hm : p.chan = m := by
    obtain ⟨⟨⟨-, -, hm, -⟩, -⟩, -⟩ := pass
    exact hm
  have others : Runs (.regwrite t p) s (Others m (later s t)) := by
    obtain ⟨h, hx, within⟩ := packet_within (i := .regwrite t p) (s := s) (op := 8) (w := plain p) rfl hm (by decide)
    exact ⟨h, hx, within.ch⟩
  refine others.and ⟨_, rfl, ?_⟩
  change RegWritten m p _ (((later s t).packet 8 (plain p)).ch m)
  rw [effect]
  exact .answered words r

/-- A word of the channel's own window with no field that a write can be refused for. -/
theorem hostWrite_clears {t : Nat} {m : Ch} {addr v : Word} {s : State} {off : Nat} (awake : Awake s) (hp : placeOf addr.toNat = .channel m off)
    (hv : inView off = false) (hne : off ≠ 0x90C) (him : imFields off = 0) :
    Runs (.registerWrite t (.host m) addr v) s fun h =>
      Clears off v.toNat ((later s t).ch m) (h.ch m) ∧ Only m (fun _ => h.ch m) (later s t) h := by
  refine .registerWrite_own awake (by simp [hp, Place.foreign]) ?_
  rw [Hw.hostWrite_own hp hv, him, mgMask_channel hne]
  simp only [bne_self_eq_false, b2n, Bool.false_eq_true, if_false, Nat.add_zero, ite_self, Hw.refusedFields_zero]
  unfold Only
  rw [Hw.ch_modCh_same]
  exact ⟨Channel.writeW1c_clears .., rfl⟩

/-- No register there holds a field that the host could set or clear. -/
theorem hostWrite_outside {t : Nat} {m : Ch} {addr v : Word} {s : State} (awake : Awake s)
    (hp : placeOf addr.toNat = .nowhere ∨ ∃ off, placeOf addr.toNat = .device off ∧ off ≠ 0x090 ∧ off ≠ 0x200) :
    Runs (.registerWrite t (.host m) addr v) s fun h => h = later s t := by
  rcases hp with hp | ⟨off, hp, h1, h2⟩
  · exact .registerWrite_own awake (by rw [hp]; rfl) (Hw.hostWrite_nowhere hp ..)
  · refine .registerWrite_own awake (by rw [hp]; rfl) ?_
    rw [Hw.hostWrite_device hp, mgMask_device h1 h2]
    simp [b2n]

theorem hostWrite_otherWindow {t : Nat} {m n : Ch} {addr v : Word} {s : State} {off : Nat} (awake : Awake s)
    (hp : placeOf addr.toNat = .channel n off) (hn : n ≠ m) :
    Runs (.registerWrite t (.host m) addr v) s fun h => ∃ x, IsRec x (some m) .degraded 0x49 (some (ring18 m 0)) none ∧
      h = ((later s t).modCh m (Channel.putErr x)).modSig fun s => { s with log := logPut x s.log } := by
  have foreign : (placeOf addr.toNat).foreign m = true := by rw [hp]; simp [Place.foreign, hn]
  refine .registerWrite_host awake ?_
  rw [if_pos foreign]
  exact ⟨_, ⟨rfl, rfl, rfl, rfl, rfl⟩, rfl⟩

/-- Whatever a write of a mapped word is refused for. -/
theorem hostWrite_upToQueue {t : Nat} {m : Ch} {addr v : Word} {s : State} {off : Nat} (awake : Awake s) (hp : placeOf addr.toNat = .channel m off)
    (hv : inView off = false) :
    Runs (.registerWrite t (.host m) addr v) s fun h =>
      Others m (later s t) h ∧ ∃ c, Clears off v.toNat ((later s t).ch m) c ∧ UpToQueue c (h.ch m) := by
  refine .registerWrite_own awake (by simp [hp, Place.foreign]) ⟨(OnlyCh.hostWrite ..).ch, _, Channel.writeW1c_clears off v.toNat _, ?_⟩
  rw [Hw.hostWrite_own hp hv, ← Hw.ch_modCh_same m (Channel.writeW1c off v.toNat) (later s t)]
  exact Hw.refusedFields_upToQueue ..

/-- A word of a channel's window outside the views, written over management. -/
theorem Hw.mgmtWrite_channel {m : Ch} {addr off old : Nat} {a : Hw} (hp : placeOf addr = .channel m off) (hw : a.chWord m false off = some old)
    (hv : inView off = false) (v : Nat) :
    a.mgmtWrite addr v = (if (old ^^^ v) &&& roMask (.channel m off) != 0 then 3 else 0,
      if off == 0x90C then ((a.modCh m (Channel.writeW1c off v)).refusedFields m initMgmt (imFields off)).fenceMask m (bitsOf v 24 16)
      else (a.modCh m (Channel.writeW1c off v)).refusedFields m initMgmt (imFields off)) := by
  unfold Hw.mgmtWrite
  simp only [hp, Hw.word, hv, Option.isSome_none, Bool.false_eq_true, if_false, hw]

theorem Hw.answerWrite_ok (m : Ch) (f : Channel → Channel) (a : Hw) :
    (a.modCh m f).answerWrite 0 = { a.modCh m f with emitted := a.emitted ++ [.mgmt 0x11 0 .none] } := by
  change ({ a.modCh m f with emitted := (a.modCh m f).emitted ++ [.mgmt 0x11 0 .none] } : Hw) = _
  rw [Hw.modCh_emitted]

theorem mgmtWrite_clears {t : Nat} {m : Ch} {addr v : Word} {s : State} {off old : Nat} (awake : Awake s)
    (hp : placeOf addr.toNat = .channel m off) (hw : (later s t).chWord m false off = some old) (hv : inView off = false) (hne : off ≠ 0x90C)
    (him : imFields off = 0) (hro : (old ^^^ v.toNat) &&& roMask (.channel m off) = 0) :
    Runs (.registerWrite t .mgmt addr v) s fun h => Clears off v.toNat ((later s t).ch m) (h.ch m) ∧
      h = { (later s t).modCh m (fun _ => h.ch m) with emitted := (later s t).emitted ++ [.mgmt 0x11 0 .none] } := by
  refine .registerWrite_mgmt awake ?_
  have other : (off == 0x90C) = false := by simpa using hne
  rw [Hw.mgmtWrite_channel hp hw hv, hro, him, other]
  simp only [bne_self_eq_false, Bool.false_eq_true, if_false, Hw.refusedFields_zero]
  have written : (((later s t).modCh m (Channel.writeW1c off v.toNat)).answerWrite 0).ch m = ((later s t).ch m).writeW1c off v.toNat :=
    Hw.ch_modCh_same ..
  rw [written]
  exact ⟨Channel.writeW1c_clears .., Hw.answerWrite_ok ..⟩

theorem regwrite_applies {t : Nat} {p : Packet} {s : State} {m : Ch} {r : Ring} (hop : p.op = 8) (pass : Passes (later s t) (plain p) m r) :
    let a := later s t
    let c := a.ch m
    let own := fun (x : Sticky) => ∃ i off, i < p.reg.count ∧ placeOf (p.reg.addr + 4 * i) = .channel m off ∧
      named off ((wordsAt p.payload 64 p.reg.count).getD i 0).toNat x = true
    Runs (.regwrite t p) s fun h =>
      Others m a h ∧ (h.ch m).hbm = c.hbm ∧ (h.ch m).core = c.core ∧ (h.ch m).nvm = c.nvm ∧ (h.ch m).st = c.st ∧ (h.ch m).img = c.img ∧
      ((p.ack = true → c.roomOther = true) → ∀ x, x ∉ summaryBits →
        (own x → (h.ch m).stuck x = (c.stuck x && c.fresh.contains (some x))) ∧ (¬own x → (h.ch m).stuck x = c.stuck x)) ∧
      (p.ack = false → (h.ch m).outq = c.outq) ∧
      (p.ack = true → c.roomOther = true → ∃ pkt, (h.ch m).outq = c.outq ++ [pkt] ∧ pkt.ring = 0 ∧
        pkt.body = .status 0 c.st c.reason p.reg.tag c.tick.k) := by
  intro a c own
  obtain ⟨h, hx, others, hbm, core, nvm, st, img, bits, quiet, acked⟩ := regwrite_runs hop pass
  refine ⟨h, hx, others, hbm, core, nvm, st, img, fun room x hx => ?_, quiet, fun ack room => ⟨_, acked ack room, rfl, rfl⟩⟩
  have names : own x ↔ regNames m p x = true := regNames_iff.symm
  have bit := bits room x hx
  refine ⟨fun named => ?_, fun free => ?_⟩
  · rwa [names.mp named, Bool.true_and, Bool.not_not] at bit
  · rwa [eq_false_of_ne_true (mt names.mpr free), Bool.false_and, Bool.not_false, Bool.and_true] at bit

/-- Settles O31: a REGWRITE by its words in turn and its answer, one register write by the place that it names. -/
theorem regwriteApplies : Obligations.RegwriteApplies := by
  unfold Obligations.RegwriteApplies
  exact ⟨fun _ _ _ _ _ => regwrite_applies, fun _ _ _ _ _ _ => hostWrite_clears, fun _ _ _ _ _ => hostWrite_outside,
    fun _ _ _ _ _ _ _ => hostWrite_otherWindow, fun _ _ _ _ _ _ _ => mgmtWrite_clears,
    fun _ _ _ _ _ _ awake hp _ hv => hostWrite_upToQueue awake hp hv⟩

end Sys2Proof.Claims
end

section
namespace Sys2Proof.Machine
open Sys2Proof.Claims

/-! ### Which descriptors a command reads from HBM (R499, R501) -/

/-- Outside the descriptor view no descriptor is read. -/
theorem Channel.uncachedIn_eq_nil {offs : List Nat} (h : ∀ o ∈ offs, inView o = false) (c : Channel) : c.uncachedIn offs = [] := by
  have none : (offs.filter fun o => decide (0x400000 ≤ o) && decide (o < 0x800000)) = [] := by
    refine List.filter_eq_nil_iff.mpr fun o ho hin => ?_
    have := h o ho
    simp only [inView, Bool.and_eq_true, Bool.and_eq_false_iff, decide_eq_true_eq, decide_eq_false_iff_not] at this hin
    omega
  rw [uncachedIn, none]
  rfl

/-- Words of one uncached descriptor read that descriptor alone. -/
theorem Channel.uncachedIn_one {c : Channel} {n : Nat} (hn : n < 65536) (hu : c.uncached n = true) {o : Nat} {offs : List Nat}
    (h : ∀ x ∈ o :: offs, 0x400000 + 64 * n ≤ x ∧ x < 0x400000 + 64 * n + 64) : c.uncachedIn (o :: offs) = [n] := by
  have all : ((o :: offs).filter fun o => decide (0x400000 ≤ o) && decide (o < 0x800000)) = o :: offs := by
    refine List.filter_eq_self.mpr fun x hx => ?_
    have := h x hx
    simp only [Bool.and_eq_true, decide_eq_true_eq]
    omega
  have ring : ∀ x ∈ o :: offs, (x - 0x400000) / 64 = n := fun x hx => by have := h x hx; omega
  have rest : ((offs.map fun o => (o - 0x400000) / 64).filter fun x => !x == n) = [] := by
    simp only [List.filter_eq_nil_iff, List.mem_map, Bool.not_eq_true', Bool.not_eq_false, beq_iff_eq]
    rintro _ ⟨x, hx, rfl⟩
    exact ring x (List.mem_cons_of_mem _ hx)
  rw [uncachedIn, all, List.map_cons, List.eraseDups_cons, ring o (by simp), rest]
  simp [hu]

theorem Channel.viewReads_of_none {offs : List Nat} (h : ∀ o ∈ offs, inView o = false) (c : Channel) : c.viewReads offs = c := by
  simp [viewReads, uncachedIn_eq_nil h]

/-- A command that reads no word of the views counts nothing. -/
theorem Hw.viewReads_of_none {ps : List Place} (h : ∀ m off, .channel m off ∈ ps → inView off = false) (a : Hw) : a.viewReads ps = a := by
  have step (m : Ch) (b : Hw) : (if ((b.ch m).uncachedIn (offsetsIn m ps)).length == 0 then b
      else b.modCh m (Channel.bump .perfHbmRd (64 * ((b.ch m).uncachedIn (offsetsIn m ps)).length))) = b := by
    rw [Channel.uncachedIn_eq_nil fun o ho => h m o (mem_offsetsIn.mp ho)]
    rfl
  have all (l : List Ch) (b : Hw) : l.foldl (fun b m => if ((b.ch m).uncachedIn (offsetsIn m ps)).length == 0 then b
      else b.modCh m (Channel.bump .perfHbmRd (64 * ((b.ch m).uncachedIn (offsetsIn m ps)).length))) b = b := by
    induction l with
    | nil => rfl
    | cons m l ih => rw [List.foldl_cons, step, ih]
  exact all chans a

/-! ### The places of a command's words (R451) -/

theorem mem_placesFrom {addr n : Nat} {p : Place} : p ∈ placesFrom addr n ↔ ∃ i, i < n ∧ placeOf (addr + 4 * i) = p := by
  simp [placesFrom]

theorem Hw.viewReads_ch_of_noView {addr n : Nat} {m : Ch}
    (h : ∀ i off, i < n → placeOf (addr + 4 * i) = .channel m off → inView off = false) (a : Hw) :
    (a.viewReads (placesFrom addr n)).ch m = a.ch m := by
  rw [Hw.viewReads_ch]
  refine Channel.viewReads_of_none (fun o ho => ?_) _
  obtain ⟨i, hi, hp⟩ := mem_placesFrom.mp (mem_offsetsIn.mp ho)
  exact h i o hi hp

theorem Hw.viewReads_ch_of_one {addr count : Nat} {m : Ch} {n : Nat} {a : Hw} (hc : 1 ≤ count) (hn : n < 65536) (hu : (a.ch m).uncached n = true)
    (h : ∀ i, i < count → ∃ off, placeOf (addr + 4 * i) = .channel m off ∧ 0x400000 + 64 * n ≤ off ∧ off < 0x400000 + 64 * n + 64) :
    (a.viewReads (placesFrom addr count)).ch m = (a.ch m).bump .perfHbmRd 64 := by
  have inRing : ∀ x ∈ offsetsIn m (placesFrom addr count), 0x400000 + 64 * n ≤ x ∧ x < 0x400000 + 64 * n + 64 := fun x hx => by
    obtain ⟨i, hi, hp⟩ := mem_placesFrom.mp (mem_offsetsIn.mp hx)
    obtain ⟨off, hp', range⟩ := h i hi
    cases hp.symm.trans hp'
    exact range
  obtain ⟨first, hp, -⟩ := h 0 (by omega)
  have read : first ∈ offsetsIn m (placesFrom addr count) := mem_offsetsIn.mpr (mem_placesFrom.mpr ⟨0, by omega, hp⟩)
  rw [Hw.viewReads_ch]
  cases ho : offsetsIn m (placesFrom addr count) with
  | nil => simp [ho] at read
  | cons o offs =>
    rw [Channel.viewReads, Channel.uncachedIn_one hn hu (ho ▸ inRing)]
    rfl


/-! ### Readings of single registers over management (R451, R502) -/

theorem lt_of_ctrAt {off : Nat} {x : Ctr} (h : ctrAt off = some x) : off < 0x1000 := by
  refine Nat.lt_of_not_le fun hge => ?_
  unfold ctrAt at h
  split at h
  case h_50 => cases h
  all_goals omega

theorem inView_of_lt {off : Nat} (h : off < 0x1000) : inView off = false := by
  simp only [inView, Bool.and_eq_false_iff, decide_eq_false_iff_not]
  omega

theorem Hw.chWord_counter {off : Nat} {x : Ctr} (h : ctrAt off = some x) (a : Hw) (m : Ch) : a.chWord m false off = some ((a.ch m).count x) := by
  simp only [Hw.chWord, h]
  rfl

theorem Hw.word_channel {off : Nat} (h : inView off = false) (a : Hw) (m : Ch) : a.word none (.channel m off) = a.chWord m false off := by
  simp [Hw.word, h]

/-- Counters are read exactly and unlatched. -/
theorem Hw.word_counter {off : Nat} {x : Ctr} (h : ctrAt off = some x) (a : Hw) (m : Ch) :
    a.word none (.channel m off) = some ((a.ch m).count x) := by
  rw [word_channel (inView_of_lt (lt_of_ctrAt h)), chWord_counter h]
theorem Hw.word_doubt (a : Hw) (m : Ch) : a.word none (.channel m 0x904) = some (a.ch m).doubtP.toNat := rfl
theorem Hw.word_mgCounter (a : Hw) : a.word none (.device 0x090) = some a.dev.signet.mgCounter := rfl

/-- Every bit of a counter counts. -/
theorem roMask_counter {off : Nat} {x : Ctr} (h : ctrAt off = some x) (m : Ch) : roMask (.channel m off) = 0xFFFFFFFF := by
  unfold ctrAt at h
  split at h
  case h_50 => cases h
  all_goals rfl

/-- Words that differ in no bit of a mask agree below it. -/
theorem mod_eq_of_xor_and_eq_zero {a b m k : Nat} (h : (a ^^^ b) &&& m = 0) (hm : m % 2 ^ k = 2 ^ k - 1) : a % 2 ^ k = b % 2 ^ k := by
  refine Nat.eq_of_testBit_eq fun i => ?_
  rw [Nat.testBit_mod_two_pow, Nat.testBit_mod_two_pow]
  by_cases hi : i < k
  · have bit : m.testBit i = true := by
      have := congrArg (Nat.testBit · i) hm
      simpa [Nat.testBit_mod_two_pow, Nat.testBit_two_pow_sub_one, hi] using this
    have := congrArg (Nat.testBit · i) h
    simp only [Nat.testBit_and, Nat.testBit_xor, bit, Bool.and_true, Nat.zero_testBit] at this
    simp only [hi, decide_true, Bool.true_and]
    simpa using this
  · simp [hi]

theorem ChState.code_lt (s : ChState) : s.code < 16 := by cases s <;> decide

/-- The low four bits of CH_STATE are the state (R460). -/
theorem Hw.chWord_state (a : Hw) (m : Ch) : ∃ w, a.chWord m false 0x010 = some w ∧ w % 16 = (a.ch m).st.code := by
  refine ⟨_, rfl, ?_⟩
  have := (a.ch m).st.code_lt
  omega

end Sys2Proof.Machine

namespace Sys2Proof.Claims
open Sys2Proof.Machine

/-! ### Accepted requests (R450) -/

theorem counted_ch (a : Hw) (sg : Signed) (m : Ch) : (counted a sg).ch m = a.ch m := rfl

/-- An accepted command is answered with what it gives, once MG_COUNTER has taken its COUNTER. -/
theorem signedCmd_of_accepts {a : Hw} {sg : Signed} {open_ : Bool} (h : Accepts a sg open_) (command : Nat) (f : Hw → Nat × MgmtData × Hw) :
    a.signedCmd command sg open_ f =
      if (f (counted a sg)).1 == 0 then (f (counted a sg)).2.2.respond command 0 (f (counted a sg)).2.1
      else (f (counted a sg)).2.2.answerNo command (f (counted a sg)).1 := by
  obtain ⟨porst, test, ready, sig, counter, known, unfused⟩ := h
  have why : a.signedWhy sg open_ = 0 := by
    unfold Hw.signedWhy
    cases authority : a.dev.fuses.authority with
    | none => simp [ready, sig, unfused authority, Nat.not_le.mpr counter]
    | some d => simp [ready, sig, known d authority, Nat.not_le.mpr counter]
  unfold Hw.signedCmd
  rw [porst, test, why]
  rfl

theorem answerNo_answers (command status : Nat) (a : Hw) : Answers command status .none a (a.answerNo command status) :=
  (Hw.mgmtRefused_does command status (a.respond command status .none)).emitted
theorem answerNo_upToQueue (command status : Nat) (a : Hw) (m : Ch) : UpToQueue (a.ch m) ((a.answerNo command status).ch m) :=
  Hw.mgmtRefused_upToQueue command status (a.respond command status .none) m

/-- An accepted command with STATUS 0. -/
theorem signedCmd_ok {a b : Hw} {sg : Signed} {open_ : Bool} {command : Nat} {data : MgmtData} {f : Hw → Nat × MgmtData × Hw}
    (h : Accepts a sg open_) (hf : f (counted a sg) = (0, data, b)) : a.signedCmd command sg open_ f = b.respond command 0 data := by
  rw [signedCmd_of_accepts h, hf]
  rfl
/-- An accepted command with another STATUS. -/
theorem signedCmd_no {a b : Hw} {sg : Signed} {open_ : Bool} {command status : Nat} {data : MgmtData} {f : Hw → Nat × MgmtData × Hw}
    (h : Accepts a sg open_) (hf : f (counted a sg) = (status, data, b)) (hs : status ≠ 0) :
    a.signedCmd command sg open_ f = b.answerNo command status := by
  rw [signedCmd_of_accepts h, hf]
  exact if_neg (by simpa using hs)

end Sys2Proof.Claims
end

section
namespace Sys2Proof.Claims
open Sys2Proof.Machine

/-! ### What the three commands give once they are accepted (R451, R452) -/

def readRegAt (addr count : Nat) (hw : Hw) : Nat × MgmtData × Hw :=
  if addr % 4 != 0 || count == 0 || decide (64 < count) then done 4 hw
  else (0, .words ((placesFrom addr count).map fun p => BitVec.ofNat 32 ((hw.word none p).getD 0)), hw.viewReads (placesFrom addr count))
def writeRegAt (addr : Nat) (words : List Word) (hw : Hw) : Nat × MgmtData × Hw :=
  if addr % 4 != 0 then done 4 hw
  else done ((hw.viewReads (placesFrom addr words.length)).mgmtWrites addr words).1 ((hw.viewReads (placesFrom addr words.length)).mgmtWrites addr words).2

theorem exec_readErrors (t : Nat) (sg : Signed) (s : State) : exec (.readErrors t sg) s =
    s.run t (Hw.signedCmd 0x14 sg false fun hw => (0, .records (hw.dev.signet.log ++ hw.dev.signet.logDevice), hw)) := rfl
theorem exec_readReg (t : Nat) (sg : Signed) (addr : Word) (count : Nat) (s : State) :
    exec (.readReg t sg addr count) s = s.run t (Hw.signedCmd 0x10 sg false (readRegAt addr.toNat count)) := rfl
theorem exec_writeReg (t : Nat) (sg : Signed) (addr : Word) (words : List Word) (s : State) :
    exec (.writeReg t sg addr words) s = s.run t (Hw.signedCmd 0x11 sg false (writeRegAt addr.toNat words)) := rfl

/-- The words that READ_REG reads once MG_COUNTER has taken the request's COUNTER. -/
def readWords (a : Hw) (sg : Signed) (addr count : Nat) : List Word :=
  (List.range count).map fun i => BitVec.ofNat 32 (((counted a sg).word none (placeOf (addr + 4 * i))).getD 0)

theorem readRegAt_ok {addr count : Nat} (h4 : addr % 4 = 0) (h1 : 1 ≤ count) (h64 : count ≤ 64) (a : Hw) (sg : Signed) :
    readRegAt addr count (counted a sg) = (0, .words (readWords a sg addr count), (counted a sg).viewReads (placesFrom addr count)) := by
  have good : (addr % 4 != 0 || count == 0 || decide (64 < count)) = false := by
    simp only [h4, bne_self_eq_false, Bool.false_or, Bool.or_eq_false_iff, beq_eq_false_iff_ne, decide_eq_false_iff_not]
    omega
  rw [readRegAt, if_neg (by rw [good]; exact Bool.false_ne_true), placesFrom, List.map_map]
  rfl
theorem readRegAt_bad {addr count : Nat} (h : addr % 4 ≠ 0 ∨ count = 0 ∨ 64 < count) (hw : Hw) : readRegAt addr count hw = done 4 hw := by
  refine if_pos ?_
  simpa [or_assoc] using h

/-- One word outside the views. -/
theorem writeRegAt_word {addr : Nat} (h4 : addr % 4 = 0) (hv : ∀ m off, placeOf addr = .channel m off → inView off = false) (v : Word) (hw : Hw) :
    writeRegAt addr [v] hw = done (hw.mgmtWrite addr v.toNat).1 (hw.mgmtWrite addr v.toNat).2 := by
  have quiet : hw.viewReads (placesFrom addr 1) = hw := Hw.viewReads_of_none (fun m off hp => by
    obtain ⟨i, hi, hp⟩ := mem_placesFrom.mp hp
    obtain rfl : i = 0 := by omega
    exact hv m off hp) hw
  have one : hw.mgmtWrites addr [v] = hw.mgmtWrite addr v.toNat := by
    change (if (hw.mgmtWrite addr v.toNat).1 == 0 then 0 else (hw.mgmtWrite addr v.toNat).1, (hw.mgmtWrite addr v.toNat).2) = _
    by_cases zero : (hw.mgmtWrite addr v.toNat).1 = 0
    · rw [zero]
      exact Prod.ext zero.symm rfl
    · rw [if_neg (by simpa using zero)]
  rw [writeRegAt, if_neg (by simp [h4]), List.length_singleton, quiet, one]

/-! ### READ_REG -/

theorem readWords_getD {a : Hw} {sg : Signed} {addr count i w : Nat} {p : Place} (hi : i < count) (hp : placeOf (addr + 4 * i) = p)
    (hw : (counted a sg).word none p = some w) : (readWords a sg addr count).getD i 0 = BitVec.ofNat 32 w := by
  simp [readWords, hi, hp, hw]

theorem readReg_runs {t : Nat} {sg : Signed} {s : State} (acc : Accepts (later s t) sg false) {addr : Word} {count : Nat}
    (h4 : addr.toNat % 4 = 0) (h1 : 1 ≤ count) (h64 : count ≤ 64) :
    Runs (.readReg t sg addr count) s fun h =>
      h = { (counted (later s t) sg).viewReads (placesFrom addr.toNat count) with
            emitted := (later s t).emitted ++ [.mgmt 0x10 0 (.words (readWords (later s t) sg addr.toNat count))] } := by
  refine ⟨_, exec_readReg .., ?_⟩
  rw [signedCmd_ok acc (readRegAt_ok h4 h1 h64 (later s t) sg)]
  obtain ⟨-, -, -, emitted, -⟩ := (counted (later s t) sg).viewReads_does (placesFrom addr.toNat count)
  change ({ (counted (later s t) sg).viewReads (placesFrom addr.toNat count) with emitted := _ ++ _ } : Hw) = _
  rw [emitted]
  rfl

/-! ### WRITE_REG of one word -/

section
variable {t : Nat} {sg : Signed} {s : State} {addr v : Word} {m : Ch} {off old : Nat}

/-- What one word changes of its channel, before the command is answered. -/
def wroteWord (a : Hw) (sg : Signed) (m : Ch) (off : Nat) (v : Word) : Hw :=
  ((counted a sg).modCh m (Channel.writeW1c off v.toNat)).refusedFields m initMgmt (imFields off)

theorem wroteWord_others {a : Hw} {n : Ch} (hn : n ≠ m) : (wroteWord a sg m off v).ch n = a.ch n :=
  ((OnlyCh.modCh m _ (counted a sg)).trans (.refusedFields m initMgmt (imFields off) _)).ch n hn
theorem wroteWord_emitted (a : Hw) : (wroteWord a sg m off v).emitted = a.emitted :=
  ((OnlyCh.modCh m _ (counted a sg)).trans (.refusedFields m initMgmt (imFields off) _)).emitted
theorem wroteWord_own (a : Hw) : UpToQueue ((a.ch m).writeW1c off v.toNat) ((wroteWord a sg m off v).ch m) := by
  rw [← counted_ch a sg, ← Hw.ch_modCh_same m (Channel.writeW1c off v.toNat) (counted a sg)]
  exact Hw.refusedFields_upToQueue ..

/-- STATUS 0 where the word changes only W1C bits and reserved ones, else 3. -/
def wordStatus (m : Ch) (off old : Nat) (v : Word) : Nat := if (old ^^^ v.toNat) &&& roMask (.channel m off) = 0 then 0 else 3

theorem writeRegAt_channel {a : Hw} (hp : placeOf addr.toNat = .channel m off) (h4 : addr.toNat % 4 = 0) (hv : inView off = false) (hne : off ≠ 0x90C)
    (hw : (counted a sg).chWord m false off = some old) :
    writeRegAt addr.toNat [v] (counted a sg) = (wordStatus m off old v, .none, wroteWord a sg m off v) := by
  have other : (off == 0x90C) = false := by simpa using hne
  have view : ∀ n o, placeOf addr.toNat = .channel n o → inView o = false := fun n o h => by
    cases hp.symm.trans h
    exact hv
  rw [writeRegAt_word h4 view, Hw.mgmtWrite_channel hp hw hv, other]
  simp only [done, wordStatus, wroteWord, Bool.false_eq_true, if_false, bne_iff_ne, ne_eq, ite_not]

/-- The command answers STATUS 0 or 3 by the fields that it would change. -/
theorem writeReg_answer {a : Hw} (acc : Accepts a sg false) (hp : placeOf addr.toNat = .channel m off) (h4 : addr.toNat % 4 = 0)
    (hv : inView off = false) (hne : off ≠ 0x90C) (hw : (counted a sg).chWord m false off = some old) :
    a.signedCmd 0x11 sg false (writeRegAt addr.toNat [v]) =
      if (old ^^^ v.toNat) &&& roMask (.channel m off) = 0 then (wroteWord a sg m off v).respond 0x11 0 .none
      else (wroteWord a sg m off v).answerNo 0x11 3 := by
  have gives := writeRegAt_channel (v := v) hp h4 hv hne hw
  split
  case isTrue same => exact signedCmd_ok acc (gives.trans (by rw [wordStatus, if_pos same]))
  case isFalse differs => exact signedCmd_no acc (gives.trans (by rw [wordStatus, if_neg differs])) (by decide)

/-- A counter's word changes with any bit written otherwise. -/
theorem counter_differs {a : Hw} {x : Ctr} (hx : ctrAt off = some x) (hw : (counted a sg).chWord m false off = some old) (hold : old < 2 ^ 32)
    (hv : v.toNat ≠ (a.ch m).count x) : ¬(old ^^^ v.toNat) &&& roMask (.channel m off) = 0 := by
  rw [Hw.chWord_counter hx] at hw
  cases hw
  rw [roMask_counter hx]
  intro same
  have equal := mod_eq_of_xor_and_eq_zero (k := 32) same (by decide)
  rw [Nat.mod_eq_of_lt hold, Nat.mod_eq_of_lt v.isLt] at equal
  exact hv equal.symm

theorem roMask_state (m : Ch) : roMask (.channel m 0x010) = 0x0F7FFF0F := rfl
/-- So does CH_STATE with another state code. -/
theorem state_differs {a : Hw} (hw : (counted a sg).chWord m false 0x010 = some old) (hv : v.toNat % 16 ≠ (a.ch m).st.code) :
    ¬(old ^^^ v.toNat) &&& roMask (.channel m 0x010) = 0 := by
  obtain ⟨w, hw', code⟩ := (counted a sg).chWord_state m
  cases hw.symm.trans hw'
  intro same
  have equal := mod_eq_of_xor_and_eq_zero (k := 4) same (by rewrite [roMask_state]; decide)
  exact hv (equal.symm.trans code)

/-- Every defined bit of these words is W1C (R451). -/
theorem roMask_w1cOnly (h : off = 0x410 ∨ off = 0x508 ∨ off = 0x560 ∨ off = 0x700) (m : Ch) : roMask (.channel m off) = 0 := by
  rcases h with rfl | rfl | rfl | rfl <;> rfl

end

end Sys2Proof.Claims
end

section
namespace Sys2Proof.Claims
open Sys2Proof.Machine

/-! ### The commands of O45 -/

/-- READ_ERRORS. -/
theorem readErrors_runs {t : Nat} {sg : Signed} {s : State} (acc : Accepts (later s t) sg false) :
    let a := later s t
    Runs (.readErrors t sg) s fun h =>
      h = { counted a sg with emitted := a.emitted ++ [.mgmt 0x14 0 (.records (a.dev.signet.log ++ a.dev.signet.logDevice))] } := by
  refine ⟨_, exec_readErrors .., ?_⟩
  rw [signedCmd_ok acc rfl]
  rfl

/-- READ_REG: its words, what it counts of HBM, and the registers that the statement names. -/
theorem readReg_reads {t : Nat} {sg : Signed} {s : State} (acc : Accepts (later s t) sg false) {addr : Word} {count : Nat}
    (h4 : addr.toNat % 4 = 0) (h1 : 1 ≤ count) (h64 : count ≤ 64) :
    let a := later s t
    Runs (.readReg t sg addr count) s fun h =>
      let ws := readWords a sg addr.toNat count
      h = { (counted a sg).viewReads (placesFrom addr.toNat count) with emitted := a.emitted ++ [.mgmt 0x10 0 (.words ws)] } ∧
      (∀ m : Ch, (∀ i off, i < count → placeOf (addr.toNat + 4 * i) = .channel m off → inView off = false) → h.ch m = a.ch m) ∧
      (∀ (m : Ch) n, n < 65536 → (a.ch m).uncached n = true →
        (∀ i, i < count → ∃ off, placeOf (addr.toNat + 4 * i) = .channel m off ∧ 0x400000 + 64 * n ≤ off ∧ off < 0x400000 + 64 * n + 64) →
        h.ch m = (a.ch m).bump .perfHbmRd 64) ∧
      (∀ (m : Ch) i off x, i < count → placeOf (addr.toNat + 4 * i) = .channel m off → ctrAt off = some x →
        ws.getD i 0 = BitVec.ofNat 32 ((a.ch m).count x)) ∧
      (∀ (m : Ch) i, i < count → placeOf (addr.toNat + 4 * i) = .channel m 0x904 → ws.getD i 0 = (a.ch m).doubtP) ∧
      (∀ i, i < count → placeOf (addr.toNat + 4 * i) = .device 0x090 → ws.getD i 0 = BitVec.ofNat 32 sg.counter) := by
  intro a
  obtain ⟨h, hx, heq⟩ := readReg_runs acc h4 h1 h64
  have ch (m : Ch) : h.ch m = ((counted a sg).viewReads (placesFrom addr.toNat count)).ch m := by
    rw [heq]
    rfl
  refine ⟨h, hx, heq, fun m quiet => ?_, fun m n hn hu one => ?_, fun m i off x hi hp hc => ?_, fun m i hi hp => ?_, fun i hi hp => ?_⟩
  · rw [ch, Hw.viewReads_ch_of_noView quiet, counted_ch]
  · rw [ch, Hw.viewReads_ch_of_one (a := counted a sg) h1 hn hu one, counted_ch]
  · exact readWords_getD hi hp (Hw.word_counter hc ..)
  · exact (readWords_getD hi hp (Hw.word_doubt ..)).trans (BitVec.ofNat_toNat ..)
  · exact readWords_getD hi hp (Hw.word_mgCounter _)

/-- READ_REG of what is no run of 1 to 64 words. -/
theorem readReg_bad {t : Nat} {sg : Signed} {s : State} (acc : Accepts (later s t) sg false) {addr : Word} {count : Nat}
    (bad : addr.toNat % 4 ≠ 0 ∨ count = 0 ∨ 64 < count) : Runs (.readReg t sg addr count) s fun h => Answers 0x10 4 .none (later s t) h := by
  refine ⟨_, exec_readReg .., ?_⟩
  rw [signedCmd_no acc (readRegAt_bad bad _) (by decide)]
  exact answerNo_answers ..

/-- WRITE_REG of one word of a channel's window. -/
theorem writeReg_writes {t : Nat} {sg : Signed} {s : State} (acc : Accepts (later s t) sg false) {addr : Word} {m : Ch} {off : Nat} {v : Word}
    {old : Nat} (hp : placeOf addr.toNat = .channel m off) (h4 : addr.toNat % 4 = 0) (hv : inView off = false) (hne : off ≠ 0x90C)
    (hw : (counted (later s t) sg).chWord m false off = some old) :
    let a := later s t
    Runs (.writeReg t sg addr [v]) s fun h =>
      let same := (old ^^^ v.toNat) &&& roMask (.channel m off) = 0
      (same → imFields off = 0 → Clears off v.toNat (a.ch m) (h.ch m) ∧
        h = { (counted a sg).modCh m (fun _ => h.ch m) with emitted := a.emitted ++ [.mgmt 0x11 0 .none] }) ∧
      (same → Answers 0x11 0 .none a h) ∧ (¬same → Answers 0x11 3 .none a h) ∧
      (∀ n, n ≠ m → UpToQueue (a.ch n) (h.ch n)) ∧ (∃ c, Clears off v.toNat (a.ch m) c ∧ UpToQueue c (h.ch m)) ∧
      (∀ x, ctrAt off = some x → old < 2 ^ 32 → v.toNat ≠ (a.ch m).count x → Answers 0x11 3 .none a h) ∧
      (off = 0x010 → v.toNat % 16 ≠ (a.ch m).st.code → Answers 0x11 3 .none a h) ∧
      (off = 0x410 ∨ off = 0x508 ∨ off = 0x560 ∨ off = 0x700 → Answers 0x11 0 .none a h) := by
  intro a
  refine ⟨_, exec_writeReg .., ?_⟩
  have answer := writeReg_answer (v := v) acc hp h4 hv hne hw
  generalize hh : a.signedCmd 0x11 sg false (writeRegAt addr.toNat [v]) = h at answer
  let same := (old ^^^ v.toNat) &&& roMask (.channel m off) = 0
  have ok (hs : same) : h = (wroteWord a sg m off v).respond 0x11 0 .none := answer.trans (if_pos hs)
  have no (hs : ¬same) : h = (wroteWord a sg m off v).answerNo 0x11 3 := answer.trans (if_neg hs)
  have answers0 (hs : same) : Answers 0x11 0 .none a h := by
    rw [ok hs]
    exact congrArg (· ++ [.mgmt 0x11 0 .none]) (wroteWord_emitted a)
  have answers3 (hs : ¬same) : Answers 0x11 3 .none a h := by
    rw [no hs]
    exact (answerNo_answers ..).trans (congrArg (· ++ [.mgmt 0x11 3 .none]) (wroteWord_emitted a))
  have queue (n : Ch) : UpToQueue ((wroteWord a sg m off v).ch n) (h.ch n) := by
    by_cases hs : same
    · rw [ok hs]
      exact .refl _
    · rw [no hs]
      exact answerNo_upToQueue ..
  refine ⟨fun hs him => ?_, answers0, answers3, fun n hn => wroteWord_others hn ▸ queue n,
    ⟨_, Channel.writeW1c_clears .., (wroteWord_own a).trans (queue m)⟩, fun x hx hold hd => answers3 (counter_differs hx hw hold hd), ?_,
    fun hm => answers0 (by simp only [same, roMask_w1cOnly hm, Nat.and_zero])⟩
  · have written : h = ((counted a sg).modCh m (Channel.writeW1c off v.toNat)).answerWrite 0 := by
      rw [ok hs, wroteWord, him]
      rfl
    have own : h.ch m = (a.ch m).writeW1c off v.toNat := by
      rw [written]
      exact Hw.ch_modCh_same ..
    rw [own]
    exact ⟨Channel.writeW1c_clears .., written.trans (Hw.answerWrite_ok ..)⟩
  · rintro rfl hd
    exact answers3 (state_differs hw hd)

/-- WRITE_REG of MG_COUNTER. -/
theorem writeReg_mgCounter {t : Nat} {sg : Signed} {s : State} (acc : Accepts (later s t) sg false) (v : Word) :
    let a := later s t
    Runs (.writeReg t sg 0x90#32 [v]) s fun h =>
      h = { counted a { sg with counter := v.toNat } with emitted := a.emitted ++ [.mgmt 0x11 0 .none] } := by
  refine ⟨_, exec_writeReg .., ?_⟩
  have gives : writeRegAt (0x90#32 : Word).toNat [v] (counted (later s t) sg) = (0, .none, counted (later s t) { sg with counter := v.toNat }) :=
    writeRegAt_word (by decide) (fun m off h => by cases h) v _
  rw [signedCmd_ok acc gives]
  rfl

/-- Settles O45: each command by what it gives once the request is accepted. -/
theorem managementRegisters : Obligations.ManagementRegisters := by
  unfold Obligations.ManagementRegisters
  intro t sg s a acc
  exact ⟨readErrors_runs acc, fun addr count => readReg_reads acc, fun addr count => readReg_bad acc,
    fun addr m off v old => writeReg_writes acc, writeReg_mgCounter acc⟩

end Sys2Proof.Claims
end
